-- ==== Sys2Proof/Word.lean ====
section
/-!
DEFINITION. The word types of the KZ9 (R4, R9, R15, R24, R32, R33) and the one finite-map type its sparse state is held in.
-/
namespace Sys2Proof

/-- 64-bit registers, addresses while they are computed, times (R9, R32). -/
abbrev Word := BitVec 64
/-- A byte of memory. -/
abbrev Byte := BitVec 8
/-- A 128-byte line's data (R36), byte j in bits [8j+7:8j]. -/
abbrev LineData := BitVec 1024
/-- One bit per byte of a line. -/
abbrev LineMask := BitVec 128
/-- A vector register: lane l in bits [32l+31:32l] (R23). -/
abbrev Vec := BitVec 1024

/-- A finite map from numbers: the first entry for a key gives its value, and a key with no entry reads as the
default that the reader names. -/
abbrev Map (V : Type) := List (Nat × V)

/-- The three scalar cores of a core, in the coding of SR.KIND (R12). -/
inductive Kind where
  | control
  | loader
  | storer
  deriving DecidableEq, Repr

/-- SR.KIND's code (R12). -/
def Kind.code : Kind → Nat
  | .control => 0
  | .loader => 1
  | .storer => 2

/-- The kind of a code; 0b11 does not occur (R12) and reads as the storer. -/
def Kind.ofCode : Nat → Kind
  | 0 => .control
  | 1 => .loader
  | _ => .storer

end Sys2Proof
end

