-- ==== Sys2Proof/Machine/Maps.lean ====
section
/-!
DEFINITION. Reading and writing the finite maps of the state, and lists used as sets and queues.
-/
namespace Sys2Proof.Machine

open Sys2Proof

/-- The value at key k, or the default. -/
def Map.get {V : Type} (m : Map V) (dflt : V) (k : Nat) : V :=
  match m with
  | [] => dflt
  | (a, v) :: r => if a = k then v else Map.get r dflt k

/-- The value at key k, if any. -/
def Map.find {V : Type} (m : Map V) (k : Nat) : Option V :=
  match m with
  | [] => none
  | (a, v) :: r => if a = k then some v else Map.find r k

/-- Writes the value at key k, keeping rising keys rising. -/
def Map.put {V : Type} (m : Map V) (k : Nat) (v : V) : Map V :=
  match m with
  | [] => [(k, v)]
  | (a, x) :: r => if a = k then (k, v) :: r else if k < a then (k, v) :: (a, x) :: r else (a, x) :: Map.put r k v

/-- Removes every entry of key k. -/
def Map.del {V : Type} (m : Map V) (k : Nat) : Map V :=
  match m with
  | [] => []
  | (a, x) :: r => if a = k then Map.del r k else (a, x) :: Map.del r k

/-- Writes the value at key k in canonical form: a value equal to the default leaves no entry. -/
def Map.set {V : Type} [DecidableEq V] (m : Map V) (dflt : V) (k : Nat) (v : V) : Map V :=
  if v = dflt then Map.del m k else Map.put (Map.del m k) k v

/-- Keys strictly rising. -/
def Map.rising {V : Type} (m : Map V) : Bool :=
  match m with
  | [] => true
  | (a, _) :: r => (match r with | [] => true | (b, _) :: _ => decide (a < b)) && Map.rising r

/-- The canonical form: keys strictly rising and no entry equal to the default. -/
def Map.canonical {V : Type} [DecidableEq V] (m : Map V) (dflt : V) : Bool :=
  Map.rising m && m.all fun e => decide (e.2 ≠ dflt)

/-- Element n of a list, if any. -/
def nth {α : Type} (l : List α) (n : Nat) : Option α :=
  match l, n with
  | [], _ => none
  | x :: _, 0 => some x
  | _ :: r, n + 1 => nth r n

/-- The list without its element n. -/
def dropNth {α : Type} (l : List α) (n : Nat) : List α :=
  match l, n with
  | [], _ => []
  | _ :: r, 0 => r
  | x :: r, n + 1 => x :: dropNth r n

/-- The list with element n replaced. -/
def setNth {α : Type} (l : List α) (n : Nat) (y : α) : List α :=
  match l, n with
  | [], _ => []
  | _ :: r, 0 => y :: r
  | x :: r, n + 1 => x :: setNth r n y

/-- The first n elements. -/
def firstN {α : Type} (l : List α) (n : Nat) : List α :=
  match l, n with
  | [], _ => []
  | _, 0 => []
  | x :: r, n + 1 => x :: firstN r n

/-- Whether some element satisfies p. -/
def anyOf {α : Type} (l : List α) (p : α → Bool) : Bool :=
  match l with
  | [] => false
  | x :: r => p x || anyOf r p

/-- Whether every element satisfies p. -/
def allOf {α : Type} (l : List α) (p : α → Bool) : Bool :=
  match l with
  | [] => true
  | x :: r => p x && allOf r p

/-- The elements that satisfy p. -/
def keep {α : Type} (l : List α) (p : α → Bool) : List α :=
  match l with
  | [] => []
  | x :: r => if p x then x :: keep r p else keep r p

/-- The position of the first element that satisfies p. -/
def indexOf {α : Type} (l : List α) (p : α → Bool) : Option Nat :=
  match l with
  | [] => none
  | x :: r => if p x then some 0 else (indexOf r p).map (· + 1)

/-- The first element that satisfies p. -/
def firstOf {α : Type} (l : List α) (p : α → Bool) : Option α :=
  match l with
  | [] => none
  | x :: r => if p x then some x else firstOf r p

/-- The numbers 0 to n - 1 from a start, rising. -/
def range (start n : Nat) : List Nat :=
  match n with
  | 0 => []
  | n + 1 => start :: range (start + 1) n

/-- The numbers below n, from a start on and around. -/
def around (n start : Nat) : List Nat := (range 0 n).map fun i => (start + i) % n

/-- The list in the order that a number names: 0 keeps it, and every order has a number below k factorial (log 25, DESIGN CHOICE). -/
def arranged {α : Type} (c k : Nat) (l : List α) : List α :=
  match k with
  | 0 => l
  | k + 1 =>
    match nth l (c % l.length) with
    | some x => x :: arranged (c / l.length) k (dropNth l (c % l.length))
    | none => l

/-- Applies a state change for each element in list order. -/
def each {α σ : Type} (l : List α) (f : α → σ → σ) (s : σ) : σ :=
  match l with
  | [] => s
  | x :: r => each r f (f x s)

/-- A set of numbers as a rising list: adding one. -/
def insertNat (l : List Nat) (n : Nat) : List Nat :=
  match l with
  | [] => [n]
  | a :: r => if a = n then a :: r else if n < a then n :: a :: r else a :: insertNat r n

/-- Whether a number is in a list. -/
def hasNat (l : List Nat) (n : Nat) : Bool := anyOf l (· == n)

/-- A list without a number. -/
def eraseNat (l : List Nat) (n : Nat) : List Nat := keep l (· != n)

/-- The number of set bits of the lowest n bits of x. -/
def popcount (x n : Nat) : Nat :=
  match n with
  | 0 => 0
  | n + 1 => (if x.testBit n then 1 else 0) + popcount x n

/-- The set bits of the lowest n bits of x, rising. -/
def bitsOf (x : Nat) (n : Nat) : List Nat := keep (range 0 n) fun i => x.testBit i

/-- Bits [hi:lo] of a number. -/
def bits (x hi lo : Nat) : Nat := (x >>> lo) % 2 ^ (hi + 1 - lo)

/-- x[n-1:0] sign-extended to 64 bits (R34). -/
def sext (x : Word) (n : Nat) : Word := (x.setWidth n).signExtend 64

/-- x[n-1:0] zero-extended to 64 bits (R34). -/
def zext (x : Word) (n : Nat) : Word := (x.setWidth n).setWidth 64

/-- The exact integer x clamped to a signed type of n bits (R34, R211). -/
def satInt (x : Int) (n : Nat) : Int :=
  let hi : Int := 2 ^ (n - 1) - 1
  let lo : Int := -(2 ^ (n - 1))
  if x < lo then lo else if hi < x then hi else x

/-- The exact integer x clamped to an unsigned type of n bits (R34, R211). -/
def satNat (x : Int) (n : Nat) : Int :=
  let hi : Int := 2 ^ n - 1
  if x < 0 then 0 else if hi < x then hi else x

/-- n bytes of a little-endian number from byte lists (R109): the first byte is least significant. -/
def ofBytes (l : List Byte) : Nat :=
  match l with
  | [] => 0
  | b :: r => b.toNat + 256 * ofBytes r

/-- The n low bytes of a number, least significant first. -/
def toBytes (x n : Nat) : List Byte :=
  match n with
  | 0 => []
  | n + 1 => BitVec.ofNat 8 x :: toBytes (x / 256) n

end Sys2Proof.Machine
end

