-- ==== Sys2Proof/Machine/Num.lean ====
section
/-!
DEFINITION. Numbers to the last bit (R206 to R218): the formats, rounding in the five modes (R34, R213, R214), floating arithmetic
on exact values (R207), conversions (R213), and the stochastic-rounding register (R23, R34).
-/
namespace Sys2Proof.Machine

open Sys2Proof

/-! ## Formats -/

/-- A floating format: exponent and mantissa widths, bias, whether it has infinities, and its largest finite code without sign
(R206, R208, R209). -/
structure Fmt where
  eb : Nat
  mb : Nat
  bias : Nat
  ieee : Bool
  maxc : Nat
  deriving DecidableEq, Repr

/-- FP32 (R206). -/
def fmtF32 : Fmt := ⟨8, 23, 127, true, 0x7F7FFFFF⟩
/-- FP16 (R206). -/
def fmtF16 : Fmt := ⟨5, 10, 15, true, 0x7BFF⟩
/-- BF16 (R206). -/
def fmtBf16 : Fmt := ⟨8, 7, 127, true, 0x7F7F⟩
/-- E4M3 (R208). -/
def fmtE4m3 : Fmt := ⟨4, 3, 7, false, 0x7E⟩
/-- E2M1 (R209). -/
def fmtE2m1 : Fmt := ⟨2, 1, 1, false, 0x7⟩

/-- The format of a TY code 3 to 7 (R25). -/
def fmtOf (ty : Nat) : Fmt :=
  match ty with
  | 3 => fmtF32
  | 4 => fmtF16
  | 5 => fmtBf16
  | 6 => fmtE4m3
  | _ => fmtE2m1

/-- TY codes 0 to 2 are integers (R25). -/
def isInt (ty : Nat) : Bool := ty < 3

/-- Bits of a value of a TY code (R212). -/
def widthOf (ty : Nat) : Nat :=
  match ty with
  | 2 => 64
  | 4 => 16
  | 5 => 16
  | 6 => 8
  | 7 => 4
  | _ => 32

/-- The canonical NaN of a format (R206, R208); e2m1 has none and takes +0 in conversions (R213). -/
def Fmt.nan (f : Fmt) : Nat :=
  if f.ieee then (2 ^ f.eb - 1) * 2 ^ f.mb + 2 ^ (f.mb - 1) else if f.eb = 4 then 0x7F else 0

/-- Infinity of an IEEE format, without sign. -/
def Fmt.inf (f : Fmt) : Nat := (2 ^ f.eb - 1) * 2 ^ f.mb

/-- The sign bit's weight. -/
def Fmt.signBit (f : Fmt) : Nat := 2 ^ (f.eb + f.mb)

/-- A decoded value: NaN, an infinity, or ± m × 2^e exactly. -/
inductive FVal where
  | nan
  | inf (neg : Bool)
  | fin (neg : Bool) (m : Nat) (e : Int)
  deriving DecidableEq, Repr

/-- Reads a code of a format (R206, R208, R209). -/
def Fmt.read (f : Fmt) (code : Nat) : FVal :=
  let neg := code.testBit (f.eb + f.mb)
  let ex := bits code (f.eb + f.mb - 1) f.mb
  let m := code % 2 ^ f.mb
  if f.ieee && ex == 2 ^ f.eb - 1 then (if m = 0 then .inf neg else .nan)
  else if f.eb = 4 && ex == 15 && m == 7 then .nan
  else if ex = 0 then .fin neg m (1 - (f.bias : Int) - f.mb)
  else .fin neg (2 ^ f.mb + m) ((ex : Int) - f.bias - f.mb)

/-- The E3M5 block scale (R210). -/
def readE3m5 (b : Nat) : FVal :=
  let ex := bits b 7 5
  let m := b % 32
  if ex = 0 then .fin false m (-7) else .fin false (32 + m) ((ex : Int) - 8)

/-- An integer as an exact value. -/
def FVal.ofInt (x : Int) : FVal := .fin (x < 0) x.natAbs 0

/-! ## Rounding -/

/-- m × 2^e in units of 2^q, rounded to a whole number under rm (R34): 0 RNE, 1 RZ, 2 RU, 3 RD, 4 SR with its take. -/
def roundUnits (rm take : Nat) (neg : Bool) (m : Nat) (e q : Int) : Nat :=
  if q ≤ e then m * 2 ^ (e - q).toNat
  else
    let k := (q - e).toNat
    let w := m / 2 ^ k
    let r := m % 2 ^ k
    match rm with
    | 0 => if 2 ^ k < 2 * r ∨ (2 * r = 2 ^ k ∧ w % 2 = 1) then w + 1 else w
    | 2 => if r ≠ 0 ∧ neg = false then w + 1 else w
    | 3 => if r ≠ 0 ∧ neg = true then w + 1 else w
    | 4 => (m * 2 ^ 16 + take * 2 ^ k) / 2 ^ (k + 16)
    | _ => w

/-- The exponent of the spacing of a format at m × 2^e (R213, R214): the binade's, or the subnormal one. -/
def Fmt.unit (f : Fmt) (m : Nat) (e : Int) : Int :=
  let low : Int := 1 - (f.bias : Int) - f.mb
  let top : Int := (Nat.log2 m : Int) + e - f.mb
  if top < low then low else top

/-- The code without sign of w units of 2^q in extended range: above the largest finite value further binades continue (R213). -/
def Fmt.code (f : Fmt) (w : Nat) (q : Int) : Nat :=
  if w < 2 ^ f.mb then w
  else
    let w' := if w = 2 ^ (f.mb + 1) then 2 ^ f.mb else w
    let q' := if w = 2 ^ (f.mb + 1) then q + 1 else q
    ((q' + f.bias + f.mb).toNat) * 2 ^ f.mb + (w' - 2 ^ f.mb)

/-- r of R213 for a finite value: its code without sign in extended range. -/
def Fmt.extended (f : Fmt) (rm take : Nat) (neg : Bool) (m : Nat) (e : Int) : Nat :=
  if m = 0 then 0
  else
    let q := f.unit m e
    f.code (roundUnits rm take neg m e q) q

/-- The signed code. -/
def Fmt.signed (f : Fmt) (neg : Bool) (c : Nat) : Nat := if neg then c + f.signBit else c

/-- Whether an overflow goes to infinity under rm (R34). -/
def toInfinity (rm : Nat) (neg : Bool) : Bool :=
  match rm with
  | 0 => true
  | 2 => !neg
  | 3 => neg
  | 4 => true
  | _ => false

/-- rnd(x, ty, rm) of R34: an exact value as a code of the format; overflow goes to infinity or to the largest finite value. -/
def Fmt.rnd (f : Fmt) (rm take : Nat) (x : FVal) : Nat :=
  match x with
  | .nan => f.nan
  | .inf neg => f.signed neg (if f.ieee then f.inf else f.maxc)
  | .fin neg m e =>
    let c := f.extended rm take neg m e
    if f.maxc < c then f.signed neg (if f.ieee && toInfinity rm neg then f.inf else f.maxc) else f.signed neg c

/-- The conversion of R213 to a floating format, with its overflow. -/
def Fmt.conv (f : Fmt) (rm take : Nat) (x : FVal) : Nat × Bool :=
  match x with
  | .nan => if f.eb = 2 then (0, true) else (f.nan, false)
  | .inf neg => if f.ieee then (f.signed neg f.inf, false) else (f.signed neg f.maxc, true)
  | .fin neg m e =>
    let c := f.extended rm take neg m e
    if f.maxc < c then (f.signed neg f.maxc, true) else (f.signed neg c, false)

/-! ## Exact arithmetic (R207) -/

/-- ± m × 2^e with e brought down to q, as an integer of units 2^q. -/
def unitsAt (neg : Bool) (m : Nat) (e q : Int) : Int :=
  let n : Int := m * 2 ^ (e - q).toNat
  if neg then -n else n

/-- Exact sum: an exact zero sum of operands of opposite sign is +0, and −0 under RD; two −0 give −0 (R207). -/
def FVal.add (rm : Nat) (x y : FVal) : FVal :=
  match x, y with
  | .nan, _ => .nan
  | _, .nan => .nan
  | .inf a, .inf b => if a = b then .inf a else .nan
  | .inf a, _ => .inf a
  | _, .inf b => .inf b
  | .fin na ma ea, .fin nb mb eb =>
    let q := if ea ≤ eb then ea else eb
    let s := unitsAt na ma ea q + unitsAt nb mb eb q
    if s = 0 then .fin (if ma = 0 ∧ mb = 0 ∧ na = nb then na else rm == 3) 0 q
    else .fin (s < 0) s.natAbs q

/-- The value with its sign inverted. -/
def FVal.neg (x : FVal) : FVal :=
  match x with
  | .nan => .nan
  | .inf a => .inf (!a)
  | .fin a m e => .fin (!a) m e

/-- Exact product: the sign is the exclusive OR of the signs; ∞ × 0 is NaN. -/
def FVal.mul (x y : FVal) : FVal :=
  match x, y with
  | .nan, _ => .nan
  | _, .nan => .nan
  | .inf a, .inf b => .inf (a != b)
  | .inf a, .fin b m _ => if m = 0 then .nan else .inf (a != b)
  | .fin a m _, .inf b => if m = 0 then .nan else .inf (a != b)
  | .fin a m e, .fin b n f => .fin (a != b) (m * n) (e + f)

/-- x < y for values that are not NaN, with +0 = −0. -/
def FVal.lt (x y : FVal) : Bool :=
  match x, y with
  | .nan, _ => false
  | _, .nan => false
  | .inf a, .inf b => a && !b
  | .inf a, _ => a
  | _, .inf b => !b
  | .fin na ma ea, .fin nb mb eb =>
    let q := if ea ≤ eb then ea else eb
    unitsAt na ma ea q < unitsAt nb mb eb q

/-- x = y for values that are not NaN, with +0 = −0. -/
def FVal.eq (x y : FVal) : Bool :=
  match x, y with
  | .nan, _ => false
  | _, .nan => false
  | a, b => !(FVal.lt a b) && !(FVal.lt b a)

/-- Whether the value carries a minus sign. -/
def FVal.isNeg (x : FVal) : Bool :=
  match x with
  | .nan => false
  | .inf a => a
  | .fin a _ _ => a

/-- IEEE minimum of two codes: a NaN gives the canonical NaN, and −0 is below +0 (R207). -/
def Fmt.min (f : Fmt) (a b : Nat) : Nat :=
  match f.read a, f.read b with
  | .nan, _ => f.nan
  | _, .nan => f.nan
  | x, y => if x.lt y || (x.eq y && x.isNeg) then a else b

/-- IEEE maximum of two codes (R207). -/
def Fmt.max (f : Fmt) (a b : Nat) : Nat :=
  match f.read a, f.read b with
  | .nan, _ => f.nan
  | _, .nan => f.nan
  | x, y => if y.lt x || (x.eq y && y.isNeg) then a else b

/-- A sum rounded once. -/
def Fmt.add (f : Fmt) (rm take a b : Nat) : Nat := f.rnd rm take (FVal.add rm (f.read a) (f.read b))
/-- A difference rounded once. -/
def Fmt.sub (f : Fmt) (rm take a b : Nat) : Nat := f.rnd rm take (FVal.add rm (f.read a) (f.read b).neg)
/-- A product rounded once. -/
def Fmt.mul (f : Fmt) (rm take a b : Nat) : Nat := f.rnd rm take (FVal.mul (f.read a) (f.read b))
/-- a × b + c rounded once (R207). -/
def Fmt.fma (f : Fmt) (rm take a b c : Nat) : Nat := f.rnd rm take (FVal.add rm (FVal.mul (f.read a) (f.read b)) (f.read c))

/-! ## Typed values (R211, R212) -/

/-- The bits a TY code reads of a 64-bit value (R212). -/
def readTy (ty : Nat) (x : Nat) : Nat := x % 2 ^ widthOf ty

/-- A 64-bit VALUE holding a result of a TY code (R212): i32 is sign-extended, every other type zero-extended. -/
def writeTy (ty : Nat) (c : Nat) : Word :=
  if ty = 0 then (BitVec.ofNat 32 c).signExtend 64 else BitVec.ofNat 64 (c % 2 ^ widthOf ty)

/-- An integer type's value from its bits: i32 and i64 signed, n32 unsigned (R211). -/
def intOf (ty : Nat) (c : Nat) : Int :=
  match ty with
  | 0 => (BitVec.ofNat 32 c).toInt
  | 1 => ((BitVec.ofNat 32 c).toNat : Int)
  | _ => (BitVec.ofNat 64 c).toInt

/-- The bits of an integer in a TY code's width, wrapping (R211). -/
def wrapInt (ty : Nat) (x : Int) : Nat := (x % (2 ^ widthOf ty : Int)).toNat

/-- An integer clamped to a TY code's range (R211). -/
def satTy (ty : Nat) (x : Int) : Int :=
  match ty with
  | 0 => satInt x 32
  | 1 => satNat x 32
  | _ => satInt x 64

/-- The exact value of a typed code. -/
def valueOf (ty : Nat) (c : Nat) : FVal := if isInt ty then FVal.ofInt (intOf ty c) else (fmtOf ty).read c

/-- A value rounded to an integer under rm; SR takes the spacing 1 (R213, R214). -/
def roundInt (rm take : Nat) (neg : Bool) (m : Nat) (e : Int) : Int :=
  let w : Int := roundUnits rm take neg m e 0
  if neg then -w else w

/-- The conversion of R213 from a source TY code to a target TY code: the target's bits and the overflow. -/
def convert (src dst : Nat) (rm take : Nat) (c : Nat) : Nat × Bool :=
  if isInt dst then
    if isInt src then
      let x := intOf src c
      (wrapInt dst (satTy dst x), decide (satTy dst x ≠ x))
    else
      match (fmtOf src).read c with
      | .nan => (0, true)
      | .inf neg => (wrapInt dst (satTy dst (if neg then -(2 ^ 70) else 2 ^ 70)), true)
      | .fin neg m e =>
        let r := roundInt rm take neg m e
        (wrapInt dst (satTy dst r), decide (satTy dst r ≠ r))
  else (fmtOf dst).conv rm take (valueOf src c)

/-- An immediate operand in its slot's type (R26): sign-extended for i32 and i64, zero-extended for n32, converted for floats. -/
def immOperand (ty : Nat) (imm : BitVec 10) : Nat :=
  match ty with
  | 1 => imm.toNat
  | 0 => wrapInt 0 imm.toInt
  | 2 => wrapInt 2 imm.toInt
  | _ =>
    let f := fmtOf ty
    if f.ieee then f.rnd 0 0 (FVal.ofInt imm.toInt) else (f.conv 0 0 (FVal.ofInt imm.toInt)).1

/-! ## The stochastic-rounding register -/

/-- One step of the LFSR (R34). -/
def lfsrStep (s : BitVec 16) : BitVec 16 :=
  let b := (s.getLsbD 15 != s.getLsbD 13) != (s.getLsbD 12 != s.getLsbD 10)
  s.extractLsb' 0 15 ++ BitVec.ofBool b

/-- n steps of the LFSR. -/
def lfsrSteps (n : Nat) (s : BitVec 16) : BitVec 16 :=
  match n with
  | 0 => s
  | n + 1 => lfsrSteps n (lfsrStep s)

/-- The state after lfsr_take() (R34): 16 steps. The take is the state before. -/
def lfsrNext (s : BitVec 16) : BitVec 16 := lfsrSteps 16 s

/-- n takes in order, lane 0 first, and the state after them (R34, R214). -/
def lfsrTakes (n : Nat) (s : BitVec 16) : List Nat × BitVec 16 :=
  match n with
  | 0 => ([], s)
  | n + 1 =>
    let r := lfsrTakes n (lfsrNext s)
    (s.toNat :: r.1, r.2)

/-- The LFSR loaded from k7: a value of 0 loads 0x0001 (R23). -/
def lfsrLoad (k7 : Word) : BitVec 16 := if k7.extractLsb' 0 16 = 0 then 1 else k7.extractLsb' 0 16

/-! ## Lane reduction and block sums -/

/-- One level of the tree of R218 over values that begin at positions lo, lo + w, lo + 2w, … -/
def redLevel (op : Nat → Nat → Nat → Nat) (w : Nat) (lo : Nat) (l : List Nat) : List Nat :=
  match l with
  | a :: b :: r => op (lo + w) a b :: redLevel op w (lo + 2 * w) r
  | r => r

/-- The whole tree: n levels; op takes the position m at which the right subtree begins (R218). -/
def redTree (op : Nat → Nat → Nat → Nat) (n w : Nat) (l : List Nat) : Nat :=
  match n with
  | 0 => match l with | x :: _ => x | [] => 0
  | n + 1 => redTree op n (2 * w) (redLevel op w 0 l)

/-- The exact sum of products, from the first product on (R215). -/
def sumProducts (l : List (FVal × FVal)) : FVal :=
  match l with
  | [] => .fin false 0 0
  | [(a, b)] => FVal.mul a b
  | (a, b) :: r => FVal.add 0 (FVal.mul a b) (sumProducts r)

/-- The exact integer sum of products (R215). -/
def sumInts (l : List (Int × Int)) : Int :=
  match l with
  | [] => 0
  | (a, b) :: r => a * b + sumInts r

/-- Twice the value of an e2m1 code, a whole number (R209). -/
def e2m1Twice (c : Nat) : Int :=
  let m : Int := match c % 8 with
    | 0 => 0 | 1 => 1 | 2 => 2 | 3 => 3 | 4 => 4 | 5 => 6 | 6 => 8 | _ => 12
  if c.testBit 3 then -m else m

end Sys2Proof.Machine
end

