-- ==== Sys2Proof/Config.lean ====
section
/-!
DEFINITION. What is fixed for the KZ9-864A (R2, R35, R42, R154) and the values the spec leaves open, as constants with no body.
-/
namespace Sys2Proof.Config

open Sys2Proof

/-- Cores of the module (R2): positions 0 to 575. -/
def cores : Nat := 576
/-- Compute dies (R2). -/
def dies : Nat := 9
/-- Slices of a die (R42). -/
def slices : Nat := 21
/-- Bytes of a stack's DRAM (R35). -/
def stackBytes : Nat := 0x1800000000
/-- Bytes of one channel (R37). -/
def channelBytes : Nat := 0x60000000
/-- Bytes of all DRAM (R35). -/
def dramBytes : Nat := 0xD800000000
/-- Bytes of the control core's instruction store, and of the loader's and the storer's (R154). -/
def storeBytes : Kind → Nat
  | .control => 0x10000
  | .loader => 0x4000
  | .storer => 0x4000
/-- The word of every unfilled place of an instruction store (R154). -/
def emptyWord : BitVec 32 := 0xFC000000
/-- What a byte of memory reads as that nothing has written (log 2). -/
def emptyByte : Byte := 0

/-- Lines of an L1 (R2): 768 KiB. -/
def l1Lines : Nat := 6144
/-- Lines of slice i of a die (R2, R42): 16 MiB at a leaf switch, 32 MiB at a level-2 switch, 128 MiB at the die root. -/
def sliceLines (i : Nat) : Nat := if i < 16 then 131072 else if i < 20 then 262144 else 1048576
/-- Entries of a core's TLB, and of the TLB that the four cores of a leaf switch share (R67). -/
def tlbEntries : Nat := 512
def leafTlbEntries : Nat := 8192

/-- A value the spec leaves open, fresh for each number (log 12): the phase recovered when no x of R96 exists. -/
opaque freeWord : Nat → Word

/-- How many more batches a progress link takes while one is under way on it (R316, R318): the spec names the credit, not its size (log 90). -/
opaque linkCredit : Nat

/-- The device identity certificate (R380): its contents are not in the spec. -/
opaque certificate : List Word
/-- The contents of Zusil's ROM (R379), which the spec does not give. -/
opaque rom : List Word
/-- The SHA-384 digest of a measured item (R380). -/
opaque digest : List Word → BitVec 384
/-- The ECDSA P-384 signature of the identity key over a response (R380): the key never leaves Zusil. -/
opaque signature : List Word → BitVec 768
/-- The check word of a context-area section (R347): how it is computed belongs to the KZ9 alone. -/
opaque checkWord : List Word → Word

end Sys2Proof.Config
end

