-- ==== Sys2Proof/Syntax.lean ====
section
/-!
DEFINITION. The steps of the KZ9: one constructor for each row of spec/opcode_table.json. The scalar rows carry the
operand fields of R15 to R21, the element rows the fields of R24, and the event rows the part of the machine the event happens at
(they have no encoding: what happens inside them is listed in spec/95).
-/
namespace Sys2Proof

/-- The fields of an element word other than OP (R24). -/
structure EW where
  ty : BitVec 3
  sa : BitVec 3
  sb : BitVec 3
  ai : BitVec 3
  bi : BitVec 3
  t0 : BitVec 13
  t1 : BitVec 13
  tg : BitVec 4
  imm : BitVec 10
  deriving DecidableEq, Repr

/-- What a probe of the debugger or Zusil asks of a core's interface (R98, R382, R10): registers and instruction stores are
read and written while the scalar core is halted, and MB0 is written at any time (R370). -/
inductive ProbeOp where
  | readG (k : Kind) (r : BitVec 5)
  | writeG (k : Kind) (r : BitVec 5) (x : Word)
  | readT (k : Kind) (r : BitVec 3)
  | writeT (k : Kind) (r : BitVec 3) (x : Word)
  | readSys (k : Kind) (sys : BitVec 10)
  | writeSys (k : Kind) (sys : BitVec 10) (x : Word)
  | writeLoop (k : Kind) (which : BitVec 2) (x : Word)
  /-- SLPS, or SLPE (R157). -/
  | readShadow (k : Kind) (end_ : Bool)
  | writeShadow (k : Kind) (end_ : Bool) (x : Word)
  | readPc (k : Kind)
  | writePc (k : Kind) (x : Word)
  | readStore (k : Kind) (addr : Nat)
  | writeStore (k : Kind) (addr : Nat) (w : BitVec 32)
  | writeMb0 (x : Word)
  deriving DecidableEq, Repr

/-- What Zusil finds at power-on (R379): the firmware image, whether its LMS signature verifies, its version, whether the
links trained and the memories tested good, the fuse map (core number x 8 + row, failed column), and from the board the module's chip id and the
chip route table (destination chip, port; R375). -/
structure BootInput where
  image : List Word
  sigOk : Bool
  version : Nat
  linksOk : Bool
  memOk : Bool
  fuses : List (Nat × Nat)
  chip : Nat
  routes : List (Nat × Nat)
  deriving DecidableEq, Repr

/-- One constructor for each row of the table of operations and events. -/
inductive Instr where
  /-- R163: Writes the 64-bit wrapping sum of g[a] and g[b] to g[d] -/
  | add (d : BitVec 5) (a : BitVec 5) (b : BitVec 5)
  /-- R163: Writes the 64-bit wrapping difference g[a] − g[b] to g[d] -/
  | sub (d : BitVec 5) (a : BitVec 5) (b : BitVec 5)
  /-- R163: Writes the bitwise AND of g[a] and g[b] to g[d] -/
  | and (d : BitVec 5) (a : BitVec 5) (b : BitVec 5)
  /-- R163: Writes the bitwise OR of g[a] and g[b] to g[d] -/
  | or (d : BitVec 5) (a : BitVec 5) (b : BitVec 5)
  /-- R163: Writes the bitwise XOR of g[a] and g[b] to g[d] -/
  | xor (d : BitVec 5) (a : BitVec 5) (b : BitVec 5)
  /-- R163: Shifts g[a] left by g[b][5:0], shifting in zeros -/
  | sll (d : BitVec 5) (a : BitVec 5) (b : BitVec 5)
  /-- R163: Shifts g[a] right by g[b][5:0], shifting in zeros -/
  | srl (d : BitVec 5) (a : BitVec 5) (b : BitVec 5)
  /-- R163: Shifts g[a] right by g[b][5:0], shifting in copies of bit 63 -/
  | sra (d : BitVec 5) (a : BitVec 5) (b : BitVec 5)
  /-- R163: Writes the low 64 bits of g[a] × g[b] to g[d] -/
  | mul (d : BitVec 5) (a : BitVec 5) (b : BitVec 5)
  /-- R163: Writes the high 64 bits of the signed product of g[a] and g[b] -/
  | mulh (d : BitVec 5) (a : BitVec 5) (b : BitVec 5)
  /-- R163: Writes the high 64 bits of the unsigned product of g[a] and g[b] -/
  | mulhn (d : BitVec 5) (a : BitVec 5) (b : BitVec 5)
  /-- R164: Signed division truncated toward zero, with fixed results for a zero divisor and for overflow -/
  | div (d : BitVec 5) (a : BitVec 5) (b : BitVec 5)
  /-- R164: Unsigned division, truncated; a zero divisor gives all ones -/
  | divn (d : BitVec 5) (a : BitVec 5) (b : BitVec 5)
  /-- R164: Signed remainder, taking the sign of the dividend, with fixed border results -/
  | rem (d : BitVec 5) (a : BitVec 5) (b : BitVec 5)
  /-- R164: Unsigned remainder; a zero divisor gives g[a] -/
  | remn (d : BitVec 5) (a : BitVec 5) (b : BitVec 5)
  /-- R163: Writes the signed minimum of g[a] and g[b] -/
  | min (d : BitVec 5) (a : BitVec 5) (b : BitVec 5)
  /-- R163: Writes the signed maximum of g[a] and g[b] -/
  | max (d : BitVec 5) (a : BitVec 5) (b : BitVec 5)
  /-- R163: Writes the unsigned minimum of g[a] and g[b] -/
  | minn (d : BitVec 5) (a : BitVec 5) (b : BitVec 5)
  /-- R163: Writes the unsigned maximum of g[a] and g[b] -/
  | maxn (d : BitVec 5) (a : BitVec 5) (b : BitVec 5)
  /-- R163: Counts the leading zero bits of g[a] -/
  | clz (d : BitVec 5) (a : BitVec 5)
  /-- R163: Counts the set bits of g[a] -/
  | popc (d : BitVec 5) (a : BitVec 5)
  /-- R163: Sign-extends g[a][7:0] into g[d] -/
  | sext8 (d : BitVec 5) (a : BitVec 5)
  /-- R163: Sign-extends g[a][15:0] into g[d] -/
  | sext16 (d : BitVec 5) (a : BitVec 5)
  /-- R163: Sign-extends g[a][31:0] into g[d] -/
  | sext32 (d : BitVec 5) (a : BitVec 5)
  /-- R163: Zero-extends g[a][7:0] into g[d] -/
  | zext8 (d : BitVec 5) (a : BitVec 5)
  /-- R163: Zero-extends g[a][15:0] into g[d] -/
  | zext16 (d : BitVec 5) (a : BitVec 5)
  /-- R163: Zero-extends g[a][31:0] into g[d] -/
  | zext32 (d : BitVec 5) (a : BitVec 5)
  /-- R163: Writes 1 when g[a] < g[b] as signed numbers, and 0 otherwise -/
  | slt (d : BitVec 5) (a : BitVec 5) (b : BitVec 5)
  /-- R163: Writes 1 when g[a] < g[b] as unsigned numbers, and 0 otherwise -/
  | sltn (d : BitVec 5) (a : BitVec 5) (b : BitVec 5)
  /-- R167: Jumps to the address in g[a]; a target outside the store or misaligned raises the instruction-address fault -/
  | jr (a : BitVec 5)
  /-- R167: Jumps to g[a] and writes pc + 4 to g[d] -/
  | jalr (d : BitVec 5) (a : BitVec 5)
  /-- R165: Adds the sign-extended imm16 to g[a] -/
  | addi (d : BitVec 5) (a : BitVec 5) (imm : BitVec 16)
  /-- R165: ANDs g[a] with the zero-extended imm16 -/
  | andi (d : BitVec 5) (a : BitVec 5) (imm : BitVec 16)
  /-- R165: ORs g[a] with the zero-extended imm16 -/
  | ori (d : BitVec 5) (a : BitVec 5) (imm : BitVec 16)
  /-- R165: XORs g[a] with the zero-extended imm16 -/
  | xori (d : BitVec 5) (a : BitVec 5) (imm : BitVec 16)
  /-- R165: Shifts g[a] left by imm16[5:0] -/
  | slli (d : BitVec 5) (a : BitVec 5) (imm : BitVec 6)
  /-- R165: Shifts g[a] right by imm16[5:0], shifting in zeros -/
  | srli (d : BitVec 5) (a : BitVec 5) (imm : BitVec 6)
  /-- R165: Shifts g[a] right arithmetically by imm16[5:0] -/
  | srai (d : BitVec 5) (a : BitVec 5) (imm : BitVec 6)
  /-- R165: Writes 1 when g[a] is less than the sign-extended imm16, as signed numbers -/
  | slti (d : BitVec 5) (a : BitVec 5) (imm : BitVec 16)
  /-- R165: Writes sext(imm16 ‖ 0x0000, 32) to g[d] -/
  | lui (d : BitVec 5) (imm : BitVec 16)
  /-- R166: Branches by off16 words when g[a] = g[b] -/
  | beq (a : BitVec 5) (b : BitVec 5) (off : BitVec 16)
  /-- R166: Branches when g[a] ≠ g[b] -/
  | bne (a : BitVec 5) (b : BitVec 5) (off : BitVec 16)
  /-- R166: Branches when g[a] < g[b] as signed numbers -/
  | blt (a : BitVec 5) (b : BitVec 5) (off : BitVec 16)
  /-- R166: Branches when g[a] ≥ g[b] as signed numbers -/
  | bge (a : BitVec 5) (b : BitVec 5) (off : BitVec 16)
  /-- R166: Branches when g[a] < g[b] as unsigned numbers -/
  | bltn (a : BitVec 5) (b : BitVec 5) (off : BitVec 16)
  /-- R166: Branches when g[a] ≥ g[b] as unsigned numbers -/
  | bgen (a : BitVec 5) (b : BitVec 5) (off : BitVec 16)
  /-- R167: Jumps by off26 words -/
  | j (off : BitVec 26)
  /-- R167: Jumps by off26 words and writes pc + 4 to g31 -/
  | jal (off : BitVec 26)
  /-- R157: Sets up a hardware loop: LPS, LPE and their shadows, and LPC from g[a] -/
  | loop (a : BitVec 5) (imm : BitVec 15)
  /-- R157: Enters a hardware loop from the shadow pair SLPS and SLPE, with the count from g[a] -/
  | loopS (a : BitVec 5)
  /-- R109: Loads a byte and sign-extends it, routed by the window of the page -/
  | ldI8 (d : BitVec 5) (a : BitVec 5) (imm : BitVec 16)
  /-- R109: Loads 2 bytes and sign-extends them -/
  | ldI16 (d : BitVec 5) (a : BitVec 5) (imm : BitVec 16)
  /-- R109: Loads 4 bytes and sign-extends them -/
  | ldI32 (d : BitVec 5) (a : BitVec 5) (imm : BitVec 16)
  /-- R109: Loads 8 bytes -/
  | ldI64 (d : BitVec 5) (a : BitVec 5) (imm : BitVec 16)
  /-- R109: Loads a byte and zero-extends it -/
  | ldN8 (d : BitVec 5) (a : BitVec 5) (imm : BitVec 16)
  /-- R109: Loads 2 bytes and zero-extends them -/
  | ldN16 (d : BitVec 5) (a : BitVec 5) (imm : BitVec 16)
  /-- R109: Loads 4 bytes and zero-extends them -/
  | ldN32 (d : BitVec 5) (a : BitVec 5) (imm : BitVec 16)
  /-- R109: Stores g[d][7:0], to L1 or the stash, or posted to an immediate or host-shared target -/
  | st8 (d : BitVec 5) (a : BitVec 5) (imm : BitVec 16)
  /-- R109: Stores g[d][15:0] -/
  | st16 (d : BitVec 5) (a : BitVec 5) (imm : BitVec 16)
  /-- R109: Stores g[d][31:0] -/
  | st32 (d : BitVec 5) (a : BitVec 5) (imm : BitVec 16)
  /-- R109: Stores g[d] -/
  | st64 (d : BitVec 5) (a : BitVec 5) (imm : BitVec 16)
  /-- R112: Loads 4 bytes indivisibly at the home slice of an immediate window and sign-extends them -/
  | ldim32 (d : BitVec 5) (a : BitVec 5)
  /-- R112: Loads 8 bytes indivisibly at the home slice -/
  | ldim64 (d : BitVec 5) (a : BitVec 5)
  /-- R112: Posts an indivisible 4-byte store to the home slice -/
  | stim32 (d : BitVec 5) (a : BitVec 5)
  /-- R112: Posts an indivisible 8-byte store to the home slice -/
  | stim64 (d : BitVec 5) (a : BitVec 5)
  /-- R117: Reads a future word; a full word returns its value with a phase receipt, and an empty word links a node and ends the firing -/
  | futget (d : BitVec 5) (a : BitVec 5) (b : BitVec 5)
  /-- R118: Sets an empty future word full and dispatches every linked reader; a full word is left unchanged, with status 1 -/
  | futset (d : BitVec 5) (a : BitVec 5) (b : BitVec 5)
  /-- R119: Makes a full future word empty with an empty list; posted -/
  | futclr (a : BitVec 5)
  /-- R121: Maps a phased page to a stash block, after publishing and discarding its L1 lines -/
  | smap (a : BitVec 5) (b : BitVec 5)
  /-- R122: Publishes the dirty lines of a stash block and removes its mapping -/
  | sunmap (a : BitVec 5)
  /-- R122: Publishes the dirty lines of a stash block and keeps them as clean lines -/
  | sflush (a : BitVec 5)
  /-- R123: Discards the clean L1 and stash lines of a range, or all of them -/
  | linv (a : BitVec 5) (b : BitVec 5)
  /-- R124: Publishes and writes a range back to DRAM page by page -/
  | wbr (a : BitVec 5) (b : BitVec 5)
  /-- R50: Replaces an interleave-domain entry of the die, with its version incremented, after old-version requests drain -/
  | dswitch (a : BitVec 5) (b : BitVec 5)
  /-- R55: Publishes every dirty L1 and stash line of the core and advances PH -/
  | phadv
  /-- R127: Sends a remote 8-byte store as a counted RST message -/
  | rst (d : BitVec 5) (a : BitVec 5) (b : BitVec 5)
  /-- R127: Sends a remote store with O = 1, delivered after every earlier counted message to that destination -/
  | rstO (d : BitVec 5) (a : BitVec 5) (b : BitVec 5)
  /-- R129: Waits until every engine command of this scalar core has completed -/
  | fenceE
  /-- R129: Waits until the four per-plane counts of unacknowledged counted messages are zero -/
  | fenceA
  /-- R129: Waits until every enqueue of this scalar core has been accepted -/
  | fenceQ
  /-- R129: Waits until every immediate, host-shared and posted operation of this scalar core has been performed -/
  | fenceS
  /-- R129: Waits for all four fence conditions -/
  | fenceAll
  /-- R113: Atomic add at the home slice, 32- or 64-bit, optionally acquiring -/
  | amoAdd (d : BitVec 5) (a : BitVec 5) (b : BitVec 5) (acq : BitVec 1) (w : BitVec 1)
  /-- R113: Atomic signed minimum at the home slice -/
  | amoMin (d : BitVec 5) (a : BitVec 5) (b : BitVec 5) (acq : BitVec 1) (w : BitVec 1)
  /-- R113: Atomic signed maximum at the home slice -/
  | amoMax (d : BitVec 5) (a : BitVec 5) (b : BitVec 5) (acq : BitVec 1) (w : BitVec 1)
  /-- R113: Atomic AND at the home slice -/
  | amoAnd (d : BitVec 5) (a : BitVec 5) (b : BitVec 5) (acq : BitVec 1) (w : BitVec 1)
  /-- R113: Atomic OR at the home slice -/
  | amoOr (d : BitVec 5) (a : BitVec 5) (b : BitVec 5) (acq : BitVec 1) (w : BitVec 1)
  /-- R113: Atomic XOR at the home slice -/
  | amoXor (d : BitVec 5) (a : BitVec 5) (b : BitVec 5) (acq : BitVec 1) (w : BitVec 1)
  /-- R113: Atomic swap at the home slice -/
  | amoSwap (d : BitVec 5) (a : BitVec 5) (b : BitVec 5) (acq : BitVec 1) (w : BitVec 1)
  /-- R113: Atomic compare-and-swap against g[d] at the home slice -/
  | amoCas (d : BitVec 5) (a : BitVec 5) (b : BitVec 5) (acq : BitVec 1) (w : BitVec 1)
  /-- R113: Atomic f32 add rounded under RNE, optionally acquiring -/
  | amoFadd (d : BitVec 5) (a : BitVec 5) (b : BitVec 5) (acq : BitVec 1)
  /-- R139: Queues a copy-engine command that copies a byte range -/
  | cpy (a : BitVec 5) (b : BitVec 5)
  /-- R141: Queues a gather command that copies indexed table rows -/
  | gath (a : BitVec 5) (b : BitVec 5)
  /-- R141: Queues a scatter command that stores rows or adds them into table rows -/
  | scat (a : BitVec 5) (b : BitVec 5)
  /-- R143: Queues a merge command that consolidates change-record runs, optionally compacting against a frontier -/
  | mrg (a : BitVec 5) (b : BitVec 5)
  /-- R146: Queues a collective-port command that sends to or receives a merge-reduce stream, with value type and zero-drop from fn -/
  | coll (a : BitVec 5) (b : BitVec 5) (vt : BitVec 2) (zd : BitVec 1)
  /-- R152: Removes the oldest event-queue record into g[d] to g[d+3], or writes zeros when the queue is empty -/
  | evget (d : BitVec 5)
  /-- R148: Queues a command that probes a hash table for an array of keys -/
  | hprobe (a : BitVec 5) (b : BitVec 5)
  /-- R148: Queues a command that inserts keys into a hash table -/
  | hins (a : BitVec 5) (b : BitVec 5)
  /-- R326: Writes the componentwise maximum of two times -/
  | tjoin (d : BitVec 3) (a : BitVec 3) (b : BitVec 3)
  /-- R326: Writes the componentwise minimum of two times -/
  | tmeet (d : BitVec 3) (a : BitVec 3) (b : BitVec 3)
  /-- R326: Writes 1 to g[d] when t[a] ≤ t[b] in the time order, and 0 otherwise -/
  | tle (d : BitVec 5) (a : BitVec 3) (b : BitVec 3)
  /-- R326: Advances t[a] against the frontier of scope g[b] -/
  | tadv (d : BitVec 3) (a : BitVec 3) (b : BitVec 5)
  /-- R326: Increments the EPOCH of t[a] -/
  | tincE (d : BitVec 3) (a : BitVec 3)
  /-- R326: Increments counter I1 of t[a] -/
  | tinc1 (d : BitVec 3) (a : BitVec 3)
  /-- R326: Increments counter I2 of t[a] -/
  | tinc2 (d : BitVec 3) (a : BitVec 3)
  /-- R326: Increments counter I3 of t[a] -/
  | tinc3 (d : BitVec 3) (a : BitVec 3)
  /-- R327: Writes a time register from g[a], trapping on a malformed T64 -/
  | tmk (d : BitVec 3) (a : BitVec 5)
  /-- R327: Writes a selected field of t[a] to g[d] -/
  | tfld (d : BitVec 5) (a : BitVec 3) (sel : BitVec 6)
  /-- R328: Copies one word of a frontier register into a time register -/
  | fget (d : BitVec 3) (scope : BitVec 3) (word : BitVec 2)
  /-- R328: Waits until t[a] is complete in scope n, then writes the frontier version -/
  | fwait (d : BitVec 5) (a : BitVec 3) (scope : BitVec 3)
  /-- R329: Enters a change that adds stake and message diff at t[a] into the progress buffer -/
  | stkget (a : BitVec 3) (b : BitVec 5) (scope : BitVec 3)
  /-- R329: Enters a change that removes stake and adds message diff at t[a] -/
  | stkdrop (a : BitVec 3) (b : BitVec 5) (scope : BitVec 3)
  /-- R329: Moves one stake from t[a] to t[b] in one entry step -/
  | stkdn (a : BitVec 3) (b : BitVec 3) (scope : BitVec 3)
  /-- R169: Checks a Forrel image header and queues the image for the configuration loader -/
  | cfg (a : BitVec 5)
  /-- R170: Places teardown tokens at the entry points of one context or of all active contexts -/
  | teard (a : BitVec 5)
  /-- R174: Sends an MSG message on class C0–C7 -/
  | snd (d : BitVec 3) (a : BitVec 5) (b : BitVec 5) (cls : BitVec 3)
  /-- R174: Sends an ordered MSG message (O = 1) -/
  | sndO (d : BitVec 3) (a : BitVec 5) (b : BitVec 5) (cls : BitVec 3)
  /-- R175: Masks a class in the handler table (EN ← 0) -/
  | clsm (cls : BitVec 4)
  /-- R175: Unmasks a class (EN ← 1), starting a firing or delivery when messages are pending -/
  | clsu (cls : BitVec 4)
  /-- R176: Gives a request class a new spill ring, leaving HELD when it is in it -/
  | qspill (a : BitVec 5) (b : BitVec 5) (cls : BitVec 3)
  /-- R177: Waits until the event queue holds a record -/
  | wfe
  /-- R178: Stops the issuing scalar core until Zusil restarts it -/
  | halt
  /-- R172: The loader puts one token into a column-0 element through its memory port -/
  | inj (d : BitVec 5) (a : BitVec 3) (row : BitVec 3) (slot : BitVec 5) (port : BitVec 1)
  /-- R173: The storer takes the oldest token out of a draining sink -/
  | drn (d : BitVec 5) (a : BitVec 3) (elem : BitVec 6) (slot : BitVec 5) (port : BitVec 1)
  /-- R171: Sets a pending constant write at one element, which takes effect at the next marker passage -/
  | kset (d : BitVec 3) (a : BitVec 5) (elem : BitVec 6)
  /-- R171: Sets a pending constant write at every element with an active configuration -/
  | ksetAll (d : BitVec 3) (a : BitVec 5)
  /-- R168: Reads a system register into g[d] -/
  | sysrd (d : BitVec 5) (sys : BitVec 10)
  /-- R168: Writes g[a] to a system register, with the effects of that register -/
  | syswr (a : BitVec 5) (sys : BitVec 10)
  /-- R296: Reads a spawn descriptor and sends the task to the escapement of its VCN -/
  | spawn (d : BitVec 5) (a : BitVec 5)
  /-- R309: Opens a range task at the keeper and places its first range firing -/
  | rng (a : BitVec 5)
  /-- R310: Claims the next grain of the firing's piece from the keeper -/
  | rngC (d : BitVec 5)
  /-- R298: Decrements a dependence or actor counter, releasing the entry at zero -/
  | dcnt (a : BitVec 5)
  /-- R298: Sets a counter to g[b][15:0] -/
  | dset (a : BitVec 5) (b : BitVec 5)
  /-- R306: Joins a cohort: sets the CMASK bit and enqueues the join at the keeper -/
  | cjoin (a : BitVec 5)
  /-- R306: Leaves a cohort -/
  | cleave (a : BitVec 5)
  /-- R307: Arrives at a cohort barrier with a continuation and ends the firing -/
  | cbar (a : BitVec 5) (b : BitVec 5)
  /-- R313: Ends the firing and re-enqueues it at its level -/
  | yield
  /-- R313: Ends the running firing -/
  | fin
  /-- R303: Sets SR.PRIO of the running firing -/
  | prio (a : BitVec 5)
  /-- R335: Returns from a trap handler, restoring status from SSR -/
  | tret
  /-- R349: Writes a scalar context record under a safe-point entry -/
  | ctxsv (d : BitVec 5) (a : BitVec 5) (b : BitVec 5)
  /-- R350: Restores a scalar context record and resumes at its RESUME address -/
  | ctxld (a : BitVec 5)
  /-- R359: Sets the occupant's pin or requests a tourbillon exchange with a partner -/
  | tmigr (a : BitVec 5)
  /-- R337: Halts for the debugger when DBE = 1, and traps with cause 0x05 otherwise -/
  | brk
  /-- R340: Marks a safe point: resets SPCOUNT and stops here when a freeze is pending -/
  | spt (imm : BitVec 16)
  /-- R337: Raises the software trap, cause 0x08 -/
  | trap (imm : BitVec 16)
  /-- R225: Element add of A and B, in the rounding mode of the OP -/
  | eAdd (rm : BitVec 3) (w : EW)
  /-- R225: Element subtract, A − B -/
  | eSub (rm : BitVec 3) (w : EW)
  /-- R225: Element multiply -/
  | eMul (rm : BitVec 3) (w : EW)
  /-- R225: Fused A × B + e7, written to e7 and emitted -/
  | eMad (rm : BitVec 3) (w : EW)
  /-- R230: Lanewise vector add into the register of operand A -/
  | eVadd (rm : BitVec 3) (w : EW)
  /-- R230: Lanewise vector subtract -/
  | eVsub (rm : BitVec 3) (w : EW)
  /-- R230: Lanewise vector multiply -/
  | eVmul (rm : BitVec 3) (w : EW)
  /-- R230: Lanewise fused A + B × v7 -/
  | eVfma (rm : BitVec 3) (w : EW)
  /-- R218: Reduces the lanes of a vector in a fixed binary tree and emits the scalar sum -/
  | eVred (rm : BitVec 3) (w : EW)
  /-- R227: Converts A from the source type in IMM to TY, reporting nothing -/
  | eCvt (rm : BitVec 3) (w : EW)
  /-- R227: Converts A and emits the unchanged source on T1 when the conversion overflows -/
  | eCvts (rm : BitVec 3) (w : EW)
  /-- R230: Converts a vector lane by lane -/
  | eVcvt (rm : BitVec 3) (w : EW)
  /-- R228: Shifts a converted narrow value into a 64-bit packed word -/
  | ePack (rm : BitVec 3) (w : EW)
  /-- R225: Element minimum -/
  | eMin (w : EW)
  /-- R225: Element maximum -/
  | eMax (w : EW)
  /-- R225: Element absolute value -/
  | eAbs (w : EW)
  /-- R225: Element negation -/
  | eNeg (w : EW)
  /-- R225: Element bitwise AND -/
  | eAnd (w : EW)
  /-- R225: Element bitwise OR -/
  | eOr (w : EW)
  /-- R225: Element bitwise XOR -/
  | eXor (w : EW)
  /-- R225: Element shift left -/
  | eShl (w : EW)
  /-- R225: Element logical shift right -/
  | eShr (w : EW)
  /-- R225: Element arithmetic shift right -/
  | eSar (w : EW)
  /-- R226: Emits 1 when A = B, and 0 otherwise -/
  | eCeq (w : EW)
  /-- R226: Emits 1 when A ≠ B -/
  | eCne (w : EW)
  /-- R226: Emits 1 when A < B -/
  | eClt (w : EW)
  /-- R226: Emits 1 when A ≤ B -/
  | eCle (w : EW)
  /-- R226: Emits A when the predicate B is non-zero, and zero otherwise -/
  | eSel (w : EW)
  /-- R226: Emits B when given, and A otherwise, with write-back to e[AI] -/
  | eMov (w : EW)
  /-- R225: Counts the leading zeros of A at the type's width -/
  | eClz (w : EW)
  /-- R225: Extracts the bit field of A that B describes -/
  | eExt (w : EW)
  /-- R228: Extracts and converts value B mod n of a packed word -/
  | eUnpack (w : EW)
  /-- R230: Lanewise vector minimum -/
  | eVmin (w : EW)
  /-- R230: Lanewise vector maximum -/
  | eVmax (w : EW)
  /-- R231: Broadcasts a scalar, or one vector lane, to every lane -/
  | eVbc (w : EW)
  /-- R231: Inserts a scalar into one lane -/
  | eVins (w : EW)
  /-- R231: Emits one lane of a vector as a scalar -/
  | eVext (w : EW)
  /-- R232: Sends A to T0 or T1 by the predicate B and pushes a path bit -/
  | eSteer (w : EW)
  /-- R233: Passes a token from either port, checking and popping its top path bit -/
  | eMerge (w : EW)
  /-- R234: Sends A to T0 or T1 by the predicate B, with no path change -/
  | eGate (w : EW)
  /-- R235: Joins a change with a history entry: emits at the join of the times with the product DIFF, and the overflow on T1 -/
  | eTjn (w : EW)
  /-- R236: Emits 1 when t_le(A, B) holds -/
  | eTle (w : EW)
  /-- R237: Emits A advanced against the frontier of scope B -/
  | eTadv (w : EW)
  /-- R236: Emits the field of the T64 A that B selects -/
  | eTgt (w : EW)
  /-- R237: Passes A to T0 when the tag time is complete in scope B, and to T1 otherwise -/
  | eTst (w : EW)
  /-- R254: Takes a start and a trip count and enters a loop level for the index run -/
  | eCtr (w : EW)
  /-- R255: Starts a counter run whose bound comes from the bound register -/
  | eCtrb (w : EW)
  /-- R255: A token taken at port b of ctrb sets BND at once, or a poison token there is passed on T1 -/
  | ctrbBoundAbsorb (p e slot : Nat)
  /-- R256: Repeat node that buffers a stream and emits it c times -/
  | eRpt (w : EW)
  /-- R256: A token taken at port a or b of rpt joins the repeat buffer or becomes the count -/
  | rptTokenAbsorb (p e slot port : Nat)
  /-- R257: Source node that fires once after its flip without a token -/
  | eEmit (w : EW)
  /-- R258: Discards tokens, or holds them for drn when draining is enabled -/
  | eSink (w : EW)
  /-- R259: Passes a token and emits a marker when the predicate holds -/
  | eMark (w : EW)
  /-- R260: Its first data token starts teardown of the element's own context -/
  | eTdn (w : EW)
  /-- R261: Writes a CMPL record for each token it takes -/
  | eCmpl (w : EW)
  /-- R266: Streaming load node that reads n consecutive values in a loop level -/
  | eLdst (w : EW)
  /-- R265: Loads one value from an address -/
  | eLdr (w : EW)
  /-- R265: Stores a value and emits a completion token once the store is performed -/
  | eStr (w : EW)
  /-- R265: Loads 128 bytes into a vector or accumulator register -/
  | eVld (w : EW)
  /-- R265: Stores a vector or accumulator register -/
  | eVst (w : EW)
  /-- R267: Ordered read-modify-write add -/
  | eUpdAdd (w : EW)
  /-- R267: Ordered read-modify-write minimum -/
  | eUpdMin (w : EW)
  /-- R267: Ordered read-modify-write maximum -/
  | eUpdMax (w : EW)
  /-- R267: Ordered read-modify-write OR -/
  | eUpdOr (w : EW)
  /-- R267: Ordered read-modify-write swap -/
  | eUpdSwap (w : EW)
  /-- R268: Element atomic add at the home slice -/
  | eAmoAdd (w : EW)
  /-- R268: Element atomic minimum -/
  | eAmoMin (w : EW)
  /-- R268: Element atomic maximum -/
  | eAmoMax (w : EW)
  /-- R268: Element atomic AND -/
  | eAmoAnd (w : EW)
  /-- R268: Element atomic OR -/
  | eAmoOr (w : EW)
  /-- R268: Element atomic XOR -/
  | eAmoXor (w : EW)
  /-- R268: Element atomic swap -/
  | eAmoSwap (w : EW)
  /-- R268: Element atomic compare-and-swap against e6 -/
  | eAmoCas (w : EW)
  /-- R268: Element atomic f32 add -/
  | eAmoFadd (w : EW)
  /-- R262: A memory-port access is performed, and the node emits its value or completion token -/
  | memportAccessPerformed (p row n : Nat)
  /-- R248: Writes one weight word into the macros of the receivers in its column -/
  | eMpre (fmt : BitVec 2) (w : EW)
  /-- R249: Takes the words of A and requests a row-bus segment -/
  | eMrow (fmt : BitVec 2) (w : EW)
  /-- R250: Drains a partial-sum latch into v registers and frees it -/
  | eMdrn (fmt : BitVec 2) (w : EW)
  /-- R251: Applies block scales to partial sums into accumulators -/
  | eMsca (w : EW)
  /-- R252: Multiplies an accumulator by a BF16 band scale -/
  | eMband (w : EW)
  /-- R247: Turns matrix mode on, requesting the grant, or off, releasing it -/
  | eMmode (w : EW)
  /-- R244: A row-bus segment starts once the bus is free and every receiver is LOADED with a free latch -/
  | segmentStart (p e slot : Nat)
  /-- R246: At the end of its beats a segment writes the receivers' latches and places segment tokens at their mdrn -/
  | segmentEnd (p row : Nat)
  /-- R270: Sends an MSG message from a column-7 element -/
  | eSnd (w : EW)
  /-- R270: Sends an ordered MSG message from a column-7 element -/
  | eSndO (w : EW)
  /-- R272: Probes an indexed history and emits an entry pair for each record with the key -/
  | eAprobe (w : EW)
  /-- R271: Probes a hash table for one key -/
  | eHprobe (w : EW)
  /-- R273: Hands a progress change of the message lane to the core's progress path -/
  | eCons (w : EW)
  /-- R339: SPCOUNT exceeds SPMAX, and the scalar core takes cause 0x04, abandoning a wait for a resource -/
  | safePointDistanceFault (p : Nat) (k : Kind)
  /-- R254: A running counter emits its next index, or its T1 token, as one firing in key order -/
  | counterIndexEmit (p e slot : Nat)
  /-- R256: rpt emits its next buffered copy as one firing -/
  | rptCopyEmit (p e slot : Nat)
  /-- R22: A scalar word whose major opcode, fn or selector is unassigned, has a reserved field set, or belongs to a feature not accepted, traps at decode with cause 0x01 -/
  | illegalInstruction (word : BitVec 32)
  /-- R182: An element takes a token from an input buffer: it matches it, stores it or spills it, or counts a marker or teardown token, or discards it by CTX -/
  | tokenTaken (p e slot port : Nat)
  /-- R200: When its marker count reaches MIN and the buffers have room, the element applies pending constants and emits markers -/
  | markerPass (p e : Nat)
  /-- R202: After TIN teardown tokens and every drain condition, the element emits teardown tokens on its forward targets -/
  | teardownTokenLeave (p e : Nat)
  /-- R203: Two cycles after the teardown token leaves, the element flips to its shadow image or returns to the free pool -/
  | elementFlip (p e : Nat)
  /-- R199: The configuration loader writes the next queued image into free shadow banks, flipping idle elements -/
  | configImageLoad (p : Nat)
  /-- R344: EC exceeds SPMAX, and the element writes a POISON record with cause 0x2C -/
  | elementDistanceFault (p e : Nat)
  /-- R241: A fusee grant arrives: MX ← 1, and pending mmode on tokens are emitted -/
  | grantArrival (p e : Nat)
  /-- R378: The fusee lowers or raises a die's arithmetic clock step as granted demand changes -/
  | fuseeClockStep (die : Nat) (stp : BitVec 2)
  /-- R99: A delivered MSG enters its class's inbound queue or spill ring, or the class enters HELD -/
  | msgArrival (n : Nat)
  /-- R99: The ring's head refills a freed inbound-queue entry, reading the entry out -/
  | inboundQueueRefill (p cls : Nat)
  /-- R90: A handler firing starts at HADDR with the oldest message of the class in g1 to g3 and t0 -/
  | handlerFiringStart (p cls : Nat)
  /-- R91: A MODE 1 message enters the fabric as a token at its continuation -/
  | fabricDelivery (p cls : Nat)
  /-- R128: The destination interface performs a remote store through the destination's translation and window -/
  | rstDelivery (n : Nat)
  /-- R95: A held O message is delivered once DLV reaches its sequence, and PH is raised -/
  | orderedHoldRelease (p n : Nat)
  /-- R97: A destination interface returns an ACK covering up to 511 deliveries, within 64 network cycles -/
  | ackSend (p src plane count : Nat)
  /-- R97: An ACK reduces the source's per-plane count and UNA of the destination -/
  | ackArrival (n : Nat)
  /-- R83: A NAK from another module is taken into its reserved slot, a NETERR record is written, and the count is reduced -/
  | nakArrival (n : Nat)
  /-- R118: A future dispatch arrives on C13 and enqueues a continuation firing -/
  | fdsp (n : Nat)
  /-- R296: A spawn descriptor part arrives at the target escapement, which takes an entry or refuses -/
  | spwn (n : Nat)
  /-- R296: The answer to a spawn arrives: a reference, or a refusal -/
  | spref (n : Nat)
  /-- R296: A refused remote spawn is sent again every 256 network cycles -/
  | spawnRetry (p n : Nat)
  /-- R298: A remote decrement is applied to the named counter -/
  | cntopDecrement (n : Nat)
  /-- R298: A remote set is applied to the named counter -/
  | cntopSet (n : Nat)
  /-- R299: An actor production adds to an input count, saturating -/
  | cntopAdd (n : Nat)
  /-- R306: The keeper adds a member to a cohort and tests the barrier -/
  | kreqCjoin (n : Nat)
  /-- R306: The keeper removes a member and tests the barrier -/
  | kreqCleave (n : Nat)
  /-- R308: The keeper records a barrier arrival and completes the barrier when every member has arrived -/
  | kreqCbar (n : Nat)
  /-- R309: The keeper opens a range with one piece held by the issuer -/
  | kreqRngOpen (n : Nat)
  /-- R310: The keeper advances the cursor of a piece and replies with the grain -/
  | kreqRngClaim (n : Nat)
  /-- R311: The keeper gives an unheld piece, splits a held one, or replies no work -/
  | kreqWorkRequest (n : Nat)
  /-- R312: The keeper releases a piece and closes the range when it is complete, decrementing DONE -/
  | kreqPieceRelease (n : Nat)
  /-- R308: A member clears AMASK, raises PH and makes its barrier continuation READY -/
  | krepBarrierCompletion (n : Nat)
  /-- R309: The opener places its range firing -/
  | krepRangeOpened (n : Nat)
  /-- R310: The claiming scalar core receives cur and cur + n -/
  | krepClaimReply (n : Nat)
  /-- R311: The asker places a range firing in its reserved entry -/
  | krepPieceGranted (n : Nat)
  /-- R311: The asker's reservation ends -/
  | krepNoWork (n : Nat)
  /-- R311: An idle scalar core with a free entry and a cohort asks the keeper for work every 1,024 cycles -/
  | workRequestTimer (p : Nat) (k : Kind)
  /-- R300: A firing that has waited AGE cycles in level p moves to level p + 1 -/
  | readyAging (p : Nat) (k : Kind) (level : Nat)
  /-- R302: The escapement starts the head of the highest non-empty level on an idle scalar core -/
  | firingStart (p : Nat) (k : Kind)
  /-- R98: The interface serves a debugger or Zusil probe of core state on C14 -/
  | probeMessage (p : Nat) (op : ProbeOp)
  /-- R51: The home slice grants a lease, raising RTS and HTS, and returns the line -/
  | l2Renewal (n : Nat)
  /-- R54: The home merges the published dirty bytes under the line lock and returns a new WTS -/
  | l2Publication (n : Nat)
  /-- R282: An immediate load, store or stim is performed at the home slice under the line lock -/
  | l2ImmediateAccess (n : Nat)
  /-- R113: An atomic is performed at the home under the line lock, updating SP and replying -/
  | l2Atomic (n : Nat)
  /-- R117: A futget, futset or futclr is performed at the home under the line lock -/
  | l2FutureOperation (n : Nat)
  /-- R43: A queued request for a locked line leaves the conflict queue when the lock is freed -/
  | bankConflictRelease (die slice bank : Nat)
  /-- R40: A host-shared access is performed at the DRAM channel controller in arrival order -/
  | dramChannelAccess (n : Nat)
  /-- R51: A renewal or fill reply is merged into L1 or the stash and completes the waiting load -/
  | memoryReply (n : Nat)
  /-- R71: The translation unit walks again every held access, sending wake tokens and resuming held engines -/
  | rewalk (p : Nat)
  /-- R131: An engine starts its next queued command and issues its unit accesses -/
  | engineCommandStart (p eng : Nat)
  /-- R136: When every access of a command is performed, the engine writes ENGDONE or ENGERR -/
  | engineCommandComplete (p eng : Nat)
  /-- R146: A receiver takes a run packet of its stream and writes its entries -/
  | collPacketArrival (p n : Nat)
  /-- R104: A switch merges the member children's next segment, summing equal indices -/
  | switchSegmentMerge (sw stream : Nat)
  /-- R316: A core seals its progress buffer as a batch and sends it on C15 -/
  | progressBatchSend (p scope : Nat)
  /-- R318: A switch folds a complete child batch into its pending table -/
  | switchBatchFold (sw scope child : Nat)
  /-- R318: A switch sends its pending table upward as one batch -/
  | switchTableSend (sw scope : Nat)
  /-- R321: The crown applies a batch whole, forms the candidate frontier and broadcasts it when it moves forward -/
  | crownBatchApply (scope die : Nat)
  /-- R13: A frontier broadcast writes FNTn whole and increments VER -/
  | frontierBroadcastArrival (p scope : Nat)
  /-- R345: When every part has stopped, the core publishes its dirty lines and raises PH -/
  | freezeComplete (p : Nat)
  /-- R346: A freeze not complete within SPMAX cycles is refused and the parts resume -/
  | freezeRefusal (p : Nat)
  /-- R355: Every TQ cycles the evaluators pick pairs by gain and then halve the counters -/
  | swapInstant (die : Nat)
  /-- R356: Once the drain flits are in, the occupants' state crosses, the relocation entries flip and both resume -/
  | exchangeStateTransfer (p q : Nat)
  /-- R372: A START packet checks the job block, writes domain and access tables, loads sections and starts firings -/
  | delridStart
  /-- R292: A WORK packet adds a spawn to the running job -/
  | delridWork
  /-- R381: A PREEMPT packet freezes every core and writes the context areas -/
  | delridPreempt
  /-- R372: A RESUME packet restores the job from its context areas -/
  | delridResume
  /-- R372: An END packet stops the job, writes back and clears state, and optionally scrubs DRAM -/
  | delridEnd
  /-- R373: A residency report is written to the host ring and MSI-X vector 0 is raised -/
  | reportWrite
  /-- R370: A FEATA write stores the value AND FEATO, and is ignored while a job is resident -/
  | feataWrite (n : Nat) (x : Word)
  /-- R71: A host write to RETRY(v) starts a rewalk on that core -/
  | retryDoorbell (v : Nat)
  /-- R369: A host write to HMB(v) writes MB1 of that VCN -/
  | hmbWrite (v : Nat) (x : Word)
  /-- R377: A CKREQ write with GO starts a checkpoint, or sets OVR while BUSY -/
  | checkpointGo (x : Word)
  /-- R377: Once the scope frontier passes the step, every core is frozen and the extents are written -/
  | checkpointFrontierReached
  /-- R377: The NVMe writes finish: cores resume, MB2 is set and a CHECKPOINT or CKFAIL report is written -/
  | checkpointWriteDone (ok : Bool)
  /-- R382: A DBG command 0x1 halts the scalar cores of a VCN -/
  | dbgHalt (v : Nat)
  /-- R382: A DBG command 0x2 restarts the scalar cores of a VCN -/
  | dbgRestart (v : Nat)
  /-- R369: A host write to a device register with no behaviour of its own stores the value -/
  | deviceRegisterWrite (off : Nat) (x : Word)
  /-- R368: A host CXL.mem request passes the access tables and is performed at the channel controller -/
  | cxlMemRequest (wr : Bool) (pa bytes x : Nat)
  /-- R375: A peer read or write of device DRAM is checked and performed as host-shared -/
  | peerMemoryAccess (ethernet : Bool) (port : Nat) (wr : Bool) (pa bytes x : Nat)
  /-- R376: The hub delivers an off-package MSG or RST to the core its relocation table names, or answers with a NAK -/
  | peerMessageArrival (chip : Nat) (hdr payload : BitVec 128)
  /-- R379: At power-on Zusil verifies the firmware, trains the links, tests memory and opens the register window -/
  | zusilBoot (b : BootInput)
  /-- R380: Zusil returns the device identity certificate over the DOE mailbox -/
  | spdmGetCertificate
  /-- R380: Zusil returns signed SHA-384 measurements -/
  | spdmGetMeasurements
  /-- R373: A Delrid packet with a TYPE other than 0x01 to 0x05 is taken and answered with a REJECTED report, reason 0x01 -/
  | delridRejected
  /-- R371: A host write to launch word W7 while LSTAT.BUSY = 1 drops the packet and sets OVR -/
  | launchW7Dropped (x : Word)
  deriving DecidableEq, Repr

end Sys2Proof
end

