-- ==== Sys2Proof/WellFormed.lean ====
section
/-!
DEFINITION. The operand values an encoding admits, beyond what the field widths say.
-/
namespace Sys2Proof

/-- A scalar instruction whose operands its word can hold: `loop` has imm16 1 to 32,767 (R157), `evget` d 1 to 28 (R152), `drn`
and `rng.c` d 1 to 30 (R173, R295), `rng` a ≠ 0 (R295), `clsm` and `clsu` C0 to C7 or C13 (R175), `tfld` selector 0 to 5
(R21). An operation of a rounding group has rm 0 to 4 (R29). Events have no encoding. -/
def Instr.wellFormed (i : Instr) : Bool :=
  match i with
  | .loop _ imm => imm ≠ 0
  | .evget d => 1 ≤ d.toNat && d.toNat ≤ 28
  | .drn d _ _ _ _ => d ≠ 0 && d ≠ 31
  | .rngC d => d ≠ 0 && d ≠ 31
  | .rng a => a ≠ 0
  | .clsm c => c.toNat < 8 || c.toNat == 13
  | .clsu c => c.toNat < 8 || c.toNat == 13
  | .tfld _ _ s => s.toNat ≤ 5
  | .eAdd rm _ => rm.toNat < 5
  | .eSub rm _ => rm.toNat < 5
  | .eMul rm _ => rm.toNat < 5
  | .eMad rm _ => rm.toNat < 5
  | .eVadd rm _ => rm.toNat < 5
  | .eVsub rm _ => rm.toNat < 5
  | .eVmul rm _ => rm.toNat < 5
  | .eVfma rm _ => rm.toNat < 5
  | .eVred rm _ => rm.toNat < 5
  | .eCvt rm _ => rm.toNat < 5
  | .eCvts rm _ => rm.toNat < 5
  | .eVcvt rm _ => rm.toNat < 5
  | .ePack rm _ => rm.toNat < 5
  | _ => true

end Sys2Proof
end

