-- ==== Sys2Proof/Decode.lean ====
section
/-!
DEFINITION. Decoding and encoding: the scalar word formats and opcode maps of R15 to R22, the element word of R24 and its map
(R29). Decoding is total: a word with no meaning is answered with none, and `step` then takes ILLEGAL_INSTRUCTION (R17, R22).
-/
namespace Sys2Proof

/-! ## Scalar words -/

/-- The SR format (R15). -/
def srWord (maj : BitVec 6) (d a b : BitVec 5) (fn : BitVec 11) : BitVec 32 := maj ++ d ++ a ++ b ++ fn
/-- The SI and SB formats (R15): SB names its fields a, b and off16. -/
def siWord (maj : BitVec 6) (d a : BitVec 5) (imm : BitVec 16) : BitVec 32 := maj ++ d ++ a ++ imm
/-- The SJ format (R15). -/
def sjWord (maj : BitVec 6) (off : BitVec 26) : BitVec 32 := maj ++ off
/-- The SX format (R15). -/
def sxWord (maj : BitVec 6) (d a : BitVec 5) (sys : BitVec 10) (fn : BitVec 6) : BitVec 32 := maj ++ d ++ a ++ sys ++ fn

/-- Field [31:26], the major opcode. -/
def majorOf (w : BitVec 32) : BitVec 6 := w.extractLsb' 26 6
/-- Field [25:21]. -/
def dOf (w : BitVec 32) : BitVec 5 := w.extractLsb' 21 5
/-- Field [20:16]. -/
def aOf (w : BitVec 32) : BitVec 5 := w.extractLsb' 16 5
/-- Field [15:11]. -/
def bOf (w : BitVec 32) : BitVec 5 := w.extractLsb' 11 5
/-- Field [10:0] of the SR format. -/
def fnOf (w : BitVec 32) : BitVec 11 := w.extractLsb' 0 11
/-- Field [15:0] of the SI and SB formats. -/
def immOf (w : BitVec 32) : BitVec 16 := w.extractLsb' 0 16
/-- Field [25:0] of the SJ format. -/
def offOf (w : BitVec 32) : BitVec 26 := w.extractLsb' 0 26
/-- Field [15:6] of the SX format. -/
def sysOf (w : BitVec 32) : BitVec 10 := w.extractLsb' 6 10
/-- Field [5:0] of the SX format. -/
def fn6Of (w : BitVec 32) : BitVec 6 := w.extractLsb' 0 6

/-- A register field that names a time register or a constant index: codes 8 to 31 are illegal (R16). -/
def tOf (f : BitVec 5) : Option (BitVec 3) := if f.extractLsb' 3 2 = 0 then some (f.extractLsb' 0 3) else none

/-- A reserved field must be zero (R17). -/
def zero5 (f : BitVec 5) (i : Option Instr) : Option Instr := if f = 0 then i else none

/-- Major 0x00 (R19). -/
def decodeInteger (w : BitVec 32) : Option Instr :=
  match (fnOf w).toNat with
  | 0x000 => some (.add (dOf w) (aOf w) (bOf w))
  | 0x001 => some (.sub (dOf w) (aOf w) (bOf w))
  | 0x002 => some (.and (dOf w) (aOf w) (bOf w))
  | 0x003 => some (.or (dOf w) (aOf w) (bOf w))
  | 0x004 => some (.xor (dOf w) (aOf w) (bOf w))
  | 0x008 => some (.sll (dOf w) (aOf w) (bOf w))
  | 0x009 => some (.srl (dOf w) (aOf w) (bOf w))
  | 0x00A => some (.sra (dOf w) (aOf w) (bOf w))
  | 0x010 => some (.mul (dOf w) (aOf w) (bOf w))
  | 0x011 => some (.mulh (dOf w) (aOf w) (bOf w))
  | 0x012 => some (.mulhn (dOf w) (aOf w) (bOf w))
  | 0x014 => some (.div (dOf w) (aOf w) (bOf w))
  | 0x015 => some (.divn (dOf w) (aOf w) (bOf w))
  | 0x016 => some (.rem (dOf w) (aOf w) (bOf w))
  | 0x017 => some (.remn (dOf w) (aOf w) (bOf w))
  | 0x018 => some (.min (dOf w) (aOf w) (bOf w))
  | 0x019 => some (.max (dOf w) (aOf w) (bOf w))
  | 0x01A => some (.minn (dOf w) (aOf w) (bOf w))
  | 0x01B => some (.maxn (dOf w) (aOf w) (bOf w))
  | 0x020 => zero5 (bOf w) (some (.clz (dOf w) (aOf w)))
  | 0x021 => zero5 (bOf w) (some (.popc (dOf w) (aOf w)))
  | 0x024 => zero5 (bOf w) (some (.sext8 (dOf w) (aOf w)))
  | 0x025 => zero5 (bOf w) (some (.sext16 (dOf w) (aOf w)))
  | 0x026 => zero5 (bOf w) (some (.sext32 (dOf w) (aOf w)))
  | 0x028 => zero5 (bOf w) (some (.zext8 (dOf w) (aOf w)))
  | 0x029 => zero5 (bOf w) (some (.zext16 (dOf w) (aOf w)))
  | 0x02A => zero5 (bOf w) (some (.zext32 (dOf w) (aOf w)))
  | 0x030 => some (.slt (dOf w) (aOf w) (bOf w))
  | 0x031 => some (.sltn (dOf w) (aOf w) (bOf w))
  | 0x038 => zero5 (dOf w) (zero5 (bOf w) (some (.jr (aOf w))))
  | 0x039 => zero5 (bOf w) (some (.jalr (dOf w) (aOf w)))
  | _ => none

/-- Major 0x28 (R19, R295): fn 0x001 with a = 0 is the claim form, valid for d 1 to 30. -/
def decodeScheduling (w : BitVec 32) : Option Instr :=
  match (fnOf w).toNat with
  | 0x000 => zero5 (bOf w) (some (.spawn (dOf w) (aOf w)))
  | 0x001 =>
    if aOf w = 0 then zero5 (bOf w) (if dOf w = 0 ∨ dOf w = 31 then none else some (.rngC (dOf w)))
    else zero5 (dOf w) (zero5 (bOf w) (some (.rng (aOf w))))
  | 0x002 => zero5 (dOf w) (zero5 (bOf w) (some (.dcnt (aOf w))))
  | 0x003 => zero5 (dOf w) (some (.dset (aOf w) (bOf w)))
  | 0x004 => zero5 (dOf w) (zero5 (bOf w) (some (.cjoin (aOf w))))
  | 0x005 => zero5 (dOf w) (zero5 (bOf w) (some (.cleave (aOf w))))
  | 0x006 => zero5 (dOf w) (some (.cbar (aOf w) (bOf w)))
  | 0x007 => zero5 (dOf w) (zero5 (aOf w) (zero5 (bOf w) (some (.yield))))
  | 0x008 => zero5 (dOf w) (zero5 (aOf w) (zero5 (bOf w) (some (.fin))))
  | 0x009 => zero5 (dOf w) (zero5 (bOf w) (some (.prio (aOf w))))
  | _ => none

/-- Major 0x20 (R19). -/
def decodeMemory (w : BitVec 32) : Option Instr :=
  match (fnOf w).toNat with
  | 0x000 => zero5 (bOf w) (some (.ldim32 (dOf w) (aOf w)))
  | 0x001 => zero5 (bOf w) (some (.ldim64 (dOf w) (aOf w)))
  | 0x002 => zero5 (bOf w) (some (.stim32 (dOf w) (aOf w)))
  | 0x003 => zero5 (bOf w) (some (.stim64 (dOf w) (aOf w)))
  | 0x008 => some (.futget (dOf w) (aOf w) (bOf w))
  | 0x009 => some (.futset (dOf w) (aOf w) (bOf w))
  | 0x00A => zero5 (dOf w) (zero5 (bOf w) (some (.futclr (aOf w))))
  | 0x010 => zero5 (dOf w) (some (.smap (aOf w) (bOf w)))
  | 0x011 => zero5 (dOf w) (zero5 (bOf w) (some (.sunmap (aOf w))))
  | 0x012 => zero5 (dOf w) (zero5 (bOf w) (some (.sflush (aOf w))))
  | 0x013 => zero5 (dOf w) (some (.linv (aOf w) (bOf w)))
  | 0x014 => zero5 (dOf w) (some (.wbr (aOf w) (bOf w)))
  | 0x015 => zero5 (dOf w) (some (.dswitch (aOf w) (bOf w)))
  | 0x016 => zero5 (dOf w) (zero5 (aOf w) (zero5 (bOf w) (some (.phadv))))
  | 0x018 => some (.rst (dOf w) (aOf w) (bOf w))
  | 0x019 => some (.rstO (dOf w) (aOf w) (bOf w))
  | 0x020 => zero5 (dOf w) (zero5 (aOf w) (zero5 (bOf w) (some (.fenceE))))
  | 0x021 => zero5 (dOf w) (zero5 (aOf w) (zero5 (bOf w) (some (.fenceA))))
  | 0x022 => zero5 (dOf w) (zero5 (aOf w) (zero5 (bOf w) (some (.fenceQ))))
  | 0x023 => zero5 (dOf w) (zero5 (aOf w) (zero5 (bOf w) (some (.fenceS))))
  | 0x024 => zero5 (dOf w) (zero5 (aOf w) (zero5 (bOf w) (some (.fenceAll))))
  | _ => none

/-- Major 0x22 (R19): the coll forms take fn 0x008 to 0x00F; `evget` needs d 1 to 28 (R152). -/
def decodeEngine (w : BitVec 32) : Option Instr :=
  if (fnOf w).extractLsb' 3 8 = 1 then
    zero5 (dOf w) (some (.coll (aOf w) (bOf w) (w.extractLsb' 1 2) (w.extractLsb' 0 1)))
  else
  match (fnOf w).toNat with
  | 0x000 => zero5 (dOf w) (some (.cpy (aOf w) (bOf w)))
  | 0x001 => zero5 (dOf w) (some (.gath (aOf w) (bOf w)))
  | 0x002 => zero5 (dOf w) (some (.scat (aOf w) (bOf w)))
  | 0x003 => zero5 (dOf w) (some (.mrg (aOf w) (bOf w)))
  | 0x010 => zero5 (aOf w) (zero5 (bOf w) (if 1 ≤ (dOf w).toNat ∧ (dOf w).toNat ≤ 28 then some (.evget (dOf w)) else none))
  | 0x011 => zero5 (dOf w) (some (.hprobe (aOf w) (bOf w)))
  | 0x012 => zero5 (dOf w) (some (.hins (aOf w) (bOf w)))
  | _ => none

/-- Major 0x21 (R20): FP in [5], ACQ in [4], W in [3], OPN in [2:0]; FP = 1 with [3:0] nonzero is unassigned. -/
def decodeAtomic (w : BitVec 32) : Option Instr :=
  if w.extractLsb' 6 5 = 0 then
    if w.extractLsb' 5 1 = 1 then
      if w.extractLsb' 0 4 = 0 then some (.amoFadd (dOf w) (aOf w) (bOf w) (w.extractLsb' 4 1)) else none
    else
    match (w.extractLsb' 0 3).toNat with
    | 0 => some (.amoAdd (dOf w) (aOf w) (bOf w) (w.extractLsb' 4 1) (w.extractLsb' 3 1))
    | 1 => some (.amoMin (dOf w) (aOf w) (bOf w) (w.extractLsb' 4 1) (w.extractLsb' 3 1))
    | 2 => some (.amoMax (dOf w) (aOf w) (bOf w) (w.extractLsb' 4 1) (w.extractLsb' 3 1))
    | 3 => some (.amoAnd (dOf w) (aOf w) (bOf w) (w.extractLsb' 4 1) (w.extractLsb' 3 1))
    | 4 => some (.amoOr (dOf w) (aOf w) (bOf w) (w.extractLsb' 4 1) (w.extractLsb' 3 1))
    | 5 => some (.amoXor (dOf w) (aOf w) (bOf w) (w.extractLsb' 4 1) (w.extractLsb' 3 1))
    | 6 => some (.amoSwap (dOf w) (aOf w) (bOf w) (w.extractLsb' 4 1) (w.extractLsb' 3 1))
    | _ => some (.amoCas (dOf w) (aOf w) (bOf w) (w.extractLsb' 4 1) (w.extractLsb' 3 1))
  else none

/-- Major 0x2C (R19, R333). -/
def decodeTrap (w : BitVec 32) : Option Instr :=
  match (fnOf w).toNat with
  | 0x000 => zero5 (dOf w) (zero5 (aOf w) (zero5 (bOf w) (some (.tret))))
  | 0x001 => some (.ctxsv (dOf w) (aOf w) (bOf w))
  | 0x002 => zero5 (dOf w) (zero5 (bOf w) (some (.ctxld (aOf w))))
  | 0x003 => zero5 (dOf w) (zero5 (bOf w) (some (.tmigr (aOf w))))
  | 0x004 => zero5 (dOf w) (zero5 (aOf w) (zero5 (bOf w) (some (.brk))))
  | _ => none

/-- Major 0x24 (R21): fn[4:0] selects the operation, fn[10:5] is a selector. -/
def decodeTime (w : BitVec 32) : Option Instr :=
  match (w.extractLsb' 0 5).toNat with
  | 0x00 => if w.extractLsb' 5 6 = 0 then (tOf (dOf w)).bind fun d => (tOf (aOf w)).bind fun a => (tOf (bOf w)).bind fun b => some (.tjoin d a b) else none
  | 0x01 => if w.extractLsb' 5 6 = 0 then (tOf (dOf w)).bind fun d => (tOf (aOf w)).bind fun a => (tOf (bOf w)).bind fun b => some (.tmeet d a b) else none
  | 0x02 => if w.extractLsb' 5 6 = 0 then (tOf (aOf w)).bind fun a => (tOf (bOf w)).bind fun b => some (.tle (dOf w) a b) else none
  | 0x03 => if w.extractLsb' 5 6 = 0 then (tOf (dOf w)).bind fun d => (tOf (aOf w)).bind fun a => some (.tadv d a (bOf w)) else none
  | 0x04 => if w.extractLsb' 5 6 = 0 then zero5 (bOf w) ((tOf (dOf w)).bind fun d => (tOf (aOf w)).bind fun a => some (.tincE d a)) else none
  | 0x05 => if w.extractLsb' 5 6 = 0 then zero5 (bOf w) ((tOf (dOf w)).bind fun d => (tOf (aOf w)).bind fun a => some (.tinc1 d a)) else none
  | 0x06 => if w.extractLsb' 5 6 = 0 then zero5 (bOf w) ((tOf (dOf w)).bind fun d => (tOf (aOf w)).bind fun a => some (.tinc2 d a)) else none
  | 0x07 => if w.extractLsb' 5 6 = 0 then zero5 (bOf w) ((tOf (dOf w)).bind fun d => (tOf (aOf w)).bind fun a => some (.tinc3 d a)) else none
  | 0x08 => if w.extractLsb' 5 6 = 0 then zero5 (bOf w) ((tOf (dOf w)).bind fun d => some (.tmk d (aOf w))) else none
  | 0x09 => if (w.extractLsb' 5 6).toNat ≤ 5 then zero5 (bOf w) ((tOf (aOf w)).bind fun a => some (.tfld (dOf w) a (w.extractLsb' 5 6))) else none
  | 0x0A => if w.extractLsb' 10 1 = 0 then zero5 (aOf w) (zero5 (bOf w) ((tOf (dOf w)).bind fun d => some (.fget d (w.extractLsb' 7 3) (w.extractLsb' 5 2)))) else none
  | 0x0B => if w.extractLsb' 8 3 = 0 then zero5 (bOf w) ((tOf (aOf w)).bind fun a => some (.fwait (dOf w) a (w.extractLsb' 5 3))) else none
  | 0x0C => if w.extractLsb' 8 3 = 0 then zero5 (dOf w) ((tOf (aOf w)).bind fun a => some (.stkget a (bOf w) (w.extractLsb' 5 3))) else none
  | 0x0D => if w.extractLsb' 8 3 = 0 then zero5 (dOf w) ((tOf (aOf w)).bind fun a => some (.stkdrop a (bOf w) (w.extractLsb' 5 3))) else none
  | 0x0E => if w.extractLsb' 8 3 = 0 then zero5 (dOf w) ((tOf (aOf w)).bind fun a => (tOf (bOf w)).bind fun b => some (.stkdn a b (w.extractLsb' 5 3))) else none
  | _ => none

/-- Major 0x30 (R21, R174 to R176): the class sits in fn[8:5]. -/
def decodeFabric (w : BitVec 32) : Option Instr :=
  match (w.extractLsb' 0 5).toNat with
  | 0x00 => if w.extractLsb' 5 6 = 0 then zero5 (dOf w) (zero5 (bOf w) (some (.cfg (aOf w)))) else none
  | 0x01 => if w.extractLsb' 5 6 = 0 then zero5 (dOf w) (zero5 (bOf w) (some (.teard (aOf w)))) else none
  | 0x02 => if w.extractLsb' 8 3 = 0 then (tOf (dOf w)).bind fun d => some (.snd d (aOf w) (bOf w) (w.extractLsb' 5 3)) else none
  | 0x03 => if w.extractLsb' 8 3 = 0 then (tOf (dOf w)).bind fun d => some (.sndO d (aOf w) (bOf w) (w.extractLsb' 5 3)) else none
  | 0x04 => if w.extractLsb' 9 2 = 0 ∧ ((w.extractLsb' 5 4).toNat < 8 ∨ (w.extractLsb' 5 4).toNat = 13) then zero5 (dOf w) (zero5 (aOf w) (zero5 (bOf w) (some (.clsm (w.extractLsb' 5 4))))) else none
  | 0x05 => if w.extractLsb' 9 2 = 0 ∧ ((w.extractLsb' 5 4).toNat < 8 ∨ (w.extractLsb' 5 4).toNat = 13) then zero5 (dOf w) (zero5 (aOf w) (zero5 (bOf w) (some (.clsu (w.extractLsb' 5 4))))) else none
  | 0x06 => if w.extractLsb' 8 3 = 0 then zero5 (dOf w) (some (.qspill (aOf w) (bOf w) (w.extractLsb' 5 3))) else none
  | 0x07 => if w.extractLsb' 5 6 = 0 then zero5 (dOf w) (zero5 (aOf w) (zero5 (bOf w) (some (.wfe)))) else none
  | 0x08 => if w.extractLsb' 5 6 = 0 then zero5 (dOf w) (zero5 (aOf w) (zero5 (bOf w) (some (.halt)))) else none
  | _ => none

/-- Major 0x33 (R18, R171): d a constant index, sys[9] all, sys[8:6] and fn reserved. -/
def decodeKset (w : BitVec 32) : Option Instr :=
  if fn6Of w = 0 ∧ w.extractLsb' 12 3 = 0 then
    (tOf (dOf w)).bind fun d =>
      if w.extractLsb' 15 1 = 0 then some (.kset d (aOf w) (w.extractLsb' 6 6))
      else if w.extractLsb' 6 6 = 0 then some (.ksetAll d (aOf w)) else none
  else none

/-- Major 0x34 (R18, R168). -/
def decodeSys (w : BitVec 32) : Option Instr :=
  match (fn6Of w).toNat with
  | 0x00 => zero5 (aOf w) (some (.sysrd (dOf w) (sysOf w)))
  | 0x01 => zero5 (dOf w) (some (.syswr (aOf w) (sysOf w)))
  | _ => none

/-- Major 0x12 (R157): imm16 = 0 is `loop.s`, and bit 15 is illegal. -/
def decodeLoop (w : BitVec 32) : Option Instr :=
  zero5 (dOf w)
    (if immOf w = 0 then some (.loopS (aOf w))
     else if w.extractLsb' 15 1 = 0 then some (.loop (aOf w) (w.extractLsb' 0 15)) else none)

/-- The shift-immediate forms: imm16[15:6] is reserved (R16). -/
def shiftImm (w : BitVec 32) (i : Instr) : Option Instr := if w.extractLsb' 6 10 = 0 then some i else none

/-- The scalar opcode map (R18). -/
def decodeScalar (w : BitVec 32) : Option Instr :=
  match (majorOf w).toNat with
  | 0x00 => decodeInteger w
  | 0x01 => some (.addi (dOf w) (aOf w) (immOf w))
  | 0x02 => some (.andi (dOf w) (aOf w) (immOf w))
  | 0x03 => some (.ori (dOf w) (aOf w) (immOf w))
  | 0x04 => some (.xori (dOf w) (aOf w) (immOf w))
  | 0x05 => shiftImm w (.slli (dOf w) (aOf w) (w.extractLsb' 0 6))
  | 0x06 => shiftImm w (.srli (dOf w) (aOf w) (w.extractLsb' 0 6))
  | 0x07 => shiftImm w (.srai (dOf w) (aOf w) (w.extractLsb' 0 6))
  | 0x08 => some (.slti (dOf w) (aOf w) (immOf w))
  | 0x09 => zero5 (aOf w) (some (.lui (dOf w) (immOf w)))
  | 0x0A => some (.beq (dOf w) (aOf w) (immOf w))
  | 0x0B => some (.bne (dOf w) (aOf w) (immOf w))
  | 0x0C => some (.blt (dOf w) (aOf w) (immOf w))
  | 0x0D => some (.bge (dOf w) (aOf w) (immOf w))
  | 0x0E => some (.bltn (dOf w) (aOf w) (immOf w))
  | 0x0F => some (.bgen (dOf w) (aOf w) (immOf w))
  | 0x10 => some (.j (offOf w))
  | 0x11 => some (.jal (offOf w))
  | 0x12 => decodeLoop w
  | 0x14 => some (.ldI8 (dOf w) (aOf w) (immOf w))
  | 0x15 => some (.ldI16 (dOf w) (aOf w) (immOf w))
  | 0x16 => some (.ldI32 (dOf w) (aOf w) (immOf w))
  | 0x17 => some (.ldI64 (dOf w) (aOf w) (immOf w))
  | 0x18 => some (.ldN8 (dOf w) (aOf w) (immOf w))
  | 0x19 => some (.ldN16 (dOf w) (aOf w) (immOf w))
  | 0x1A => some (.ldN32 (dOf w) (aOf w) (immOf w))
  | 0x1C => some (.st8 (dOf w) (aOf w) (immOf w))
  | 0x1D => some (.st16 (dOf w) (aOf w) (immOf w))
  | 0x1E => some (.st32 (dOf w) (aOf w) (immOf w))
  | 0x1F => some (.st64 (dOf w) (aOf w) (immOf w))
  | 0x20 => decodeMemory w
  | 0x21 => decodeAtomic w
  | 0x22 => decodeEngine w
  | 0x24 => decodeTime w
  | 0x28 => decodeScheduling w
  | 0x2C => decodeTrap w
  | 0x2D => zero5 (dOf w) (zero5 (aOf w) (some (.spt (immOf w))))
  | 0x2E => zero5 (dOf w) (zero5 (aOf w) (some (.trap (immOf w))))
  | 0x30 => decodeFabric w
  | 0x31 => if w.extractLsb' 12 4 = 0 ∧ w.extractLsb' 6 3 = 0 then (tOf (aOf w)).bind fun a => some (.inj (dOf w) a (w.extractLsb' 9 3) (w.extractLsb' 1 5) (w.extractLsb' 0 1)) else none
  | 0x32 => if w.extractLsb' 12 4 = 0 ∧ dOf w ≠ 0 ∧ dOf w ≠ 31 then (tOf (aOf w)).bind fun a => some (.drn (dOf w) a (w.extractLsb' 6 6) (w.extractLsb' 1 5) (w.extractLsb' 0 1)) else none
  | 0x33 => decodeKset w
  | 0x34 => decodeSys w
  | _ => none

/-- The word of a scalar instruction, from the same formats and maps; none for element operations and events. -/
def scalarWord (i : Instr) : Option (BitVec 32) :=
  match i with
  | .add d a b => some (srWord 0x00 d a b 0x0#11)
  | .sub d a b => some (srWord 0x00 d a b 0x1#11)
  | .and d a b => some (srWord 0x00 d a b 0x2#11)
  | .or d a b => some (srWord 0x00 d a b 0x3#11)
  | .xor d a b => some (srWord 0x00 d a b 0x4#11)
  | .sll d a b => some (srWord 0x00 d a b 0x8#11)
  | .srl d a b => some (srWord 0x00 d a b 0x9#11)
  | .sra d a b => some (srWord 0x00 d a b 0xA#11)
  | .mul d a b => some (srWord 0x00 d a b 0x10#11)
  | .mulh d a b => some (srWord 0x00 d a b 0x11#11)
  | .mulhn d a b => some (srWord 0x00 d a b 0x12#11)
  | .div d a b => some (srWord 0x00 d a b 0x14#11)
  | .divn d a b => some (srWord 0x00 d a b 0x15#11)
  | .rem d a b => some (srWord 0x00 d a b 0x16#11)
  | .remn d a b => some (srWord 0x00 d a b 0x17#11)
  | .min d a b => some (srWord 0x00 d a b 0x18#11)
  | .max d a b => some (srWord 0x00 d a b 0x19#11)
  | .minn d a b => some (srWord 0x00 d a b 0x1A#11)
  | .maxn d a b => some (srWord 0x00 d a b 0x1B#11)
  | .clz d a => some (srWord 0x00 d a 0x0#5 0x20#11)
  | .popc d a => some (srWord 0x00 d a 0x0#5 0x21#11)
  | .sext8 d a => some (srWord 0x00 d a 0x0#5 0x24#11)
  | .sext16 d a => some (srWord 0x00 d a 0x0#5 0x25#11)
  | .sext32 d a => some (srWord 0x00 d a 0x0#5 0x26#11)
  | .zext8 d a => some (srWord 0x00 d a 0x0#5 0x28#11)
  | .zext16 d a => some (srWord 0x00 d a 0x0#5 0x29#11)
  | .zext32 d a => some (srWord 0x00 d a 0x0#5 0x2A#11)
  | .slt d a b => some (srWord 0x00 d a b 0x30#11)
  | .sltn d a b => some (srWord 0x00 d a b 0x31#11)
  | .jr a => some (srWord 0x00 0x0#5 a 0x0#5 0x38#11)
  | .jalr d a => some (srWord 0x00 d a 0x0#5 0x39#11)
  | .addi d a imm => some (siWord 0x01 d a imm)
  | .andi d a imm => some (siWord 0x02 d a imm)
  | .ori d a imm => some (siWord 0x03 d a imm)
  | .xori d a imm => some (siWord 0x04 d a imm)
  | .slli d a imm => some (siWord 0x05 d a (0x0#10 ++ imm))
  | .srli d a imm => some (siWord 0x06 d a (0x0#10 ++ imm))
  | .srai d a imm => some (siWord 0x07 d a (0x0#10 ++ imm))
  | .slti d a imm => some (siWord 0x08 d a imm)
  | .lui d imm => some (siWord 0x09 d 0x0#5 imm)
  | .beq a b off => some (siWord 0x0A a b off)
  | .bne a b off => some (siWord 0x0B a b off)
  | .blt a b off => some (siWord 0x0C a b off)
  | .bge a b off => some (siWord 0x0D a b off)
  | .bltn a b off => some (siWord 0x0E a b off)
  | .bgen a b off => some (siWord 0x0F a b off)
  | .j off => some (sjWord 0x10 off)
  | .jal off => some (sjWord 0x11 off)
  | .loop a imm => some (siWord 0x12 0x0#5 a (0x0#1 ++ imm))
  | .loopS a => some (siWord 0x12 0x0#5 a 0x0#16)
  | .ldI8 d a imm => some (siWord 0x14 d a imm)
  | .ldI16 d a imm => some (siWord 0x15 d a imm)
  | .ldI32 d a imm => some (siWord 0x16 d a imm)
  | .ldI64 d a imm => some (siWord 0x17 d a imm)
  | .ldN8 d a imm => some (siWord 0x18 d a imm)
  | .ldN16 d a imm => some (siWord 0x19 d a imm)
  | .ldN32 d a imm => some (siWord 0x1A d a imm)
  | .st8 d a imm => some (siWord 0x1C d a imm)
  | .st16 d a imm => some (siWord 0x1D d a imm)
  | .st32 d a imm => some (siWord 0x1E d a imm)
  | .st64 d a imm => some (siWord 0x1F d a imm)
  | .ldim32 d a => some (srWord 0x20 d a 0x0#5 0x0#11)
  | .ldim64 d a => some (srWord 0x20 d a 0x0#5 0x1#11)
  | .stim32 d a => some (srWord 0x20 d a 0x0#5 0x2#11)
  | .stim64 d a => some (srWord 0x20 d a 0x0#5 0x3#11)
  | .futget d a b => some (srWord 0x20 d a b 0x8#11)
  | .futset d a b => some (srWord 0x20 d a b 0x9#11)
  | .futclr a => some (srWord 0x20 0x0#5 a 0x0#5 0xA#11)
  | .smap a b => some (srWord 0x20 0x0#5 a b 0x10#11)
  | .sunmap a => some (srWord 0x20 0x0#5 a 0x0#5 0x11#11)
  | .sflush a => some (srWord 0x20 0x0#5 a 0x0#5 0x12#11)
  | .linv a b => some (srWord 0x20 0x0#5 a b 0x13#11)
  | .wbr a b => some (srWord 0x20 0x0#5 a b 0x14#11)
  | .dswitch a b => some (srWord 0x20 0x0#5 a b 0x15#11)
  | .phadv => some (srWord 0x20 0x0#5 0x0#5 0x0#5 0x16#11)
  | .rst d a b => some (srWord 0x20 d a b 0x18#11)
  | .rstO d a b => some (srWord 0x20 d a b 0x19#11)
  | .fenceE => some (srWord 0x20 0x0#5 0x0#5 0x0#5 0x20#11)
  | .fenceA => some (srWord 0x20 0x0#5 0x0#5 0x0#5 0x21#11)
  | .fenceQ => some (srWord 0x20 0x0#5 0x0#5 0x0#5 0x22#11)
  | .fenceS => some (srWord 0x20 0x0#5 0x0#5 0x0#5 0x23#11)
  | .fenceAll => some (srWord 0x20 0x0#5 0x0#5 0x0#5 0x24#11)
  | .amoAdd d a b acq w => some (srWord 0x21 d a b (0x0#6 ++ acq ++ w ++ 0x0#3))
  | .amoMin d a b acq w => some (srWord 0x21 d a b (0x0#6 ++ acq ++ w ++ 0x1#3))
  | .amoMax d a b acq w => some (srWord 0x21 d a b (0x0#6 ++ acq ++ w ++ 0x2#3))
  | .amoAnd d a b acq w => some (srWord 0x21 d a b (0x0#6 ++ acq ++ w ++ 0x3#3))
  | .amoOr d a b acq w => some (srWord 0x21 d a b (0x0#6 ++ acq ++ w ++ 0x4#3))
  | .amoXor d a b acq w => some (srWord 0x21 d a b (0x0#6 ++ acq ++ w ++ 0x5#3))
  | .amoSwap d a b acq w => some (srWord 0x21 d a b (0x0#6 ++ acq ++ w ++ 0x6#3))
  | .amoCas d a b acq w => some (srWord 0x21 d a b (0x0#6 ++ acq ++ w ++ 0x7#3))
  | .amoFadd d a b acq => some (srWord 0x21 d a b (0x1#6 ++ acq ++ 0x0#4))
  | .cpy a b => some (srWord 0x22 0x0#5 a b 0x0#11)
  | .gath a b => some (srWord 0x22 0x0#5 a b 0x1#11)
  | .scat a b => some (srWord 0x22 0x0#5 a b 0x2#11)
  | .mrg a b => some (srWord 0x22 0x0#5 a b 0x3#11)
  | .coll a b vt zd => some (srWord 0x22 0x0#5 a b (0x1#8 ++ vt ++ zd))
  | .evget d => some (srWord 0x22 d 0x0#5 0x0#5 0x10#11)
  | .hprobe a b => some (srWord 0x22 0x0#5 a b 0x11#11)
  | .hins a b => some (srWord 0x22 0x0#5 a b 0x12#11)
  | .tjoin d a b => some (srWord 0x24 (0x0#2 ++ d) (0x0#2 ++ a) (0x0#2 ++ b) 0x0#11)
  | .tmeet d a b => some (srWord 0x24 (0x0#2 ++ d) (0x0#2 ++ a) (0x0#2 ++ b) 0x1#11)
  | .tle d a b => some (srWord 0x24 d (0x0#2 ++ a) (0x0#2 ++ b) 0x2#11)
  | .tadv d a b => some (srWord 0x24 (0x0#2 ++ d) (0x0#2 ++ a) b 0x3#11)
  | .tincE d a => some (srWord 0x24 (0x0#2 ++ d) (0x0#2 ++ a) 0x0#5 0x4#11)
  | .tinc1 d a => some (srWord 0x24 (0x0#2 ++ d) (0x0#2 ++ a) 0x0#5 0x5#11)
  | .tinc2 d a => some (srWord 0x24 (0x0#2 ++ d) (0x0#2 ++ a) 0x0#5 0x6#11)
  | .tinc3 d a => some (srWord 0x24 (0x0#2 ++ d) (0x0#2 ++ a) 0x0#5 0x7#11)
  | .tmk d a => some (srWord 0x24 (0x0#2 ++ d) a 0x0#5 0x8#11)
  | .tfld d a sel => some (srWord 0x24 d (0x0#2 ++ a) 0x0#5 (sel ++ 0x9#5))
  | .fget d scope word => some (srWord 0x24 (0x0#2 ++ d) 0x0#5 0x0#5 (0x0#1 ++ scope ++ word ++ 0xA#5))
  | .fwait d a scope => some (srWord 0x24 d (0x0#2 ++ a) 0x0#5 (0x0#3 ++ scope ++ 0xB#5))
  | .stkget a b scope => some (srWord 0x24 0x0#5 (0x0#2 ++ a) b (0x0#3 ++ scope ++ 0xC#5))
  | .stkdrop a b scope => some (srWord 0x24 0x0#5 (0x0#2 ++ a) b (0x0#3 ++ scope ++ 0xD#5))
  | .stkdn a b scope => some (srWord 0x24 0x0#5 (0x0#2 ++ a) (0x0#2 ++ b) (0x0#3 ++ scope ++ 0xE#5))
  | .cfg a => some (srWord 0x30 0x0#5 a 0x0#5 0x0#11)
  | .teard a => some (srWord 0x30 0x0#5 a 0x0#5 0x1#11)
  | .snd d a b cls => some (srWord 0x30 (0x0#2 ++ d) a b (0x0#3 ++ cls ++ 0x2#5))
  | .sndO d a b cls => some (srWord 0x30 (0x0#2 ++ d) a b (0x0#3 ++ cls ++ 0x3#5))
  | .clsm cls => some (srWord 0x30 0x0#5 0x0#5 0x0#5 (0x0#2 ++ cls ++ 0x4#5))
  | .clsu cls => some (srWord 0x30 0x0#5 0x0#5 0x0#5 (0x0#2 ++ cls ++ 0x5#5))
  | .qspill a b cls => some (srWord 0x30 0x0#5 a b (0x0#3 ++ cls ++ 0x6#5))
  | .wfe => some (srWord 0x30 0x0#5 0x0#5 0x0#5 0x7#11)
  | .halt => some (srWord 0x30 0x0#5 0x0#5 0x0#5 0x8#11)
  | .inj d a row slot port => some (siWord 0x31 d (0x0#2 ++ a) (0x0#4 ++ row ++ 0x0#3 ++ slot ++ port))
  | .drn d a elem slot port => some (siWord 0x32 d (0x0#2 ++ a) (0x0#4 ++ elem ++ slot ++ port))
  | .kset d a elem => some (sxWord 0x33 (0x0#2 ++ d) a (0x0#4 ++ elem) 0x0#6)
  | .ksetAll d a => some (sxWord 0x33 (0x0#2 ++ d) a 0x200#10 0x0#6)
  | .sysrd d sys => some (sxWord 0x34 d 0x0#5 sys 0x0#6)
  | .syswr a sys => some (sxWord 0x34 0x0#5 a sys 0x1#6)
  | .spawn d a => some (srWord 0x28 d a 0x0#5 0x0#11)
  | .rng a => some (srWord 0x28 0x0#5 a 0x0#5 0x1#11)
  | .rngC d => some (srWord 0x28 d 0x0#5 0x0#5 0x1#11)
  | .dcnt a => some (srWord 0x28 0x0#5 a 0x0#5 0x2#11)
  | .dset a b => some (srWord 0x28 0x0#5 a b 0x3#11)
  | .cjoin a => some (srWord 0x28 0x0#5 a 0x0#5 0x4#11)
  | .cleave a => some (srWord 0x28 0x0#5 a 0x0#5 0x5#11)
  | .cbar a b => some (srWord 0x28 0x0#5 a b 0x6#11)
  | .yield => some (srWord 0x28 0x0#5 0x0#5 0x0#5 0x7#11)
  | .fin => some (srWord 0x28 0x0#5 0x0#5 0x0#5 0x8#11)
  | .prio a => some (srWord 0x28 0x0#5 a 0x0#5 0x9#11)
  | .tret => some (srWord 0x2C 0x0#5 0x0#5 0x0#5 0x0#11)
  | .ctxsv d a b => some (srWord 0x2C d a b 0x1#11)
  | .ctxld a => some (srWord 0x2C 0x0#5 a 0x0#5 0x2#11)
  | .tmigr a => some (srWord 0x2C 0x0#5 a 0x0#5 0x3#11)
  | .brk => some (srWord 0x2C 0x0#5 0x0#5 0x0#5 0x4#11)
  | .spt imm => some (siWord 0x2D 0x0#5 0x0#5 imm)
  | .trap imm => some (siWord 0x2E 0x0#5 0x0#5 imm)
  | _ => none

/-! ## Element words -/

/-- An element word (R24): OP, then the fields of `EW`. -/
def elemBits (op : BitVec 9) (w : EW) : BitVec 64 :=
  op ++ w.ty ++ w.sa ++ w.sb ++ w.ai ++ w.bi ++ w.t0 ++ w.t1 ++ w.tg ++ w.imm

/-- OP, field [63:55] (R24). -/
def opOf (w : BitVec 64) : BitVec 9 := w.extractLsb' 55 9

/-- The fields below OP (R24). -/
def ewOf (w : BitVec 64) : EW where
  ty := w.extractLsb' 52 3
  sa := w.extractLsb' 49 3
  sb := w.extractLsb' 46 3
  ai := w.extractLsb' 43 3
  bi := w.extractLsb' 40 3
  t0 := w.extractLsb' 27 13
  t1 := w.extractLsb' 14 13
  tg := w.extractLsb' 10 4
  imm := w.extractLsb' 0 10

/-- The rounding groups, OP 0x000 to 0x067: OP = g x 8 + rm, with rm 0 to 4 (R29). -/
def decodeRounding (g : Nat) (rm : BitVec 3) (f : EW) : Option Instr :=
  if rm.toNat < 5 then
    match g with
    | 0 => some (.eAdd rm f)
    | 1 => some (.eSub rm f)
    | 2 => some (.eMul rm f)
    | 3 => some (.eMad rm f)
    | 4 => some (.eVadd rm f)
    | 5 => some (.eVsub rm f)
    | 6 => some (.eVmul rm f)
    | 7 => some (.eVfma rm f)
    | 8 => some (.eVred rm f)
    | 9 => some (.eCvt rm f)
    | 10 => some (.eCvts rm f)
    | 11 => some (.eVcvt rm f)
    | 12 => some (.ePack rm f)
    | _ => none
  else none

/-- The element opcode map (R29). -/
def decodeElem (w : BitVec 64) : Option Instr :=
  let f := ewOf w
  if (opOf w).toNat < 0x68 then decodeRounding ((opOf w).extractLsb' 3 6).toNat ((opOf w).extractLsb' 0 3) f
  else
    match (opOf w).toNat with
    | 0x080 => some (.eMin f)
    | 0x081 => some (.eMax f)
    | 0x082 => some (.eAbs f)
    | 0x083 => some (.eNeg f)
    | 0x084 => some (.eAnd f)
    | 0x085 => some (.eOr f)
    | 0x086 => some (.eXor f)
    | 0x087 => some (.eShl f)
    | 0x088 => some (.eShr f)
    | 0x089 => some (.eSar f)
    | 0x090 => some (.eCeq f)
    | 0x091 => some (.eCne f)
    | 0x092 => some (.eClt f)
    | 0x093 => some (.eCle f)
    | 0x094 => some (.eSel f)
    | 0x095 => some (.eMov f)
    | 0x096 => some (.eClz f)
    | 0x097 => some (.eExt f)
    | 0x098 => some (.eUnpack f)
    | 0x0A0 => some (.eVmin f)
    | 0x0A1 => some (.eVmax f)
    | 0x0A2 => some (.eVbc f)
    | 0x0A3 => some (.eVins f)
    | 0x0A4 => some (.eVext f)
    | 0x0B0 => some (.eSteer f)
    | 0x0B1 => some (.eMerge f)
    | 0x0B2 => some (.eGate f)
    | 0x0B3 => some (.eTjn f)
    | 0x0B4 => some (.eTle f)
    | 0x0B5 => some (.eTadv f)
    | 0x0B6 => some (.eTgt f)
    | 0x0B7 => some (.eTst f)
    | 0x100 => some (.eCtr f)
    | 0x101 => some (.eCtrb f)
    | 0x102 => some (.eRpt f)
    | 0x103 => some (.eEmit f)
    | 0x104 => some (.eSink f)
    | 0x105 => some (.eMark f)
    | 0x106 => some (.eTdn f)
    | 0x107 => some (.eCmpl f)
    | 0x110 => some (.eLdst f)
    | 0x111 => some (.eLdr f)
    | 0x112 => some (.eStr f)
    | 0x113 => some (.eVld f)
    | 0x114 => some (.eVst f)
    | 0x118 => some (.eUpdAdd f)
    | 0x119 => some (.eUpdMin f)
    | 0x11A => some (.eUpdMax f)
    | 0x11B => some (.eUpdOr f)
    | 0x11C => some (.eUpdSwap f)
    | 0x120 => some (.eAmoAdd f)
    | 0x121 => some (.eAmoMin f)
    | 0x122 => some (.eAmoMax f)
    | 0x123 => some (.eAmoAnd f)
    | 0x124 => some (.eAmoOr f)
    | 0x125 => some (.eAmoXor f)
    | 0x126 => some (.eAmoSwap f)
    | 0x127 => some (.eAmoCas f)
    | 0x128 => some (.eAmoFadd f)
    | 0x14C => some (.eMsca f)
    | 0x14D => some (.eMband f)
    | 0x14E => some (.eMmode f)
    | 0x160 => some (.eSnd f)
    | 0x161 => some (.eSndO f)
    | 0x162 => some (.eAprobe f)
    | 0x163 => some (.eHprobe f)
    | 0x164 => some (.eCons f)
    | 0x140 => some (.eMpre 0 f)
    | 0x141 => some (.eMpre 1 f)
    | 0x142 => some (.eMpre 2 f)
    | 0x143 => some (.eMpre 3 f)
    | 0x144 => some (.eMrow 0 f)
    | 0x145 => some (.eMrow 1 f)
    | 0x146 => some (.eMrow 2 f)
    | 0x147 => some (.eMrow 3 f)
    | 0x148 => some (.eMdrn 0 f)
    | 0x149 => some (.eMdrn 1 f)
    | 0x14A => some (.eMdrn 2 f)
    | 0x14B => some (.eMdrn 3 f)
    | _ => none

/-- The word of an element operation; none for scalar instructions and events. -/
def elemWord (i : Instr) : Option (BitVec 64) :=
  match i with
  | .eAdd rm w => some (elemBits (0x00#6 ++ rm) w)
  | .eSub rm w => some (elemBits (0x01#6 ++ rm) w)
  | .eMul rm w => some (elemBits (0x02#6 ++ rm) w)
  | .eMad rm w => some (elemBits (0x03#6 ++ rm) w)
  | .eVadd rm w => some (elemBits (0x04#6 ++ rm) w)
  | .eVsub rm w => some (elemBits (0x05#6 ++ rm) w)
  | .eVmul rm w => some (elemBits (0x06#6 ++ rm) w)
  | .eVfma rm w => some (elemBits (0x07#6 ++ rm) w)
  | .eVred rm w => some (elemBits (0x08#6 ++ rm) w)
  | .eCvt rm w => some (elemBits (0x09#6 ++ rm) w)
  | .eCvts rm w => some (elemBits (0x0A#6 ++ rm) w)
  | .eVcvt rm w => some (elemBits (0x0B#6 ++ rm) w)
  | .ePack rm w => some (elemBits (0x0C#6 ++ rm) w)
  | .eMin w => some (elemBits 0x080 w)
  | .eMax w => some (elemBits 0x081 w)
  | .eAbs w => some (elemBits 0x082 w)
  | .eNeg w => some (elemBits 0x083 w)
  | .eAnd w => some (elemBits 0x084 w)
  | .eOr w => some (elemBits 0x085 w)
  | .eXor w => some (elemBits 0x086 w)
  | .eShl w => some (elemBits 0x087 w)
  | .eShr w => some (elemBits 0x088 w)
  | .eSar w => some (elemBits 0x089 w)
  | .eCeq w => some (elemBits 0x090 w)
  | .eCne w => some (elemBits 0x091 w)
  | .eClt w => some (elemBits 0x092 w)
  | .eCle w => some (elemBits 0x093 w)
  | .eSel w => some (elemBits 0x094 w)
  | .eMov w => some (elemBits 0x095 w)
  | .eClz w => some (elemBits 0x096 w)
  | .eExt w => some (elemBits 0x097 w)
  | .eUnpack w => some (elemBits 0x098 w)
  | .eVmin w => some (elemBits 0x0A0 w)
  | .eVmax w => some (elemBits 0x0A1 w)
  | .eVbc w => some (elemBits 0x0A2 w)
  | .eVins w => some (elemBits 0x0A3 w)
  | .eVext w => some (elemBits 0x0A4 w)
  | .eSteer w => some (elemBits 0x0B0 w)
  | .eMerge w => some (elemBits 0x0B1 w)
  | .eGate w => some (elemBits 0x0B2 w)
  | .eTjn w => some (elemBits 0x0B3 w)
  | .eTle w => some (elemBits 0x0B4 w)
  | .eTadv w => some (elemBits 0x0B5 w)
  | .eTgt w => some (elemBits 0x0B6 w)
  | .eTst w => some (elemBits 0x0B7 w)
  | .eCtr w => some (elemBits 0x100 w)
  | .eCtrb w => some (elemBits 0x101 w)
  | .eRpt w => some (elemBits 0x102 w)
  | .eEmit w => some (elemBits 0x103 w)
  | .eSink w => some (elemBits 0x104 w)
  | .eMark w => some (elemBits 0x105 w)
  | .eTdn w => some (elemBits 0x106 w)
  | .eCmpl w => some (elemBits 0x107 w)
  | .eLdst w => some (elemBits 0x110 w)
  | .eLdr w => some (elemBits 0x111 w)
  | .eStr w => some (elemBits 0x112 w)
  | .eVld w => some (elemBits 0x113 w)
  | .eVst w => some (elemBits 0x114 w)
  | .eUpdAdd w => some (elemBits 0x118 w)
  | .eUpdMin w => some (elemBits 0x119 w)
  | .eUpdMax w => some (elemBits 0x11A w)
  | .eUpdOr w => some (elemBits 0x11B w)
  | .eUpdSwap w => some (elemBits 0x11C w)
  | .eAmoAdd w => some (elemBits 0x120 w)
  | .eAmoMin w => some (elemBits 0x121 w)
  | .eAmoMax w => some (elemBits 0x122 w)
  | .eAmoAnd w => some (elemBits 0x123 w)
  | .eAmoOr w => some (elemBits 0x124 w)
  | .eAmoXor w => some (elemBits 0x125 w)
  | .eAmoSwap w => some (elemBits 0x126 w)
  | .eAmoCas w => some (elemBits 0x127 w)
  | .eAmoFadd w => some (elemBits 0x128 w)
  | .eMsca w => some (elemBits 0x14C w)
  | .eMband w => some (elemBits 0x14D w)
  | .eMmode w => some (elemBits 0x14E w)
  | .eSnd w => some (elemBits 0x160 w)
  | .eSndO w => some (elemBits 0x161 w)
  | .eAprobe w => some (elemBits 0x162 w)
  | .eHprobe w => some (elemBits 0x163 w)
  | .eCons w => some (elemBits 0x164 w)
  | .eMpre fmt w => some (elemBits (0x50#7 ++ fmt) w)
  | .eMrow fmt w => some (elemBits (0x51#7 ++ fmt) w)
  | .eMdrn fmt w => some (elemBits (0x52#7 ++ fmt) w)
  | _ => none

/-! ## Encoding and the host's word -/

/-- The words of an instruction as one number with its width in bits: 32 for a scalar word, 64 for an element word; none for
an event, which has no encoding. -/
def encode (i : Instr) : Option (Nat × Nat) :=
  match scalarWord i with
  | some w => some (32, w.toNat)
  | none =>
    match elemWord i with
    | some w => some (64, w.toNat)
    | none => none

/-- The zero-extended word of a scalar instruction, as EADDR holds it (R10). -/
def eaddrWord (i : Instr) : Word := ((scalarWord i).getD 0).setWidth 64

/-- The instruction of a word of the table: a scalar word is 32 bits, an element word 64. -/
def decodeTableWord (nbits w : Nat) : Option Instr :=
  if nbits ≤ 32 then decodeScalar (BitVec.ofNat 32 w) else decodeElem (BitVec.ofNat 64 w)

end Sys2Proof
end

