-- ==== Sys2Proof/Machine/State.lean ====
section
/-!
DEFINITION. The state of the KZ9 as plain data: everything the spec gives the machine (INVENTORY.md, State), and the state
right after reset. A `Map` holds one value per index; a value not listed is the default its reader names.
-/
namespace Sys2Proof.Machine

open Sys2Proof

/-! ## Tokens, records and messages -/

/-- A token inside a core (R33): the element, slot and port are given by the place that holds it. PATH is LEN in [10:8] and
the path bits in [7:0]. -/
structure Token where
  value : Word
  time : Word
  diff : BitVec 32
  path : BitVec 11
  p : Bool
  m : Bool
  l : Bool
  c : Bool
  ctx : BitVec 4
  deriving DecidableEq, Repr

/-- A 32-byte completion record (R149, R150). -/
structure Rec where
  w0 : Word
  w1 : Word
  w2 : Word
  w3 : Word
  deriving DecidableEq, Repr

/-- A message: the header and payload flit fields of R84. -/
structure Msg where
  cls : BitVec 4
  dst : BitVec 10
  cont : BitVec 12
  opc : BitVec 9
  o : Bool
  p : Bool
  m : Bool
  l : Bool
  plane : BitVec 2
  src : BitVec 10
  seq : BitVec 10
  path : BitVec 11
  diff : BitVec 32
  phase : BitVec 24
  value : Word
  time : Word
  deriving DecidableEq, Repr

/-- A message in flight. `left` says that it has left its interface's first buffer (R93); `held` that the source holds it for a
tourbillon exchange (R356); `issuer` is the scalar core whose enqueue it carries (R304); `chip` is the
source chip of a message that came from another module (R376). -/
structure NetMsg where
  msg : Msg
  left : Bool
  held : Bool
  issuer : Option Kind
  chip : Option Nat
  /-- The parts of the spawn that a SPREF answers (R296). -/
  parts : List Msg
  deriving DecidableEq, Repr

/-- A spawn that has been sent and not yet taken (R296): its issuer and its parts, whether it has been refused, and the network cycles since. -/
structure Retry where
  age : Nat
  issuer : Option Kind
  parts : List Msg
  refused : Bool
  deriving DecidableEq, Repr

/-- Who asked for a freeze (R345): a pre-emption, a checkpoint, an exchange with another position. -/
inductive FreezeBy where
  | preempt
  | checkpoint
  | swap (other : Nat)
  deriving DecidableEq, Repr

/-- A report to Zusil: what it names (R77, R83, R85, R91, R100, R106, R128, R151, R318, R320, R336, R337, R346, R347). -/
inductive ZRec where
  /-- A copy of a completion record (R151). -/
  | copy (vcn : Nat) (r : Rec)
  /-- A denied access: target, master id, physical address (R77). Slices are die x 21 + slice, channel controllers 1,000 + die x 64 +
  channel, the host window 2,000, a peer port 3,000 + its master index. -/
  | denied (target master pa : Nat)
  /-- A message with a reserved opcode, class set or subop (R85, R86). -/
  | badMessage (vcn : Nat) (opc : BitVec 9)
  /-- A dropped run packet: stream and child (R106). -/
  | runPacket (stream child : Nat)
  /-- A batch with SAT nonzero reached the crown (R318). -/
  | saturated (scope : Nat)
  /-- A change at a time already complete (R320). -/
  | lateChange (scope : Nat) (t : Word)
  /-- A double trap: cause, EADDR value, EPC value and pc (R336). -/
  | doubleTrap (vcn : Nat) (k : Kind) (cause : Nat) (eaddr epc pc : Word)
  /-- `brk` with DBE = 1 (R337). -/
  | breakStop (vcn : Nat) (k : Kind)
  /-- A refused freeze: the request, the position and the first part that had not stopped (R346). -/
  | freezeRefused (by_ : FreezeBy) (pcn part : Nat)
  /-- A resumption whose check word does not match (R347). -/
  | badContext (vcn : Nat)
  /-- A corrected soft error (R80). -/
  | corrected
  /-- The debugger's read of core state through a probe (R98, R382). -/
  | probeValue (pcn : Nat) (x : Word)
  /-- A debugger write that Zusil refuses (R9). -/
  | probeRefused (pcn : Nat)
  deriving DecidableEq, Repr

/-! ## Cached lines -/

/-- An L1 or stash line (R51 to R54, R58). `present` marks the bytes the line holds, `dirty` the write mask, `pend` the bytes
of a publication whose WTS has not returned, `poison` the marks of its 16 words (R80). -/
structure Line where
  data : LineData
  present : LineMask
  dirty : LineMask
  pend : LineMask
  poison : BitVec 16
  wts : Word
  rts : Word
  /-- Interleave domain of the window it was reached through (R39). -/
  dom : BitVec 4
  /-- DRAM interleave of that window (R37). -/
  sprd : Bool
  deriving DecidableEq, Repr

/-- A mapped stash block (R58): the virtual page it stands for, the page's physical address, and its lines by number 0 to 31. -/
structure Block where
  vpage : Nat
  ppage : Nat
  lines : Map Line
  deriving DecidableEq, Repr

/-- An L2 line (R45, R49, R114, R115). `full` holds the F bits of its 16 words. -/
structure L2Line where
  data : LineData
  dirty : Bool
  wts : Word
  rts : Word
  sp : Word
  full : BitVec 16
  poison : BitVec 16
  dom : BitVec 4
  ver : BitVec 4
  sprd : Bool
  deriving DecidableEq, Repr

/-- An L2 slice (R43, R45): its phase registers, lines by line address, and the lines under a lock with the request that holds it. -/
structure Slice where
  hts : Word
  mts : Word
  lines : Map L2Line
  locks : List (Nat × Nat)
  conflict : List Nat
  deriving DecidableEq, Repr

/-- A successful translation held by a TLB (R67). -/
structure TlbEntry where
  vpage : Nat
  ppage : Nat
  win : BitVec 6
  x : Bool
  w : Bool
  rd : Bool
  deriving DecidableEq, Repr

/-! ## Memory requests of the scalar cores -/

/-- A checked access to bytes of one line: virtual and physical address, length, and the window descriptor (R39, R79). -/
structure Acc where
  va : Nat
  pa : Nat
  n : Nat
  win : Word
  deriving DecidableEq, Repr

/-- What a request asks of its home slice or channel (R51, R54, R112, R113, R117 to R119). -/
inductive MemOp where
  | renew (q lease : Word)
  | publish (mask : LineMask) (data : LineData) (poison : BitVec 16) (q : Word)
  | read (n : Nat)
  | write (n x : Nat)
  | amo (opn : BitVec 3) (fp : Bool) (n : Nat) (x c ph : Word)
  | futget (node : Option Nat) (cont : Word)
  | futset (x ph : Word)
  | futclr
  deriving DecidableEq, Repr

/-- Where a request is (R43): travelling, in the bank's conflict queue, or holding the line lock while its line is filled. -/
inductive Stage where
  | flight
  | conflict
  | fill
  deriving DecidableEq, Repr

/-- A memory request (R48): its source, operation and checked access, the VER under which its source computed the home, and that
home. A host-shared access is performed at the channel controller (R40). -/
structure MemReq where
  id : Nat
  p : Nat
  k : Kind
  op : MemOp
  acc : Acc
  ver : BitVec 4
  slice : Nat
  posted : Bool
  word : BitVec 32
  stage : Stage
  /-- The plane its interface picked, and whether it has left its first buffer (R93). -/
  plane : BitVec 2
  left : Bool
  deriving DecidableEq, Repr

/-- The contents of a reply. -/
inductive Reply where
  | line (l : L2Line)
  | wts (w : Word)
  | value (x sp : Word)
  | done
  | error (cause : Nat)
  /-- The check of a future node's address failed at this byte (R117). -/
  | fault (cause va : Nat)
  deriving DecidableEq, Repr

/-- A reply on its way to the requester (R98). -/
structure MemReply where
  req : MemReq
  reply : Reply
  deriving DecidableEq, Repr

/-! ## Scalar cores -/

/-- A barrier continuation (R307, R308): the scalar core that arrived, ENTRY, PRIO, ARG and the phase the completion carried. -/
structure BarSlot where
  kind : Kind
  entry : BitVec 16
  prio : BitVec 2
  arg : BitVec 32
  phase : BitVec 24
  deriving DecidableEq, Repr

/-- A dispatched future continuation (R117, R118): the future word's address, the value set, the continuation and the phase. -/
structure FutSlot where
  va : Word
  value : Word
  entry : BitVec 16
  prio : BitVec 2
  arg : BitVec 32
  phase : BitVec 24
  deriving DecidableEq, Repr

/-- The identity of a firing (R300): a launch firing, a task-table entry, a handler with the message it has taken, a future
continuation, a barrier continuation (log 40, DEDUCED). -/
inductive FiringId where
  | launch
  | task (entry : Nat)
  | handler (cls : Nat) (m : Option Msg)
  | future (f : FutSlot)
  | barrier (cohort : Nat) (b : BarSlot)
  deriving DecidableEq, Repr

/-- A ready firing and the cycles it has waited in its level (R300, R302). -/
structure ReadyEnt where
  id : FiringId
  age : Nat
  deriving DecidableEq, Repr

/-- Why a scalar core is stopped (R178, R336, R337, R382). -/
inductive Stop where
  | halt
  | brk
  | double
  | debugger
  deriving DecidableEq, Repr

/-- How a publication wait ends (R126, R121, R122, R124). -/
inductive AfterPub where
  | phadv
  | smap (vpage ppage : Nat) (block : Nat)
  | sunmap (block : Nat)
  | sflush (block : Nat)
  deriving DecidableEq, Repr

/-- An engine command as it was issued (R131 to R133): the operation, its command word and its copied descriptor. -/
structure Cmd where
  op : Nat
  k : Kind
  desc : Word
  word : Word
  d : List Word
  /-- What is read at issue: the run table of `mrg` (R142), the member list of `coll` (R145). -/
  extra : List Nat
  /-- The frontier read at issue for CMODE = 1 (R143). -/
  front : List Word
  deriving DecidableEq, Repr

/-- What an instruction in progress of a scalar core waits for (R130). -/
inductive Wait where
  /-- A load: destination, size, sign, the parts still to read, the bytes read so far and their number. -/
  | load (d : BitVec 5) (n : Nat) (signed : Bool) (parts : List Acc) (acc : Nat) (got : Nat)
  /-- The reply of the request with this number: how it is written is told by the request. -/
  | reply (id : Nat) (d : BitVec 5) (acq : Bool)
  /-- The WTS of every publication of this core's instruction. -/
  | pubs (after : AfterPub)
  /-- An instruction in progress that goes on at the next step of its scalar core (R124, R130). -/
  | busy
  /-- The reference of a spawn (R296). -/
  | spawnRef (d : BitVec 5)
  /-- The keeper's opening of a range (R309). -/
  | rngOpen (entry : Nat)
  /-- The keeper's claim reply (R310). -/
  | rngClaim (d : BitVec 5)
  /-- Place in the queue of an engine, for a command that has been loaded and checked (R133). -/
  | engine (eng : Nat) (c : Cmd)
  deriving DecidableEq, Repr

/-- A scalar core (R9, R10, R12, R154, R157, R300). -/
structure Scalar where
  g : Map Word
  t : Map Word
  pc : Word
  lpc : Word
  lps : Word
  lpe : Word
  slps : Word
  slpe : Word
  spp : Bool
  lpa : Bool
  prio : BitVec 2
  /-- The running firing has executed `prio` (R303). -/
  prioSet : Bool
  hnd : Bool
  dbe : Bool
  ssr : Word
  epc : Word
  ecause : Word
  eaddr : Word
  tvec : Word
  spcount : Word
  store : Map (BitVec 32)
  run : Option FiringId
  stop : Option Stop
  wait : Option Wait
  /-- Stopped at safe point n with the pc that execution takes next (R340). -/
  sp : Option (Nat × Word)
  ready : Map (List ReadyEnt)
  /-- A code section is loaded (R5), with NSP and the safe-point table's virtual address (R341). -/
  section_ : Bool
  nsp : Nat
  sptab : Word
  /-- One more than the cycles since the last request for work, 0 where none has been made, and the entry that an outstanding request reserves (R311). -/
  askAge : Nat
  asking : Option Nat
  deriving DecidableEq, Repr

/-! ## The escapement -/

/-- The state of a task-table entry (R300). -/
inductive TaskSt where
  | free
  | wait
  | idle
  | ready
  | run
  deriving DecidableEq, Repr

/-- A task-table entry (R290, R293, R294). -/
structure Task where
  st : TaskSt
  gen : BitVec 6
  cnt : BitVec 16
  inp : Map (BitVec 16)
  actor : Bool
  kind : Kind
  prio : BitVec 2
  entry : BitVec 16
  arg : Word
  done : Option (BitVec 27)
  rates : Word
  out0 : Word
  out1 : Word
  /-- A range firing holds its piece identifier and cohort (R297, R310). -/
  range : Option (BitVec 16 × Nat)
  /-- The entry is reserved while its core asks for work (R311). -/
  reserved : Bool
  deriving DecidableEq, Repr

/-- A future node (R116, R117). -/
inductive NodeSt where
  | free
  /-- Allocated by a `futget` whose reply is still to come. -/
  | asked
  | linked (va next : Word) (entry : BitVec 16) (prio : BitVec 2) (arg : BitVec 32)
  /-- Its dispatch is on its way (R118). -/
  | sent (va : Word) (entry : BitVec 16) (prio : BitVec 2) (arg : BitVec 32)
  deriving DecidableEq, Repr

/-- A piece of an open range (R309 to R312). `lo` is the cursor. -/
structure Piece where
  pid : BitVec 16
  lo : Word
  hi : Word
  holder : Option Nat
  deriving DecidableEq, Repr

/-- An open range task (R309). -/
structure RangeTask where
  cohort : Nat
  kind : Kind
  prio : BitVec 2
  entry : BitVec 16
  arg : Word
  done : Option (BitVec 27)
  grain : Word
  pieces : List Piece
  deriving DecidableEq, Repr

/-- The opening of a range that waits at the keeper while its cohort has four open ranges (R309): the opener and the descriptor's words. -/
structure OpenReq where
  vcn : Nat
  kind : Kind
  words : List Word
  deriving DecidableEq, Repr

/-- A cohort at the keeper (R291, R307, R308): members, arrivals, and the largest carried phase of the open barrier. -/
structure Cohort where
  members : List Nat
  arrived : List Nat
  /-- The first arrival's phase, and the largest recovered against it (R307), both offset by 2^32. -/
  base : Word
  x : Word
  deriving DecidableEq, Repr

/-! ## Engines -/

/-- A running command (R134, R135): units read and not yet written, units performed, the sums its record carries, the unit it is
held at, the error that ended it, and the largest WTS its publications returned, which counts from its completion on (R279). -/
structure EngRun where
  cmd : Cmd
  /-- Values read by units whose write is still to come. -/
  buf : Map Nat
  /-- Units performed. -/
  done : List Nat
  /-- The next unit of commands that work in order. -/
  next : Nat
  w2 : Nat
  a : Nat
  b : Nat
  /-- Held units and their faulting addresses (R135). -/
  held : List (Nat × Nat)
  err : Option (Nat × Nat)
  fin : Bool
  /-- A merge's last key written, and the positions in its runs (R143). -/
  last : Option Nat
  pos : List Nat
  wts : Word
  /-- What is known of the rows of a `scat`: the index of each row whose index has been read (R141). -/
  known : Map Nat
  deriving DecidableEq, Repr

/-- One of the four engines (R131): queued commands, and those started and not yet retired, oldest first. -/
structure Engine where
  queue : List Cmd
  runs : List EngRun
  deriving DecidableEq, Repr

/-! ## The fabric -/

/-- The image of one element (R180, R193, R194), with the entry points and safe-point bits that concern it. -/
structure EImage where
  ctx : BitVec 4
  mx : Bool
  slotv : BitVec 32
  slots : Map Word
  k : Map Word
  rbid : BitVec 8
  cbid : BitVec 8
  min : Nat
  tin : Nat
  back : Word
  /-- The ports of this element that the header's entry points name: slot x 2 + port (R201). -/
  ents : List Nat
  /-- P1 of this element's safe-point entry (R343), and whether the image has a table at all (R345). -/
  live : Option Word
  hasSpt : Bool
  deriving DecidableEq, Repr

/-- A token waiting in the matching store, with its slot and port (R182, R190). -/
structure Waiting where
  slot : Nat
  port : Nat
  tok : Token
  deriving DecidableEq, Repr

/-- A token in the overflow area (R189, R190): its element and the stash block that holds it. -/
structure Spill where
  e : Nat
  block : Nat
  w : Waiting
  deriving DecidableEq, Repr

/-- A formed match (R182). -/
structure Match where
  slot : Nat
  a : Option Token
  b : Option Token
  deriving DecidableEq, Repr

/-- A running counter (R254): the start's emission fields, the loop time with counter 0, the next index and the bound. -/
structure CtrRun where
  base : Token
  i : Nat
  n : Int
  deriving DecidableEq, Repr

/-- One row of A taken by `mrow` (R249). -/
structure ARow where
  w0 : Word
  w1 : Word
  time : Word
  path : BitVec 11
  diff : BitVec 32
  l : Bool
  deriving DecidableEq, Repr

/-- The state a node keeps between firings (R254 to R257, R249, R266, R271, R272). -/
inductive Node where
  | ctr (r : CtrRun)
  | ctrb (bnd : Word) (run : Option CtrRun) (bad : List Token)
  /-- Stream taken so far, whether its L token has come, the count with the next repetition and position, pending poison. -/
  | rpt (buf : List Token) (full : Bool) (run : Option (Nat × Nat × Nat)) (bad : List Token)
  | emitted
  /-- Words of the row being taken, good rows waiting, rows of the segment that is ready to start, pending poison. -/
  | mrow (word : Option Token) (row : Option ARow) (seg : List ARow) (bad : List Token)
  /-- A stream of reads: start token, base, count, size in bytes, reads performed (index, value or cause), next index to emit. -/
  | ldst (start : Token) (base : Word) (n : Nat) (reads : List (Nat × Nat × Bool)) (next : Nat)
  /-- A probe's pairs still to emit: T0 and T1 tokens. -/
  | pairs (ps : List (Token × Token))
  deriving DecidableEq, Repr

/-- The matrix unit of an element (R240): 0 EMPTY, 1 LOADING, 2 LOADED; the format; WP; the 128 words written (R242). -/
structure Cim where
  st : BitVec 2
  fmt : BitVec 2
  wp : BitVec 7
  cells : Map Word
  deriving DecidableEq, Repr

/-- A partial-sum latch (R240, R244, R245): busy, the segment's format, the values (none: a format-mismatch mark), the rows whose
tags its tokens carry, and whether its segment token has been placed. -/
structure Latch where
  busy : Bool
  fmt : BitVec 2
  vals : Option (List (BitVec 32))
  rows : List ARow
  written : Bool
  deriving DecidableEq, Repr

/-- An emission still due (R202): the target field, the token, and the slot that emits it. -/
structure Due where
  slot : Nat
  target : BitVec 13
  tok : Token
  deriving DecidableEq, Repr

/-- An element (R23, R180 to R205, R240, R241, R344). -/
structure Elem where
  act : Option EImage
  sh : Option EImage
  e : Map Word
  k : Map Word
  v : Map Vec
  acc : Map Vec
  lfsr : BitVec 16
  pendK : Map Word
  /-- Input buffers by slot x 2 + port (R181). -/
  bufs : Map (List Token)
  /-- The tokens that have entered these buffers, oldest first, by slot x 2 + port, since the element last held none (R344). -/
  arrived : List (Nat × Token)
  store : List Waiting
  matches_ : List Match
  markers : Nat
  mstall : List Nat
  mlast : Option Token
  tdowns : Nat
  tstall : List Nat
  leaving : Bool
  nodes : Map Node
  due : List Due
  mx : Bool
  asked : Bool
  granted : Bool
  /-- `mmode off` has fired since the flip, or since MX was last set (R241). -/
  moff : Bool
  /-- The `mmode on` firings that wait for the grant, oldest first: slot, and tokens by target (R247). -/
  mwaits : List (Nat × List (Nat × Token))
  cim : Cim
  latch0 : Latch
  latch1 : Latch
  ec : Word
  /-- At its cut, or stopped, under a freeze (R345), and the vector slots' own grant (R378). -/
  atCut : Bool
  vgrant : Bool
  vasked : Bool
  /-- Fired since the last marker or flip (R345). -/
  fired : Bool
  deriving DecidableEq, Repr

/-- An access a memory port has accepted (R262): its slot, stream index, bytes, checked parts, the operand it writes or combines, the
comparand of `amo.cas`, the core's PH at its issue (R280), the fields of R220 at the match's tag, and the time, path and possible fault of the tag operation. -/
structure PortAcc where
  slot : Nat
  idx : Nat
  va : Nat
  n : Nat
  parts : List Acc
  data : Nat
  cmp : Nat
  ph : Word
  tag : Token
  time : Word
  path : BitVec 11
  tgBad : Option Nat
  deriving DecidableEq, Repr

/-- A memory port (R69, R262). `held` is the access whose token stays at the head of its buffer until the access is performed (R72), `hport` that token's port, `fva` the address
that had no translation, and `woken` says that a wake token has come, so that the access is the last of `accs`. -/
structure Port where
  accs : List PortAcc
  held : Option PortAcc
  hport : Nat
  fva : Nat
  woken : Bool
  deriving DecidableEq, Repr

/-- A segment on a row bus (R244): the sender's slot, label, format, rows and receivers. -/
structure Seg where
  e : Nat
  slot : Nat
  fmt : BitVec 2
  rows : List ARow
  rcv : List Nat
  deriving DecidableEq, Repr

/-- An image waiting in the configuration-load queue (R169): its address and length, and its header words. -/
structure CfgReq where
  va : Nat
  hdr : List Word
  deriving DecidableEq, Repr

/-! ## Progress and collectives -/

/-- A change's lanes at a time (R315). -/
structure PEnt where
  time : Word
  stake : Word
  msg : Word
  deriving DecidableEq, Repr

/-- A batch of changes with its saturation count (R317, R318). -/
structure Batch where
  ents : List PEnt
  sat : Nat
  deriving DecidableEq, Repr

/-- A run packet (R103): class, plane, stream, destination VCN, BASE, encoding, entries by offset with their lanes, and the trailer. -/
structure Pkt where
  cls : BitVec 4
  plane : BitVec 2
  stream : Nat
  dst : Nat
  base : Nat
  dense : Bool
  vt : BitVec 2
  zd : Bool
  lanes : Nat
  ents : List (Nat × List Word)
  sat : Nat
  ovf : Bool
  last : Bool
  err : Bool
  deriving DecidableEq, Repr

/-- What one member child has brought a switch: its previous BASE, whether it sent LAST, and its latest trailer (R104, R106). -/
structure Child where
  base : Option Nat
  last : Bool
  refused : Bool
  sat : Nat
  ovf : Bool
  err : Bool
  q : List Pkt
  deriving DecidableEq, Repr

/-- A stream table at a switch (R145, R363): members, root, destination, type, threshold, children, own sums. -/
structure Strm where
  members : List Nat
  root : Nat
  dst : Nat
  vt : BitVec 2
  lanes : Nat
  zd : Bool
  dth : Nat
  kids : Map Child
  sat : Nat
  ovf : Bool
  err : Bool
  done : Bool
  deriving DecidableEq, Repr

/-- A sender's open of a stream on its way to the switch of a level above its position (R145, R363). -/
structure StrmOpen where
  pos : Nat
  level : Nat
  cmd : Cmd
  deriving DecidableEq, Repr

/-- The frontier register of a scope (R13): its times and VER; CNT is their number. -/
structure Fnt where
  times : List Word
  ver : BitVec 32
  deriving DecidableEq, Repr

/-! ## Network interface -/

/-- A handler-table entry (R89). PEND is derived from the class's queue. -/
structure Handler where
  haddr : BitVec 16
  mode : Bool
  prio : BitVec 2
  en : Bool
  /-- A firing of the class is queued or running (R90). -/
  busy : Bool
  deriving DecidableEq, Repr

/-- A spill ring (R99, R176). -/
structure Ring where
  base : Word
  size : Nat
  head : Nat
  count : Nat
  deriving DecidableEq, Repr

/-- The states of a request class (R100). -/
inductive ClsSt where
  | queue
  | spill
  | held
  deriving DecidableEq, Repr

/-- A class's inbound side (R99 to R101, R176). -/
structure Inbound where
  q : List Msg
  st : ClsSt
  cur : Option Ring
  old : Option Ring
  heldMsg : Option Msg
  /-- The other module that the held message came from. -/
  heldChip : Option Nat
  deriving DecidableEq, Repr

/-- The counts kept for one destination VCN (R95, R97). -/
structure Out where
  snt : BitVec 10
  una : Nat
  oWait : Bool
  deriving DecidableEq, Repr

/-- Tourbillon state of an occupant (R352, R353, R359). -/
structure Swap where
  n : Map (BitVec 32)
  m : Map (BitVec 32)
  x : BitVec 32
  pin : Bool
  req : Option (Nat × Nat)
  /-- Instants since a swap completed here, and since each partner was swapped with or refused. -/
  since : Option Nat
  pairs : List (Nat × Nat)
  deriving DecidableEq, Repr

/-- A freeze in progress (R345, R346). -/
structure Freeze where
  by_ : FreezeBy
  elapsed : Nat
  complete : Bool
  deriving DecidableEq, Repr

/-! ## Cores -/

/-- A core position and its occupant (R9 to R14, R82 to R101, R131, R151, R189, R290, R316, R352). -/
structure Core where
  vcn : Option Nat
  ctl : Scalar
  ldr : Scalar
  sto : Scalar
  ph : Word
  lease : Word
  spmax : Word
  dth : Nat
  tq : Word
  age : Word
  spillFirst : Nat
  spillBlocks : Nat
  /-- Earlier overflow areas, as first block and number of blocks (R121, R189). -/
  oldAreas : List (Nat × Nat)
  feat : Word
  mb : Map Word
  fnt : Map Fnt
  pubMax : Word
  l1 : Map Line
  stash : Map Block
  tlb : List TlbEntry
  handlers : Map Handler
  inb : Map Inbound
  out : Map Out
  dlv : Map (BitVec 10)
  hold : List Msg
  plane : Map Nat
  /-- Deliveries awaiting acknowledgement: source, plane, O, chip (R97). -/
  toAck : List (Nat × Nat × Bool × Option Nat)
  /-- Unacknowledged messages to other chips, and NAKs waiting in their slots (R376, R83). -/
  offUna : Nat
  naks : List Msg
  eq : List Rec
  eqHeld : List Rec
  engines : Map Engine
  cfgq : List CfgReq
  tasks : Map Task
  futs : Map NodeSt
  bars : Map BarSlot
  cmask : Word
  amask : Word
  /-- Spawns sent and not yet taken (R296). -/
  retry : List Retry
  /-- Enqueues that wait at the interface behind such a spawn of their scalar core, by the parts of each (R296, R304). -/
  behind : List (Kind × List Msg)
  prog : Map Batch
  /-- Scopes whose progress buffer takes no change until it has been sent (R316). -/
  progStop : List Nat
  sw : Swap
  freeze : Option Freeze
  elems : Map Elem
  overflow : List Spill
  ports : Map Port
  bus : Map Seg
  /-- Contexts whose teardown has started (R170). -/
  tearing : List Nat
  /-- Elements held stopped until `ctxld` (R351). -/
  resumeWait : Bool
  /-- A rewalk of the held accesses is due (R71). -/
  rewalk : Bool
  /-- Where the search for a FREE task entry or future node starts (log 24). -/
  alloc : Nat
  deriving DecidableEq, Repr

/-! ## Module -/

/-- The job's parameters (R372). -/
structure Job where
  id : BitVec 16
  root : Nat
  wtab : Map Word
  scopes : Word
  gain : BitVec 32
  ctxb : Word
  futb : Word
  extents : List (Nat × Nat)
  nvcn : Nat
  seq : Word
  deriving DecidableEq, Repr

/-- A residency report waiting for the ring (R373). -/
structure Report where
  q : List Word
  deriving DecidableEq, Repr

/-- A Delrid packet taken or waiting (R371), from the host or from the rack-launch gateway. -/
structure Packet where
  w : List Word
  gateway : Bool
  deriving DecidableEq, Repr

/-- Where a checkpoint stands (R377): waiting for the frontier, freezing and writing. -/
structure Check where
  step : BitVec 32
  scope : BitVec 3
  frozen : Bool
  /-- The context areas have been written. -/
  saved : Bool
  deriving DecidableEq, Repr

/-- What a DOE request was answered with (R380): SHA-384 digests, and an ECDSA P-384 signature over each response. -/
inductive DoeResp where
  | certificate (cert : List Word) (sig : BitVec 768)
  | measurements (rom firmware fuse feat : BitVec 384) (sig : BitVec 768)
  deriving DecidableEq, Repr

/-- The answer to a memory request of the host or a peer port (R77, R80, R375): read data, a write performed, poison, a denial status. -/
inductive MemAnswer where
  | value (x : Nat)
  | done
  | poison
  | denied
  deriving DecidableEq, Repr

/-- A spawn from VCN 0x3FF that a WORK packet has made (R292, R371) and that has not been taken: network cycles since it was sent, the VCN and the
descriptor's words. -/
structure WorkReq where
  age : Nat
  vcn : Nat
  words : List Word
  deriving DecidableEq, Repr

/-- The module's host-facing registers and queues (R369 to R377). -/
structure Hub where
  open_ : Bool
  feato : Word
  feata : Map Word
  ovr : Bool
  busy : Bool
  rrbase : Word
  rrsize : Nat
  rrtail : Nat
  rrhead : Nat
  ckreq : Word
  cklba : Word
  ckovr : Bool
  ckbusy : Bool
  launch : Map Word
  packets : List Packet
  reports : List Report
  dropped : Nat
  hostMem : List Host.Cell
  msix : Nat
  chip : Nat
  routes : Map (Option Nat)
  check : Option Check
  /-- Packets, messages and reads sent out on the peer ports, oldest first: (port, words). -/
  sent : List (Nat × List Word)
  doe : List DoeResp
  rollback : Nat
  fwVersion : Nat
  /-- The firmware image accepted at boot (R379), which R380 measures. -/
  firmware : List Word
  /-- Answers to memory requests of the host and of peer ports, oldest first. -/
  answers : List MemAnswer
  /-- WORK spawns that have been refused and are sent again (R296, R371). -/
  works : List WorkReq
  /-- A PREEMPT packet whose freeze is in progress (R381), and an END packet. -/
  preempting : Option Packet
  /-- Translation-fault records whose window names the host as their destination (R39, R70). -/
  hostRecs : List Rec
  /-- What the checkpoint port has written (R377): the byte addresses are logical block x 4,096 + offset. -/
  nvm : List Host.Cell
  deriving DecidableEq, Repr

/-- An agent of the schedule tape: which part of the machine moves next, or what the environment does (log 3, DESIGN CHOICE). -/
inductive Sched where
  /-- The named step of the table takes place. -/
  | event (i : Instr)
  /-- A scalar core issues its next instruction. -/
  | scalar (p : Nat) (k : Kind)
  /-- An element fires its ready match or running node with the smallest key (R183). -/
  | elem (p e : Nat)
  /-- Arithmetic cycles pass. -/
  | clock (n : Nat)
  /-- An element's oldest due emission enters its target buffer. -/
  | due (p e : Nat)
  /-- A memory port issues the next reads of its streams (R266). -/
  | stream (p row : Nat)
  /-- A message leaves its source interface's buffer (R93). -/
  | leave (n : Nat)
  /-- L1 evicts a line (R56). -/
  | evictL1 (p line : Nat)
  /-- An L2 slice evicts a line (R45, R49). -/
  | evictL2 (die slice line : Nat)
  /-- A TLB drops a translation (R67). -/
  | dropTlb (p vpage : Nat)
  /-- The TLB of a leaf switch drops a translation (R67). -/
  | dropLeaf (leaf vpage : Nat)
  /-- A memory request leaves its interface's buffer (R93). -/
  | leaveReq (n : Nat)
  /-- An engine reads, or writes, one unit of its running command (R134). -/
  | engRead (p eng unit : Nat)
  | engWrite (p eng unit : Nat)
  /-- A packet of eight words reaches the hub from the rack-launch gateway (R371). -/
  | gateway (w : List Word)
  /-- An uncorrectable error arises in a DRAM word (byte address), an L2 word or an L1 word (R80). -/
  | softDram (a : Nat)
  | softL2 (die slice line word : Nat)
  | softL1 (p line word : Nat)
  /-- The same in a word of a stash line. -/
  | softStash (p block line word : Nat)
  /-- A sender's open of a stream reaches the next switch of its path (R145, R363). -/
  | opens (n : Nat)
  /-- The hub sends a refused WORK spawn again (R296, R371). -/
  | work (n : Nat)
  /-- A corrected error (R80). -/
  | softFixed
  /-- The choices that the spec leaves open are made from n on: of a FREE entry or node at core p, of a piece identifier, of the order in which
  a frontier's times stand (log 24, log 25). -/
  | choose (p n : Nat)
  deriving DecidableEq, Repr

/-- What VCN 0's context area holds besides its core when the whole job is frozen (R347): the cohort keeper and the domain tables, and with
them what stands in the switches, the crown and the network, for which the spec names no place (log 9, DESIGN CHOICE). -/
structure JobSaved where
  cohorts : Map Cohort
  ranges : List RangeTask
  opens : List OpenReq
  domains : Map Word
  pq : Map (List (List Pkt))
  ptab : Map Batch
  crown : Map (List PEnt)
  stuck : Map Nat
  front : Map Fnt
  bq : Map (List (List Word))
  strms : Map Strm
  strmOpens : List StrmOpen
  pkts : List Pkt
  net : List NetMsg
  works : List WorkReq
  deriving DecidableEq, Repr

/-- What the core and fabric sections of a context area hold (R347): the occupant's core and fabric state and, in VCN 0's area, the job's. Their layout
belongs to the KZ9 alone: in memory the first word of each section stands for its contents, and the fabric section holds its tokens' images
(R33) behind it (log 9, DESIGN CHOICE). -/
structure Saved where
  coreWord : Word
  fabricWord : Word
  core : Core
  job : Option JobSaved
  deriving DecidableEq, Repr

/-- The agent whose instruction is being executed: a scalar core, or a slot of an element. -/
structure Cur where
  p : Nat
  k : Kind
  e : Nat
  slot : Nat
  /-- The formed match that is to fire, by its number in the element; none: the first ready one of the slot (R183). -/
  pick : Option Nat
  deriving DecidableEq, Repr

/-- The state of the machine. -/
structure State where
  cores : Map Core
  slices : Map Slice
  domains : Map Word
  clkStep : Map (BitVec 2)
  fuses : Map Nat
  instant : Map Nat
  dram : List Host.Cell
  /-- DRAM words whose F bit is empty, and whose poison mark is set, by DRAM byte address div 8 (R115, R80). -/
  empties : Map Bool
  poisons : Map Bool
  reloc : Map (BitVec 16)
  access : Map (BitVec 128)
  job : Option Job
  net : List NetMsg
  reqs : List MemReq
  replies : List MemReply
  /-- The TLB of each leaf switch, by position div 4 (R67). -/
  leafTlb : Map (List TlbEntry)
  nextReq : Nat
  cohorts : Map Cohort
  ranges : List RangeTask
  /-- Openings of ranges that the keeper has taken and not yet applied (R86, R309). -/
  opens : List OpenReq
  /-- The batches on their way up, by sender x 8 + scope: those of a core, and of a switch (R316 to R318). -/
  pq : Map (List (List Pkt))
  ptab : Map Batch
  crown : Map (List PEnt)
  /-- The die root whose batch of a scope needs more times than the crown keeps (R319). -/
  stuck : Map Nat
  front : Map Fnt
  bq : Map (List (List Word))
  strms : Map Strm
  strmOpens : List StrmOpen
  pkts : List Pkt
  /-- What the sections written so far hold, newest first. -/
  saved : List Saved
  hub : Hub
  zusil : List ZRec
  tape : List Sched
  cur : Cur
  ticks : Nat
  free : Nat
  /-- Where the choices that the spec leaves to the keeper and the crown start (log 24, log 25). -/
  choice : Nat
  deriving DecidableEq, Repr

/-! ## How a step can stop -/

/-- Why the machine stops with a fault. -/
inductive Fault where
  /-- Raised by `step` when the tape names a scalar core or an element at a position that does not exist (576 positions, R2, 64
  elements, R180). Safe: no part of the hardware moves there. -/
  | noSuchPart
  deriving DecidableEq, Repr

/-- Why a step has no meaning in the model. -/
inductive Refusal where
  /-- Raised by `exec` for a row that has no meaning yet. Safe: the model stops where the hardware goes on. -/
  | notModelled (mnemonic : String)
  deriving DecidableEq, Repr

/-! ## Reset -/

/-- A scalar core after reset: every register 0 (R9, R10, R12), every store word unassigned (R154), no firing (log 1, DESIGN CHOICE). -/
def Scalar.reset : Scalar where
  g := []
  t := []
  pc := 0
  lpc := 0
  lps := 0
  lpe := 0
  slps := 0
  slpe := 0
  spp := false
  lpa := false
  prio := 0
  prioSet := false
  hnd := false
  dbe := false
  ssr := 0
  epc := 0
  ecause := 0
  eaddr := 0
  tvec := 0
  spcount := 0
  store := []
  run := none
  stop := none
  wait := none
  sp := none
  ready := []
  section_ := false
  nsp := 0
  sptab := 0
  askAge := 0
  asking := none

/-- Tourbillon state of a position with no traffic recorded (R352). -/
def Swap.reset : Swap := ⟨[], [], 0, false, none, none, []⟩

/-- A core position after reset: the reset values of R10, and nothing queued (log 1, DESIGN CHOICE). -/
def Core.reset : Core where
  vcn := none
  ctl := Scalar.reset
  ldr := Scalar.reset
  sto := Scalar.reset
  ph := 0
  lease := 8
  spmax := 0x30D40
  dth := 96
  tq := 0x100000
  age := 0x1000
  spillFirst := 0
  spillBlocks := 0
  oldAreas := []
  feat := 0xFF
  mb := []
  fnt := []
  pubMax := 0
  l1 := []
  stash := []
  tlb := []
  handlers := []
  inb := []
  out := []
  dlv := []
  hold := []
  plane := []
  toAck := []
  offUna := 0
  naks := []
  eq := []
  eqHeld := []
  engines := []
  cfgq := []
  tasks := []
  futs := []
  bars := []
  cmask := 0
  amask := 0
  retry := []
  behind := []
  prog := []
  progStop := []
  sw := Swap.reset
  freeze := none
  elems := []
  overflow := []
  ports := []
  bus := []
  tearing := []
  resumeWait := false
  rewalk := false
  alloc := 0

/-- An empty matrix unit (R240). -/
def Cim.empty : Cim := ⟨0, 0, 0, []⟩

/-- A free latch (R240). -/
def Latch.free : Latch := ⟨false, 0, none, [], false⟩

/-- An element with no configuration (R23, R203). -/
def Elem.reset : Elem where
  act := none
  sh := none
  e := []
  k := []
  v := []
  acc := []
  lfsr := 1
  pendK := []
  bufs := []
  arrived := []
  store := []
  matches_ := []
  markers := 0
  mstall := []
  mlast := none
  tdowns := 0
  tstall := []
  leaving := false
  nodes := []
  due := []
  mx := false
  asked := false
  granted := false
  moff := false
  mwaits := []
  cim := Cim.empty
  latch0 := Latch.free
  latch1 := Latch.free
  ec := 0
  atCut := false
  vgrant := false
  vasked := false
  fired := false

/-- A port with nothing in flight (R262). -/
def Port.idle : Port := ⟨[], none, 0, 0, false⟩

/-- A free task-table entry (R290, R300). -/
def Task.reset : Task :=
  ⟨.free, 0, 0, [], false, .control, 0, 0, 0, none, 0, 0, 0, none, false⟩

/-- A handler-table entry of a class with no handler (R89). -/
def Handler.reset : Handler := ⟨0, false, 0, false, false⟩

/-- An inbound side with no message and no ring (R100, R176). -/
def Inbound.reset : Inbound := ⟨[], .queue, none, none, none, none⟩

/-- An idle engine (R131). -/
def Engine.reset : Engine := ⟨[], []⟩

/-- A slice with no lines, HTS = MTS = 0 (R45). -/
def Slice.reset : Slice := ⟨0, 0, [], [], []⟩

/-- The hub after reset: the window is closed until Zusil has booted (R379). -/
def Hub.reset : Hub where
  open_ := false
  feato := 0xFF
  feata := []
  ovr := false
  busy := false
  rrbase := 0
  rrsize := 4
  rrtail := 0
  rrhead := 0
  ckreq := 0
  cklba := 0
  ckovr := false
  ckbusy := false
  launch := []
  packets := []
  reports := []
  dropped := 0
  hostMem := []
  msix := 0
  chip := 0
  routes := []
  check := none
  sent := []
  doe := []
  rollback := 0
  fwVersion := 0
  firmware := []
  answers := []
  works := []
  preempting := none
  hostRecs := []
  nvm := []

/-- The machine right after reset: no job is resident, nothing is in flight, and every register has its reset value. -/
def State.reset : State where
  cores := []
  slices := []
  domains := []
  clkStep := []
  fuses := []
  instant := []
  dram := []
  empties := []
  poisons := []
  reloc := []
  access := []
  job := none
  net := []
  reqs := []
  replies := []
  leafTlb := []
  nextReq := 0
  cohorts := []
  ranges := []
  opens := []
  pq := []
  ptab := []
  crown := []
  stuck := []
  front := []
  bq := []
  strms := []
  strmOpens := []
  pkts := []
  saved := []
  hub := Hub.reset
  zusil := []
  tape := []
  cur := ⟨0, .control, 0, 0, none⟩
  ticks := 0
  free := 0
  choice := 0

end Sys2Proof.Machine
end

