-- ==== Sys2Proof/Machine/Times.lean ====
section
/-!
DEFINITION. T64 times (R32), the time helpers of R34, paths (R33) and the tag operations of a slot (R184).
-/
namespace Sys2Proof.Machine

open Sys2Proof

/-- EPOCH (R32). -/
def epochOf (t : Word) : Nat := (t.extractLsb' 32 32).toNat
/-- Counter i: 1 = I1, 2 = I2, 3 = I3 (R32, R34). -/
def ctrOf (t : Word) (i : Nat) : Nat := (t.extractLsb' (32 - 10 * i) 10).toNat
/-- DEPTH (R32). -/
def depthOf (t : Word) : Nat := (t.extractLsb' 0 2).toNat
/-- A time from its fields (R32). -/
def mkTime (epoch i1 i2 i3 depth : Nat) : Word :=
  BitVec.ofNat 32 epoch ++ BitVec.ofNat 10 i1 ++ BitVec.ofNat 10 i2 ++ BitVec.ofNat 10 i3 ++ BitVec.ofNat 2 depth
/-- A word obeys R32: every counter beyond DEPTH is zero. -/
def timeOk (t : Word) : Bool :=
  (1 ≤ depthOf t || ctrOf t 1 == 0) && (2 ≤ depthOf t || ctrOf t 2 == 0) && (3 ≤ depthOf t || ctrOf t 3 == 0)

/-- t_le of R34: false when the depths differ. -/
def tLe (a b : Word) : Bool :=
  depthOf a == depthOf b && epochOf a ≤ epochOf b && ctrOf a 1 ≤ ctrOf b 1 && ctrOf a 2 ≤ ctrOf b 2 && ctrOf a 3 ≤ ctrOf b 3

/-- t_join of R34. -/
def tJoin (a b : Word) : Word :=
  mkTime (max (epochOf a) (epochOf b)) (max (ctrOf a 1) (ctrOf b 1)) (max (ctrOf a 2) (ctrOf b 2)) (max (ctrOf a 3) (ctrOf b 3))
    (max (depthOf a) (depthOf b))

/-- t_meet of R34. -/
def tMeet (a b : Word) : Word :=
  mkTime (min (epochOf a) (epochOf b)) (min (ctrOf a 1) (ctrOf b 1)) (min (ctrOf a 2) (ctrOf b 2)) (min (ctrOf a 3) (ctrOf b 3))
    (min (depthOf a) (depthOf b))

/-- The meet of a list of times, applied pairwise. -/
def tMeetAll (a : Word) (l : List Word) : Word :=
  match l with
  | [] => a
  | b :: r => tMeetAll (tMeet a b) r

/-- t_adv of R34: the meet over f of t_join(t, f); t itself when F is empty. -/
def tAdv (t : Word) (f : List Word) : Word :=
  match f with
  | [] => t
  | x :: r => tMeetAll (tJoin t x) (r.map (tJoin t))

/-- Counter i of t replaced; i = 0 is EPOCH. -/
def setCtr (t : Word) (i x : Nat) : Word :=
  mkTime (if i = 0 then x else epochOf t) (if i = 1 then x else ctrOf t 1) (if i = 2 then x else ctrOf t 2)
    (if i = 3 then x else ctrOf t 3) (depthOf t)

/-- DEPTH of t replaced. -/
def setDepth (t : Word) (d : Nat) : Word := mkTime (epochOf t) (ctrOf t 1) (ctrOf t 2) (ctrOf t 3) d

/-- t_inc of R34: none when the counter would pass 1023, or EPOCH its largest value. -/
def tInc (t : Word) (i : Nat) : Option Word :=
  if i = 0 then (if epochOf t = 0xFFFFFFFF then none else some (setCtr t 0 (epochOf t + 1)))
  else if ctrOf t i = 1023 then none else some (setCtr t i (ctrOf t i + 1))

/-- Enters one loop level with the new counter at x (R184, R254). -/
def enterLoop (t : Word) (x : Nat) : Word := setCtr (setDepth t (depthOf t + 1)) (depthOf t + 1) x

/-- A time t is complete in a frontier: no time of it is ≤ t (R237, R328). -/
def completeIn (f : List Word) (t : Word) : Bool := allOf f fun x => !(tLe x t)

/-- LEN of a path (R33). -/
def pathLen (p : BitVec 11) : Nat := (p.extractLsb' 8 3).toNat

/-- Pushes a bit at index LEN (R34). -/
def pathPush (p : BitVec 11) (b : Bool) : BitVec 11 :=
  let n := pathLen p
  let body := (p.extractLsb' 0 8) ||| (if b then (1#8 <<< n) else 0)
  BitVec.ofNat 3 (n + 1) ++ body

/-- The bit at LEN - 1. -/
def pathTop (p : BitVec 11) : Bool := p.getLsbD (pathLen p - 1)

/-- Pops the top bit (R34). -/
def pathPop (p : BitVec 11) : BitVec 11 :=
  let n := pathLen p - 1
  BitVec.ofNat 3 n ++ ((p.extractLsb' 0 8) &&& ~~~(1#8 <<< n))

/-- The key that orders ready matches: EPOCH, I1, I2, I3, DEPTH, then the slot number (R183). -/
def fireKey (t : Word) (slot : Nat) : Nat :=
  ((((epochOf t * 1024 + ctrOf t 1) * 1024 + ctrOf t 2) * 1024 + ctrOf t 3) * 4 + depthOf t) * 32 + slot

/-- A slot's tag operation on time and path (R184): the emitted time and path, or the cause of its fault. -/
def tagOp (tg : BitVec 4) (b : Word) (t : Word) (path : BitVec 11) : Except Nat (Word × BitVec 11) :=
  match tg.toNat with
  | 1 => if depthOf t = 3 then .error 0x21 else .ok (enterLoop t 0, path)
  | 2 =>
    if depthOf t = 0 then .error 0x21
    else match tInc t (depthOf t) with
      | some u => .ok (u, path)
      | none => .error 0x20
  | 3 => if depthOf t = 0 then .error 0x21 else .ok (setDepth (setCtr t (depthOf t) 0) (depthOf t - 1), path)
  | 4 =>
    match tInc t 0 with
    | some u => .ok (u, path)
    | none => .error 0x20
  | 5 => if timeOk b then .ok (b, path) else .error 0x22
  | 6 => .ok (t, 0)
  | _ => .ok (t, path)

/-- The index of a change at time t in scope n (R317). -/
def progIndex (n : Nat) (t : Word) : Nat :=
  ((((n * 32768 + epochOf t % 32768) * 1024 + ctrOf t 1) * 1024 + ctrOf t 2) * 1024) + ctrOf t 3

/-- The phase x recovered from its low 24 bits against PH (R96): the unique x within 2^23, as an integer; the given free value
when there is none (log 12, DESIGN CHOICE). -/
def recoverPhase (ph : Word) (low : BitVec 24) (free : Word) : Int :=
  let d : Nat := (low.toNat + 2 ^ 24 - ph.toNat % 2 ^ 24) % 2 ^ 24
  if d < 2 ^ 23 then (ph.toNat : Int) + d
  else if d = 2 ^ 23 then (free.toNat : Int)
  else (ph.toNat : Int) + d - 2 ^ 24

/-- PH ← max(PH, x) for a recovered x (R96). -/
def raisePhase (ph : Word) (low : BitVec 24) (free : Word) : Word :=
  let x := recoverPhase ph low free
  if (ph.toNat : Int) < x then BitVec.ofInt 64 x else ph

end Sys2Proof.Machine
end

