-- ==== Sys2Proof/Machine/Flags.lean ====
section
/-!
DEFINITION. The status bits: SR as its fields make it (R12), the flags of a token's image (R33), and the flags a firing gives the
tokens it emits (R220, R221).
-/
namespace Sys2Proof.Machine

open Sys2Proof

/-- A bit as a number. -/
def bit (b : Bool) : Nat := if b then 1 else 0

/-- SR of a scalar core (R12): KIND [11:10], SPP [9], LPA [8], PRIO [7:6], HND [5], DBE [0]; every other bit reads 0. -/
def Scalar.sr (k : Kind) (x : Scalar) : Word :=
  BitVec.ofNat 64 (k.code * 1024 + bit x.spp * 512 + bit x.lpa * 256 + x.prio.toNat * 64 + bit x.hnd * 32 + bit x.dbe)

/-- SSR holds a status that `tret` accepts for this kind (R335). -/
def ssrOk (k : Kind) (w : Word) : Bool :=
  w.extractLsb' 12 52 == 0 && w.getLsbD 5 == false && w.extractLsb' 1 4 == 0 && (w.extractLsb' 10 2).toNat == k.code

/-- The low 64 bits of a token's image (R33): DIFF, PATH, P, M, L, C, CTX, and the slot and port that hold it. -/
def Token.low (t : Token) (slot port : Nat) : Word :=
  t.diff ++ t.path ++ BitVec.ofBool t.p ++ BitVec.ofBool t.m ++ BitVec.ofBool t.l ++ BitVec.ofBool t.c ++ t.ctx
    ++ 0#7 ++ BitVec.ofNat 5 slot ++ BitVec.ofNat 1 port

/-- The VALUE of a poison token: CAUSE [39:32], PCN [25:16], ELEM [15:10], SLOT [9:5] (R338). -/
def poisonValue (cause p e slot : Nat) : Word :=
  BitVec.ofNat 64 (cause % 256 * 2 ^ 32 + p % 1024 * 2 ^ 16 + e % 64 * 2 ^ 10 + slot % 32 * 2 ^ 5)

end Sys2Proof.Machine
end

