-- ==== Sys2Proof/Machine/Ops.lean ====
section
/-!
DEFINITION. The named operations over the scalar cores and the core registers: reading and writing registers (R9 to R14), how an
instruction completes (R158), taking an exception and returning from it (R334 to R336), completion records (R149 to R151).
-/
namespace Sys2Proof.Machine

open Sys2Proof

/-- What a meaning answers. -/
abbrev Ans : Type := Host.Outcome State Fault Refusal
/-- The step is taken, to the state s. -/
abbrev go (s : State) : Ans := Host.Outcome.next s

/-! ## Parts of the state -/

/-- The core at position p. -/
def State.core (s : State) (p : Nat) : Core := Map.get s.cores Core.reset p
/-- The state with another core at position p. -/
def State.setCore (s : State) (p : Nat) (c : Core) : State := { s with cores := Map.put s.cores p c }
/-- The state with the core at position p changed. -/
def State.modCore (s : State) (p : Nat) (f : Core → Core) : State := s.setCore p (f (s.core p))

/-- A scalar core of a core. -/
def Core.scal (c : Core) (k : Kind) : Scalar :=
  match k with
  | .control => c.ctl
  | .loader => c.ldr
  | .storer => c.sto
/-- The core with one scalar core replaced. -/
def Core.setScal (c : Core) (k : Kind) (x : Scalar) : Core :=
  match k with
  | .control => { c with ctl := x }
  | .loader => { c with ldr := x }
  | .storer => { c with sto := x }
/-- The core with one scalar core changed. -/
def Core.modScal (c : Core) (k : Kind) (f : Scalar → Scalar) : Core := c.setScal k (f (c.scal k))
/-- The core with the same change made to all three scalar cores. -/
def Core.modAll (c : Core) (f : Scalar → Scalar) : Core := { c with ctl := f c.ctl, ldr := f c.ldr, sto := f c.sto }

/-- The scalar core k of position p. -/
def State.scal (s : State) (p : Nat) (k : Kind) : Scalar := (s.core p).scal k
/-- The state with that scalar core changed. -/
def State.modScal (s : State) (p : Nat) (k : Kind) (f : Scalar → Scalar) : State := s.modCore p fun c => c.modScal k f

/-- The core of the executing instruction. -/
def State.mine (s : State) : Core := s.core s.cur.p
/-- The executing scalar core. -/
def State.me (s : State) : Scalar := s.scal s.cur.p s.cur.k
/-- The executing scalar core changed. -/
def State.modMe (s : State) (f : Scalar → Scalar) : State := s.modScal s.cur.p s.cur.k f
/-- The executing core changed. -/
def State.modMine (s : State) (f : Core → Core) : State := s.modCore s.cur.p f

/-! ## Registers -/

/-- g[r]: g0 reads 0 (R9). -/
def Scalar.gr (x : Scalar) (r : BitVec 5) : Word := if r = 0 then 0 else Map.get x.g 0 r.toNat
/-- Writes g[r]: a write to g0 is discarded (R9). -/
def Scalar.setG (x : Scalar) (r : BitVec 5) (v : Word) : Scalar := if r = 0 then x else { x with g := Map.put x.g r.toNat v }
/-- t[i] (R9). -/
def Scalar.tr (x : Scalar) (i : BitVec 3) : Word := Map.get x.t 0 i.toNat
/-- Writes t[i]. -/
def Scalar.setT (x : Scalar) (i : BitVec 3) (v : Word) : Scalar := { x with t := Map.put x.t i.toNat v }
/-- g[r] of the executing scalar core. -/
def State.gr (s : State) (r : BitVec 5) : Word := s.me.gr r

/-- An address lies outside this kind's instruction store (R16, R154). -/
def outside (k : Kind) (a : Word) : Bool := Config.storeBytes k ≤ a.toNat
/-- The word of the instruction store at a byte address (R154) (log 19, DEDUCED). -/
def Scalar.storeWord (x : Scalar) (a : Nat) : BitVec 32 := Map.get x.store Config.emptyWord (a / 4)

/-- PH raised to at least w (R52, R96, R280). -/
def Core.raise (c : Core) (w : Word) : Core := { c with ph := if c.ph.toNat < w.toNat then w else c.ph }
/-- The frontier register of a scope (R13). -/
def Core.frontier (c : Core) (n : Nat) : Fnt := Map.get c.fnt ⟨[], 0⟩ n
/-- Word w of a frontier register: words at and above CNT read 0; word 4 is CNT and VER (R13). -/
def Fnt.word (f : Fnt) (w : Nat) : Word :=
  if w = 4 then BitVec.ofNat 64 (f.times.length * 2 ^ 32 + f.ver.toNat) else (nth f.times w).getD 0

/-- The areas of a list in which a spilled token lies (R189). -/
def Core.areasInUse (c : Core) (l : List (Nat × Nat)) : List (Nat × Nat) :=
  keep l fun a => anyOf c.overflow fun x => a.1 ≤ x.block && x.block < a.1 + a.2

/-- FEAT0 bit i is accepted (R14). -/
def State.feat (s : State) (i : Nat) : Bool := s.mine.feat.getLsbD i

/-! ## Completing an instruction -/

/-- The instruction at pc completes without transferring control: the back-edge check of R158, or the next word (log 31, DEDUCED). -/
def Scalar.advance (x : Scalar) : Scalar :=
  if x.lpa && !x.hnd && x.pc == x.lpe then
    if 2 ≤ x.lpc.toNat then { x with lpc := x.lpc - 1, pc := x.lps }
    else { x with lpc := 0, lpa := false, pc := x.lpe + 4 }
  else { x with pc := x.pc + 4 }

/-- The instruction completes. -/
def done (s : State) : Ans := go (s.modMe Scalar.advance)
/-- It completes and writes g[d]. -/
def doneG (d : BitVec 5) (v : Word) (s : State) : Ans := go (s.modMe fun x => (x.setG d v).advance)
/-- It completes and writes t[d]. -/
def doneT (d : BitVec 3) (v : Word) (s : State) : Ans := go (s.modMe fun x => (x.setT d v).advance)
/-- It waits for a resource (R130, R179): nothing changes, and it is executed again. -/
def waits (s : State) : Ans := go s

/-! ## Exceptions -/

/-- Zusil receives a report. -/
def State.report (s : State) (r : ZRec) : State := { s with zusil := s.zusil ++ [r] }

/-- A core's VCN (R10): 0 where no launch has set it (log 1). -/
def Core.vcnNum (c : Core) : Nat := c.vcn.getD 0

/-- The registers a trap writes (R334): cause c, EPC value e, EADDR value a. -/
def Scalar.enterTrap (k : Kind) (c : Nat) (e a : Word) (x : Scalar) : Scalar :=
  { x with ssr := x.sr k, epc := e, ecause := BitVec.ofNat 64 (c % 256), eaddr := a, hnd := true
           spcount := if c = 4 then 0 else x.spcount, pc := x.tvec, wait := none }

/-- A trap of scalar core k at position p (R334); while HND = 1 it is a double trap: no register is written, the scalar core stops,
and Zusil receives the cause, the EADDR value, the EPC value and the pc (R336). -/
def State.trap (s : State) (p : Nat) (k : Kind) (c : Nat) (e a : Word) : State :=
  let x := s.scal p k
  if x.hnd then
    (s.modScal p k fun y => { y with stop := some .double, wait := none }).report
      (.doubleTrap (s.core p).vcnNum k c a e x.pc)
  else s.modScal p k (Scalar.enterTrap k c e a)

/-- The executing instruction traps with cause c and EADDR a; EPC names it. -/
def faults (c : Nat) (a : Word) (s : State) : Ans := go (s.trap s.cur.p s.cur.k c s.me.pc a)
/-- The executing instruction traps with cause c and EPC the next instruction (R334: causes 0x05 and 0x08). -/
def faultsNext (c : Nat) (a : Word) (s : State) : Ans := go (s.trap s.cur.p s.cur.k c (s.me.pc + 4) a)
/-- The illegal-instruction trap: EADDR holds the word (R17, R22, R153). -/
def illegal (i : Instr) (s : State) : Ans := faults 0x01 (eaddrWord i) s

/-- A transfer of control to t, with a link to g[d] (none: no link); a target outside the store or misaligned raises the
instruction-address fault at the jump and writes nothing (R16, R166, R167). -/
def jump (t : Word) (link : Option (BitVec 5)) (s : State) : Ans :=
  if outside s.cur.k t || t.extractLsb' 0 2 != 0 then faults 0x02 t s
  else go (s.modMe fun x =>
    let y := match link with
      | some d => x.setG d (x.pc + 4)
      | none => x
    { y with pc := t })

/-- A branch to pc + 4 × off when the condition holds (R166). -/
def branch (c : Bool) (off : BitVec 16) (s : State) : Ans :=
  if c then jump (s.me.pc + 4 * off.signExtend 64) none s else done s

/-- The return from a trap handler (R335): SR.DBE and SR.PRIO from SSR, HND cleared, pc from EPC. -/
def Scalar.leaveTrap (x : Scalar) : Scalar :=
  { x with dbe := x.ssr.getLsbD 0, prio := x.ssr.extractLsb' 6 2, hnd := false, pc := x.epc }

/-- `tret` (R335): with HND = 0 an illegal-instruction trap; an SSR it does not accept is the status-format fault, always a double
trap (R336). -/
def returnTrap (i : Instr) (s : State) : Ans :=
  let x := s.me
  if !x.hnd then illegal i s
  else if !ssrOk s.cur.k x.ssr then faults 0x03 x.ssr s
  else go (s.modMe Scalar.leaveTrap)

/-- Only the control core may issue the instruction (R153) (log 66, DEDUCED). -/
def controlOnly (i : Instr) (s : State) (k : State → Ans) : Ans :=
  match s.cur.k with
  | .control => k s
  | _ => illegal i s

/-- The instruction needs FEAT0 bit n (R14) (log 66, DEDUCED). -/
def needs (n : Nat) (i : Instr) (s : State) (k : State → Ans) : Ans := if s.feat n then k s else illegal i s

/-! ## System registers (R10, R11) -/

/-- A system register's value; none for an absent number. -/
def sysValue (s : State) (p : Nat) (k : Kind) (n : Nat) : Option Word :=
  let c := s.core p
  let x := c.scal k
  match n with
  | 0x000 => some (x.sr k)
  | 0x001 => some x.ssr
  | 0x002 => some x.epc
  | 0x003 => some x.ecause
  | 0x004 => some x.eaddr
  | 0x005 => some x.tvec
  | 0x006 => some x.spcount
  | 0x008 => some x.lpc
  | 0x009 => some x.lps
  | 0x00A => some x.lpe
  | 0x010 => some c.ph
  | 0x011 => some c.lease
  | 0x012 => some c.spmax
  | 0x013 => some (BitVec.ofNat 64 c.dth)
  | 0x014 => some c.tq
  | 0x015 => some c.age
  | 0x016 => some (BitVec.ofNat 64 (c.spillBlocks % 1024 * 512 + c.spillFirst % 512))
  | 0x017 => some (BitVec.ofNat 64 (c.vcnNum % 1024))
  | 0x018 => some (BitVec.ofNat 64 (p % 1024))
  | 0x020 => some c.feat
  | 0x021 => some 0
  | 0x022 => some 0
  | 0x023 => some 0
  | _ =>
    if 0x024 ≤ n && n < 0x028 then some (Map.get c.mb 0 (n - 0x024))
    else if 0x040 ≤ n && n < 0x080 && n % 8 < 5 then some ((c.frontier ((n - 0x040) / 8)).word (n % 8))
    else none

/-- A number of the mailboxes MB0 to MB3. -/
def isMailbox (n : Nat) : Bool := 0x024 ≤ n && n < 0x028
/-- A number of a register that exists once per core. -/
def isCoreReg (n : Nat) : Bool := 0x010 ≤ n

/-- The effect of a write to a scalar register (R10, R12, R159, R160); a read-only register ignores it (R11). -/
def Scalar.sysWrite (x : Scalar) (n : Nat) (v : Word) : Scalar :=
  match n with
  | 0x000 => { x with dbe := v.getLsbD 0 }
  | 0x001 => { x with ssr := v }
  | 0x002 => { x with epc := v }
  | 0x005 => { x with tvec := v &&& ~~~3#64 }
  | 0x008 => { x with lpc := v }
  | 0x009 => { x with slps := v, lps := if x.lpa then x.lps else v }
  | 0x00A => { x with slpe := v, lpe := if x.lpa then x.lpe else v }
  | _ => x

end Sys2Proof.Machine
end

