-- ==== Sys2Proof/Machine/Mem.lean ====
section
/-!
DEFINITION. The memory levels: DRAM channels (R35 to R38), windows (R39 to R41), home slices and domains (R42 to R50), L1 and stash
lines (R51 to R60), translation (R61 to R68), access tables and the order of checks (R74 to R79), poison marks (R80).
-/
namespace Sys2Proof.Machine

open Sys2Proof

/-! ## Windows and domains -/

/-- A window descriptor that is valid and of an assigned class (R39). -/
def winValid (w : Word) : Bool := w.getLsbD 0 && w.extractLsb' 3 2 != 3
/-- CLASS: 0 phased, 1 immediate, 2 host-shared (R39). -/
def winClass (w : Word) : Nat := (w.extractLsb' 3 2).toNat
/-- SPRD (R39). -/
def winSprd (w : Word) : Bool := w.getLsbD 5
/-- DOM (R39). -/
def winDom (w : Word) : Nat := (w.extractLsb' 6 4).toNat
/-- FDST (R39). -/
def winFdst (w : Word) : Bool := w.getLsbD 10
/-- PTW (R39). -/
def winPtw (w : Word) : Bool := w.getLsbD 11
/-- A phased window of a domain and interleave, as a cached line remembers it. -/
def phasedWin (dom : BitVec 4) (sprd : Bool) : Word := BitVec.ofNat 64 (dom.toNat * 64 + bit sprd * 32 + 1)

/-- Descriptor i of the job's window table (R39); every descriptor is invalid while no job is resident. -/
def State.win (s : State) (i : Nat) : Word :=
  match s.job with
  | some j => Map.get j.wtab 0 i
  | none => 0

/-- The descriptor with PTW = 1 (R66). -/
def State.ptw (s : State) : Word := ((firstOf (range 0 64) fun i => winPtw (s.win i)).map s.win).getD 0

/-- VALID of a domain entry (R46). -/
def domValid (e : Word) : Bool := e.getLsbD 41
/-- VER of a domain entry. -/
def domVer (e : Word) : BitVec 4 := e.extractLsb' 37 4
/-- The positions of HMASK's set bits, rising. -/
def domHbits (e : Word) : List Nat := bitsOf (e.extractLsb' 21 16).toNat 16
/-- The slices of SMASK, rising. -/
def domSlices (e : Word) : List Nat := bitsOf (e.extractLsb' 0 21).toNat 21
/-- The acceptance rule of R46. -/
def domAccepted (e : Word) : Bool :=
  let n := (domSlices e).length
  (n == 1 || n == 2 || n == 4 || n == 8 || n == 16) && Nat.log2 n ≤ (domHbits e).length
/-- The entry of a die's domain. -/
def State.domEntry (s : State) (die dom : Nat) : Word := Map.get s.domains 0 (die * 16 + dom)

/-- idx of R47: bit j is the exclusive OR of the selected line-address bits q with q mod k = j. -/
def homeIdx (l : List Nat) (q k line : Nat) : Nat :=
  match l with
  | [] => 0
  | b :: r => (if line.testBit b then 2 ^ (q % k) else 0) ^^^ homeIdx r (q + 1) k line

/-- The home slice of a line in a domain (R47). -/
def homeOf (e : Word) (line : Nat) : Nat :=
  let l := domSlices e
  let k := Nat.log2 l.length
  (nth l (if k = 0 then 0 else homeIdx (domHbits e) 0 k line)).getD 0

/-! ## DRAM -/

/-- The stack of a DRAM address (R35). -/
def stackOf (pa : Nat) : Nat := pa / Config.stackBytes
/-- Whether an address is DRAM (R35). -/
def isDram (pa : Nat) : Bool := pa < Config.dramBytes
/-- Whether an address lies in the launch window and device registers (R35). -/
def isWindowPa (pa : Nat) : Bool := 0xF00000000000 ≤ pa && pa < 0xF00100000000
/-- The channel of an address under an interleave (R37). -/
def channelOf (sprd : Bool) (pa : Nat) : Nat :=
  let a := pa % Config.stackBytes
  if sprd then a / 4096 % 64 else a / Config.channelBytes
/-- The DRAM byte an address names under an interleave: stack, channel and offset within the channel (R37, R38). -/
def dramKey (sprd : Bool) (pa : Nat) : Nat :=
  if sprd then
    let a := pa % Config.stackBytes
    stackOf pa * Config.stackBytes + channelOf sprd pa * Config.channelBytes + (a / 262144 * 4096 + a % 4096)
  else pa

/-- One byte of DRAM (log 2, DESIGN CHOICE). -/
def dramByte (m : List Host.Cell) (k : Nat) : Byte := Map.get m Config.emptyByte k
/-- The one form that the model holds a memory in: addresses strictly rising, and no entry equal to what an unlisted address reads as. -/
def Memory.wf (m : List Host.Cell) : Bool := Map.canonical m Config.emptyByte
/-- One byte of DRAM written, in canonical form. -/
def setDramByte (m : List Host.Cell) (k : Nat) (b : Byte) : List Host.Cell := Map.set m Config.emptyByte k b
/-- n bytes from DRAM byte k, little-endian (R109). -/
def dramRead (m : List Host.Cell) (k n : Nat) : Nat :=
  match n with
  | 0 => 0
  | n + 1 => (dramByte m k).toNat + 256 * dramRead m (k + 1) n
/-- Writes n bytes of x at DRAM byte k. -/
def dramWrite (m : List Host.Cell) (k n x : Nat) : List Host.Cell :=
  match n with
  | 0 => m
  | n + 1 => dramWrite (setDramByte m k (BitVec.ofNat 8 x)) (k + 1) n (x / 256)

/-- The words (byte number div 8) that n bytes at k touch, rising. -/
def wordsOf (k n : Nat) : List Nat := if n = 0 then [] else range (k / 8) ((k + n - 1) / 8 + 1 - k / 8)
/-- The n bytes at k cover the whole word w. -/
def coversWord (k n w : Nat) : Bool := k ≤ 8 * w && 8 * w + 8 ≤ k + n

/-- Reads n bytes of DRAM at the channel controller; none when a word it reads is poisoned (R80). -/
def State.dramGet (s : State) (k n : Nat) : Option Nat :=
  if anyOf (wordsOf k n) fun w => Map.get s.poisons false w then none else some (dramRead s.dram k n)
/-- Writes n bytes of DRAM at the channel controller: not performed when it writes part of a poisoned word; every word it writes
becomes full (R80, R115). -/
def State.dramPut (s : State) (k n x : Nat) : Option State :=
  let ws := wordsOf k n
  if anyOf ws fun w => Map.get s.poisons false w && !coversWord k n w then none
  else some { s with
    dram := dramWrite s.dram k n x
    empties := each ws (fun w m => Map.set m false w false) s.empties
    poisons := each ws (fun w m => Map.set m false w false) s.poisons }

/-! ## Bytes of a line -/

/-- The mask of n bytes from offset off. -/
def byteMask (off n : Nat) : LineMask := BitVec.ofNat 128 ((2 ^ n - 1) * 2 ^ off)
/-- n bytes of a line from offset off. -/
def lineBytes (d : LineData) (off n : Nat) : Nat := (d.toNat >>> (8 * off)) % 2 ^ (8 * n)
/-- A byte mask as a bit mask. -/
def spreadMask (n m : Nat) : Nat :=
  match n with
  | 0 => 0
  | n + 1 => (if m % 2 = 1 then 255 else 0) + 256 * spreadMask n (m / 2)
/-- The bytes of the mask from b, the others from a. -/
def mergeData (mask : LineMask) (a b : LineData) : LineData :=
  let m := BitVec.ofNat 1024 (spreadMask 128 mask.toNat)
  (a &&& ~~~m) ||| (b &&& m)
/-- A line with n bytes written at offset off. -/
def putBytes (d : LineData) (off n x : Nat) : LineData :=
  mergeData (byteMask off n) d (BitVec.ofNat 1024 ((x % 2 ^ (8 * n)) * 2 ^ (8 * off)))
/-- The words of a line touched by a byte mask. -/
def maskWords (m : LineMask) : List Nat := keep (range 0 16) fun w => (m.extractLsb' (8 * w) 8) != 0
/-- The words of a line wholly covered by a byte mask. -/
def maskWhole (m : LineMask) : List Nat := keep (range 0 16) fun w => (m.extractLsb' (8 * w) 8) == 0xFF
/-- 16 word bits with those of a list set to a value. -/
def setWords (x : BitVec 16) (l : List Nat) (v : Bool) : BitVec 16 :=
  each l (fun w y => if v then y ||| (1#16 <<< w) else y &&& ~~~(1#16 <<< w)) x
/-- A word that the bytes touch is poisoned. -/
def wordsPoisoned (p : BitVec 16) (off n : Nat) : Bool := anyOf (wordsOf off n) fun w => p.getLsbD w

/-! ## Home slices -/

/-- Slice number of a home: die × 21 + slice (R42). -/
def sliceKey (pa slice : Nat) : Nat := stackOf pa * Config.slices + slice
/-- What names one copy of a line: its address and the SPRD, CLASS and DOM of the window. Mappings that differ in any of them have unrelated homes
(R41). -/
def Acc.copy (a : Acc) : Nat := ((a.pa / 128 * 2 + bit (winSprd a.win)) * 4 + winClass a.win) * 16 + winDom a.win
/-- The line address in a copy's name. -/
def copyLine (k : Nat) : Nat := k / 128
/-- A line of a slice is found by its copy's name and the VER it was filled under (R41, R49). -/
def lineKey (a : Acc) (ver : BitVec 4) : Nat := a.copy * 16 + ver.toNat
/-- The line address in the name of a slice's line. -/
def keyLine (k : Nat) : Nat := copyLine (k / 16)
/-- The domain entry that decides an access's home. -/
def State.accDomain (s : State) (a : Acc) : Word := s.domEntry (stackOf a.pa) (winDom a.win)
/-- The slice at a number. -/
def State.slice (s : State) (k : Nat) : Slice := Map.get s.slices Slice.reset k
/-- A slice replaced. -/
def State.setSlice (s : State) (k : Nat) (x : Slice) : State := { s with slices := Map.put s.slices k x }
/-- A line of a slice under a lock (R43). -/
def Slice.locked (x : Slice) (lk : Nat) : Bool := anyOf x.locks fun e => e.1 == lk

/-- A line filled from DRAM: WTS = RTS = MTS and SP = MTS; poison and F bits come with it (R45, R80, R114, R115). -/
def State.filled (s : State) (a : Acc) (ver : BitVec 4) (mts : Word) : L2Line :=
  let k := dramKey (winSprd a.win) (a.pa / 128 * 128)
  let ws := range 0 16
  { data := BitVec.ofNat 1024 (dramRead s.dram k 128)
    dirty := false, wts := mts, rts := mts, sp := mts
    full := setWords 0xFFFF (keep ws fun w => Map.get s.empties false (k / 8 + w)) false
    poison := setWords 0 (keep ws fun w => Map.get s.poisons false (k / 8 + w)) true
    dom := BitVec.ofNat 4 (winDom a.win), ver := ver, sprd := winSprd a.win }

/-- An L2 line written to DRAM with its F bits and poison marks. -/
def State.writeBack (s : State) (line : Nat) (l : L2Line) : State :=
  let k := dramKey l.sprd (line * 128)
  { s with
    dram := dramWrite s.dram k 128 l.data.toNat
    empties := each (range 0 16) (fun w m => Map.set m false (k / 8 + w) (!l.full.getLsbD w)) s.empties
    poisons := each (range 0 16) (fun w m => Map.set m false (k / 8 + w) (l.poison.getLsbD w)) s.poisons }

/-- The larger of two phases. -/
def maxW (a b : Word) : Word := if a.toNat < b.toNat then b else a

/-- A line leaves a slice: a dirty one is written to DRAM, and MTS takes its RTS and SP (R45, R49, R114). -/
def State.dropL2 (s : State) (sk lk : Nat) : State :=
  let x := s.slice sk
  match Map.find x.lines lk with
  | none => s
  | some l =>
    let s := if l.dirty then s.writeBack (keyLine lk) l else s
    s.setSlice sk { x with lines := Map.del x.lines lk, mts := maxW x.mts (maxW l.rts l.sp) }

/-- The contents of a home line after an operation, with the slice's HTS, the reply, and the head of a deferred-read list that a
`futset` dispatches. -/
structure HomeRes where
  line : L2Line
  hts : Word
  reply : Reply
  head : Option Word
  deriving DecidableEq, Repr

/-- n bytes written at off: F becomes full, a whole word's poison mark is cleared; none when part of a poisoned word is written
(R80, R120). -/
def L2Line.write (l : L2Line) (off n x : Nat) : Option L2Line :=
  if anyOf (wordsOf off n) fun w => l.poison.getLsbD w && !coversWord off n w then none
  else some { l with data := putBytes l.data off n x, dirty := true
                     full := setWords l.full (wordsOf off n) true
                     poison := setWords l.poison (wordsOf off n) false }

/-- The new value of an atomic (R113): operation, width in bytes, old value, operand and comparand. -/
def amoNew (opn : BitVec 3) (fp : Bool) (n old x c : Nat) : Nat :=
  if fp then fmtF32.add 0 0 old x
  else
    let a := BitVec.ofNat (8 * n) old
    let b := BitVec.ofNat (8 * n) x
    match opn.toNat with
    | 0 => (a + b).toNat
    | 1 => if a.toInt ≤ b.toInt then a.toNat else b.toNat
    | 2 => if a.toInt ≤ b.toInt then b.toNat else a.toNat
    | 3 => (a &&& b).toNat
    | 4 => (a ||| b).toNat
    | 5 => (a ^^^ b).toNat
    | 6 => b.toNat
    | _ => if old = c then b.toNat else a.toNat

/-- An operation performed at its home under the line lock (R51, R54, R112, R113, R117 to R120). A failure on poison answers
`error 0x16` and changes nothing (R80). `node` of a `futget` on an empty word is written into the word by the caller (log 35, DEDUCED). -/
def homeOp (op : MemOp) (off : Nat) (hts : Word) (l : L2Line) : HomeRes :=
  match op with
  | .renew q lease =>
    let l' := { l with rts := maxW l.rts (q + lease) }
    ⟨l', maxW hts l'.rts, .line l', none⟩
  | .publish mask data poison q =>
    let whole := maskWhole mask
    let part := keep (maskWords mask) fun w => !hasNat whole w
    let p := setWords (setWords l.poison (keep whole fun w => poison.getLsbD w) true) (keep whole fun w => !poison.getLsbD w) false
    let p := setWords p (keep part fun w => poison.getLsbD w) true
    let t := maxW (q + 1) (l.rts + 1)
    ⟨{ l with data := mergeData mask l.data data, dirty := true, full := setWords l.full (maskWords mask) true
              poison := p, wts := t, rts := t }, maxW hts t, .wts t, none⟩
  | .read n => if wordsPoisoned l.poison off n then ⟨l, hts, .error 0x16, none⟩ else ⟨l, hts, .value (BitVec.ofNat 64 (lineBytes l.data off n)) l.sp, none⟩
  | .write n x =>
    match l.write off n x with
    | some l' => ⟨l', hts, .done, none⟩
    | none => ⟨l, hts, .error 0x16, none⟩
  | .amo opn fp n x c ph =>
    if wordsPoisoned l.poison off n then ⟨l, hts, .error 0x16, none⟩
    else
      let old := lineBytes l.data off n
      let m := amoNew opn fp n old (x.toNat % 2 ^ (8 * n)) (c.toNat % 2 ^ (8 * n))
      let l' := { (l.write off n m).getD l with sp := maxW l.sp ph }
      ⟨l', hts, .value (BitVec.ofNat 64 old) l'.sp, none⟩
  | .futget _ cont =>
    if wordsPoisoned l.poison off 8 then ⟨l, hts, .error 0x16, none⟩
    else if l.full.getLsbD (off / 8) then ⟨l, hts, .value (BitVec.ofNat 64 (lineBytes l.data off 8)) l.sp, none⟩
    else if cont = 0 then ⟨l, hts, .error 0x17, none⟩
    else
      ⟨{ l with data := putBytes l.data off 8 cont.toNat, dirty := true }, hts, .done, some (BitVec.ofNat 64 (lineBytes l.data off 8))⟩
  | .futset x ph =>
    if wordsPoisoned l.poison off 8 then ⟨l, hts, .error 0x16, none⟩
    else if l.full.getLsbD (off / 8) then ⟨{ l with sp := maxW l.sp ph }, hts, .value 1 0, none⟩
    else
      ⟨{ l with data := putBytes l.data off 8 x.toNat, dirty := true, full := setWords l.full [off / 8] true, sp := maxW l.sp ph },
        hts, .value 0 0, some (BitVec.ofNat 64 (lineBytes l.data off 8))⟩
  | .futclr =>
    if l.full.getLsbD (off / 8) then
      ⟨{ l with data := putBytes l.data off 8 0, dirty := true, full := setWords l.full [off / 8] false
                poison := setWords l.poison [off / 8] false }, hts, .done, none⟩
    else ⟨l, hts, .done, none⟩

/-- Place for a line in a slice (R2): a slice that is full and does not hold the line evicts one, which the spec does not name (log 81, DESIGN CHOICE). -/
def State.roomHome (s : State) (sk lk : Nat) : State :=
  let l := (s.slice sk).lines
  if (Map.find l lk).isSome || l.length < Config.sliceLines (sk % Config.slices) then s
  else match nth l (s.choice % l.length) with
    | some v => s.dropL2 sk v.1
    | none => s

/-- Two accesses to one domain of one die (R50). -/
def sameDomain (a b : Acc) : Bool :=
  winClass a.win != 2 && winClass b.win != 2 && stackOf a.pa == stackOf b.pa && winDom a.win == winDom b.win

/-- A request that core p sent under another version of the access's domain (R50). -/
def MemReq.olderVer (q : MemReq) (p : Nat) (a : Acc) (ver : BitVec 4) : Bool := q.p == p && sameDomain q.acc a && q.ver != ver

/-- Request q of core p, sent before, is performed before an access of that core under VER ver: it is for the same copy of the line, which holds
its latest store (R111), or was sent to the domain under an older version (R50). -/
def MemReq.coreBefore (q : MemReq) (p : Nat) (a : Acc) (ver : BitVec 4) : Bool :=
  (q.p == p && q.acc.copy == a.copy) || q.olderVer p a ver

/-- An access of core p is held at its interface: a request before it is not performed, or, sent under an older version, not answered (R50, R111). -/
def State.heldBack (s : State) (p : Nat) (a : Acc) : Bool :=
  let ver := domVer (s.accDomain a)
  anyOf s.reqs (fun q => q.coreBefore p a ver) || anyOf s.replies fun x => x.req.olderVer p a ver

/-- Requests wait for a line in the conflict queue of its bank (R43). -/
def State.queuedFor (s : State) (sk : Nat) (a : Acc) : Bool :=
  anyOf s.reqs fun q => hasNat (s.slice sk).conflict q.id && q.acc.copy == a.copy

/-- An operation performed at its home in one step: none while the line is under a lock, or while requests are queued for it (R43). A line that is
absent, or was filled under another VER, is filled first (R49). -/
def State.homeNow (s : State) (a : Acc) (op : MemOp) : Option (State × HomeRes) :=
  let e := s.accDomain a
  let sk := sliceKey a.pa (homeOf e (a.pa / 128))
  let lk := lineKey a (domVer e)
  let s' := s.roomHome sk lk
  let x := s'.slice sk
  if (s.slice sk).locked lk || s.queuedFor sk a then none
  else
    let l := (Map.find x.lines lk).getD (s'.filled a (domVer e) x.mts)
    let r := homeOp op (a.pa % 128) x.hts l
    some (s'.setSlice sk { x with hts := r.hts, lines := Map.put x.lines lk r.line }, r)

/-- The same in the name of core p by another agent than a scalar core: none also while it is held back at the interface. -/
def State.atHome (s : State) (p : Nat) (a : Acc) (op : MemOp) : Option (State × HomeRes) := if s.heldBack p a then none else s.homeNow a op

/-! ## L1 and stash lines -/

/-- Where a core keeps a phased line (R58): L1, by the name of the copy (R41), or a stash block and line. -/
inductive Place where
  | l1 (key : Nat)
  | stash (block line : Nat)
  deriving DecidableEq, Repr

/-- The stash block that a page is mapped to. -/
def Core.blockOf (c : Core) (vpage : Nat) : Option Nat := (firstOf c.stash fun b => b.2.vpage == vpage).map Prod.fst

/-- Where the line of a phased access is kept (R58) (log 6, DEDUCED). -/
def Core.place (c : Core) (a : Acc) : Place :=
  match c.blockOf (a.va / 4096) with
  | some b => .stash b (a.pa / 128 % 32)
  | none => .l1 a.copy

/-- The line at a place (log 6, DEDUCED). -/
def Core.lineAt (c : Core) (w : Place) : Option Line :=
  match w with
  | .l1 k => Map.find c.l1 k
  | .stash b n => (Map.find c.stash b).bind fun x => Map.find x.lines n

/-- The line at a place replaced, or removed. -/
def Core.setLine (c : Core) (w : Place) (l : Option Line) : Core :=
  match w with
  | .l1 k => { c with l1 := match l with | some x => Map.put c.l1 k x | none => Map.del c.l1 k }
  | .stash b n =>
    match Map.find c.stash b with
    | none => c
    | some x => { c with stash := Map.put c.stash b { x with lines := match l with | some y => Map.put x.lines n y | none => Map.del x.lines n } }

/-- The physical line address of a place. -/
def Core.placeLine (c : Core) (w : Place) : Nat :=
  match w with
  | .l1 k => copyLine k
  | .stash b n => (match Map.find c.stash b with | some x => x.ppage | none => 0) * 32 + n

/-- Every place of a core that holds a line. -/
def Core.places (c : Core) : List Place :=
  (c.l1.map fun e => Place.l1 e.1) ++ (c.stash.map fun b => b.2.lines.map fun e => Place.stash b.1 e.1).flatten

/-- A line with no byte present, for the window of an access (R53). -/
def Line.absent (a : Acc) : Line := ⟨0, 0, 0, 0, 0, 0, 0, BitVec.ofNat 4 (winDom a.win), winSprd a.win⟩

/-- The core's own bytes: dirty, or published and not yet answered. -/
def Line.own (l : Line) : LineMask := l.dirty ||| l.pend

/-- A load of these bytes hits at phase q (R51, R53). -/
def Line.hits (l : Line) (off n : Nat) (q : Word) : Bool :=
  let m := byteMask off n
  l.present &&& m == m && (l.own &&& m == m || q.toNat ≤ l.rts.toNat)

/-- A returned line merged under the core's own dirty bytes, with the returned WTS and RTS and marks (R51, R80). -/
def Line.fill (l : Line) (h : L2Line) : Line :=
  let own := l.own
  let kept := maskWhole own
  let p := setWords h.poison (keep (maskWords own) fun w => l.poison.getLsbD w) true
  let p := setWords p (keep kept fun w => !l.poison.getLsbD w) false
  { l with data := mergeData own h.data l.data, present := BitVec.allOnes 128, poison := p, wts := h.wts, rts := h.rts }

/-- n bytes stored: present and dirty; a wholly written word loses its mark (R53, R80). -/
def Line.store (l : Line) (off n x : Nat) : Line :=
  let m := byteMask off n
  { l with data := putBytes l.data off n x, present := l.present ||| m, dirty := l.dirty ||| m
           poison := setWords l.poison (keep (wordsOf off n) fun w => coversWord off n w) false }

/-- A phased store into L1 or the stash (R53, R58). -/
def Core.storePhased (c : Core) (a : Acc) (x : Nat) : Core :=
  let w := c.place a
  c.setLine w (some (((c.lineAt w).getD (Line.absent a)).store (a.pa % 128) a.n x))

/-- A renewal's or fill's answer written into the core, with the lease jump (R51, R52). -/
def Core.fillPhased (c : Core) (a : Acc) (h : L2Line) : Core :=
  let w := c.place a
  (c.setLine w (some (((c.lineAt w).getD (Line.absent a)).fill h))).raise h.wts

/-! ## Requests of a core's interface -/

/-- Memory requests of a core still in its interface's buffer of a plane (R93) (log 7, DEDUCED). -/
def State.bufferedReqs (s : State) (p plane : Nat) : Nat := (keep s.reqs fun r => !r.left && r.p == p && r.plane.toNat == plane).length
/-- The plane of fewest buffered flits, the lowest number on a tie (R93). -/
def fewest (n : Nat → Nat) : BitVec 2 :=
  let a := if n 1 < n 0 then 1 else 0
  let b := if n 3 < n 2 then 3 else 2
  BitVec.ofNat 2 (if n b < n a then b else a)

/-- A request sent by scalar core k of core p, under the domain's current VER (R48), on the plane of R93: the state and the request's number. -/
def State.request (s : State) (p : Nat) (k : Kind) (op : MemOp) (a : Acc) (posted : Bool) (word : BitVec 32) : State × Nat :=
  let e := s.accDomain a
  let r : MemReq := ⟨s.nextReq, p, k, op, a, domVer e, homeOf e (a.pa / 128), posted, word, .flight, fewest (s.bufferedReqs p), false⟩
  ({ s with reqs := s.reqs ++ [r], nextReq := s.nextReq + 1 }, s.nextReq)

/-- The publication of a line of core p (R54): its dirty bytes become pending until the WTS returns. The access of an L1 line names
no page: its address is 1. -/
def State.publishLine (s : State) (p : Nat) (k : Kind) (w : Place) (posted : Bool) : State :=
  let c := s.core p
  match c.lineAt w with
  | none => s
  | some l =>
    if l.dirty = 0 then s
    else
      let va := match w with
        | .stash b n => (match Map.find c.stash b with | some x => x.vpage | none => 0) * 4096 + n * 128
        | .l1 _ => 1
      let a : Acc := ⟨va, c.placeLine w * 128, 128, phasedWin l.dom l.sprd⟩
      let s := s.setCore p (c.setLine w (some { l with dirty := 0, pend := l.pend ||| l.dirty }))
      (s.request p k (.publish l.dirty l.data l.poison c.ph) a posted 0).1

/-- Publication of every dirty line of a list of places (R54). -/
def State.publishAll (s : State) (p : Nat) (k : Kind) (l : List Place) : State := each l (fun w s => s.publishLine p k w false) s

/-- L1 evicts a line (R56): a dirty one is published at once with the core's current phase. -/
def State.evictLine (s : State) (p line : Nat) : State :=
  (s.publishLine p .control (.l1 line) true).modCore p fun c => c.setLine (.l1 line) none

/-- Place for a phased line in a core (R2, R56): a full L1 that does not hold the line evicts one, which the spec does not name (log 81, DESIGN
CHOICE). -/
def State.roomL1 (s : State) (p : Nat) (a : Acc) : State :=
  let c := s.core p
  match c.place a with
  | .stash .. => s
  | .l1 k =>
    if (Map.find c.l1 k).isSome || c.l1.length < Config.l1Lines then s
    else match nth c.l1 (c.alloc % c.l1.length) with
      | some v => s.evictLine p v.1
      | none => s

/-- A phased store of core p, with place made for its line (R53, R56). -/
def State.putPhased (s : State) (p : Nat) (a : Acc) (x : Nat) : State := (s.roomL1 p a).modCore p fun c => c.storePhased a x
/-- A line returned to core p, with place made for it (R51, R56). -/
def State.fillLine (s : State) (p : Nat) (a : Acc) (h : L2Line) : State := (s.roomL1 p a).modCore p fun c => c.fillPhased a h

/-! ## Access tables (R74 to R77) -/

/-- What an access needs: a load, a store, `stim` (R65), an ordered update (R267), an atomic or future, or an instruction or
configuration fetch. -/
inductive AK where
  | load
  | store
  | stim
  | update
  | atomic
  | fetch
  deriving DecidableEq, Repr

/-- The PERM bits of R76 that an access needs: read 1, W 2, X 4, atomic 8 (log 45, DEDUCED). -/
def AK.perm (k : AK) : Nat :=
  match k with
  | .load => 1
  | .store => 2
  | .stim => 2
  | .update => 3
  | .atomic => 11
  | .fetch => 5

/-- An entry matches a request (R75, R76). -/
def entryMatches (e : BitVec 128) (master pa : Nat) : Bool :=
  let mm := (e.extractLsb' 16 16).toNat
  e.getLsbD 127 && e.extractLsb' 108 15 == 0 && e.extractLsb' 32 4 == 0 &&
    master &&& mm == (e.extractLsb' 0 16).toNat &&& mm &&
    (e.extractLsb' 36 36).toNat ≤ pa / 4096 && pa / 4096 ≤ (e.extractLsb' 72 36).toNat

/-- The access tables admit a request: the lowest-numbered matching entry decides (R76). Every target holds the same table (log 5, DEDUCED). -/
def State.admits (s : State) (master pa perm : Nat) : Bool :=
  match firstOf (range 0 32) fun i => entryMatches (Map.get s.access 0 i) master pa with
  | some i => ((Map.get s.access 0 i).extractLsb' 123 4).toNat &&& perm == perm
  | none => false

/-! ## Translation (R61 to R68) -/

/-- VA[63:55] are all equal (R61). -/
def canonical (va : Nat) : Bool := va / 2 ^ 55 % 512 == 0 || va / 2 ^ 55 % 512 == 511

/-- What a table read answers. -/
inductive TableRead where
  | word (w : Word)
  | bad (cause : Nat)
  | stall
  deriving DecidableEq, Repr

/-- The number of a target of an access in Zusil's records (R77). -/
def targetOf (s : State) (a : Acc) : Nat :=
  if isWindowPa a.pa then 2000
  else if winClass a.win = 2 then 1000 + stackOf a.pa * 64 + channelOf (winSprd a.win) a.pa
  else sliceKey a.pa (homeOf (s.accDomain a) (a.pa / 128))

/-- A page-table read in the name of core p through the window with PTW = 1 (R66) (log 32, DEDUCED) (log 33, DEDUCED). -/
def State.tableRead (s : State) (p pa : Nat) : State × TableRead :=
  let a : Acc := ⟨0, pa, 8, s.ptw⟩
  if !winValid a.win then (s, .bad 0x10)
  else if !isDram pa then ((if isWindowPa pa then s.report (.denied 2000 p pa) else s), .bad 0x12)
  else if winClass a.win = 1 && !domValid (s.accDomain a) then (s, .bad 0x15)
  else if !s.admits p pa AK.load.perm then (s.report (.denied (targetOf s a) p pa), .bad 0x12)
  else if winClass a.win = 2 then
    match s.dramGet (dramKey (winSprd a.win) pa) 8 with
    | some x => (s, .word (BitVec.ofNat 64 x))
    | none => (s, .bad 0x16)
  else
    match s.atHome p a (.read 8) with
    | none => (s, .stall)
    | some (s', r) =>
      match r.reply with
      | .value x _ => (s', .word x)
      | _ => (s', .bad 0x16)

/-- What a walk answers: a translation, an entry with V = 0 with its record's destination (R70), a fault, or a line under a lock. -/
inductive Walk where
  | ok (e : TlbEntry)
  | absent (toHost : Bool)
  | bad (cause : Nat)
  | stall
  deriving DecidableEq, Repr

/-- An entry with V = 1 is malformed at the level that maps 2^sh bytes (R64). -/
def malformed (e : Word) (sh : Nat) : Bool :=
  let leaf := e.getLsbD 1
  e.extractLsb' 48 16 != 0 || e.getLsbD 5 || (leaf && sh == 39) || (!leaf && sh == 12) ||
    (!leaf && (e.extractLsb' 6 6 != 0 || e.extractLsb' 2 3 != 0)) || (e.getLsbD 3 && !e.getLsbD 2) ||
    (leaf && (e.extractLsb' 12 36).toNat % 2 ^ (sh - 12) != 0)

/-- The walk from the table at base over the remaining levels (R62, R63, R66) (log 32, DEDUCED). -/
def State.walk (s : State) (p va base : Nat) (levels : List Nat) : State × Walk :=
  match levels with
  | [] => (s, .bad 0x11)
  | sh :: rest =>
    let idx := va / 2 ^ sh % (if sh = 39 then 131072 else 512)
    match s.tableRead p (base + 8 * idx) with
    | (s, .stall) => (s, .stall)
    | (s, .bad 0x10) => (s, .absent false)
    | (s, .bad c) => (s, .bad c)
    | (s, .word e) =>
      let w := s.win (e.extractLsb' 6 6).toNat
      if !e.getLsbD 0 then (s, .absent (sh == 12 && winValid w && winFdst w))
      else if malformed e sh then (s, .bad 0x11)
      else if e.getLsbD 1 then
        (s, .ok ⟨va / 4096, (e.extractLsb' 12 36).toNat + va / 4096 % 2 ^ (sh - 12), e.extractLsb' 6 6,
          e.getLsbD 4, e.getLsbD 3, e.getLsbD 2⟩)
      else State.walk s p va ((e.extractLsb' 12 36).toNat * 4096) rest

/-- A translation entered into a TLB of n entries: a full one gives up its oldest (R67) (log 81, DESIGN CHOICE). -/
def tlbKeep (n : Nat) (l : List TlbEntry) (e : TlbEntry) : List TlbEntry := (if n ≤ l.length then l.tail else l) ++ [e]
/-- The translation of a page that a TLB holds. -/
def tlbFind (l : List TlbEntry) (va : Nat) : Option TlbEntry := firstOf l fun e => e.vpage == va / 4096
/-- A translation kept in the core's TLB. -/
def State.keepTlb (s : State) (p : Nat) (e : TlbEntry) : State := s.modCore p fun c => { c with tlb := tlbKeep Config.tlbEntries c.tlb e }
/-- A translation kept in the TLB of the core's leaf switch. -/
def State.keepLeaf (s : State) (p : Nat) (e : TlbEntry) : State :=
  { s with leafTlb := Map.put s.leafTlb (p / 4) (tlbKeep Config.leafTlbEntries (Map.get s.leafTlb [] (p / 4)) e) }

/-- Translation of a canonical address by core p: its TLB, the TLB of its leaf switch, or a walk, whose success both keep (R67) (log 81, DESIGN
CHOICE). -/
def State.translate (s : State) (p va : Nat) : State × Walk :=
  match tlbFind (s.core p).tlb va with
  | some e => (s, .ok e)
  | none =>
    match tlbFind (Map.get s.leafTlb [] (p / 4)) va with
    | some e => (s.keepTlb p e, .ok e)
    | none =>
      match s.job with
      | none => (s, .absent false)
      | some j =>
        match s.walk p va j.root [39, 30, 21, 12] with
        | (s, .ok e) => ((s.keepLeaf p e).keepTlb p e, .ok e)
        | r => r

/-! ## The order of checks (R79) -/

/-- What the checks of one part of an access answer. -/
inductive Chk where
  | ok (a : Acc)
  /-- The cause, and whether a record of an absent translation goes to the host (R70). -/
  | bad (cause : Nat) (toHost : Bool)
  /-- A page-table line is under a lock: the access waits. -/
  | stall
  deriving DecidableEq, Repr

/-- The page permissions of R65 (log 45, DEDUCED). -/
def permitted (k : AK) (e : TlbEntry) : Bool :=
  match k with
  | .load => e.rd
  | .store => e.w
  | .stim => e.rd && e.w
  | .update => e.rd && e.w
  | .atomic => e.rd && e.w
  | .fetch => e.rd && e.x

/-- The checks of R79, in their order, for n bytes of one line at va in the name of core p. `align` is the required alignment (R78)
and `cls` the window classes the instruction permits. A phased or immediate access outside DRAM lies on no die, and no domain entry concerns it: its cause is
0x12 (log 89, DESIGN CHOICE). -/
def State.check (s : State) (p va n : Nat) (k : AK) (align : Nat) (cls : Nat → Bool) : State × Chk :=
  if !canonical va then (s, .bad 0x14 false)
  else if va % align != 0 then (s, .bad 0x13 false)
  else
    match s.translate p va with
    | (s, .stall) => (s, .stall)
    | (s, .absent h) => (s, .bad 0x10 h)
    | (s, .bad c) => (s, .bad c false)
    | (s, .ok e) =>
      let a : Acc := ⟨va, e.ppage * 4096 + va % 4096, n, s.win e.win.toNat⟩
      if !permitted k e then (s, .bad 0x11 false)
      else if !winValid a.win then (s, .bad 0x10 false)
      else if !cls (winClass a.win) then (s, .bad 0x15 false)
      else if winClass a.win != 2 && isDram a.pa && !domValid (s.accDomain a) then (s, .bad 0x15 false)
      else if !isDram a.pa then ((if isWindowPa a.pa then s.report (.denied 2000 p a.pa) else s), .bad 0x12 false)
      else if !s.admits p a.pa k.perm then (s.report (.denied (targetOf s a) p a.pa), .bad 0x12 false)
      else (s, .ok a)

/-- The pieces of n bytes at va that lie in one line each, lowest first (R110); addresses wrap at 2^64. -/
def pieces (fuel va n : Nat) : List (Nat × Nat) :=
  match fuel with
  | 0 => []
  | fuel + 1 =>
    if n = 0 then []
    else
      let m := min n (128 - va % 128)
      (va % 2 ^ 64, m) :: pieces fuel (va + m) (n - m)

/-- What the checks of a whole access answer. -/
inductive ChkAll where
  | ok (l : List Acc)
  /-- The cause, the first byte of the failing part, and R70's destination. -/
  | bad (cause va : Nat) (toHost : Bool)
  | stall
  deriving DecidableEq, Repr

/-- Every part is checked before any is performed (R110). -/
def State.checkAll (s : State) (p : Nat) (l : List (Nat × Nat)) (k : AK) (align : Nat) (cls : Nat → Bool) : State × ChkAll :=
  match l with
  | [] => (s, .ok [])
  | (va, n) :: r =>
    match s.check p va n k align cls with
    | (s, .stall) => (s, .stall)
    | (s, .bad c h) => (s, .bad c va h)
    | (s, .ok a) =>
      match State.checkAll s p r k align cls with
      | (s, .ok as) => (s, .ok (a :: as))
      | x => x

/-- Any window class. -/
def anyClass (_ : Nat) : Bool := true
/-- Immediate windows only (R40). -/
def immOnly (c : Nat) : Bool := c == 1
/-- Phased windows only (R121). -/
def phasedOnly (c : Nat) : Bool := c == 0

/-- The checks of n bytes at va, however many lines they span. -/
def State.checkSpan (s : State) (p va n : Nat) (k : AK) (align : Nat) (cls : Nat → Bool) : State × ChkAll :=
  s.checkAll p (pieces (n / 128 + 2) va n) k align cls

/-! ## Accesses performed in one step -/

/-- What an access performed in one step answers. -/
inductive Got where
  | ok (x : Nat)
  | poison
  | stall
  deriving DecidableEq, Repr

/-- One part read in the name of core p as R111 routes it: L1 or stash with a renewal on a miss (R51, R52), home slice, or channel. -/
def State.loadPart (s : State) (p : Nat) (a : Acc) : State × Got :=
  let off := a.pa % 128
  match winClass a.win with
  | 0 =>
    let c := s.core p
    let w := c.place a
    let l := (c.lineAt w).getD (Line.absent a)
    if l.hits off a.n c.ph then (s, if wordsPoisoned l.poison off a.n then .poison else .ok (lineBytes l.data off a.n))
    else
      match s.atHome p a (.renew c.ph c.lease) with
      | none => (s, .stall)
      | some (s, r) =>
        let s := s.fillLine p a r.line
        let l := ((s.core p).lineAt w).getD (Line.absent a)
        (s, if wordsPoisoned l.poison off a.n then .poison else .ok (lineBytes l.data off a.n))
  | 1 =>
    match s.atHome p a (.read a.n) with
    | none => (s, .stall)
    | some (s', r) =>
      (s', if r.reply = .error 0x16 then .poison else .ok (lineBytes r.line.data off a.n))
  | _ =>
    if s.heldBack p a then (s, .stall)
    else match s.dramGet (dramKey (winSprd a.win) a.pa) a.n with
      | some x => (s, .ok x)
      | none => (s, .poison)

/-- The parts of a load read in order, low bytes first (R110). -/
def State.loadParts (s : State) (p : Nat) (l : List Acc) : State × Got :=
  match l with
  | [] => (s, .ok 0)
  | a :: r =>
    match s.loadPart p a with
    | (s, .ok x) =>
      match State.loadParts s p r with
      | (s, .ok y) => (s, .ok (x + y * 2 ^ (8 * a.n)))
      | z => z
    | z => z

/-- One part stored in the name of core p (R111): into L1 or the stash, at the home, or at the channel. -/
def State.storePart (s : State) (p : Nat) (a : Acc) (x : Nat) : State × Got :=
  match winClass a.win with
  | 0 => (s.putPhased p a x, .ok 0)
  | 1 =>
    match s.atHome p a (.write a.n x) with
    | none => (s, .stall)
    | some (s', r) => (s', if r.reply = .error 0x16 then .poison else .ok 0)
  | _ =>
    if s.heldBack p a then (s, .stall)
    else match s.dramPut (dramKey (winSprd a.win) a.pa) a.n x with
      | some s => (s, .ok 0)
      | none => (s, .poison)

/-- The parts of a store written in order. -/
def State.storeParts (s : State) (p : Nat) (l : List Acc) (x : Nat) : State × Got :=
  match l with
  | [] => (s, .ok 0)
  | a :: r =>
    match s.storePart p a (x % 2 ^ (8 * a.n)) with
    | (s, .ok _) => State.storeParts s p r (x / 2 ^ (8 * a.n))
    | z => z

end Sys2Proof.Machine
end

