-- ==== Sys2Proof/Machine/Net.lean ====
section
/-!
DEFINITION. Completion records (R149 to R151), the relocation table (R82), messages and their counts (R84 to R97), the inbound
classes (R99 to R101), the ready queues (R300) and the start of handler firings (R90).
-/
namespace Sys2Proof.Machine

open Sys2Proof

/-! ## Completion records -/

/-- W0 of a record (R149). -/
def recW0 (kind cause tag elem slot port ctx unit iss vcn : Nat) : Word :=
  BitVec.ofNat 8 kind ++ BitVec.ofNat 8 cause ++ BitVec.ofNat 16 tag ++ BitVec.ofNat 6 elem ++ BitVec.ofNat 5 slot
    ++ BitVec.ofNat 1 port ++ BitVec.ofNat 4 ctx ++ BitVec.ofNat 4 unit ++ BitVec.ofNat 2 iss ++ BitVec.ofNat 10 vcn

/-- UNIT of a record (R149). -/
def Rec.unit (r : Rec) : Nat := (r.w0.extractLsb' 12 4).toNat
/-- ELEM of a record. -/
def Rec.elem (r : Rec) : Nat := (r.w0.extractLsb' 26 6).toNat
/-- KIND of a record. -/
def Rec.kind (r : Rec) : Nat := (r.w0.extractLsb' 56 8).toNat

/-- The event queue has room and no producer waits for it (R151). -/
def Core.eqRoom (c : Core) : Bool := c.eq.length < 256 && c.eqHeld.isEmpty
/-- A record handed to the event queue; with the queue full its producer holds it (R151). -/
def Core.putRec (c : Core) (r : Rec) : Core := if c.eqRoom then { c with eq := c.eq ++ [r] } else { c with eqHeld := c.eqHeld ++ [r] }
/-- A producer holds a record and is stalled (R151). -/
def Core.stalled (c : Core) (f : Rec → Bool) : Bool := anyOf c.eqHeld f
/-- Held records move into the queue, in order, as it drains. -/
def Core.moveHeld (c : Core) : Core :=
  match c.eqHeld with
  | [] => c
  | r :: rest => if c.eq.length < 256 then { c with eq := c.eq ++ [r], eqHeld := rest } else c

/-- A record to a core's event queue. -/
def State.putRec (s : State) (p : Nat) (r : Rec) : State := s.modCore p fun c => c.putRec r
/-- A record to a core's event queue with a copy to Zusil. -/
def State.putBoth (s : State) (p : Nat) (r : Rec) : State := (s.putRec p r).report (.copy (s.core p).vcnNum r)

/-- A NETERR record (R150): sub-cause, class, W1, W2. Each goes to the control core and to Zusil, the one of an undeliverable continuation with them, though
R91 names the control core alone (log 82, DESIGN CHOICE). -/
def State.netErr (s : State) (p sub cls : Nat) (w1 w2 : Word) : State :=
  s.putBoth p ⟨recW0 8 sub cls 0 0 0 0 5 0 (s.core p).vcnNum, w1, w2, 0⟩
/-- A POISON record where poison stops (R338). -/
def State.poisonRec (s : State) (p elem slot port ctx unit : Nat) (v t : Word) : State :=
  s.putBoth p ⟨recW0 9 (v.extractLsb' 32 8).toNat 0 elem slot port ctx unit 0 (s.core p).vcnNum, (v.extractLsb' 0 26).setWidth 64, v, t⟩
/-- A MEMERR record for a posted operation on a poisoned word (R80, R150). -/
def State.memErr (s : State) (p : Nat) (k : Kind) (va : Nat) (word : BitVec 32) : State :=
  s.putBoth p ⟨recW0 0x0B 0x16 0 0 0 0 0 5 k.code (s.core p).vcnNum, BitVec.ofNat 64 va, word.setWidth 64, 0⟩

/-! ## The relocation table -/

/-- The relocation entry of a VCN (R82). -/
def State.relocOf (s : State) (v : Nat) : BitVec 16 := Map.get s.reloc 0 v
/-- V of a relocation entry. -/
def relocV (e : BitVec 16) : Bool := e.getLsbD 15
/-- FWD of a relocation entry. -/
def relocFwd (e : BitVec 16) : Bool := e.getLsbD 14
/-- RMT of a relocation entry. -/
def relocRmt (e : BitVec 16) : Bool := e.getLsbD 13
/-- PCN, or the chip id when RMT = 1. -/
def relocNum (e : BitVec 16) : Nat := (e.extractLsb' 0 12).toNat
/-- The VCN is in the job and held by a core of this module. -/
def State.local (s : State) (v : Nat) : Bool := relocV (s.relocOf v) && !relocRmt (s.relocOf v)
/-- The position that holds a VCN of this module. -/
def State.posOf (s : State) (v : Nat) : Nat := relocNum (s.relocOf v)
/-- No message can be sent to the VCN: V = 0, or another chip with no port (R83). -/
def State.unknown (s : State) (v : Nat) : Bool :=
  let e := s.relocOf v
  !relocV e || (relocRmt e && (Map.get s.hub.routes none (relocNum e)).isNone)

/-- The tree distance of two positions (R81). -/
def distance (a b : Nat) : Nat :=
  if a = b then 0 else if a / 4 = b / 4 then 1 else if a / 16 = b / 16 then 2 else if a / 64 = b / 64 then 3 else 4

/-! ## Sending -/

/-- The header flit (R84). -/
def Msg.header (m : Msg) : BitVec 128 :=
  m.cls ++ m.dst ++ m.cont ++ m.opc ++ BitVec.ofBool m.o ++ BitVec.ofBool m.p ++ BitVec.ofBool m.m ++ BitVec.ofBool m.l
    ++ m.plane ++ m.src ++ m.seq ++ m.path ++ m.diff ++ m.phase
/-- The payload flit (R84). -/
def Msg.payload (m : Msg) : BitVec 128 := m.value ++ m.time
/-- A message from its two flits (R84). -/
def Msg.ofFlits (h b : BitVec 128) : Msg where
  cls := h.extractLsb' 124 4
  dst := h.extractLsb' 114 10
  cont := h.extractLsb' 102 12
  opc := h.extractLsb' 93 9
  o := h.getLsbD 92
  p := h.getLsbD 91
  m := h.getLsbD 90
  l := h.getLsbD 89
  plane := h.extractLsb' 87 2
  src := h.extractLsb' 77 10
  seq := h.extractLsb' 67 10
  path := h.extractLsb' 56 11
  diff := h.extractLsb' 24 32
  phase := h.extractLsb' 0 24
  value := b.extractLsb' 64 64
  time := b.extractLsb' 0 64

/-- Messages of a source and class still in its interface's buffer of a plane (R93); each is two flits (log 7, DEDUCED). -/
def State.buffered (s : State) (src : BitVec 10) (cls : BitVec 4) (plane : Nat) : Nat :=
  (keep s.net fun e => !e.left && e.msg.src == src && e.msg.cls == cls && e.msg.plane.toNat == plane).length
/-- The plane the interface picks: the fewest flits, the lowest number on a tie (R93) (log 7, DEDUCED). -/
def State.pickPlane (s : State) (src : BitVec 10) (cls : BitVec 4) : BitVec 2 :=
  fewest (s.buffered src cls)

/-- A saturating n32 count plus one (R352). -/
def inc32 (x : BitVec 32) : BitVec 32 := if x = BitVec.allOnes 32 then x else x + 1

/-- The traffic counter of a message from position p to position q on C0 to C7 or C13 (R352). -/
def Swap.count (w : Swap) (p q : Nat) : Swap :=
  if p = q then w
  else if p / 16 = q / 16 then { w with n := Map.put w.n (q % 16) (inc32 (Map.get w.n 0 (q % 16))) }
  else if p / 64 = q / 64 then { w with m := Map.put w.m (q / 16 % 4) (inc32 (Map.get w.m 0 (q / 16 % 4))) }
  else { w with x := inc32 w.x }

/-- A message leaves the hub for another chip, with its third flit (R375). -/
def State.hubSends (s : State) (chip : Nat) (m : Msg) : State :=
  let third : BitVec 128 := BitVec.ofNat 12 chip ++ BitVec.ofNat 12 s.hub.chip ++ 0#104
  let words := [m.header, m.payload, third].map fun (f : BitVec 128) => [f.extractLsb' 0 64, f.extractLsb' 64 64]
  { s with hub := { s.hub with sent := s.hub.sent ++ [((Map.get s.hub.routes none chip).getD 0, words.flatten)] } }

/-- A message leaves core p for another chip, through the hub. It counts as off the die (R352). -/
def State.sendOff (s : State) (p chip : Nat) (m : Msg) : State :=
  (s.modCore p fun c => { c with sw := { c.sw with x := inc32 c.sw.x } }).hubSends chip m

/-- A message leaves core p: into the network, counted under R352, or to another module. -/
def State.postWith (s : State) (p : Nat) (issuer : Option Kind) (parts : List Msg) (m : Msg) : State :=
  let e := s.relocOf m.dst.toNat
  if relocRmt e then s.sendOff p (relocNum e) m
  else
    let s := s.modCore p fun c => { c with sw := c.sw.count p (relocNum e) }
    let held := relocFwd e && m.cls.toNat < 8
    { s with net := s.net ++ [⟨m, false, held, issuer, none, parts⟩] }
/-- A message that answers no spawn. -/
def State.post (s : State) (p : Nat) (issuer : Option Kind) (m : Msg) : State := s.postWith p issuer [] m

/-- A message to VCN v with everything unset but its class, source, phase and plane. -/
def State.blank (s : State) (p cls opc v : Nat) : Msg :=
  let src := BitVec.ofNat 10 (s.core p).vcnNum
  { cls := BitVec.ofNat 4 cls, dst := BitVec.ofNat 10 v, cont := 0, opc := BitVec.ofNat 9 opc, o := false, p := false, m := false
    l := false, plane := s.pickPlane src (BitVec.ofNat 4 cls), src := src, seq := 0, path := 0, diff := 0
    phase := (s.core p).ph.extractLsb' 0 24, value := 0, time := 0 }

/-- The counts of a destination (R95). -/
def Core.outOf (c : Core) (v : Nat) : Out := Map.get c.out ⟨0, 0, false⟩ v

/-- A counted send waits (R83, R95, R376). -/
def State.sendWaits (s : State) (p v : Nat) : Bool :=
  let c := s.core p
  if s.unknown v then !c.eqRoom
  else
    let o := c.outOf v
    511 ≤ o.una || o.oWait || (relocRmt (s.relocOf v) && 64 ≤ c.offUna)

/-- A counted message sent (R95, R97): none when it waits. To an unknown VCN the interface writes the NETERR record and counts it
as sent and acknowledged (R83). -/
def State.sendCounted (s : State) (p : Nat) (m : Msg) : Option State :=
  let v := m.dst.toNat
  if s.sendWaits p v then none
  else
    let c := s.core p
    let o := c.outOf v
    let snt := if m.o then 0 else o.snt + 1
    if s.unknown v then
      some ((s.setCore p { c with out := Map.put c.out v { o with snt := snt } }).netErr p 1 m.cls.toNat (BitVec.ofNat 64 v) 0)
    else
      let c := { c with
        out := Map.put c.out v ⟨snt, o.una + 1, m.o⟩
        plane := Map.put c.plane m.plane.toNat (Map.get c.plane 0 m.plane.toNat + 1)
        offUna := if relocRmt (s.relocOf v) then c.offUna + 1 else c.offUna }
      some ((s.setCore p c).post p none { m with seq := o.snt })

/-- The subop of a KREQ or KREP: header bits [105:102] (R86). -/
def Msg.subop (m : Msg) : Nat := (m.cont.extractLsb' 0 4).toNat
/-- The part of a KREQ or KREP: header bits [107:106] (R86). -/
def Msg.part (m : Msg) : Nat := (m.cont.extractLsb' 4 2).toNat
/-- A message that carries an enqueue (R304): SPWN, CNTOP, or a KREQ of `cjoin`, `cleave`, `cbar` or `rng`. -/
def Msg.enqueue (m : Msg) : Bool := m.opc == 5 || m.opc == 7 || (m.opc == 8 && m.subop < 4)

/-! ## Arrival -/

/-- Message f keeps its order before a later message e: one source, destination, plane and class (R92), or counted messages from one core of another
module to one core, which come by one ordered path (R376). -/
def NetMsg.orders (f e : NetMsg) : Bool :=
  f.msg.src == e.msg.src && f.msg.dst == e.msg.dst &&
    ((f.msg.plane == e.msg.plane && f.msg.cls == e.msg.cls) ||
      (e.chip.isSome && f.chip == e.chip && f.msg.cls.toNat < 8 && e.msg.cls.toNat < 8))

/-- Message n can arrive: it is not held, and no earlier message that keeps its order before it is still in flight (R92, R356, R376). -/
def State.arrivable (s : State) (n : Nat) : Option NetMsg :=
  match nth s.net n with
  | none => none
  | some e =>
    if e.held || anyOf (firstN s.net n) (fun f => f.orders e) then none else some e

/-- Message n taken out of the network. -/
def State.dropMsg (s : State) (n : Nat) : State := { s with net := dropNth s.net n }

/-- The class's inbound side. -/
def Core.inbound (c : Core) (cls : Nat) : Inbound := Map.get c.inb Inbound.reset cls
/-- An inbound side replaced. -/
def Core.setInbound (c : Core) (cls : Nat) (x : Inbound) : Core := { c with inb := Map.put c.inb cls x }
/-- The handler-table entry of a class. -/
def Core.handler (c : Core) (cls : Nat) : Handler := Map.get c.handlers Handler.reset cls
/-- A handler-table entry replaced. -/
def Core.setHandler (c : Core) (cls : Nat) (h : Handler) : Core := { c with handlers := Map.put c.handlers cls h }

/-- Unread entries of a ring. -/
def ringCount (r : Option Ring) : Nat :=
  match r with
  | some x => x.count
  | none => 0
/-- Entries in both rings. -/
def Inbound.spilled (x : Inbound) : Nat := ringCount x.old + ringCount x.cur
/-- PEND (R89, R90). -/
def Inbound.pend (x : Inbound) : Bool := !x.q.isEmpty || 0 < x.spilled

/-- A counted delivery (R94, R95, R97): DLV counts it, an O message clears DLV and raises PH (R96), and an ACK is due. -/
def State.delivered (s : State) (p : Nat) (m : Msg) (chip : Option Nat) : State :=
  let src := m.src.toNat
  let free := Config.freeWord s.free
  let used := (s.core p).ph.toNat % 2 ^ 24
  let open_ := m.o && (m.phase.toNat + 2 ^ 24 - used) % 2 ^ 24 == 2 ^ 23
  let s := s.modCore p fun c => { c with
    ph := if m.o then raisePhase c.ph m.phase free else c.ph
    dlv := if chip.isSome then c.dlv else Map.put c.dlv src (if m.o then 0 else Map.get c.dlv 0 src + 1)
    toAck := c.toAck ++ [(src, m.plane.toNat, m.o, chip)] }
  if open_ then { s with free := s.free + 1 } else s

/-! ## Acknowledgements (R83, R97) -/

/-- n counted messages to VCN v on a plane are acknowledged: UNA, the plane's count, and the count of messages to other chips fall; an O
message's own acknowledgement, or that of everything sent to v, ends the wait behind it (log 61, DEDUCED). -/
def Core.acked (c : Core) (v plane n : Nat) (o off : Bool) : Core :=
  let x := c.outOf v
  { c with
    out := Map.put c.out v { x with una := x.una - n, oWait := x.oWait && !o && x.una != n }
    plane := Map.put c.plane plane (Map.get c.plane 0 plane - n)
    offUna := if off then c.offUna - n else c.offUna }

/-- NAKs from other modules leave their slots while the event queue has room: each writes its NETERR record and only then counts (R83, R288). The record's
TAG is the class of the NAK, C13: nothing keeps the lost message's class (log 82, DESIGN CHOICE). -/
def State.settleNaks (fuel : Nat) (s : State) (p : Nat) : State :=
  match fuel with
  | 0 => s
  | fuel + 1 =>
    match (s.core p).naks with
    | [] => s
    | m :: rest =>
      if !(s.core p).eqRoom then s
      else
        let v := m.src.toNat
        let s := s.netErr p 1 m.cls.toNat (BitVec.ofNat 64 v) 0
        State.settleNaks fuel (s.modCore p fun c => { c with naks := rest }.acked v m.plane.toNat 1 m.o true) p

/-! ## The ready queues and handler firings -/

/-- A firing made READY: at the tail of its level's queue on its scalar core (R300). -/
def Scalar.enqueue (x : Scalar) (level : Nat) (id : FiringId) : Scalar :=
  { x with ready := Map.put x.ready level (Map.get x.ready [] level ++ [⟨id, 0⟩]) }
/-- A firing made READY on a core. -/
def Core.enqueue (c : Core) (k : Kind) (level : Nat) (id : FiringId) : Core := c.modScal k fun x => x.enqueue level id

/-- The class's oldest message is removed from the queue. -/
def Core.popInbound (c : Core) (cls : Nat) : Core :=
  let x := c.inbound cls
  c.setInbound cls { x with q := x.q.drop 1 }

/-- What the class's state allows now (R90), for the oldest message once it stands in the queue: a poison message on a MODE 0 class is removed with a record (R338); otherwise one firing
of the class is enqueued at PRIO. The number bounds the poison messages removed (log 64, DEDUCED) (log 80, DEDUCED). -/
def State.kick (fuel : Nat) (s : State) (p cls : Nat) : State :=
  match fuel with
  | 0 => s
  | fuel + 1 =>
    let c := s.core p
    let h := c.handler cls
    let x := c.inbound cls
    if !(h.en && x.pend && !h.mode && !h.busy) then s
    else
      match x.q with
      | m :: _ =>
        if m.p then
          if c.eqRoom then State.kick fuel ((s.setCore p (c.popInbound cls)).poisonRec p 0 0 0 0 5 m.value m.time) p cls else s
        else s.setCore p ((c.setHandler cls { h with busy := true }).enqueue .control h.prio.toNat (.handler cls none))
      | [] => s

/-- Every class of a core. -/
def State.kickAll (s : State) (p : Nat) : State := each [0, 1, 2, 3, 4, 5, 6, 7, 13] (fun cls s => s.kick 17 p cls) s

end Sys2Proof.Machine
end

