-- ==== Sys2Proof/Machine/Escape.lean ====
section
/-!
DEFINITION. The escapement (R290 to R313): counter references and operations, spawned entries, the cohort keeper with its barriers and
ranges, the end of a firing and the registers a firing starts with.
-/
namespace Sys2Proof.Machine

open Sys2Proof

/-! ## The task table -/

/-- An entry of the task table. -/
def Core.task (c : Core) (e : Nat) : Task := Map.get c.tasks Task.reset e
/-- An entry replaced. -/
def Core.setTask (c : Core) (e : Nat) (t : Task) : Core := { c with tasks := Map.put c.tasks e t }
/-- A FREE entry that no request for work reserves (R296, R311): the first from where the core's search starts (log 24, DESIGN CHOICE). -/
def Core.freeEntry (c : Core) : Option Nat := firstOf (around 256 c.alloc) fun e => (c.task e).st == .free && !(c.task e).reserved

/-- SEL of a counter reference (R293). -/
def refSel (r : Word) : Nat := (r.extractLsb' 24 3).toNat
/-- VCN of a counter reference. -/
def refVcn (r : Word) : Nat := (r.extractLsb' 8 10).toNat
/-- ENTRY of a counter reference. -/
def refEntry (r : Word) : Nat := (r.extractLsb' 0 8).toNat
/-- A reference to an entry's dependence counter: SEL 0, the entry's GEN (R293). -/
def Core.refTo (c : Core) (e : Nat) : Word := BitVec.ofNat 64 ((c.task e).gen.toNat * 2 ^ 18 + c.vcnNum * 2 ^ 8 + e)

/-- The reference names a live counter (R293). -/
def Core.liveRef (c : Core) (r : Word) : Bool :=
  let t := c.task (refEntry r)
  r.extractLsb' 18 6 == t.gen && t.st != .free && (refSel r == 0 || (t.actor && refSel r ≤ 4))

/-- RATE of input j (R294). -/
def Task.rate (t : Task) (j : Nat) : Nat := (t.rates.extractLsb' (16 * j) 16).toNat
/-- Input count j. -/
def Task.input (t : Task) (j : Nat) : Nat := (Map.get t.inp 0 j).toNat

/-- A READY entry joins its level's queue. -/
def Core.ready (c : Core) (e : Nat) : Core :=
  let t := c.task e
  (c.setTask e { t with st := .ready }).enqueue t.kind t.prio.toNat (.task e)

/-- The evaluation of an actor in IDLE (R301): it becomes READY when its counter is 0 and every count reaches its rate, and consumes. -/
def Core.evaluate (c : Core) (e : Nat) : Core :=
  let t := c.task e
  if t.st == .idle && t.actor && t.cnt == 0 && allOf [0, 1, 2, 3] fun j => t.rate j ≤ t.input j then
    let inp := each [0, 1, 2, 3] (fun j m => Map.put m j (BitVec.ofNat 16 (t.input j - t.rate j))) t.inp
    (c.setTask e { t with inp := inp }).ready e
  else c

/-- A WAIT entry whose counter is 0 is released (R298, R300). -/
def Core.release (c : Core) (e : Nat) : Core :=
  let t := c.task e
  if t.st == .wait && t.cnt == 0 then
    (if t.actor then (c.setTask e { t with st := .idle }).evaluate e else c.ready e)
  else c

/-- A counter operation applied by the escapement that holds the counter (R298, R299): 0 decrement, 1 set, 2 add. A reference to no
live counter, or a decrement at 0, writes a DEPUNDER record naming the issuer. -/
def State.counterOp (s : State) (p op : Nat) (r value : Word) (issuer : Nat) (iss : Nat) : State :=
  let c := s.core p
  let e := refEntry r
  let t := c.task e
  let under := s.putRec p ⟨recW0 0x0A 0 0 0 0 0 0 7 iss c.vcnNum, BitVec.ofNat 64 (issuer % 1024 * 2 ^ 32) ||| (r.extractLsb' 0 27).setWidth 64, 0, 0⟩
  if !c.liveRef r then under
  else if refSel r = 0 then
    match op with
    | 0 => if t.cnt = 0 then under else s.setCore p (((c.setTask e { t with cnt := t.cnt - 1 }).release e).evaluate e)
    | 1 => if t.st != .wait then s else s.setCore p ((c.setTask e { t with cnt := value.extractLsb' 0 16 }).release e)
    | _ => s.setCore p ((c.setTask e { t with cnt := BitVec.ofNat 16 (min 65535 (t.cnt.toNat + value.toNat)) }).release e)
  else
    let j := refSel r - 1
    match op with
    | 0 =>
      if t.input j = 0 then under
      else s.setCore p ((c.setTask e { t with inp := Map.put t.inp j (BitVec.ofNat 16 (t.input j - 1)) }).evaluate e)
    | 1 => s.setCore p ((c.setTask e { t with inp := Map.put t.inp j (value.extractLsb' 0 16) }).evaluate e)
    | _ =>
      s.setCore p ((c.setTask e { t with inp := Map.put t.inp j (BitVec.ofNat 16 (min 65535 (t.input j + value.toNat))) }).evaluate e)

/-- No message of R86 reaches the VCN: it has no core, or one of another module, which is a destination only for MSG and RST (R82, R83) (log 82, DESIGN
CHOICE). -/
def State.noC13 (s : State) (v : Nat) : Bool := s.unknown v || relocRmt (s.relocOf v)

/-- A message of R86 on C13; to a VCN that none reaches it draws the record of R83 and is not sent (log 82, DESIGN CHOICE). -/
def State.sendC13 (s : State) (p : Nat) (iss : Option Kind) (m : Msg) : State :=
  if s.noC13 m.dst.toNat then s.netErr p 1 13 (BitVec.ofNat 64 m.dst.toNat) 0 else s.post p iss m

/-- A continuation field with the subop in header bits [105:102] and the part in [107:106] (R86). -/
def contOf (sub part : Nat) : BitVec 12 := BitVec.ofNat 12 (sub % 16 + part % 4 * 16)

/-- Messages sent one after another (log 29, DEDUCED). -/
def State.sendParts (s : State) (p : Nat) (k : Option Kind) (l : List Msg) : State := each l (fun m s => s.sendC13 p k m) s

/-- The destination of a message in parts. -/
def partsDst (l : List Msg) : Nat := match l with | m :: _ => m.dst.toNat | [] => 0

/-- A spawn of scalar core k to VCN v has been sent and not been taken (R296). -/
def Core.spawnOpen (c : Core) (k : Kind) (v : Nat) : Bool := anyOf c.retry fun r => r.issuer == some k && partsDst r.parts == v

/-- The parts of an enqueue leave the interface; a spawn's are kept until it is taken (R296). -/
def State.sendEnqueue (s : State) (p : Nat) (k : Kind) (l : List Msg) : State :=
  let s := s.sendParts p (some k) l
  if anyOf l fun m => m.opc == 5 then s.modCore p fun c => { c with retry := c.retry ++ [⟨0, some k, l, false⟩] } else s

/-- An enqueue of scalar core k (R304): it waits at the interface behind a spawn to the same VCN that has not been taken, and behind what waits there. All
enqueues of a core take plane 0, so that R92 keeps their order (log 82, DESIGN CHOICE). -/
def State.enqueueAt (s : State) (p : Nat) (k : Kind) (l : List Msg) : State :=
  let v := partsDst l
  let c := s.core p
  if c.spawnOpen k v || anyOf c.behind (fun b => b.1 == k && partsDst b.2 == v) then s.modCore p fun c => { c with behind := c.behind ++ [(k, l)] }
  else s.sendEnqueue p k l

/-- The enqueues that waited behind a spawn that has now been taken leave in order, up to the next spawn (R296, R304). -/
def State.releaseBehind (fuel : Nat) (s : State) (p : Nat) (k : Kind) (v : Nat) : State :=
  match fuel with
  | 0 => s
  | fuel + 1 =>
    let c := s.core p
    if c.spawnOpen k v then s
    else
      match indexOf c.behind fun b => b.1 == k && partsDst b.2 == v with
      | none => s
      | some i =>
        let l := match nth c.behind i with | some b => b.2 | none => []
        State.releaseBehind fuel ((s.modCore p fun c => { c with behind := dropNth c.behind i }).sendEnqueue p k l) p k v

/-- A counter operation enqueued by core p (R304): applied at once on its own core, else a CNTOP on C13 (R86) (log 26, DEDUCED). -/
def State.counterSend (s : State) (p : Nat) (k : Kind) (op : Nat) (r value : Word) : State :=
  let v := (s.core p).vcnNum
  if refVcn r = v then s.counterOp p op r value v k.code
  else
    let m := s.blank p 13 7 (refVcn r)
    s.enqueueAt p k [{ m with plane := 0, value := r, time := value, cont := BitVec.ofNat 12 (op % 4 + k.code * 4) }]

/-! ## Spawns (R294, R296) -/

/-- The eight words of a spawn descriptor keep its format (R294). -/
def spawnOk (w : List Word) : Bool :=
  let f := fun i => (nth w i).getD 0
  let kind := Kind.ofCode ((f 0).extractLsb' 18 2).toNat
  let actor := (f 0).getLsbD 20
  let rates := f 4
  let out := fun i => (f i).extractLsb' 27 21 == 0 && (f i).extractLsb' 48 16 == 0 ||
    (f i).extractLsb' 27 21 == 0 && 1 ≤ refSel (f i) && refSel (f i) ≤ 4
  (f 0).extractLsb' 42 22 == 0 && (f 0).extractLsb' 21 11 == 0 && (f 0).extractLsb' 18 2 != 3 &&
    ((f 0).extractLsb' 0 16).toNat < Config.storeBytes kind && (f 0).extractLsb' 0 2 == 0 &&
    (f 1).extractLsb' 16 48 == 0 && (f 3).extractLsb' 27 36 == 0 && f 7 == 0 &&
    (if actor then f 3 == 0 && rates != 0 && out 5 && out 6 else f 4 == 0 && f 5 == 0 && f 6 == 0)

/-- A FREE entry takes a spawn (R296, R300): none when the table is full; else the state and the entry. -/
def Core.takeSpawn (c : Core) (w : List Word) : Option (Core × Nat) :=
  match c.freeEntry with
  | none => none
  | some e =>
    let f := fun i => (nth w i).getD 0
    let cnt := (f 1).extractLsb' 0 16
    let actor := (f 0).getLsbD 20
    let t : Task := {
      st := if cnt != 0 then .wait else .idle, gen := (c.task e).gen, cnt := cnt, inp := [], actor := actor
      kind := Kind.ofCode ((f 0).extractLsb' 18 2).toNat, prio := (f 0).extractLsb' 16 2, entry := (f 0).extractLsb' 0 16
      arg := f 2, done := if (f 3).getLsbD 63 then some ((f 3).extractLsb' 0 27) else none
      rates := f 4, out0 := f 5, out1 := f 6, range := none, reserved := false }
    let c := c.setTask e t
    some (if cnt != 0 then c else if actor then c.evaluate e else c.ready e, e)

/-! ## Keeper replies at a core (R308 to R311) -/

/-- A barrier's completion (R308): AMASK is cleared and the continuation becomes READY. -/
def Core.barrierDone (c : Core) (cohort : Nat) (phase : BitVec 24) : Core :=
  match Map.find c.bars cohort with
  | none => c
  | some b =>
    let b := { b with phase := phase }
    ({ c with amask := c.amask &&& ~~~(1#64 <<< cohort), bars := Map.del c.bars cohort }).enqueue b.kind b.prio.toNat (.barrier cohort b)

/-- The opening of a range (R309): the opener's range firing is placed in its entry, and `rng` completes. -/
def Core.rangeOpened (c : Core) (k : Kind) (pid : BitVec 16) : Core :=
  match (c.scal k).wait with
  | some (.rngOpen e) =>
    let t := c.task e
    let c := (c.setTask e { t with reserved := false, range := t.range.map fun r => (pid, r.2) }).ready e
    c.modScal k fun x => { x with wait := none }.advance
  | _ => c

/-- A claim's reply (R310). -/
def Core.claimed (c : Core) (k : Kind) (lo hi : Word) : Core :=
  match (c.scal k).wait with
  | some (.rngClaim d) => c.modScal k fun x => ({ x with wait := none }.setG d lo |>.setG (d + 1) hi).advance
  | _ => c

/-- A piece granted to an asking scalar core becomes a range firing in its reserved entry (R311). -/
def Core.granted (c : Core) (k : Kind) (arg : Word) (entry : BitVec 16) (prio : BitVec 2) (cohort : Nat) (pid : BitVec 16) : Core :=
  match (c.scal k).asking with
  | none => c
  | some e =>
    let t := c.task e
    ((c.modScal k fun x => { x with asking := none }).setTask e
      { t with reserved := false, actor := false, kind := k, prio := prio, entry := entry, arg := arg, done := none
               rates := 0, out0 := 0, out1 := 0, cnt := 0, range := some (pid, cohort) }).ready e

/-- No work: the reservation ends (R311). -/
def Core.noWork (c : Core) (k : Kind) : Core :=
  match (c.scal k).asking with
  | none => c
  | some e => (c.modScal k fun x => { x with asking := none }).setTask e { c.task e with reserved := false }

/-! ## The cohort keeper (R291, R306 to R312) -/

/-- The parts of a message on C13, all on the plane that the first takes (R86): words w, subop sub of opcode opc (log 29, DEDUCED). -/
def State.partsOf (s : State) (p opc v sub : Nat) (w : List (Word × Word)) (phase : BitVec 24) : List Msg :=
  let m := s.blank p 13 opc v
  (each w (fun x (a : List Msg × Nat) =>
    (a.1 ++ [{ m with value := x.1, time := x.2, cont := contOf sub a.2, phase := phase }], a.2 + 1)) ([], 0)).1

/-- PH[23:0] of the keeper's core, which its replies carry (R86). -/
def State.keeperPhase (s : State) : BitVec 24 := (s.core (s.posOf 0)).ph.extractLsb' 0 24

/-- A reply of the keeper to VCN v, with the scalar core it answers: applied at once on the keeper's own core, else KREP (R86). -/
def State.keeperAnswer (s : State) (v : Nat) (k : Kind) (own : Core → Core) (sub : Nat) (w : List (Word × Word)) (phase : BitVec 24) : State :=
  if v = 0 then s.modCore (s.posOf 0) own
  else s.sendParts (s.posOf 0) (some k) (s.partsOf (s.posOf 0) 9 v sub w phase)

/-- A cohort at the keeper. -/
def State.cohort (s : State) (n : Nat) : Cohort := Map.get s.cohorts ⟨[], [], 0, 0⟩ n

/-- The barrier test (R308): with every member arrived, X goes to every core in the arrival set, which is emptied. -/
def State.testBarrier (s : State) (n : Nat) : State :=
  let h := s.cohort n
  if !h.arrived.isEmpty && allOf h.members fun v => hasNat h.arrived v then
    let ph := h.x.extractLsb' 0 24
    let s := { s with cohorts := Map.put s.cohorts n { h with arrived := [], base := 0, x := 0 } }
    each h.arrived (fun v s => s.keeperAnswer v .control (fun c => c.barrierDone n ph) 0 [(BitVec.ofNat 64 n, 0)] ph) s
  else s

/-- `cjoin` applied by the keeper (R306). -/
def State.keeperJoin (s : State) (v n : Nat) : State :=
  let h := s.cohort n
  ({ s with cohorts := Map.put s.cohorts n { h with members := insertNat h.members v } }).testBarrier n
/-- `cleave` applied by the keeper (R306). -/
def State.keeperLeave (s : State) (v n : Nat) : State :=
  let h := s.cohort n
  ({ s with cohorts := Map.put s.cohorts n { h with members := eraseNat h.members v } }).testBarrier n

/-- A barrier arrival applied by the keeper (R307, R308): phases are recovered against the first arrival. -/
def State.keeperArrive (s : State) (v n : Nat) (phase : BitVec 24) : State :=
  let h := s.cohort n
  let first : Word := BitVec.ofNat 64 (2 ^ 32 + phase.toNat)
  let base := if h.arrived.isEmpty then first else h.base
  let x := if h.arrived.isEmpty then first else
    let y := recoverPhase base phase (Config.freeWord s.free)
    if (h.x.toNat : Int) < y then BitVec.ofInt 64 y else h.x
  let open_ := !h.arrived.isEmpty && (phase.toNat + 2 ^ 24 - base.toNat % 2 ^ 24) % 2 ^ 24 == 2 ^ 23
  let s := if open_ then { s with free := s.free + 1 } else s
  ({ s with cohorts := Map.put s.cohorts n { h with arrived := insertNat h.arrived v, base := base, x := x } }).testBarrier n

/-- Open ranges of a cohort. -/
def State.rangesOf (s : State) (n : Nat) : List RangeTask := keep s.ranges fun r => r.cohort == n

/-- The identifier that a new piece takes: the first from `choice` on that no open piece has (R86). -/
def State.freshPid (s : State) : BitVec 16 :=
  let used := (s.ranges.map fun r => r.pieces.map Piece.pid).flatten
  (firstOf ((range 0 (used.length + 1)).map fun i => BitVec.ofNat 16 (s.choice + i)) fun q => !anyOf used fun u => u == q).getD (BitVec.ofNat 16 s.choice)

/-- A range opened by VCN v with one piece held by it (R309); none while the cohort has four. w are the descriptor's words. -/
def State.keeperOpen (s : State) (v : Nat) (k : Kind) (w : List Word) : Option State :=
  let f := fun i => (nth w i).getD 0
  let n := ((f 2).extractLsb' 20 6).toNat
  if 4 ≤ (s.rangesOf n).length then none
  else
    let pid := s.freshPid
    let r : RangeTask := {
      cohort := n, kind := Kind.ofCode ((f 2).extractLsb' 18 2).toNat, prio := (f 2).extractLsb' 16 2, entry := (f 2).extractLsb' 0 16
      arg := f 3, done := if (f 4).getLsbD 63 then some ((f 4).extractLsb' 0 27) else none
      grain := (f 2).extractLsb' 32 32 |>.setWidth 64, pieces := [⟨pid, f 0, f 1, some v⟩] }
    let s := { s with ranges := s.ranges ++ [r] }
    some (s.keeperAnswer v k (fun c => c.rangeOpened k pid) 1 [(pid.setWidth 64, 0)] s.keeperPhase)

/-- The piece with an identifier. -/
def findPiece (l : List RangeTask) (pid : BitVec 16) : Option (RangeTask × Piece) :=
  match l with
  | [] => none
  | r :: rest =>
    match firstOf r.pieces fun q => q.pid == pid with
    | some q => some (r, q)
    | none => findPiece rest pid

/-- A piece replaced, or removed. -/
def setPiece (l : List RangeTask) (pid : BitVec 16) (f : Piece → List Piece) : List RangeTask :=
  l.map fun r => { r with pieces := (r.pieces.map fun q => if q.pid = pid then f q else [q]).flatten }

/-- A claim applied by the keeper (R310). -/
def State.keeperClaim (s : State) (v : Nat) (k : Kind) (pid : BitVec 16) : State :=
  match findPiece s.ranges pid with
  | none => s.keeperAnswer v k (fun c => c.claimed k 0 0) 2 [(0, 0)] s.keeperPhase
  | some (r, q) =>
    let n := min r.grain.toNat (q.hi.toNat - q.lo.toNat)
    let nx := q.lo + BitVec.ofNat 64 n
    let s := { s with ranges := setPiece s.ranges pid fun q => [{ q with lo := nx }] }
    s.keeperAnswer v k (fun c => c.claimed k q.lo nx) 2 [(q.lo, nx)] s.keeperPhase

/-- Indices left in a piece. -/
def Piece.left (q : Piece) : Nat := q.hi.toNat - q.lo.toNat

/-- The pieces that a request for work of a kind may be given, in the order that decides ties (R311). -/
def State.workPieces (s : State) (v : Nat) (kind : Kind) : List (RangeTask × Piece) :=
  ((range 0 64).map fun n =>
    if hasNat (s.cohort n).members v then
      ((s.rangesOf n).map fun r => if r.kind = kind then r.pieces.map fun q => (r, q) else []).flatten
    else []).flatten

/-- The first of the largest held pieces that can be split (R311). -/
def largestPiece (l : List (RangeTask × Piece)) (best : Option (RangeTask × Piece)) : Option (RangeTask × Piece) :=
  match l with
  | [] => best
  | (r, q) :: rest =>
    if q.holder.isSome && 2 * r.grain.toNat ≤ q.left && (match best with | some b => b.2.left < q.left | none => true)
    then largestPiece rest (some (r, q)) else largestPiece rest best

/-- A piece of a range given to VCN v. -/
def State.keeperGive (s : State) (v : Nat) (kind : Kind) (r : RangeTask) (lo hi : Word) (pid : BitVec 16) : State :=
  let t : Word := BitVec.ofNat 64 (pid.toNat * 2 ^ 32 + r.cohort * 2 ^ 18 + r.prio.toNat * 2 ^ 16 + r.entry.toNat)
  s.keeperAnswer v kind (fun c => c.granted kind r.arg r.entry r.prio r.cohort pid) 3 [(lo, hi), (r.arg, t)] s.keeperPhase

/-- A request for work applied by the keeper (R311). -/
def State.keeperWork (s : State) (v : Nat) (kind : Kind) : State :=
  let l := s.workPieces v kind
  match firstOf l fun x => x.2.holder.isNone with
  | some (r, q) =>
    ({ s with ranges := setPiece s.ranges q.pid fun q => [{ q with holder := some v }] }).keeperGive v kind r q.lo q.hi q.pid
  | none =>
    match largestPiece l none with
    | some (r, q) =>
      let mid := q.lo + BitVec.ofNat 64 ((q.left + 1) / 2)
      let pid := s.freshPid
      let s := { s with ranges := setPiece s.ranges q.pid fun q => [{ q with hi := mid }, ⟨pid, mid, q.hi, some v⟩] }
      s.keeperGive v kind r mid q.hi pid
    | none => s.keeperAnswer v kind (fun c => c.noWork kind) 4 [(0, 0)] s.keeperPhase

/-- An opening that reaches the keeper by message (R86, R309): applied, or kept by the keeper while the cohort has four open ranges. -/
def State.openOrKeep (s : State) (o : OpenReq) : State := (s.keeperOpen o.vcn o.kind o.words).getD { s with opens := s.opens ++ [o] }

/-- Openings that the keeper has kept are applied in the order they came, each once its cohort has room (R309). -/
def State.takeOpens (s : State) : State := each s.opens (fun o s => s.openOrKeep o) { s with opens := [] }

/-- A piece released at the end of a range firing (R312); a range with no piece left closes and its DONE is decremented. -/
def State.keeperRelease (s : State) (pid : BitVec 16) : State :=
  let l := setPiece s.ranges pid fun q => if q.lo = q.hi then [] else [{ q with holder := none }]
  let closed := keep l fun r => r.pieces.isEmpty
  let s := { s with ranges := keep l fun r => !r.pieces.isEmpty }
  (each closed (fun r s => match r.done with
    | some d => s.counterSend (s.posOf 0) .control 0 (d.setWidth 64) 0
    | none => s) s).takeOpens

/-- A request of core p to the keeper on another core: KREQ (R86); those of subops 0 to 3 are enqueues (R304). -/
def State.keeperAsk (s : State) (p : Nat) (k : Kind) (sub : Nat) (w : List (Word × Word)) : State :=
  let l := (s.partsOf p 8 0 sub w ((s.core p).ph.extractLsb' 0 24)).map fun m => { m with plane := 0 }
  if sub < 4 then s.enqueueAt p k l else s.sendParts p (some k) l

/-- The core holds VCN 0 and is the keeper (R291). -/
def State.isKeeper (s : State) (p : Nat) : Bool := (s.core p).vcn == some 0

/-! ## The end of a firing (R300, R312, R313) -/

/-- The production of an actor's output (R294, R300): its rate is added to the input count the reference names. -/
def State.produce (s : State) (p : Nat) (k : Kind) (w : Word) : State :=
  if w.extractLsb' 48 16 = 0 then s
  else s.counterSend p k 2 ((w.extractLsb' 0 27).setWidth 64) ((w.extractLsb' 48 16).setWidth 64)

/-- The level an actor keeps (R303): the one that `prio` set in its firing, else its own; the level it was selected at does not count. -/
def Scalar.levelOf (x : Scalar) (own : BitVec 2) : BitVec 2 := if x.prioSet then x.prio else own

/-- The counters that the end of scalar core k's firing reaches by message or at once: DONE, or an actor's productions (R300). -/
def State.endRefs (s : State) (p : Nat) (k : Kind) : List Word :=
  match (s.scal p k).run with
  | some (.task e) =>
    let t := (s.core p).task e
    if t.range.isSome then []
    else if t.actor then keep [t.out0, t.out1] fun w => w.extractLsb' 48 16 != 0
    else match t.done with | some d => [d.setWidth 64] | none => []
  | _ => []
/-- The end of the firing waits (R83): it reaches VCNs that no message reaches, and the event queue has no room for their records. -/
def State.endWaits (s : State) (p : Nat) (k : Kind) : Bool :=
  let n := (keep (s.endRefs p k) fun r => s.noC13 (refVcn r)).length
  n != 0 && !((s.core p).eqHeld.isEmpty && (s.core p).eq.length + n ≤ 256)

/-- What the end of a firing does to its entry or slot (R300). -/
def State.endOf (s : State) (p : Nat) (k : Kind) (id : FiringId) : State :=
  match id with
  | .task e =>
    let t := (s.core p).task e
    match t.range with
    | some (pid, _) =>
      let s := s.modCore p fun c => c.setTask e { Task.reset with gen := t.gen + 1 }
      if s.isKeeper p then s.keeperRelease pid else s.keeperAsk p k 6 [(pid.setWidth 64, 0)]
    | none =>
      if t.actor then
        let s := s.modCore p fun c => c.setTask e { t with st := if t.cnt = 0 then .idle else .wait, prio := (c.scal k).levelOf t.prio }
        let s := (s.produce p k t.out0).produce p k t.out1
        s.modCore p fun c => c.evaluate e
      else
        let s := s.modCore p fun c => c.setTask e { Task.reset with gen := t.gen + 1 }
        match t.done with
        | some d => s.counterSend p k 0 (d.setWidth 64) 0
        | none => s
  | .handler cls _ => (s.modCore p fun c => c.setHandler cls { c.handler cls with busy := false }).kick 17 p cls
  | _ => s

/-- The running firing ends (R313): LPA and LPC are cleared and the scalar core is free for its next firing. -/
def State.endFiring (s : State) (p : Nat) (k : Kind) : State :=
  let x := s.scal p k
  let s := s.modScal p k fun x => { x with run := none, lpa := false, lpc := 0, wait := none }
  match x.run with
  | some id => s.endOf p k id
  | none => s

/-- `yield` (R313): the firing ends and joins the tail of its level again (log 40, DEDUCED). -/
def State.yieldFiring (s : State) (p : Nat) (k : Kind) : State :=
  let x := s.scal p k
  s.modCore p fun c =>
    let c := c.modScal k fun x => { x with run := none, lpa := false, lpc := 0, wait := none }
    match x.run with
    | some (.task e) =>
      (c.setTask e { c.task e with st := .ready, prio := if (c.task e).actor then x.levelOf (c.task e).prio else (c.task e).prio }).enqueue k x.prio.toNat (.task e)
    | some id => c.enqueue k x.prio.toNat id
    | none => c

/-! ## The start of a firing (R292, R297, R302) -/

/-- The head of the highest non-empty level (R302): its level and entry. -/
def Scalar.head (x : Scalar) : Option (Nat × ReadyEnt) :=
  let at_ := fun n => match Map.get x.ready [] n with | e :: _ => some (n, e) | [] => none
  match at_ 3 with
  | some r => some r
  | none =>
    match at_ 2 with
    | some r => some r
    | none =>
      match at_ 1 with
      | some r => some r
      | none => at_ 0

/-- The registers a firing starts with, beyond those the previous firing left (R90, R117, R292, R297). -/
def Core.startRegs (c : Core) (x : Scalar) (id : FiringId) : Scalar :=
  match id with
  | .launch => { x with g := [], t := [], pc := 0 }
  | .task e =>
    let t := c.task e
    let y := { x with pc := t.entry.setWidth 64 }.setG 1 t.arg
    match t.range with
    | some (_, n) => y.setG 2 (BitVec.ofNat 64 (n % 64))
    | none => y.setG 2 (c.refTo e)
  | .handler cls m =>
    let y := { x with pc := (c.handler cls).haddr.setWidth 64 }
    match m with
    | none => y
    | some m => (((y.setG 1 m.value).setG 2 (m.src.setWidth 64)).setG 3 (m.diff.signExtend 64)).setT 0 m.time
  | .future f =>
    (({ x with pc := f.entry.setWidth 64 }.setG 1 f.value).setG 2 (f.arg.setWidth 64)).setG 3 f.va
  | .barrier n b => ({ x with pc := b.entry.setWidth 64 }.setG 1 (b.arg.setWidth 64)).setG 2 (BitVec.ofNat 64 (n % 64))

/-- The phase a firing's start receives, if it is a receipt (R280, R297). -/
def FiringId.phase (id : FiringId) : Option (BitVec 24) :=
  match id with
  | .future f => some f.phase
  | .barrier _ b => some b.phase
  | _ => none

/-- The head of level n starts on scalar core k (R300, R302, R339): SPCOUNT, LPA are cleared, SR.PRIO takes the level. -/
def State.startFiring (s : State) (p : Nat) (k : Kind) (n : Nat) (id : FiringId) : State :=
  let c := s.core p
  let x := c.scal k
  let y := c.startRegs { x with ready := Map.put x.ready n ((Map.get x.ready [] n).drop 1) } id
  let y := { y with run := some id, spcount := 0, lpa := false, prio := BitVec.ofNat 2 n, prioSet := false, wait := none, askAge := 0 }
  let c := c.setScal k y
  let c := match id with
    | .task e => c.setTask e { c.task e with st := .run }
    | _ => c
  let c := match id.phase with
    | some ph => { c with ph := raisePhase c.ph ph (Config.freeWord s.free) }
    | none => c
  let open_ := match id.phase with
    | some ph => (ph.toNat + 2 ^ 24 - (s.core p).ph.toNat % 2 ^ 24) % 2 ^ 24 == 2 ^ 23
    | none => false
  let s := s.setCore p c
  if open_ then { s with free := s.free + 1 } else s

/-- A scalar core may start a firing (R302, R345): none is running, it is not stopped, and no freeze is pending on its core. -/
def State.mayStart (s : State) (p : Nat) (k : Kind) : Bool :=
  let c := s.core p
  let x := c.scal k
  x.run.isNone && x.stop.isNone && c.freeze.isNone && !c.resumeWait

end Sys2Proof.Machine
end

