-- ==== Sys2Proof/Machine/Requests.lean ====
section
/-!
DEFINITION. The memory requests of the scalar cores (R43, R44, R48, R50, R111): issue, performance at the home or the channel, replies,
and the instructions that wait for them (R130).
-/
namespace Sys2Proof.Machine

open Sys2Proof

/-! ## Issue -/

/-- The cause's EADDR (R334): the address for 0x10 to 0x16, 0 for 0x17 to 0x1C. -/
def eaddrFor (c va : Nat) : Word := if 0x17 ≤ c then 0 else BitVec.ofNat 64 va

/-- The value of a load (R109). -/
def loadValue (n : Nat) (signed : Bool) (x : Nat) : Word :=
  if signed then sext (BitVec.ofNat 64 x) (8 * n) else zext (BitVec.ofNat 64 x) (8 * n)

/-- A load of scalar core k goes on with its remaining parts, lower address first (R110): hits are read at once, a miss or an access
to another window sends a request and waits (R51, R111). -/
def State.loadOn (s : State) (p : Nat) (k : Kind) (d : BitVec 5) (n : Nat) (sg : Bool) (parts : List Acc) (acc got : Nat) : State :=
  match parts with
  | [] => s.modScal p k fun x => ({ x with wait := none }.setG d (loadValue n sg acc)).advance
  | a :: rest =>
    let c := s.core p
    let off := a.pa % 128
    let wait := fun (s : State) => s.modScal p k fun x => { x with wait := some (.load d n sg (a :: rest) acc got) }
    if winClass a.win = 0 then
      let l := (c.lineAt (c.place a)).getD (Line.absent a)
      if l.hits off a.n c.ph then
        if wordsPoisoned l.poison off a.n then s.trap p k 0x16 (c.scal k).pc (BitVec.ofNat 64 a.va)
        else State.loadOn s p k d n sg rest (acc + lineBytes l.data off a.n * 2 ^ (8 * got)) (got + a.n)
      else wait (s.request p k (.renew c.ph c.lease) a false 0).1
    else wait (s.request p k (.read a.n) a false 0).1

/-! ## Performance -/

/-- A request removed. -/
def State.dropReq (s : State) (id : Nat) : State := { s with reqs := keep s.reqs fun r => r.id != id }

/-- A store to the page-table window performed for a scalar core makes a rewalk of its core's held accesses due (R71). -/
def State.ptwWrite (s : State) (r : MemReq) (reply : Reply) : State :=
  let wr := match r.op with
    | .write .. => true
    | .amo .. => true
    | _ => false
  if wr && reply != .error 0x16 && winPtw r.acc.win && winClass r.acc.win == 1 then s.modCore r.p fun c => { c with rewalk := true }
  else s

/-- A request's end (R43, R80): its reply, or, for a posted operation that failed on poison, the MEMERR record. -/
def State.answerReq (s : State) (r : MemReq) (reply : Reply) : State :=
  let s := (s.dropReq r.id).ptwWrite r reply
  match r.op with
  | .publish .. => { s with replies := s.replies ++ [⟨r, reply⟩] }
  | _ =>
    if r.posted then (if reply = .error 0x16 then s.memErr r.p r.k r.acc.va r.word else s)
    else { s with replies := s.replies ++ [⟨r, reply⟩] }

/-- FUTB of the resident job; 0 gives no future-node area (R116). -/
def State.futb (s : State) : Word :=
  match s.job with
  | some j => j.futb
  | none => 0

/-- The node of a future-node area at an address: VCN and number (R116). -/
def State.nodeOf (s : State) (head : Word) : Nat × Nat :=
  let b := s.futb.toNat
  ((head.toNat - b) / 2048, (head.toNat - b) % 2048 / 32)

/-- The address of node i of VCN v (R116). -/
def State.nodeVa (s : State) (v i : Nat) : Word := s.futb + BitVec.ofNat 64 (v * 2048 + i * 32)

/-- The image of a node (R116): NEXT, then VCN, PRIO and ENTRY, then ARG. -/
def nodeImage (next : Word) (v : Nat) (entry : BitVec 16) (prio : BitVec 2) (arg : BitVec 32) : Nat :=
  next.toNat + (v % 1024 + prio.toNat * 2 ^ 10 + entry.toNat * 2 ^ 12) * 2 ^ 64 + arg.toNat * 2 ^ 128

/-- A dispatch delivered to core p (R116, R118): its node is freed and the continuation becomes READY. -/
def Core.dispatch (c : Core) (f : FutSlot) : Core :=
  let hit := firstOf (range 0 64) fun i =>
    match Map.get c.futs .free i with
    | .sent va entry prio arg => va == f.va && entry == f.entry && prio == f.prio && arg == f.arg
    | _ => false
  let c := match hit with
    | some i => { c with futs := Map.put c.futs i .free }
    | none => c
  c.enqueue .control f.prio.toNat (.future f)

/-- The dispatches of a deferred-read list, from its head along NEXT (R118) (log 26, DEDUCED) (log 39, DESIGN CHOICE) (log 80, DEDUCED). -/
def State.dispatchList (fuel : Nat) (s : State) (p : Nat) (phase : BitVec 24) (head value : Word) : State :=
  match fuel with
  | 0 => s
  | fuel + 1 =>
    if head = 0 then s
    else
      let (v, i) := s.nodeOf head
      match Map.get (s.core (s.posOf v)).futs .free i with
      | .linked va next entry prio arg =>
        let c := s.core p
        let s := s.modCore (s.posOf v) fun c => { c with futs := Map.put c.futs i (.sent va entry prio arg) }
        let s :=
          if v = c.vcnNum then s.modCore p fun c => c.dispatch ⟨va, value, entry, prio, arg, phase⟩
          else
            let m := s.blank p 13 4 v
            s.sendC13 p none { m with value := value, time := va, diff := arg, phase := phase, cont := entry.extractLsb' 2 12
                                      path := (prio ++ entry.extractLsb' 14 2 : BitVec 4).setWidth 11 }
        State.dispatchList fuel s p phase next value
      | _ => s

/-- Where a `futget` would write its node: at an access, at an address whose check fails, or after a locked page-table line. -/
inductive NodeAt where
  | none
  | ok (a : Acc)
  | bad (cause va : Nat)
  | stall
  deriving DecidableEq, Repr

/-- The address of a `futget`'s node, checked as a store of the core into the node area's immediate window (R116, R117) (log 39, DESIGN CHOICE). -/
def State.nodeAt (s : State) (r : MemReq) : State × NodeAt :=
  match r.op with
  | .futget (some i) _ =>
    let va := (s.nodeVa (s.core r.p).vcnNum i).toNat
    let (t, c) := { s with reqs := keep s.reqs fun q => q.id != r.id }.check r.p va 32 .store 1 immOnly
    ({ t with reqs := s.reqs }, match c with | .ok a => .ok a | .bad c _ => .bad c va | .stall => .stall)
  | _ => (s, .none)

/-- What a `futget` writes into an empty word: the address of its node; 0 when the job has no node area. -/
def State.homeCont (s : State) (r : MemReq) : MemOp :=
  match r.op with
  | .futget (some node) _ => .futget (some node) (s.nodeVa (s.core r.p).vcnNum node)
  | .futget none _ => .futget none 0
  | op => op

/-- The continuation operand of a `futget`. -/
def MemReq.cont (r : MemReq) : Word :=
  match r.op with
  | .futget _ c => c
  | _ => 0

/-- The bank of a line (R43). -/
def bankOf (line : Nat) : Nat := (bits line 7 6) ^^^ (bits line 17 16)

/-- Request q, sent before by the same source, is performed before an access of that source to a home slice (R44) or to a channel (R40). -/
def MemReq.sourceBefore (q : MemReq) (p : Nat) (k : Kind) (a : Acc) (slice : Nat) : Bool :=
  q.p == p && q.k == k && stackOf q.acc.pa == stackOf a.pa &&
    ((winClass q.acc.win == 1 && winClass a.win == 1 && q.slice == slice) ||
      (winClass q.acc.win == 2 && winClass a.win == 2 && channelOf (winSprd q.acc.win) q.acc.pa == channelOf (winSprd a.win) a.pa))

/-- Request r may reach its home now: no request that comes before it is still to be performed, and none sent to its domain under another VER is
unanswered (R44, R50, R111). -/
def State.reqReady (s : State) (n : Nat) (r : MemReq) : Bool :=
  allOf (firstN s.reqs n) (fun q => !(q.coreBefore r.p r.acc r.ver || q.sourceBefore r.p r.k r.acc r.slice)) &&
    !anyOf s.replies fun x => x.req.olderVer r.p r.acc r.ver

/-- A request replaced by its number. -/
def State.setReq (s : State) (r : MemReq) : State := { s with reqs := s.reqs.map fun q => if q.id = r.id then r else q }

/-- A request leaves the lock and the conflict queue of its slice (R43). -/
def Slice.without (x : Slice) (id : Nat) : Slice := { x with locks := keep x.locks fun l => l.2 != id, conflict := eraseNat x.conflict id }

/-- A request performed at its home (R43): the slice with the line's new contents, its lock released, and the answer; a missing line is filled. -/
def State.performAt (s : State) (sk lk : Nat) (r : MemReq) : State × HomeRes :=
  let s := s.roomHome sk lk
  let x := s.slice sk
  let l := (Map.find x.lines lk).getD (s.filled r.acc (domVer (s.accDomain r.acc)) x.mts)
  let h := homeOp (s.homeCont r) (r.acc.pa % 128) x.hts l
  ((s.setSlice sk { x.without r.id with hts := h.hts, lines := Map.put x.lines lk h.line }).answerReq r h.reply, h)

/-- The performance of a request with what it does outside its line: a `futset` that fills its word sends the list's dispatches (R118); a `futget` that
finds its word empty writes and links its node in the same step, waits while the node's line is under a lock, and answers a fault, changing nothing, where the
check of the node's address failed (R117) (log 39, DESIGN CHOICE). -/
def State.performWhole (s : State) (sk lk : Nat) (r : MemReq) : State :=
  let (s, node) := s.nodeAt r
  let (t, h) := s.performAt sk lk r
  match r.op, h.head with
  | .futset x ph, some head => t.dispatchList 65536 r.p (ph.extractLsb' 0 24) head x
  | .futget (some i) _, some next =>
    let entry := r.cont.extractLsb' 0 16
    let prio := r.cont.extractLsb' 16 2
    let arg := r.cont.extractLsb' 32 32
    match node with
    | .ok a =>
      match t.homeNow a (.write 32 (nodeImage next (s.core r.p).vcnNum entry prio arg)) with
      | some (t, _) => t.modCore r.p fun c => { c with futs := Map.put c.futs i (.linked (BitVec.ofNat 64 r.acc.va) next entry prio arg) }
      | none => s
    | .bad c va => (s.setSlice sk ((s.slice sk).without r.id)).answerReq r (.fault c va)
    | _ => s
  | _, _ => t

/-- The slice serves a request (R43, R48, R49): a line under another request's lock, or with older requests queued for it, puts it in
the bank's 16-entry conflict queue; a missing line is locked and filled by the next event; otherwise the operation is performed. A
request under an older VER whose home has moved is replayed there (log 28, DEDUCED). -/
def State.serve (s : State) (r : MemReq) (queued : Bool) : State :=
  let e := s.accDomain r.acc
  let line := r.acc.pa / 128
  let home := homeOf e line
  if r.ver != domVer e && home != r.slice then
    let sk := sliceKey r.acc.pa r.slice
    (s.setSlice sk ((s.slice sk).without r.id)).setReq { r with slice := home, ver := domVer e, stage := .flight }
  else
    let sk := sliceKey r.acc.pa home
    let x := s.slice sk
    let lk := lineKey r.acc (domVer e)
    let other := anyOf x.locks fun l => l.1 == lk && l.2 != r.id
    let waiting := keep s.reqs fun q => hasNat x.conflict q.id && bankOf (q.acc.pa / 128) == bankOf line
    let behind := !queued && r.stage != .fill && anyOf waiting fun q => q.acc.copy == r.acc.copy
    if other || behind then
      if queued || 16 ≤ waiting.length then s
      else (s.setSlice sk { x with conflict := x.conflict ++ [r.id] }).setReq { r with stage := .conflict }
    else if (Map.find x.lines lk).isSome || r.stage = .fill then s.performWhole sk lk r
    else (s.setSlice sk { x.without r.id with locks := x.locks ++ [(lk, r.id)] }).setReq { r with stage := .fill }

/-- Request n reaches its home slice, when its operation is one the event names. -/
def State.homeEvent (s : State) (n : Nat) (kind : MemOp → Bool) : State :=
  match nth s.reqs n with
  | none => s
  | some r => if winClass r.acc.win != 2 && kind r.op && r.stage != .conflict && s.reqReady n r then s.serve r false else s

/-- A host-shared access performed at the DRAM channel controller (R40, R283). -/
def State.channelEvent (s : State) (n : Nat) : State :=
  match nth s.reqs n with
  | none => s
  | some r =>
    if winClass r.acc.win = 2 && s.reqReady n r then
      let k := dramKey (winSprd r.acc.win) r.acc.pa
      match r.op with
      | .read m => s.answerReq r (match s.dramGet k m with | some x => .value (BitVec.ofNat 64 x) 0 | none => .error 0x16)
      | .write m x =>
        match s.dramPut k m x with
        | some s => s.answerReq r .done
        | none => s.answerReq r (.error 0x16)
      | _ => s
    else s

/-! ## Replies -/

/-- A publication. -/
def MemOp.publishes (o : MemOp) : Bool :=
  match o with
  | .publish .. => true
  | _ => false

/-- A publication made in the core's name is still unanswered: by an instruction of one of its scalar cores, or by an eviction (R55, R279). -/
def State.pubsOpen (s : State) (p : Nat) : Bool :=
  anyOf s.reqs (fun r => r.p == p && r.op.publishes) || anyOf s.replies fun x => x.req.p == p && x.req.op.publishes

/-- The page's lines in L1 removed (R121). -/
def Core.dropPage (c : Core) (ppage : Nat) : Core := { c with l1 := keep c.l1 fun e => copyLine e.1 / 32 != ppage }

/-- The end of an instruction that waited for its publications (R55, R121, R122). -/
def State.afterPubs (s : State) (p : Nat) (k : Kind) (a : AfterPub) : State :=
  s.modCore p fun c =>
    let c := match a with
      | .phadv => { c with ph := maxW (c.ph + 1) c.pubMax }
      | .smap v pp b => { c.dropPage pp with stash := Map.put c.stash b ⟨v, pp, []⟩ }
      | .sunmap b => { c with stash := Map.del c.stash b }
      | .sflush _ => c
    c.modScal k fun x => { x with wait := none }.advance

/-- Places of a core whose line has dirty bytes. -/
def Core.dirtyPlaces (c : Core) : List Place := keep c.places fun w => (match c.lineAt w with | some l => l.dirty != 0 | none => false)
/-- Dirty L1 lines of a physical page. -/
def Core.dirtyOfPage (c : Core) (ppage : Nat) : List Place :=
  keep c.dirtyPlaces fun w => match w with | .l1 k => copyLine k / 32 == ppage | _ => false
/-- Dirty lines of a stash block. -/
def Core.dirtyOfBlock (c : Core) (b : Nat) : List Place :=
  keep c.dirtyPlaces fun w => match w with | .stash x _ => x == b | _ => false

/-- What must be published before an instruction that waits for publications can end. -/
def Core.stillDirty (c : Core) (a : AfterPub) : List Place :=
  match a with
  | .smap _ pp _ => c.dirtyOfPage pp
  | .sunmap b => c.dirtyOfBlock b
  | _ => []

/-- Completes a scalar core's wait for publications when none is open; lines of the page or block that were stored to meanwhile are
published first. -/
def State.settlePubs (s : State) (p : Nat) (k : Kind) : State :=
  match (s.scal p k).wait with
  | some (.pubs a) =>
    if s.pubsOpen p then s
    else
      match (s.core p).stillDirty a with
      | [] => s.afterPubs p k a
      | l => s.publishAll p k l
  | _ => s

/-- Every scalar core of a core whose publications have returned goes on. -/
def State.settleAll (s : State) (p : Nat) : State := ((s.settlePubs p .control).settlePubs p .loader).settlePubs p .storer

/-- A returned WTS (R54, R279): the core's largest, and the line clean with it, unless a later publication of the line is still unanswered. -/
def Core.published (c : Core) (a : Acc) (w : Word) (later : Bool) : Core :=
  let c := { c with pubMax := maxW c.pubMax w }
  let at_ : Place := if a.va = 1 then .l1 a.copy else c.place a
  match c.lineAt at_ with
  | none => c
  | some l => if l.pend = 0 || later then c else c.setLine at_ (some { l with pend := 0, wts := w, rts := w })

/-- A publication of the same line by the same core is unanswered. -/
def State.pubLater (s : State) (r : MemReq) : Bool :=
  let same := fun (q : MemReq) => q.p == r.p && q.op.publishes && q.acc.copy == r.acc.copy
  anyOf s.reqs same || anyOf s.replies fun x => same x.req

/-- A reply that completes an instruction of scalar core k (R112, R113, R117, R118). -/
def State.completeReply (s : State) (r : MemReq) (d : BitVec 5) (acq : Bool) (reply : Reply) : State :=
  let p := r.p
  let k := r.k
  let s := match r.op, reply with
    | .futget (some i) _, .value _ _ => s.modCore p fun c => { c with futs := Map.put c.futs i .free }
    | .futget (some i) _, .error _ => s.modCore p fun c => { c with futs := Map.put c.futs i .free }
    | .futget (some i) _, .fault .. => s.modCore p fun c => { c with futs := Map.put c.futs i .free }
    | _, _ => s
  match reply with
  | .value x sp =>
    let v := match r.op with
      | .amo _ fp n _ _ _ => if fp then zext x 32 else sext x (8 * n)
      | .read n => sext x (8 * n)
      | _ => x
    let s := if acq then s.modCore p fun c => c.raise sp else s
    s.modScal p k fun y => ({ y with wait := none }.setG d v).advance
  | .done => s.endFiring p k
  | .error c => s.trap p k c (s.scal p k).pc (eaddrFor c r.acc.va)
  | .fault c va => s.trap p k c (s.scal p k).pc (eaddrFor c va)
  | _ => s

/-- A reply reaches its core: a line is merged into L1 or the stash with its lease jump (R51, R52), a WTS is noted, and the waiting
instruction goes on. -/
def State.takeReply (s : State) (x : MemReply) : State :=
  let r := x.req
  match x.reply with
  | .wts w => (s.modCore r.p fun c => c.published r.acc w (s.pubLater r)).settleAll r.p
  | .line h =>
    let s := s.fillLine r.p r.acc h
    match (s.scal r.p r.k).wait with
    | some (.load d n sg parts acc got) => s.loadOn r.p r.k d n sg parts acc got
    | _ => s
  | reply =>
    match (s.scal r.p r.k).wait with
    | some (.load d n sg (a :: rest) acc got) =>
      match reply with
      | .value v _ => s.loadOn r.p r.k d n sg rest (acc + v.toNat % 2 ^ (8 * a.n) * 2 ^ (8 * got)) (got + a.n)
      | _ => s.trap r.p r.k 0x16 (s.scal r.p r.k).pc (BitVec.ofNat 64 a.va)
    | some (.reply _ d acq) => s.completeReply r d acq reply
    | _ => s

/-- Reply n is taken when no earlier request or reply of its core for its line is open; one that ends its firing waits where R83 makes it. -/
def State.replyEvent (s : State) (n : Nat) : State :=
  match nth s.replies n with
  | none => s
  | some x =>
    let same := fun (q : MemReq) => q.p == x.req.p && q.acc.copy == x.req.acc.copy && q.id < x.req.id
    if anyOf s.reqs same || anyOf s.replies (fun y => same y.req) || (x.reply == .done && s.endWaits x.req.p x.req.k) then s
    else { s with replies := dropNth s.replies n }.takeReply x

/-! ## Scalar accesses -/

/-- Continues with the checked parts of a scalar access; a failing check traps (R73, R79), a locked page-table line makes it wait. -/
def checked (va n : Nat) (ak : AK) (align : Nat) (cls : Nat → Bool) (s : State) (k : State → List Acc → Ans) : Ans :=
  match s.checkSpan s.cur.p va n ak align cls with
  | (s, .stall) => waits s
  | (s, .bad c va _) => faults c (BitVec.ofNat 64 va) s
  | (s, .ok l) => k s l

/-- The word of an executing instruction, for MEMERR (R150). -/
def wordOf (i : Instr) : BitVec 32 := (scalarWord i).getD 0

/-- Posted stores to immediate or host-shared windows, and phased stores, of the parts in order (R109 to R111). -/
def State.storeOn (s : State) (p : Nat) (k : Kind) (parts : List Acc) (x : Nat) (word : BitVec 32) : State :=
  match parts with
  | [] => s
  | a :: r =>
    let v := x % 2 ^ (8 * a.n)
    let s := if winClass a.win = 0 then s.putPhased p a v else (s.request p k (.write a.n v) a true word).1
    State.storeOn s p k r (x / 2 ^ (8 * a.n)) word

/-- An operation performed at a home slice or channel whose reply the instruction waits for, or which is posted. -/
def sendOp (op : MemOp) (a : Acc) (posted : Bool) (d : BitVec 5) (acq : Bool) (i : Instr) (s : State) : Ans :=
  let (s, id) := s.request s.cur.p s.cur.k op a posted (wordOf i)
  if posted then done s else go (s.modMe fun x => { x with wait := some (.reply id d acq) })

/-- What the loads of a structure answer: its items, a fault with its address, or a wait. -/
inductive Items where
  | ok (l : List Word)
  | bad (cause va : Nat)
  | stall
  deriving DecidableEq, Repr

/-- A load of scalar core k waits behind an earlier operation of its own (R40, R44). -/
def State.sourceHeld (s : State) (p : Nat) (k : Kind) (a : Acc) : Bool :=
  anyOf s.reqs fun q => q.sourceBefore p k a (homeOf (s.accDomain a) (a.pa / 128))

/-- n items of sz bytes from va, each a load of scalar core k of core p (R133): it waits behind the earlier operations of its source. -/
def State.items (s : State) (p : Nat) (k : Kind) (va sz n : Nat) (ak : AK) : State × Items :=
  match n with
  | 0 => (s, .ok [])
  | n + 1 =>
    match s.checkSpan p (va % 2 ^ 64) sz ak 1 anyClass with
    | (s, .stall) => (s, .stall)
    | (s, .bad c a _) => (s, .bad c a)
    | (s, .ok l) =>
      if anyOf l fun a => s.sourceHeld p k a then (s, .stall)
      else
        match s.loadParts p l with
        | (s, .stall) => (s, .stall)
        | (s, .poison) => (s, .bad 0x16 (va % 2 ^ 64))
        | (s, .ok x) =>
          match State.items s p k (va + sz) sz n ak with
          | (s, .ok r) => (s, .ok (BitVec.ofNat 64 x :: r))
          | r => r

/-- A structure of n items of sz bytes read by the executing scalar core: its items, or a trap, or a wait. -/
def readItems (va sz n : Nat) (ak : AK) (s : State) (k : State → List Word → Ans) : Ans :=
  match s.items s.cur.p s.cur.k va sz n ak with
  | (s, .stall) => waits s
  | (s, .bad c a) => faults c (BitVec.ofNat 64 a) s
  | (s, .ok l) => k s l

/-- A structure of eight-byte words (R133). -/
def readWords (va n : Nat) (ak : AK) (s : State) (k : State → List Word → Ans) : Ans := readItems va 8 n ak s k

end Sys2Proof.Machine
end

