-- ==== Sys2Proof/Machine/Cache.lean ====
section
/-!
DEFINITION. Stash and cache control, phase advance, domain switches, remote stores and fences (R50, R55, R121 to R130).
-/
namespace Sys2Proof.Machine

open Sys2Proof

/-! ## Publications an instruction waits for -/

/-- The executing instruction publishes lines and waits for their WTS (R55, R121, R122). -/
def publishAndWait (l : List Place) (a : AfterPub) (s : State) : State :=
  let p := s.cur.p
  let k := s.cur.k
  ((s.publishAll p k l).modMe fun x => { x with wait := some (.pubs a) }).settlePubs p k

/-- `phadv` (R55, R126). -/
def execPhadv (s : State) : Ans := go (publishAndWait s.mine.dirtyPlaces .phadv s)

/-- A block of the overflow area of SPILLBASE (R189) (log 79, DEDUCED). -/
def Core.inArea (c : Core) (b : Nat) : Bool := c.spillFirst ≤ b && b < c.spillFirst + c.spillBlocks
/-- Some element of the core holds an active configuration. -/
def Core.anyActive (c : Core) : Bool := anyOf c.elems fun e => e.2.act.isSome
/-- A block lies inside an earlier overflow area in which a spilled token still lies (R121, R189). -/
def Core.oldSpill (c : Core) (b : Nat) : Bool := anyOf (c.areasInUse c.oldAreas) fun a => a.1 ≤ b && b < a.1 + a.2

/-- `smap` (R121): the page is checked as a load, then its dirty L1 lines are published and the mapping is entered. -/
def execSmap (a b : BitVec 5) (s : State) : Ans :=
  let va := s.gr a
  let blk := (s.gr b).toNat
  let c := s.mine
  if va.extractLsb' 0 12 != 0 || 511 < blk || (Map.find c.stash blk).isSome || (c.blockOf (va.toNat / 4096)).isSome ||
      (c.inArea blk && c.anyActive) || c.oldSpill blk then faults 0x17 0 s
  else
    checked va.toNat 1 .load 1 phasedOnly s fun s l =>
      match l with
      | [] => done s
      | acc :: _ => go (publishAndWait (s.mine.dirtyOfPage (acc.pa / 4096)) (.smap (va.toNat / 4096) (acc.pa / 4096) blk) s)

/-- `sunmap` (R122): an unmapped block is left as it is. -/
def execSunmap (a : BitVec 5) (s : State) : Ans :=
  let blk := (s.gr a).toNat
  if 511 < blk then faults 0x17 0 s
  else if (Map.find s.mine.stash blk).isNone then done s
  else go (publishAndWait (s.mine.dirtyOfBlock blk) (.sunmap blk) s)

/-- `sflush` (R122). -/
def execSflush (a : BitVec 5) (s : State) : Ans :=
  let blk := (s.gr a).toNat
  if 511 < blk then faults 0x17 0 s
  else if (Map.find s.mine.stash blk).isNone then done s
  else go (publishAndWait (s.mine.dirtyOfBlock blk) (.sflush blk) s)

/-! ## linv (R123) -/

/-- A clean line: no dirty byte and no publication on its way. -/
def Line.clean (l : Line) : Bool := l.own == 0

/-- The pages of [va, hi) with a valid translation, as (virtual page, physical page); none when a page-table line is under a lock. -/
def State.validPages (fuel : Nat) (s : State) (p va hi : Nat) : State × Option (List (Nat × Nat)) :=
  match fuel with
  | 0 => (s, some [])
  | fuel + 1 =>
    if hi ≤ va then (s, some [])
    else
      let v := va % 2 ^ 64
      let (s, w) := if canonical v then s.translate p v else (s, .absent false)
      match w with
      | .stall => (s, none)
      | _ =>
        match State.validPages fuel s p ((va / 4096 + 1) * 4096) hi with
        | (s, some l) => (s, some (match w with | .ok e => (va / 4096, e.ppage) :: l | _ => l))
        | r => r

/-- A line of a physical page covers a byte of [lo, hi) through one of the pages. -/
def covered (pages : List (Nat × Nat)) (lo hi line : Nat) : Bool :=
  anyOf pages fun e => e.2 == line / 32 && lo ≤ e.1 * 4096 + line % 32 * 128 + 127 && e.1 * 4096 + line % 32 * 128 < hi

/-- The core without the clean lines that f names by physical line (R123). -/
def Core.dropClean (c : Core) (f : Nat → Bool) : Core :=
  { c with
    l1 := keep c.l1 fun e => !(e.2.clean && f (copyLine e.1))
    stash := c.stash.map fun b => (b.1, { b.2 with lines := keep b.2.lines fun e => !(e.2.clean && f (b.2.ppage * 32 + e.1)) }) }

/-- `linv` (R123): clean lines of the range, or all clean lines when g[b] = 0, are discarded. It never faults. -/
def execLinv (a b : BitVec 5) (s : State) : Ans :=
  let lo := (s.gr a).toNat
  let n := (s.gr b).toNat
  if n = 0 then done (s.modMine fun c => c.dropClean fun _ => true)
  else
    match s.validPages (n / 4096 + 2) s.cur.p lo (lo + n) with
    | (s, none) => waits s
    | (s, some l) => done (s.modMine fun c => c.dropClean fun line => covered l lo (lo + n) line)

/-! ## wbr (R124) -/

/-- The dirty L2 lines of a physical page under its domain's current version, at every slice of the die. -/
def State.pageLines (s : State) (a : Acc) : List (Nat × Nat) :=
  let ver := domVer (s.accDomain a)
  ((range 0 Config.slices).map fun i =>
    let sk := sliceKey a.pa i
    (keep (s.slice sk).lines fun e => keyLine e.1 / 32 == a.pa / 4096 && e.2.dirty && e.2.ver == ver && e.2.dom.toNat == winDom a.win &&
      e.2.sprd == winSprd a.win).map fun e => (sk, e.1)).flatten

/-- A dirty L2 line written to DRAM and kept clean. -/
def State.cleanL2 (s : State) (sk lk : Nat) : State :=
  let x := s.slice sk
  match Map.find x.lines lk with
  | none => s
  | some l => (s.writeBack (keyLine lk) l).setSlice sk { x with lines := Map.put x.lines lk { l with dirty := false } }

/-- Step 1 of `wbr` for a page: the core's dirty lines of it. -/
def Core.dirtyOf (c : Core) (vpage ppage : Nat) : List Place :=
  c.dirtyOfPage ppage ++ (match c.blockOf vpage with | some b => c.dirtyOfBlock b | none => [])

/-- The pages of a range in order: what to do at each. -/
inductive WbrNext where
  | finished
  | wait
  | fault (cause va : Nat)
  deriving DecidableEq, Repr

/-- `wbr` over pages lo, lo + 1, … (R124): a page whose lines of this core are dirty or unanswered is published and waited for; then
its home slices write their dirty lines back. A page that fails R79 faults; pages before it stay written back (log 27, DEDUCED). -/
def State.wbrPages (fuel : Nat) (s : State) (p : Nat) (k : Kind) (va hi : Nat) : State × WbrNext :=
  match fuel with
  | 0 => (s, .finished)
  | fuel + 1 =>
    if hi ≤ va then (s, .finished)
    else
      match s.check p va 1 .load 1 anyClass with
      | (s, .stall) => (s, .wait)
      | (s, .bad c _) => (s, .fault c va)
      | (s, .ok a) =>
        let next := (va / 4096 + 1) * 4096
        if winClass a.win = 2 then State.wbrPages fuel s p k next hi
        else if winClass a.win = 0 && !((s.core p).dirtyOf (va / 4096) (a.pa / 4096)).isEmpty then
          (s.publishAll p k ((s.core p).dirtyOf (va / 4096) (a.pa / 4096)), .wait)
        else if anyOf s.reqs fun r => r.p == p && r.acc.pa / 4096 == a.pa / 4096 then (s, .wait)
        else State.wbrPages fuel (each (s.pageLines a) (fun e s => s.cleanL2 e.1 e.2) s) p k next hi

/-- `wbr` (R124): it completes once every page is written back; while a page's publications are open it stays in progress and goes on
with the next step of its scalar core (log 27, DEDUCED). -/
def execWbr (a b : BitVec 5) (s : State) : Ans :=
  let lo := (s.gr a).toNat
  let n := (s.gr b).toNat
  if 2 ^ 64 < lo + n then faults 0x17 0 s
  else if n = 0 then done s
  else
    match s.wbrPages (n / 4096 + 2) s.cur.p s.cur.k lo (lo + n) with
    | (s, .finished) => done (s.modMe fun x => { x with wait := none })
    | (s, .wait) => waits (s.modMe fun x => { x with wait := some .busy })
    | (s, .fault c va) => faults c (BitVec.ofNat 64 va) s

/-! ## dswitch (R50, R125) -/

/-- Requests or replies of a die's domain tagged with the version before the current one are in flight. -/
def State.oldInFlight (s : State) (die dom : Nat) : Bool :=
  let old := domVer (s.domEntry die dom) - 1
  let hit := fun (r : MemReq) => winClass r.acc.win != 2 && stackOf r.acc.pa == die && winDom r.acc.win == dom && r.ver == old
  anyOf s.reqs hit || anyOf s.replies fun x => hit x.req

/-- The larger of HTS over slices of a die. -/
def State.maxHts (s : State) (die : Nat) (l : List Nat) : Word := each l (fun i w => maxW w (s.slice (die * Config.slices + i)).hts) 0

/-- Steps 2 to 4 of R50: the entry with VER incremented, and MTS of its slices raised to the old slices' HTS. -/
def State.switchDomain (s : State) (die dom : Nat) (e : Word) : State :=
  let old := s.domEntry die dom
  let ver := domVer old + 1
  let e := (e &&& ~~~(0xF#64 <<< 37)) ||| (ver.setWidth 64 <<< 37)
  let h := s.maxHts die (domSlices old)
  let s := { s with domains := Map.put s.domains (die * 16 + dom) e }
  each (domSlices e) (fun i s =>
    let x := s.slice (die * Config.slices + i)
    s.setSlice (die * Config.slices + i) { x with mts := maxW x.mts h }) s

/-- `dswitch` (R125): of a domain of the issuing core's die. -/
def execDswitch (a b : BitVec 5) (s : State) : Ans :=
  controlOnly (.dswitch a b) s fun s =>
    let die := s.cur.p / 64
    let e := s.gr b
    if s.gr a >>> 4 != 0 then faults 0x17 0 s
    else if domValid e && (!domAccepted e || e.extractLsb' 42 22 != 0) then faults 0x19 0 s
    else
      let dom := ((s.gr a).extractLsb' 0 4).toNat
      if s.oldInFlight die dom then waits s else done (s.switchDomain die dom e)

/-! ## Remote stores (R127) -/

/-- `rst` and `rst.o`: the destination word is checked, then the address's form and alignment; the message waits under R95. -/
def remoteStore (o : Bool) (d a b : BitVec 5) (s : State) : Ans :=
  let w := s.gr d
  let va := s.gr a
  if w >>> 13 != 0 then faults 0x17 0 s
  else if !canonical va.toNat then faults 0x14 va s
  else if va.extractLsb' 0 3 != 0 then faults 0x13 va s
  else
    let m := s.blank s.cur.p (w.extractLsb' 10 3).toNat 1 (w.extractLsb' 0 10).toNat
    match s.sendCounted s.cur.p { m with o := o, value := s.gr b, time := va } with
    | none => waits s
    | some s => done s

/-- `rst` (R127). -/
def execRst (d a b : BitVec 5) (s : State) : Ans := remoteStore false d a b s
/-- `rst.o` (R127). -/
def execRstO (d a b : BitVec 5) (s : State) : Ans := remoteStore true d a b s

/-! ## Fences (R129) -/

/-- Every engine command of this scalar core has completed (R136). -/
def State.enginesQuiet (s : State) : Bool :=
  allOf s.mine.engines fun e => allOf e.2.queue (fun c => c.k != s.cur.k) && allOf e.2.runs fun r => r.cmd.k != s.cur.k || r.fin
/-- The four per-plane counts are zero (R97). -/
def State.acksQuiet (s : State) : Bool := allOf (range 0 4) fun i => Map.get s.mine.plane 0 i == 0
/-- Every enqueue of this scalar core has been accepted (R304). -/
def State.enqueuesQuiet (s : State) : Bool :=
  let me := BitVec.ofNat 10 s.mine.vcnNum
  allOf s.net (fun e => !(e.issuer == some s.cur.k && e.msg.src == me && e.msg.enqueue)) && allOf s.mine.retry (fun r => r.issuer != some s.cur.k) &&
    allOf s.mine.behind (fun b => b.1 != s.cur.k) && allOf s.opens fun o => !(o.vcn == s.mine.vcnNum && o.kind == s.cur.k)
/-- Every immediate, host-shared and posted operation of this scalar core has been performed. -/
def State.postedQuiet (s : State) : Bool :=
  allOf s.reqs fun r => !(r.p == s.cur.p && r.k == s.cur.k && (winClass r.acc.win != 0))

/-- A fence completes when its condition holds, and waits otherwise. -/
def fence (c : Bool) (s : State) : Ans := if c then done s else waits s

/-- `fence.e` (R129). -/
def execFenceE (s : State) : Ans := fence s.enginesQuiet s
/-- `fence.a` (R129). -/
def execFenceA (s : State) : Ans := fence s.acksQuiet s
/-- `fence.q` (R129). -/
def execFenceQ (s : State) : Ans := fence s.enqueuesQuiet s
/-- `fence.s` (R129). -/
def execFenceS (s : State) : Ans := fence s.postedQuiet s
/-- `fence.all` (R129). -/
def execFenceAll (s : State) : Ans := fence (s.enginesQuiet && s.acksQuiet && s.enqueuesQuiet && s.postedQuiet) s

end Sys2Proof.Machine
end

