-- ==== Sys2Proof/Machine/EngMem.lean ====
section
/-!
DEFINITION. Accesses as an engine makes them (R134, R52, R284), and the probe of a hash table (R147).
-/
namespace Sys2Proof.Machine

open Sys2Proof

/-! ## Reads and writes in a core's name (R134) -/

/-- A page mapped in the core's stash. -/
def Core.stashed (c : Core) (a : Acc) : Bool := (c.blockOf (a.va / 4096)).isSome

/-- One part read as an engine reads: in the stash, at the home merged under the core's own L1 bytes, or at its target. -/
def State.engLoad (s : State) (p : Nat) (a : Acc) : State × Got :=
  if winClass a.win = 0 && !(s.core p).stashed a then
    match s.atHome p a (.read 1) with
    | none => (s, .stall)
    | some (s, r) =>
      let c := s.core p
      let l := ((c.lineAt (c.place a)).getD (Line.absent a)).fill r.line
      (s, if wordsPoisoned l.poison (a.pa % 128) a.n then .poison else .ok (lineBytes l.data (a.pa % 128) a.n))
  else s.loadPart p a

/-- The parts of a read, low bytes first. -/
def State.engLoads (s : State) (p : Nat) (l : List Acc) : State × Got :=
  match l with
  | [] => (s, .ok 0)
  | a :: r =>
    match s.engLoad p a with
    | (s, .ok x) =>
      match State.engLoads s p r with
      | (s, .ok y) => (s, .ok (x + y * 2 ^ (8 * a.n)))
      | z => z
    | z => z

/-- A publication made at the home in one step (R54), with the WTS it returns. -/
def State.publishNow (s : State) (p : Nat) (a : Acc) (mask : LineMask) (d : LineData) (poison : BitVec 16) : Option (State × Word) :=
  (s.atHome p a (.publish mask d poison (s.core p).ph)).map fun r => (r.1, match r.2.reply with | .wts w => w | _ => 0)

/-- The core's largest WTS takes another (R279). -/
def Core.notePub (c : Core) (w : Word) : Core := { c with pubMax := maxW c.pubMax w }

/-- One part written as an engine writes: in the stash; at the home as a publication, the core's L1 line published first when it is
dirty and then discarded; or at its target. It answers the largest WTS returned, 0 where nothing was published. -/
def State.engStore (s : State) (p : Nat) (a : Acc) (x : Nat) : State × Got :=
  if winClass a.win = 0 && !(s.core p).stashed a then
    let c := s.core p
    let w := c.place a
    let off := a.pa % 128
    let first := match c.lineAt w with
      | some l => if l.dirty = 0 then some (s, 0) else s.publishNow p a l.dirty l.data l.poison
      | none => some (s, 0)
    match first.bind fun f => (f.1.publishNow p a (byteMask off a.n) (putBytes 0 off a.n x) 0).map fun g => (g.1, maxW f.2 g.2) with
    | none => (s, .stall)
    | some (s, q) => (s.modCore p fun c => c.setLine w none, .ok q.toNat)
  else s.storePart p a x

/-- The parts of a write, in order, with the largest WTS. -/
def State.engStores (s : State) (p : Nat) (l : List Acc) (x : Nat) : State × Got :=
  match l with
  | [] => (s, .ok 0)
  | a :: r =>
    match s.engStore p a (x % 2 ^ (8 * a.n)) with
    | (s, .ok w) =>
      match State.engStores s p r (x / 2 ^ (8 * a.n)) with
      | (s, .ok v) => (s, .ok (max w v))
      | z => z
    | z => z

/-- What an engine's access answers: the bytes read, a check's or the data's failure with its address, or a wait. -/
inductive EngGot where
  | ok (x : Nat)
  | bad (cause va : Nat) (toHost : Bool)
  | stall
  deriving DecidableEq, Repr

/-- n bytes at va checked under R79 and read. -/
def State.engRead (s : State) (p va n : Nat) : State × EngGot :=
  match s.checkSpan p va n .load 1 anyClass with
  | (s, .stall) => (s, .stall)
  | (s, .bad c a h) => (s, .bad c a h)
  | (s, .ok l) =>
    match s.engLoads p l with
    | (s, .ok x) => (s, .ok x)
    | (s, .poison) => (s, .bad 0x16 va false)
    | (s, .stall) => (s, .stall)

/-- n bytes at va checked under R79 and written; it answers the largest WTS that its publications returned. -/
def State.engWrite (s : State) (p va n x : Nat) : State × EngGot :=
  match s.checkSpan p va n .store 1 anyClass with
  | (s, .stall) => (s, .stall)
  | (s, .bad c a h) => (s, .bad c a h)
  | (s, .ok l) =>
    match s.engStores p l x with
    | (t, .ok w) => (t, .ok w)
    | (_, .poison) => (s, .bad 0x16 va false)
    | (_, .stall) => (s, .stall)

/-! ## Hash tables (R147) -/

/-- The empty code. -/
def emptyKey : Nat := 0xFFFFFFFFFFFFFFFF
/-- The first slot of a key in a table of 2^sz slots. -/
def hashOf (k sz : Nat) : Nat := (k * 0x9E3779B97F4A7C15 % 2 ^ 64) / 2 ^ (64 - sz)

/-- What a probe meets: the key's slot with its VALUE, an empty slot, neither within PLIM slots, a fault, or a wait. -/
inductive Probe where
  | found (a : Acc) (v : Nat)
  | empty (a : Acc)
  | full
  | bad (cause va : Nat) (toHost : Bool)
  | stall
  deriving DecidableEq, Repr

/-- The probe of n more slots from slot j, each at its home slice under the line lock, with the access kind of its reads. -/
def State.probe (s : State) (p base sz k : Nat) (ak : AK) (n j : Nat) : State × Probe :=
  match n with
  | 0 => (s, .full)
  | n + 1 =>
    let va := (base + 16 * (j % 2 ^ sz)) % 2 ^ 64
    match s.check p va 16 ak 1 immOnly with
    | (s, .stall) => (s, .stall)
    | (s, .bad c h) => (s, .bad c va h)
    | (s, .ok a) =>
      match s.atHome p a (.read 16) with
      | none => (s, .stall)
      | some (s, r) =>
        if r.reply = .error 0x16 then (s, .bad 0x16 va false)
        else
          let x := lineBytes r.line.data (a.pa % 128) 16
          if x % 2 ^ 64 = k then (s, .found a (x / 2 ^ 64))
          else if x % 2 ^ 64 = emptyKey then (s, .empty a)
          else State.probe s p base sz k ak n (j + 1)

end Sys2Proof.Machine
end

