-- ==== Sys2Proof/Machine/Operands.lean ====
section
/-!
DEFINITION. The operands of an element firing (R26, R212, R219, R229): what a firing sees, and how each source form is read.
-/
namespace Sys2Proof.Machine

open Sys2Proof

/-! ## What a firing sees -/

/-- A firing: the position, the element and slot, the element's state as it stood at the start (R219), the slot word, the match, and
the core's frontier registers (R224). -/
structure Fx where
  p : Nat
  e : Nat
  slot : Nat
  x : Elem
  w : EW
  m : Match
  fnt : Map Fnt
  deriving DecidableEq, Repr

/-- A token with nothing set but a DIFF of +1 (R33). -/
def Token.blank (ctx : BitVec 4) : Token := ⟨0, 0, 1, 0, false, false, false, false, ctx⟩

/-- The token that gives the match its tag (R182): port a's, or port b's. -/
def Match.tag (m : Match) : Token :=
  match m.a, m.b with
  | some a, _ => a
  | none, some b => b
  | none, none => Token.blank 0

/-- The saturated product of the DIFFs of the tokens consumed (R220). -/
def Match.diff (m : Match) : BitVec 32 :=
  match m.a, m.b with
  | some a, some b => BitVec.ofInt 32 (satInt (a.diff.toInt * b.diff.toInt) 32)
  | some a, none => a.diff
  | none, some b => b.diff
  | none, none => 1

/-- A flag of some token consumed. -/
def Match.flag (m : Match) (f : Token → Bool) : Bool :=
  (match m.a with | some a => f a | none => false) || (match m.b with | some b => f b | none => false)

/-- The VALUE of the poison consumed: port a's when that is poison, otherwise port b's (R221). -/
def Match.poison (m : Match) : Option Word :=
  match m.a, m.b with
  | some a, some b => if a.p then some a.value else if b.p then some b.value else none
  | some a, none => if a.p then some a.value else none
  | none, some b => if b.p then some b.value else none
  | none, none => none

/-- The poison token consumed, with its port (R221). -/
def Match.poisonTok (m : Match) : Nat × Token :=
  match m.a, m.b with
  | some a, some b => if a.p then (0, a) else (1, b)
  | some a, none => (0, a)
  | none, some b => (1, b)
  | none, none => (0, Token.blank 0)

/-- The context of the element's active bank (R180). -/
def Elem.ctx (x : Elem) : BitVec 4 := match x.act with | some g => g.ctx | none => 0

/-- The emitted token's fields that R220 fixes, with a VALUE. -/
def Fx.token (f : Fx) (v : Word) : Token where
  value := v
  time := f.m.tag.time
  diff := f.m.diff
  path := f.m.tag.path
  p := false
  m := false
  l := f.m.flag Token.l
  c := f.m.flag Token.c
  ctx := f.x.ctx

/-- A poison token at the match's tag with a given VALUE (R221, R338). -/
def Fx.poison (f : Fx) (v : Word) : Token := { f.token v with p := true }
/-- poison(o) of R34 for a cause. -/
def Fx.fault (f : Fx) (c : Nat) : Token := f.poison (poisonValue c f.p f.e f.slot)

/-! ## Sources (R26) -/

/-- TY of the slot. -/
def Fx.ty (f : Fx) : Nat := f.w.ty.toNat
/-- e[i]. -/
def Elem.ereg (x : Elem) (i : Nat) : Word := Map.get x.e 0 i
/-- k[i]. -/
def Elem.kreg (x : Elem) (i : Nat) : Word := Map.get x.k 0 i

/-- A scalar source as a 64-bit value, an immediate in the layout of R212 for a type. Where set time from B names a v or acc register, or the port of a
`merge` whose token came to the other port, the spec gives no value; the model reads 0 (log 85, DESIGN CHOICE). -/
def Fx.source (f : Fx) (ty : Nat) (sel idx : BitVec 3) (tok : Option Token) : Word :=
  match sel.toNat with
  | 0 => match tok with | some t => t.value | none => 0
  | 1 => f.x.ereg idx.toNat
  | 2 => f.x.kreg idx.toNat
  | 3 => writeTy ty (immOperand ty f.w.imm)
  | 6 => f.m.tag.time
  | _ => 0

/-- Operand A as a 64-bit value. -/
def Fx.rawA (f : Fx) : Word := f.source f.ty f.w.sa f.w.ai f.m.a
/-- Operand B as a 64-bit value. -/
def Fx.rawB (f : Fx) : Word := f.source f.ty f.w.sb f.w.bi f.m.b
/-- Operand A at the bits of the slot's type (R212, R219). -/
def Fx.opA (f : Fx) : Nat := readTy f.ty f.rawA.toNat
/-- Operand B at the bits of the slot's type. -/
def Fx.opB (f : Fx) : Nat := readTy f.ty f.rawB.toNat
/-- The source type in IMM[2:0] (R28). -/
def Fx.srcTy (f : Fx) : Nat := (f.w.imm.extractLsb' 0 3).toNat
/-- SB selects none. -/
def Fx.noB (f : Fx) : Bool := f.w.sb == 7
/-- DIFF of port a's token, or +1. -/
def Fx.diffA (f : Fx) : Int := match f.m.a with | some a => a.diff.toInt | none => 1
/-- DIFF of port b's token, or +1. -/
def Fx.diffB (f : Fx) : Int := match f.m.b with | some b => b.diff.toInt | none => 1

/-! ## Vectors (R229) -/

/-- A vector register by its reference code: 0 to 7 v, 8 to 11 acc. -/
def Elem.vreg (x : Elem) (code : Nat) : Vec := if code < 8 then Map.get x.v 0 code else Map.get x.acc 0 (code - 8)
/-- A vector register written by its reference code. -/
def Elem.setVreg (x : Elem) (code : Nat) (v : Vec) : Elem :=
  if code < 8 then { x with v := Map.put x.v code v } else { x with acc := Map.put x.acc (code - 8) v }

/-- Lane l of a vector (R23). -/
def laneOf (v : Vec) (l : Nat) : Nat := (v.extractLsb' (32 * l) 32).toNat
/-- A vector from its lanes, lane 0 first. -/
def ofLanes (l : List Nat) : Vec :=
  match l with
  | [] => 0
  | x :: r => BitVec.ofNat 1024 (x % 2 ^ 32) ||| (ofLanes r <<< 32)
/-- The 32 lanes of a vector. -/
def lanesOf (v : Vec) : List Nat := (range 0 32).map (laneOf v)

/-- Values per lane of a type (R212): one of a 32-bit type, two halves, four bytes, eight nibbles. -/
def perLane (ty : Nat) : Nat := 32 / (min 32 (widthOf ty))
/-- Value j of a lane (R212). -/
def laneValue (ty lane j : Nat) : Nat := (lane >>> (widthOf ty * j)) % 2 ^ widthOf ty
/-- A lane from its values, value 0 lowest. -/
def packLane (ty : Nat) (l : List Nat) : Nat :=
  match l with
  | [] => 0
  | x :: r => x % 2 ^ widthOf ty + 2 ^ widthOf ty * packLane ty r

/-- A scalar broadcast to every lane in the layout of R212 (R229). -/
def broadcast (ty x : Nat) : Vec := ofLanes ((range 0 32).map fun _ => packLane ty ((range 0 (perLane ty)).map fun _ => x % 2 ^ widthOf ty))

/-- A vector-role operand: a register by its code, a broadcast, or the failure of R229 and R222. -/
inductive VOperand where
  | reg (code : Nat)
  | scalar (v : Vec)
  | bad
  deriving DecidableEq, Repr

/-- An acc register is an operand only of f32 instructions (R229). -/
def regOk (ty code : Nat) : Bool := code < 8 || (code < 12 && ty == 3)

/-- A source in a vector role, a scalar read at a type (R229). -/
def Fx.vector (f : Fx) (ty : Nat) (sel idx : BitVec 3) (tok : Option Token) : VOperand :=
  match sel.toNat with
  | 0 =>
    let v := match tok with | some t => t.value.toNat | none => 0
    if 16 ≤ v || !regOk f.ty v then .bad else .reg v
  | 4 => .reg idx.toNat
  | 5 => if regOk f.ty (8 + idx.toNat) then .reg (8 + idx.toNat) else .bad
  | _ => .scalar (broadcast ty (readTy ty (f.source ty sel idx tok).toNat))

/-- Operand A in a vector role. -/
def Fx.vecA (f : Fx) : VOperand := f.vector f.ty f.w.sa f.w.ai f.m.a
/-- Operand B in a vector role, a scalar read at a type. -/
def Fx.vecB (f : Fx) (ty : Nat) : VOperand := f.vector ty f.w.sb f.w.bi f.m.b
/-- The contents of a vector operand. -/
def VOperand.value (o : VOperand) (x : Elem) : Vec :=
  match o with
  | .reg c => x.vreg c
  | .scalar v => v
  | .bad => 0

end Sys2Proof.Machine
end

