-- ==== Sys2Proof/Machine/Fabric.lean ====
section
/-!
DEFINITION. The fabric's own rules (R180 to R192, R200 to R204, R219 to R223): slots and targets, room and emission, choosing and
performing a firing, taking tokens, and what happens to poison.
-/
namespace Sys2Proof.Machine

open Sys2Proof

/-! ## Elements and slots -/

/-- Element e of core p. -/
def State.elem (s : State) (p e : Nat) : Elem := Map.get (s.core p).elems Elem.reset e
/-- An element replaced. -/
def State.setElem (s : State) (p e : Nat) (x : Elem) : State := s.modCore p fun c => { c with elems := Map.put c.elems e x }
/-- An element changed. -/
def State.modElem (s : State) (p e : Nat) (f : Elem → Elem) : State := s.setElem p e (f (s.elem p e))

/-- The word of an active slot of an image (R180). -/
def EImage.word (g : EImage) (slot : Nat) : Option Word := if g.slotv.getLsbD slot then some (Map.get g.slots 0 slot) else none
/-- The word of an active slot of the active bank. -/
def Elem.word (x : Elem) (slot : Nat) : Option Word := x.act.bind fun g => g.word slot
/-- OP of an active slot; 0x1FF, an unassigned value, where the slot is not active. -/
def Elem.op (x : Elem) (slot : Nat) : Nat := match x.word slot with | some w => (opOf w).toNat | none => 0x1FF

/-- A word consumes a port: 0 a, 1 b (R182). A draining `sink` consumes port a (R258). -/
def takesPort (w : Word) (port : Nat) : Bool := if port = 0 then (ewOf w).sa == 0 else (ewOf w).sb == 0

/-- A token other than a segment token may be given to a port: the slot consumes it, and it is no port a of `mdrn`, which receives only segment tokens
(R250) (log 83, DEDUCED). -/
def feedsPort (w : Word) (port : Nat) : Bool :=
  takesPort w port && !(port == 0 && 0x148 ≤ (opOf w).toNat && (opOf w).toNat < 0x14C)

/-- A memory-port node (R265). -/
def memNode (op : Nat) : Bool := 0x110 ≤ op && op ≤ 0x128
/-- A vector slot, as the grant of R378 counts them. -/
def vecSlot (op : Nat) : Bool :=
  (0x020 ≤ op && op < 0x048) || (0x058 ≤ op && op < 0x060) || (0x0A0 ≤ op && op ≤ 0x0A4) || op == 0x14C || op == 0x14D
/-- `mpre`, `mrow` and `mdrn` in some format. -/
def matSlot (op : Nat) : Bool := 0x140 ≤ op && op < 0x14C
/-- A sink with draining enabled (R258). -/
def drains (w : Word) : Bool := (opOf w).toNat == 0x104 && (ewOf w).sb == 3
/-- The number of an input buffer. -/
def portKey (slot port : Nat) : Nat := slot * 2 + port

/-! ## Targets (R27, R185, R186) -/

/-- V of a target. -/
def tgtV (t : BitVec 13) : Bool := t.getLsbD 12
/-- ELEM of a target. -/
def tgtElem (t : BitVec 13) : Nat := (t.extractLsb' 6 6).toNat
/-- The input buffer of a target within its element. -/
def tgtPort (t : BitVec 13) : Nat := (t.extractLsb' 0 6).toNat
/-- Target j of a slot word. -/
def target (w : EW) (j : Nat) : BitVec 13 := if j = 0 then w.t0 else w.t1

/-- The head token that a buffer keeps while its slot works on it: an `ldst` start (R266), or a held memory-port token (R69). -/
def Core.keepsHead (c : Core) (e port : Nat) : Bool :=
  let x := Map.get c.elems Elem.reset e
  let slot := port / 2
  let start := x.op slot == 0x110 && port % 2 == 0 &&
    ((Map.find x.nodes slot).isSome || anyOf x.matches_ (fun m => m.slot == slot) || anyOf x.due fun d => d.slot == slot)
  let held := e % 8 == 0 && (match (Map.get c.ports Port.idle (e / 8)).held with | some a => a.slot == slot && x.op slot != 0x110 | none => false)
  start || held

/-- Free entries of an input buffer: two, less the tokens in it (R181). -/
def Core.free (c : Core) (t : BitVec 13) : Nat :=
  let x := Map.get c.elems Elem.reset (tgtElem t)
  2 - (Map.get x.bufs [] (tgtPort t)).length - bit (c.keepsHead (tgtElem t) (tgtPort t))

/-- Every valid target of a list has room for all the tokens the list gives it (R186). -/
def Core.fits (c : Core) (l : List (BitVec 13)) : Bool := allOf l fun t => !tgtV t || (keep l fun u => u == t).length ≤ c.free t

/-- A token enters an input buffer. -/
def Elem.putBuf (x : Elem) (port : Nat) (k : Token) : Elem :=
  { x with bufs := Map.put x.bufs port (Map.get x.bufs [] port ++ [k]), arrived := x.arrived ++ [(port, k)] }

/-- A token enters the input buffer of a target; nothing when V = 0 (R27, R34). -/
def State.place (s : State) (p : Nat) (t : BitVec 13) (k : Token) : State :=
  if tgtV t then s.modElem p (tgtElem t) fun x => x.putBuf (tgtPort t) k else s

/-- A POISON record at a slot and port of an element: it names the context of the element where the poison stops (R150, R338). -/
def State.stopPoison (s : State) (p e slot port : Nat) (k : Token) : State :=
  s.poisonRec p e slot port (s.elem p e).ctx.toNat 0 k.value k.time

/-- A token discarded: a poison token writes its record (R188, R203). -/
def State.discard (s : State) (p e slot port : Nat) (k : Token) : State := if k.p && !k.m then s.stopPoison p e slot port k else s

/-- Tokens emitted on targets; poison that reaches no valid target is discarded with a record (R338). -/
def State.emitAll (s : State) (p e slot : Nat) (w : EW) (l : List (Nat × Token)) : State :=
  let s' := each l (fun o s => s.place p (target w o.1) o.2) s
  if anyOf l fun o => tgtV (target w o.1) then s'
  else match firstOf l fun o => o.2.p with
    | some o => s'.discard p e slot 0 o.2
    | none => s'

/-! ## Whether an element moves -/

/-- The element is stopped by a freeze (R345), or waits for the control core's `ctxld` (R351). -/
def Core.elemStopped (c : Core) (x : Elem) : Bool := (c.freeze.isSome && x.atCut) || c.resumeWait
/-- The element waits to emit a marker (R200). -/
def Elem.passing (x : Elem) : Bool := match x.act with | some g => 0 < x.markers && g.min ≤ x.markers | none => false
/-- The element's producer of records holds one (R151). -/
def Core.elemStalled (c : Core) (e : Nat) : Bool := c.stalled fun r => r.unit == 0 && r.elem == e
/-- The element may fire (R180, R200, R345). -/
def State.mayFire (s : State) (p e : Nat) : Bool :=
  let c := s.core p
  let x := s.elem p e
  x.act.isSome && !x.leaving && !c.elemStopped x && !x.passing && !c.elemStalled e
/-- The slot may fire: no emission of it is still due (R187), its vector grant has come (R378), and, for `mpre`, `mrow` and `mdrn`,
MX = 1 or `mmode off` has fired (R241). -/
def Elem.slotMay (x : Elem) (slot : Nat) : Bool :=
  let op := x.op slot
  !(anyOf x.due fun d => d.slot == slot) && (!vecSlot op || x.vgrant) && (!matSlot op || x.mx || (x.moff && !x.asked))

/-! ## Ready matches in key order (R183) -/

/-- Inserts by key, ahead of entries of the same key. -/
def insertKey (l : List (Nat × Nat × Match)) (k n : Nat) (m : Match) : List (Nat × Nat × Match) :=
  match l with
  | [] => [(k, n, m)]
  | x :: r => if k ≤ x.1 then (k, n, m) :: x :: r else x :: insertKey r k n m

/-- The formed matches, numbered, in key order. -/
def byKey (l : List Match) (n : Nat) : List (Nat × Nat × Match) :=
  match l with
  | [] => []
  | m :: r => insertKey (byKey r (n + 1)) (fireKey m.tag.time m.slot) n m

/-- The element's matches in key order; equal keys stand in arrival order. -/
def Elem.keyed (x : Elem) : List (Nat × Nat × Match) := byKey x.matches_ 0

/-- The first match that fires, of a list in key order. -/
def firstReady (l : List (Nat × Nat × Match)) (g : Nat → Match → Option State) : Option State :=
  match l with
  | [] => none
  | (_, n, m) :: r =>
    match g n m with
    | some s => some s
    | none => firstReady r g

/-- What the executing slot's next firing may use: its matches in key order, or the one named. -/
def State.slotMatches (s : State) : List (Nat × Nat × Match) :=
  keep (s.elem s.cur.p s.cur.e).keyed fun m => m.2.2.slot == s.cur.slot && (match s.cur.pick with | some i => m.2.1 == i | none => true)

/-- The firing of the executing slot for a match. -/
def State.fx (s : State) (w : EW) (m : Match) : Fx :=
  ⟨s.cur.p, s.cur.e, s.cur.slot, s.elem s.cur.p s.cur.e, w, m, (s.core s.cur.p).fnt⟩

/-! ## The matching store (R182, R190) -/

/-- Store entries in use: waiting tokens and the tokens of formed matches (log 8, DEDUCED). -/
def Elem.storeUsed (x : Elem) : Nat := x.store.length + each x.matches_ (fun m n => n + bit m.a.isSome + bit m.b.isSome) 0

/-- Spilled tokens move back into the store, oldest first, as entries free (R190). -/
def Core.refill (fuel : Nat) (c : Core) (e : Nat) : Core :=
  match fuel with
  | 0 => c
  | fuel + 1 =>
    let x := Map.get c.elems Elem.reset e
    match indexOf c.overflow fun o => o.e == e with
    | none => c
    | some i =>
      match nth c.overflow i with
      | none => c
      | some o =>
        if 64 ≤ x.storeUsed then c
        else Core.refill fuel { c with overflow := dropNth c.overflow i, elems := Map.put c.elems e { x with store := x.store ++ [o.w] } } e

/-- A block of the current overflow area with a free entry: 128 entries of 32 bytes a block, mapped blocks unused (R189, R190) (log 79, DEDUCED). -/
def Core.freeSpill (c : Core) : Option Nat :=
  firstOf (range c.spillFirst c.spillBlocks) fun b => (Map.find c.stash b).isNone && (keep c.overflow fun o => o.block == b).length < 128

/-- Two tags are equal (R33, R182). -/
def Token.sameTag (a b : Token) : Bool := a.time == b.time && a.path == b.path && a.ctx == b.ctx

/-- A waiting token is the partner of a token at a slot and port. -/
def Waiting.partner (w : Waiting) (slot port : Nat) (k : Token) : Bool := w.slot == slot && w.port != port && w.tok.sameTag k

/-- A match from a token at a port and, perhaps, its partner. -/
def Match.of (slot port : Nat) (k : Token) (q : Option Token) : Match := if port = 0 then ⟨slot, some k, q⟩ else ⟨slot, q, some k⟩

/-- A token of this slot is a match of its own: the slot consumes one port, or is `merge` or `ctrb` (R182, R233, R255). -/
def ownMatch (w : Word) : Bool := !(takesPort w 0 && takesPort w 1) || (opOf w).toNat == 0x0B1 || (opOf w).toNat == 0x101

/-- The core after element e has taken a data or last token into the store, the overflow area or a match; none when it must stay at the
head of its buffer (R190, log 8, DEDUCED). A memory-port slot takes no further token while a formed match of it has not fired (log 86, DESIGN CHOICE). -/
def Core.takeData (c : Core) (e slot port : Nat) (w : Word) (k : Token) : Option Core :=
  let x := Map.get c.elems Elem.reset e
  let put := fun (y : Elem) => { c with elems := Map.put c.elems e y }
  if memNode (opOf w).toNat && anyOf x.matches_ fun m => m.slot == slot then none
  else if ownMatch w then
    if x.storeUsed < 64 || !(anyOf x.matches_ fun m => m.slot == slot && (if port = 0 then m.a.isSome else m.b.isSome)) then
      some (put { x with matches_ := x.matches_ ++ [Match.of slot port k none] })
    else none
  else
    match indexOf x.store fun q => q.partner slot port k with
    | some i =>
      some (put { x with store := dropNth x.store i
                         matches_ := x.matches_ ++ [Match.of slot port k ((nth x.store i).map Waiting.tok)] } |>.refill 64 e)
    | none =>
      match indexOf c.overflow fun o => o.e == e && o.w.partner slot port k with
      | some i =>
        some { c with overflow := dropNth c.overflow i
                      elems := Map.put c.elems e
                        { x with matches_ := x.matches_ ++ [Match.of slot port k ((nth c.overflow i).map fun o => o.w.tok)] } }
      | none =>
        if x.storeUsed < 64 then some (put { x with store := x.store ++ [⟨slot, port, k⟩] })
        else
          match c.freeSpill with
          | some b => some { c with overflow := c.overflow ++ [⟨e, b, ⟨slot, port, k⟩⟩] }
          | none => none

/-! ## Performing a firing (R183, R184, R220 to R223) -/

/-- What an operation makes of its match: its results by target, its register writes, the takes of R214, or its own failure with the
targets its poison goes to. -/
structure Fire where
  outs : List (Nat × Token)
  regs : Elem → Elem
  takes : Nat
  cause : Option (Nat × List Nat)

/-- Results on targets with no register write. -/
def Fire.emit (l : List (Nat × Token)) : Fire := ⟨l, id, 0, none⟩
/-- A failure in the operation itself (R222). -/
def Fire.fail (c : Nat) : Fire := ⟨[], id, 0, some (c, [0, 1])⟩
/-- A failure in an operation with a number of takes (R214, R222). -/
def Fire.failWith (c takes : Nat) : Fire := ⟨[], id, takes, some (c, [0, 1])⟩
/-- A failure whose poison goes to one target (R232). -/
def Fire.failOn (c j : Nat) : Fire := ⟨[], id, 0, some (c, [j])⟩
/-- One value on every valid target. -/
def Fx.both (f : Fx) (v : Word) : List (Nat × Token) := [(0, f.token v), (1, f.token v)]

/-- The slot's tag operation on a token (R184); poison that it would fail is left as it is (R221) (log 43, DEDUCED). -/
def Fx.tagged (f : Fx) (t : Token) : Except Nat Token :=
  match tagOp f.w.tg f.rawB t.time t.path with
  | .ok (u, q) => .ok { t with time := u, path := q }
  | .error c => if t.p then .ok t else .error c

/-- The slot's tag operation on a token for target j: it is applied on valid targets only (R184). -/
def Fx.tagOn (f : Fx) (j : Nat) (t : Token) : Except Nat Token := if tgtV (target f.w j) then f.tagged t else .ok t

/-- The slot's tag operation on every token; the lowest cause when one fails. -/
def Fx.tagAll (f : Fx) (l : List (Nat × Token)) : Except Nat (List (Nat × Token)) :=
  match l with
  | [] => .ok []
  | (j, t) :: r =>
    match f.tagOn j t, Fx.tagAll f r with
    | .ok u, .ok q => .ok ((j, u) :: q)
    | .error c, .ok _ => .error c
    | .ok _, .error c => .error c
    | .error c, .error d => .error (min c d)

/-- The lower of a failure's cause and the cause with which the tag operation would fail at the match's tag (R222). -/
def Fx.lowest (f : Fx) (c : Nat) : Nat :=
  match tagOp f.w.tg f.rawB f.m.tag.time f.m.tag.path with
  | .error d => min c d
  | .ok _ => c

/-- poison(o) on targets (R184, R222). -/
def Fx.failOuts (f : Fx) (c : Nat) (l : List Nat) : List (Nat × Token) := l.map fun j => (j, f.fault c)

/-- The takes of a firing: the LFSR advances by the stated number, whether the firing fails or not (R34, R214) (log 42, DEDUCED). -/
def Elem.advance (x : Elem) (takes : Nat) : Elem := { x with lfsr := (lfsrTakes takes x.lfsr).2 }

/-- The tokens a firing emits and its effect on the element (R184, R220, R222) (log 42, DEDUCED). -/
def Fx.resolve (f : Fx) (r : Fire) : List (Nat × Token) × (Elem → Elem) :=
  match r.cause with
  | some c => (f.failOuts (f.lowest c.1) c.2, fun x => x.advance r.takes)
  | none =>
    match f.tagAll r.outs with
    | .ok l => (l, fun x => (r.regs x).advance r.takes)
    | .error c => (f.failOuts c [0, 1], fun x => x.advance r.takes)

/-- The tokens of a firing that has consumed poison, on the targets of its poison column, with the tag operation applied (R221). -/
def Fx.resolvePoison (f : Fx) (l : List (Nat × Token)) : List (Nat × Token) :=
  match f.tagAll l with
  | .ok q => q
  | .error _ => l

/-- Poison with the consumed VALUE on targets. -/
def Fx.poisonOn (f : Fx) (l : List Nat) (v : Word) : List (Nat × Token) := l.map fun j => (j, f.poison v)

/-- Match n leaves the element, and spilled tokens move back (R190). -/
def State.consume (s : State) (n : Nat) : State :=
  (s.modElem s.cur.p s.cur.e fun x => { x with matches_ := dropNth x.matches_ n, fired := true }).modCore s.cur.p fun c => c.refill 64 s.cur.e

/-- The executing slot fires the first match that `act` can fire, in key order (R183). -/
def State.fireNode (s : State) (act : Nat → Match → Option State) : Option State :=
  if s.mayFire s.cur.p s.cur.e && (s.elem s.cur.p s.cur.e).slotMay s.cur.slot then firstReady s.slotMatches act else none

/-- Emits the tokens of the executing slot when every target has room; none otherwise (R186). -/
def State.emitFits (s : State) (w : EW) (l : List (Nat × Token)) (k : State → State) : Option State :=
  if (s.core s.cur.p).fits (l.map fun o => target w o.1) then some ((k s).emitAll s.cur.p s.cur.e s.cur.slot w l) else none

/-- A firing of an operation that consumes its match at once: `op` gives its results, `pois` what it makes of consumed poison. A firing that consumes poison
performs no operation and takes nothing from the LFSR (log 42, DEDUCED). -/
def State.firePlain (s : State) (w : EW) (op : Fx → Fire) (pois : Fx → Word → List (Nat × Token)) : Option State :=
  s.fireNode fun n m =>
    let f := s.fx w m
    match m.poison with
    | some v => s.emitFits w (f.resolvePoison (pois f v)) fun s => s.consume n
    | none =>
      let r := f.resolve (op f)
      s.emitFits w r.1 fun s => (s.modElem s.cur.p s.cur.e r.2).consume n

/-- The step of an element operation: a firing, or nothing when no match of the slot is ready. -/
def fires (s : State) (o : Option State) : Ans := go (o.getD s)

/-- An operation whose poison goes to every valid target (R221), those whose entries have no poison column with them (log 85, DESIGN CHOICE). -/
def plainOp (w : EW) (op : Fx → Fire) (s : State) : Ans := fires s (s.firePlain w op fun f v => f.poisonOn [0, 1] v)

/-! ## Taking a token (R181, R188, R200, R202) -/

/-- The head of an input buffer that the element may handle now: the port is not stalled by a marker or teardown token, a memory port is
not held at it, and no node keeps the head. A further marker waits until the one that is due has passed (R200). -/
def State.headOf (s : State) (p e slot port : Nat) : Option Token :=
  let c := s.core p
  let x := s.elem p e
  let key := portKey slot port
  let heldPort := e % 8 == 0 && memNode (x.op slot) && (Map.get c.ports Port.idle (e / 8)).held.isSome
  if x.act.isNone || x.leaving || c.elemStopped x || c.elemStalled e || hasNat x.mstall key || hasNat x.tstall key || c.keepsHead e key || heldPort
  then none
  else match (Map.get x.bufs [] key).head? with
    | some k => if x.passing && k.m && !k.l && k.ctx == x.ctx then none else some k
    | none => none

/-- The head leaves its buffer. -/
def State.popHead (s : State) (p e slot port : Nat) : State :=
  s.modElem p e fun x => { x with bufs := Map.put x.bufs (portKey slot port) ((Map.get x.bufs [] (portKey slot port)).drop 1) }

/-- A token whose handling by this event would be an absorption of R255 or R256. -/
def absorbs (op port : Nat) : Bool := (op == 0x101 && port == 1) || op == 0x102

/-- `TOKEN_TAKEN` (R181, R182, R188, R190, R200, R202). -/
def execTokenTaken (p e slot port : Nat) (s : State) : Ans :=
  let x := s.elem p e
  match s.headOf p e slot port, x.act with
  | some k, some g =>
    if k.ctx != g.ctx then
      if (match x.sh with | some h => h.ctx == k.ctx | none => false) then go s
      else go ((s.popHead p e slot port).discard p e slot port k)
    else
      match g.word slot with
      | none => go ((s.popHead p e slot port).discard p e slot port k)
      | some w =>
        if k.m && k.l then
          go ((s.popHead p e slot port).modElem p e fun x => { x with tdowns := x.tdowns + 1, tstall := insertNat x.tstall (portKey slot port) })
        else if drains w && port = 0 then go s
        else if k.m then
          go ((s.popHead p e slot port).modElem p e fun x =>
            { x with markers := x.markers + 1, mlast := some k, mstall := insertNat x.mstall (portKey slot port) })
        else if !takesPort w port then go ((s.popHead p e slot port).discard p e slot port k)
        else if absorbs (opOf w).toNat port then go s
        else
          match (s.core p).takeData e slot port w k with
          | none => go s
          | some c => go ((s.setCore p c).popHead p e slot port)
  | _, _ => go s

/-! ## Emissions still due (R187, R202) -/

/-- An emission that the element owes: it leaves when its buffer has room (log 23, DESIGN CHOICE). -/
def State.owe (s : State) (p e slot : Nat) (w : EW) (l : List (Nat × Token)) : State :=
  if anyOf l fun o => tgtV (target w o.1) then
    s.modElem p e fun x => { x with due := x.due ++ (keep l fun o => tgtV (target w o.1)).map fun o => ⟨slot, target w o.1, o.2⟩ }
  else match firstOf l fun o => o.2.p with
    | some o => s.discard p e slot 0 o.2
    | none => s

/-- The emissions that leave in one order: those of a slot, and those of every `mmode` slot of the element together (R247). -/
def Elem.dueLine (x : Elem) (d : Due) : Nat := if x.op d.slot = 0x14E then 32 else d.slot

/-- The first due emission that can leave: no earlier one of its line is due, and its buffer has room. -/
def Core.dueReady (c : Core) (x : Elem) (seen : List Nat) (l : List Due) (n : Nat) : Option Nat :=
  match l with
  | [] => none
  | d :: r => if !hasNat seen (x.dueLine d) && 1 ≤ c.free d.target then some n else Core.dueReady c x (x.dueLine d :: seen) r (n + 1)

/-- An element's next due emission enters its target buffer (log 23, DESIGN CHOICE). -/
def State.flushDue (s : State) (p e : Nat) : State :=
  let c := s.core p
  let x := s.elem p e
  if c.elemStopped x then s
  else
    match c.dueReady x [] x.due 0 with
    | none => s
    | some i =>
      match nth x.due i with
      | none => s
      | some d => (s.modElem p e fun x => { x with due := dropNth x.due i }).place p d.target d.tok

/-! ## Markers (R200) -/

/-- The distinct targets of active slots that are no back-edges, with the first slot that names each (R194, R200). -/
def EImage.edges (g : EImage) : List (Nat × BitVec 13) :=
  each (range 0 32) (fun slot (l : List (Nat × BitVec 13)) =>
    match g.word slot with
    | none => l
    | some w =>
      each [0, 1] (fun j (l : List (Nat × BitVec 13)) =>
        let t := target (ewOf w) j
        if tgtV t && !g.back.getLsbD (2 * slot + j) && !(anyOf l fun q => q.2 == t) then l ++ [(slot, t)] else l) l) []

/-- Pending constants take effect; a write to k7 reloads the LFSR (R23, R171). -/
def Elem.applyPending (x : Elem) : Elem :=
  let y := { x with k := each x.pendK (fun e m => Map.put m e.1 e.2) x.k, pendK := [] }
  match Map.find x.pendK 7 with
  | some v => { y with lfsr := lfsrLoad v }
  | none => y

/-- A covered element: its image's safe-point table names it (R343). -/
def EImage.covered (g : EImage) : Bool := g.hasSpt && g.live.isSome

/-- `MARKER_PASS` (R200, R343 to R345): the pending constants take effect, one marker goes to every target that is no back-edge, the
count returns to 0 and the stalled ports resume; under a freeze a covered element stops here. -/
def execMarkerPass (p e : Nat) (s : State) : Ans :=
  let c := s.core p
  let x := s.elem p e
  match x.act, x.mlast with
  | some g, some k =>
    let l := g.edges
    if !x.passing || x.leaving || c.elemStopped x || !c.fits (l.map Prod.snd) || anyOf x.due (fun d => anyOf l fun q => q.1 == d.slot) then go s
    else
      let s := s.modElem p e fun x =>
        { x.applyPending with markers := 0, mstall := [], ec := 0, fired := false, atCut := x.atCut || (c.freeze.isSome && g.covered) }
      go (each l (fun q s => s.place p q.2 { Token.blank g.ctx with time := k.time, path := k.path, m := true, diff := 1 }) s)
  | _, _ => go s

/-! ## Teardown and flips (R201 to R203) -/

/-- The image says that the context of an element has been asked to go (R170): elements still to flip stand as context x 64 + element. -/
def Core.tearingCtx (c : Core) (ctx : Nat) : Bool := anyOf c.tearing fun n => n / 64 == ctx
/-- Elements active in a context. -/
def Core.inCtx (c : Core) (ctx : Nat) : List Nat :=
  keep (range 0 64) fun e => match (Map.get c.elems Elem.reset e).act with | some g => g.ctx.toNat == ctx | none => false

/-- Teardown of a context starts (R170, R201): one teardown token behind every token of each entry point's buffer. A context with no
active configuration, or already in teardown, is left unchanged (log 41, DEDUCED). -/
def State.teardown (s : State) (p ctx : Nat) : State :=
  let c := s.core p
  let l := c.inCtx ctx
  if l.isEmpty || c.tearingCtx ctx then s
  else
    let s := s.setCore p { c with tearing := c.tearing ++ l.map fun e => ctx * 64 + e }
    each l (fun e s => s.modElem p e fun x =>
      match x.act with
      | none => x
      | some g =>
        let k : Token := { Token.blank g.ctx with m := true, l := true }
        each g.ents (fun port x => x.putBuf port k) x) s

/-- A node is in the middle of a run, or has something pending that a teardown token must let out first (R202, R249, R253). -/
def Node.busy (n : Node) : Bool :=
  match n with
  | .ctr _ => true
  | .ctrb _ run bad => run.isSome || !bad.isEmpty
  | .rpt _ _ run bad => run.isSome || !bad.isEmpty
  | .emitted => false
  | .mrow _ _ seg bad => !seg.isEmpty || !bad.isEmpty
  | .ldst .. => true
  | .pairs ps => !ps.isEmpty

/-- An engine command bound to a context is outstanding (R136): D6 or the command word carries the binding. -/
def Core.boundTo (c : Core) (ctx : Nat) (bound : Cmd → Option Nat) : Bool :=
  anyOf (range 0 4) fun i =>
    let g := Map.get c.engines Engine.reset i
    anyOf g.queue (fun q => bound q == some ctx) || anyOf g.runs fun r => !r.fin && bound r.cmd == some ctx

/-- The context an engine command is bound to (R132): BIND and CTX of its command word. -/
def Cmd.bound (c : Cmd) : Option Nat := if c.word.getLsbD 16 then some (c.word.extractLsb' 17 4).toNat else none

/-- The conditions of R202 and R253 at an element that has taken TIN teardown tokens. -/
def State.mayLeave (s : State) (p e : Nat) : Bool :=
  let c := s.core p
  let x := s.elem p e
  match x.act with
  | none => false
  | some g =>
    let port := Map.get c.ports Port.idle (e / 8)
    g.tin ≤ x.tdowns && !x.leaving && !c.elemStopped x && !c.elemStalled e && !c.boundTo g.ctx.toNat Cmd.bound &&
      (e % 8 != 0 || (port.accs.isEmpty && port.held.isNone)) && x.due.isEmpty && x.mwaits.isEmpty && allOf x.nodes (fun n => !n.2.busy) &&
      !(anyOf x.matches_ fun m => 0x162 ≤ x.op m.slot && x.op m.slot ≤ 0x164) &&
      !x.latch0.busy && !x.latch1.busy && !(anyOf c.bus fun b => b.2.e == e || hasNat b.2.rcv e)

/-- `TEARDOWN_TOKEN_LEAVE` (R202): one teardown token to every target that is no back-edge, each as its buffer has room; the token has
left when the last is written. -/
def execTeardownTokenLeave (p e : Nat) (s : State) : Ans :=
  match (s.elem p e).act with
  | some g =>
    if !s.mayLeave p e then go s
    else
      let k : Token := { Token.blank g.ctx with m := true, l := true }
      go (each g.edges (fun q s =>
        if 1 ≤ (s.core p).free q.2 then s.place p q.2 k
        else s.modElem p e fun x => { x with due := x.due ++ [⟨q.1, q.2, k⟩] }) (s.modElem p e fun x => { x with leaving := true }))
  | none => go s

/-- The tokens of a formed match, with slot and port. -/
def Match.tokens (m : Match) : List Waiting :=
  (match m.a with | some k => [⟨m.slot, 0, k⟩] | none => []) ++ match m.b with | some k => [⟨m.slot, 1, k⟩] | none => []

/-- Tokens that the flip discards (R203, R256): waiting, matched and buffered in a node, with slot and port. -/
def Elem.oldTokens (x : Elem) : List Waiting :=
  x.store ++ (x.matches_.map Match.tokens).flatten ++
  (x.nodes.map fun n => match n.2 with
    | .rpt buf _ _ _ => buf.map fun k => ⟨n.1, 0, k⟩
    | .mrow (some k) _ _ _ => [⟨n.1, 0, k⟩]
    | _ => []).flatten

/-- A buffered token stays at a flip to an image: it is of another context, or the new image's slot consumes its port (R203). -/
def EImage.keepsToken (g : EImage) (slot port : Nat) (k : Token) : Bool :=
  k.ctx != g.ctx || (match g.word slot with | some w => feedsPort w port | none => false)

/-- A buffered token that the flip takes out of the element: a segment token of the old context (R253), or one that the new image does not keep. -/
def Elem.dropsToken (x : Elem) (port : Nat) (k : Token) : Bool :=
  (0x148 ≤ x.op (port / 2) && x.op (port / 2) < 0x14C && port % 2 == 0 && k.ctx == x.ctx) ||
    (match x.sh with | some g => !g.keepsToken (port / 2) (port % 2) k | none => false)

/-- The image holds an active vector slot (R378). -/
def EImage.hasVector (g : EImage) : Bool := anyOf (range 0 32) fun i => match g.word i with | some w => vecSlot (opOf w).toNat | none => false

/-- The element with an image just become active (R199, R241, R378): registers as R23 states, the matrix unit and grants as R241. -/
def Elem.activate (x : Elem) (g : EImage) (frozen : Bool) : Elem :=
  let y := { Elem.reset with
    act := some g, k := g.k, lfsr := lfsrLoad (Map.get g.k 0 7), bufs := x.bufs, arrived := x.arrived
    vgrant := g.hasVector && x.vgrant, vasked := g.hasVector && !x.vgrant }
  let y := { y with atCut := frozen && (!g.covered || allOf x.bufs fun b => b.2.isEmpty) }
  if g.mx then { y with mx := x.granted, granted := x.granted, asked := !x.granted, cim := x.cim } else y

/-- An element flips (R199, R203): what the old context left is discarded, poison with its record; the shadow image becomes active, or the
element returns to the free pool. A context's last flip writes its TDN record (R170) (log 46, DEDUCED). -/
def State.flip (s : State) (p e : Nat) : State :=
  let c := s.core p
  let x := s.elem p e
  let spilled := (keep c.overflow fun o => o.e == e).map Spill.w
  let s := each (x.oldTokens ++ spilled) (fun w s => s.discard p e w.slot w.port w.tok) s
  let s := each x.bufs (fun (b : Nat × List Token) s => each (keep b.2 (x.dropsToken b.1)) (fun k s => s.discard p e (b.1 / 2) (b.1 % 2) k) s) s
  let bufs := x.bufs.map fun (b : Nat × List Token) => (b.1, keep b.2 fun k => !x.dropsToken b.1 k)
  let x' := { x with bufs := keep bufs fun b => !b.2.isEmpty }
  let y := match x.sh with
    | some g => x'.activate g c.freeze.isSome
    | none => { Elem.reset with bufs := x'.bufs, arrived := x.arrived }
  let s := (s.setElem p e y).modCore p fun c => { c with overflow := keep c.overflow fun o => o.e != e }
  match firstOf c.tearing fun n => n % 64 == e with
  | none => s
  | some n =>
    let s := s.modCore p fun c => { c with tearing := keep c.tearing fun m => m != n }
    if (s.core p).tearingCtx (n / 64) then s
    else s.putRec p ⟨recW0 6 0 0 e 0 0 (n / 64) 0 0 c.vcnNum, 0, 0, 0⟩

/-- `ELEMENT_FLIP` (R203): two cycles after the last teardown token has been written. -/
def execElementFlip (p e : Nat) (s : State) : Ans :=
  let x := s.elem p e
  if x.leaving && x.due.isEmpty then go (s.flip p e) else go s

/-! ## The distance count (R344) -/

/-- The element holds a token in its buffers, store or overflow area, or a taken marker (R344). -/
def Core.elemHolds (c : Core) (e : Nat) : Bool :=
  let x := Map.get c.elems Elem.reset e
  anyOf x.bufs (fun b => !b.2.isEmpty) || !x.store.isEmpty || !x.matches_.isEmpty || anyOf c.overflow (fun o => o.e == e) || x.markers != 0

/-- The lowest-numbered consumed port that has not yet taken the marker (R344). -/
def Elem.missing (x : Elem) : Option Nat :=
  match x.act with
  | none => none
  | some g => firstOf (range 0 64) fun n => !hasNat x.mstall n && (match g.word (n / 2) with | some w => takesPort w (n % 2) | none => false)

/-- The tokens that an element holds in its matching store, in formed matches and in its input buffers. -/
def Elem.tokens (x : Elem) : List Waiting :=
  x.store ++ (x.matches_.map Match.tokens).flatten ++ (x.bufs.map fun b => b.2.map fun k => (⟨b.1 / 2, b.1 % 2, k⟩ : Waiting)).flatten
/-- The tokens that an element holds, those of the overflow area with them (R344), as port and token. -/
def Core.heldTokens (c : Core) (e : Nat) : List (Nat × Token) :=
  ((Map.get c.elems Elem.reset e).tokens ++ (keep c.overflow fun o => o.e == e).map Spill.w).map fun w => (portKey w.slot w.port, w.tok)

/-- How often a token stands in a list. -/
def countTok (l : List (Nat × Token)) (q : Nat × Token) : Nat := (keep l fun r => r == q).length

/-- The port of the first arrival of a list whose token is still held: of equal tokens of one port the older have left first (R182). -/
def oldestOf (held : List (Nat × Token)) (l : List (Nat × Token)) : Option Nat :=
  match l with
  | [] => none
  | q :: r => if countTok (q :: r) q ≤ countTok held q then some q.1 else oldestOf held r

/-- The port of the element's oldest held token (R344). -/
def Core.oldest (c : Core) (e : Nat) : Nat :=
  let held := c.heldTokens e
  match oldestOf held (Map.get c.elems Elem.reset e).arrived, held with
  | some n, _ => n
  | none, q :: _ => q.1
  | none, [] => 0

/-- `ELEMENT_DISTANCE_FAULT` (R344): EC exceeds SPMAX; the record carries cause 0x2C (log 44, DEDUCED). -/
def execElementDistanceFault (p e : Nat) (s : State) : Ans :=
  let c := s.core p
  let x := s.elem p e
  match x.act with
  | none => go s
  | some g =>
    if g.min = 0 || x.ec.toNat ≤ c.spmax.toNat then go s
    else
      let port := if 0 < x.markers then (x.missing.getD 0) else c.oldest e
      go ((s.modElem p e fun x => { x with ec := 0 }).putBoth p
        ⟨recW0 9 0x2C 0 e (port / 2) (port % 2) g.ctx.toNat 0 0 c.vcnNum,
          poisonValue 0x2C p e (port / 2) &&& 0x3FFFFFF, poisonValue 0x2C p e (port / 2), 0⟩)

end Sys2Proof.Machine
end

