-- ==== Sys2Proof/Machine/Image.lean ====
section
/-!
DEFINITION. Forrel images and the configuration loader (R31, R169, R185, R191, R193 to R199, R343).
-/
namespace Sys2Proof.Machine

open Sys2Proof

/-! ## The header (R193) -/

/-- LEN of a header. -/
def imgLen (h : List Word) : Nat := (((nth h 0).getD 0).extractLsb' 0 32).toNat
/-- CTX. -/
def imgCtx (h : List Word) : BitVec 4 := ((nth h 0).getD 0).extractLsb' 36 4
/-- NREC. -/
def imgNrec (h : List Word) : Nat := (((nth h 1).getD 0).extractLsb' 48 8).toNat
/-- NDELTA. -/
def imgNdelta (h : List Word) : Nat := (((nth h 1).getD 0).extractLsb' 32 16).toNat
/-- SPTOFF. -/
def imgSptoff (h : List Word) : Nat := (((nth h 1).getD 0).extractLsb' 16 16).toNat
/-- NSPT. -/
def imgNspt (h : List Word) : Nat := (((nth h 1).getD 0).extractLsb' 0 16).toNat
/-- The four entry points, each laid out as a target. -/
def imgEnts (h : List Word) : List (BitVec 13) := (range 0 4).map fun i => ((nth h 2).getD 0).extractLsb' (13 * i) 13

/-- The header keeps its format rules (R193; an entry point with V = 0 is reserved by R27) (log 50, DEDUCED). -/
def headerOk (h : List Word) : Bool :=
  let f := fun i => (nth h i).getD 0
  let need := (32 + 352 * imgNrec h + 16 * imgNdelta h + 31) / 32 * 32
  let gdepth := ((f 3).extractLsb' 0 8).toNat
  (f 0).extractLsb' 48 16 == 0xF0E7 && (f 0).extractLsb' 40 8 == 1 && (f 0).extractLsb' 32 2 == 0 && (f 1).extractLsb' 56 8 == 0 &&
    (f 2).extractLsb' 52 12 == 0 && (f 3).extractLsb' 8 56 == 0 && 1 ≤ imgNrec h && imgNrec h ≤ 64 && 1 ≤ gdepth && gdepth ≤ 64 &&
    imgNdelta h ≤ 4096 && imgLen h % 32 == 0 && (imgSptoff h != 0 || imgNspt h == 0) && imgNspt h ≤ 64 &&
    anyOf (imgEnts h) tgtV && allOf (imgEnts h) (fun t => tgtV t || t == 0) && need ≤ imgLen h &&
    (imgSptoff h == 0 || 32 * imgSptoff h + 32 * imgNspt h ≤ imgLen h)

/-! ## Records and delta entries (R194, R195) -/

/-- The words of one element before the checks. -/
structure RawElem where
  e0 : Word
  e1 : Word
  e2 : Word
  e3 : Word
  slotv : BitVec 32
  k : Map Word
  slots : Map Word
  deriving DecidableEq, Repr

/-- An element's words and every failure found: element, slot (none: the whole element), code. -/
abbrev Fail : Type := Nat × Option Nat × Nat

/-- Word i of an image. -/
def imgWord (x i : Nat) : Word := BitVec.ofNat 64 (x / 2 ^ (64 * i))

/-- The element record at word i (R194). -/
def recordAt (x i : Nat) : RawElem :=
  let e0 := imgWord x i
  ⟨e0, imgWord x (i + 1), imgWord x (i + 2), imgWord x (i + 3), e0.extractLsb' 0 32,
    (range 0 8).map fun j => (j, imgWord x (i + 4 + j)), (range 0 32).map fun j => (j, imgWord x (i + 12 + j))⟩

/-- A record covers element e. -/
def RawElem.covers (r : RawElem) (e : Nat) : Bool := r.e0.getLsbD (56 + e / 8) && r.e0.getLsbD (48 + e % 8)

/-- The covered elements: the last record that covers an element is used whole (R194). -/
def imgRecords (x n : Nat) : Map RawElem :=
  each (range 0 n) (fun i m =>
    let r := recordAt x (4 + 44 * i)
    each (range 0 64) (fun e m => if r.covers e then Map.put m e r else m) m) []

/-- One delta entry applied, or its failure (R195, R196). -/
def applyDelta (w0 w1 : Word) (m : Map RawElem × List Fail) : Map RawElem × List Fail :=
  let kind := (w0.extractLsb' 62 2).toNat
  let e := (w0.extractLsb' 56 6).toNat
  let idx := (w0.extractLsb' 51 5).toNat
  let sv := w0.getLsbD 50
  match Map.find m.1 e with
  | none => (m.1, m.2 ++ [(e, none, 7)])
  | some r =>
    if kind = 3 || w0.extractLsb' 0 50 != 0 || (kind == 1 && 7 < idx) || (kind != 0 && sv) || (kind == 2 && idx != 0) then
      (m.1, m.2 ++ [(e, none, 7)])
    else
      (Map.put m.1 e (match kind with
        | 0 => { r with slots := Map.put r.slots idx w1
                        slotv := if sv then r.slotv ||| (1#32 <<< idx) else r.slotv &&& ~~~(1#32 <<< idx) }
        | 1 => { r with k := Map.put r.k idx w1 }
        | _ => { r with e1 := w1 }), m.2)

/-- The patched elements of an image. -/
def imgElems (x : Nat) (h : List Word) : Map RawElem × List Fail :=
  let base := 4 + 44 * imgNrec h
  each (range 0 (imgNdelta h)) (fun i m => applyDelta (imgWord x (base + 2 * i)) (imgWord x (base + 2 * i + 1)) m) (imgRecords x (imgNrec h), [])

/-- The safe-point table (R343): P1 by element, and the failures. -/
def imgSpt (x : Nat) (h : List Word) (m : Map RawElem) : Map Word × List Fail :=
  if imgSptoff h = 0 then ([], [])
  else
    each (range 0 (imgNspt h)) (fun i (r : Map Word × List Fail) =>
      let f := fun j => imgWord x (4 * imgSptoff h + 4 * i + j)
      let e := ((f 0).extractLsb' 0 6).toNat
      if f 0 >>> 6 != 0 || f 1 >>> 29 != 0 || f 2 != 0 || f 3 != 0 || (Map.find m e).isNone || (Map.find r.1 e).isSome then
        (r.1, r.2 ++ [(e, none, 7)])
      else (Map.put r.1 e (f 1), r.2)) ([], [])

/-! ## The checks on a slot (R26 to R31, R182, R184, R191, R219, R238) -/

/-- The rounding group of an OP below 0x068. -/
def groupOf (op : Nat) : Nat := op / 8

/-- Operations of one operand: SB is none (R219). -/
def oneOperand (op : Nat) : Bool :=
  (0x40 ≤ op && op < 0x58) || op == 0x082 || op == 0x083 || op == 0x096 || op == 0x106 || op == 0x107 || op == 0x111 ||
    (0x140 ≤ op && op < 0x14C) || op == 0x14E

/-- A scalar source that operand modes of R219 permit. -/
def scalarMode (m : Nat) : Bool := m ≤ 3 || m == 6
/-- A source in a vector role: direct, by reference, or a broadcast (R229). -/
def vectorMode (m : Nat) : Bool := m ≤ 6
/-- A vector destination: direct or by reference (R230). -/
def destMode (m : Nat) : Bool := m == 0 || m == 4 || m == 5

/-- SA permitted by the operation's entry. -/
def modeA (op m : Nat) : Bool :=
  if (0x20 ≤ op && op < 0x40) || (0x58 ≤ op && op < 0x60) || op == 0x0A0 || op == 0x0A1 || op == 0x0A2 || op == 0x0A3 then destMode m
  else if (0x40 ≤ op && op < 0x48) || op == 0x0A4 then vectorMode m
  else if op == 0x103 then m == 1 || m == 2 || m == 3
  else if op == 0x14C then m == 0 || m == 4
  else if op == 0x14D then m == 0 || m == 5
  else if op == 0x0B1 || (0x100 ≤ op && op ≤ 0x107) || op == 0x110 || (0x140 ≤ op && op ≤ 0x14E) || 0x160 ≤ op then m == 0
  else scalarMode m

/-- SB permitted by the operation's entry. -/
def modeB (op m : Nat) : Bool :=
  if oneOperand op then m == 7
  else if (0x20 ≤ op && op < 0x40) || (0x58 ≤ op && op < 0x60) || op == 0x0A0 || op == 0x0A1 || op == 0x0A2 then vectorMode m
  else if op == 0x0A4 || op == 0x095 then scalarMode m || m == 7
  else if op == 0x0B1 || op == 0x101 || op == 0x102 then m == 0
  else if op == 0x103 then m == 2 || m == 7
  else if op == 0x104 then m == 3 || m == 7
  else if op == 0x113 then m == 4 || m == 5
  else if op == 0x114 then destMode m
  else scalarMode m

/-- An extension operation (R28). -/
def extension (op : Nat) : Bool :=
  (0x48 ≤ op && op < 0x68) || op == 0x098 || (0x0A2 ≤ op && op ≤ 0x0A4) || (0x140 ≤ op && op ≤ 0x14E) || op == 0x160 || op == 0x161

/-- The IMM bits an extension operation may set (R28, R238). -/
def immMask (op : Nat) : BitVec 10 :=
  if (0x48 ≤ op && op < 0x68) || op == 0x098 then 7
  else if 0x0A2 ≤ op && op ≤ 0x0A4 then 31
  else if 0x140 ≤ op && op < 0x148 then 0xFF
  else if 0x148 ≤ op && op < 0x14C then 7
  else if op == 0x14C then 0x7F
  else if op == 0x14D then 0
  else if op == 0x14E then 1
  else 15

/-- The types that an operation permits, by code (R29); none for "none". -/
def typesOf (op : Nat) : Option (List Nat) :=
  let six := [0, 1, 2, 3, 4, 5]
  let vec := [0, 3, 4, 5]
  let int3 := [0, 1, 2]
  if op < 0x20 then some six
  else if op < 0x48 then some vec
  else if op < 0x60 then some [0, 1, 2, 3, 4, 5, 6, 7]
  else if op < 0x68 then some [4, 5, 6, 7]
  else if op == 0x080 || op == 0x081 || (0x090 ≤ op && op ≤ 0x093) then some six
  else if op == 0x082 || op == 0x083 then some [0, 2, 3, 4, 5]
  else if (0x084 ≤ op && op ≤ 0x089) || op == 0x096 || op == 0x097 then some int3
  else if op == 0x094 || op == 0x095 || (0x0B0 ≤ op && op ≤ 0x0B2) then some [0, 1, 2, 3, 4, 5, 6, 7]
  else if op == 0x098 then some [3, 4, 5]
  else if op == 0x0A0 || op == 0x0A1 then some vec
  else if 0x0A2 ≤ op && op ≤ 0x0A4 then some [0, 1, 3]
  else if 0x100 ≤ op && op ≤ 0x102 then some [0, 2]
  else if op == 0x113 || op == 0x114 then some vec
  else if (0x110 ≤ op && op ≤ 0x112) || (0x118 ≤ op && op ≤ 0x11C) then some six
  else if 0x120 ≤ op && op ≤ 0x127 then some int3
  else if op == 0x128 then some [3]
  else none

/-- Codes 0x02 that concern one slot's fields. -/
def reservedSlot (op : Nat) (w : EW) : Bool :=
  let imm := w.sa == 3 || w.sb == 3
  6 < w.tg.toNat || (!tgtV w.t0 && w.t0 != 0) || (!tgtV w.t1 && w.t1 != 0) ||
    (if extension op then w.imm &&& ~~~(immMask op) != 0 else !imm && w.imm != 0) ||
    (op == 0x104 && w.sb == 3 && w.imm != 1) || (op == 0x0A2 && w.sb != 4 && w.sb != 5 && w.imm.extractLsb' 0 5 != 0) ||
    (0x148 ≤ op && op < 0x14B && w.imm.extractLsb' 0 2 != 0) || (op == 0x14B && w.imm.getLsbD 0)

/-- A source index that R26 forbids. -/
def badIndex (sel idx : BitVec 3) : Bool :=
  if sel == 5 then 3 < idx.toNat else (sel == 0 || sel == 3 || sel == 6 || sel == 7) && idx != 0

/-- Codes 0x03: source modes, indexes, immediates of extension operations, a slot that consumes no port, acc in another type. -/
def badSources (op : Nat) (w : EW) : Bool :=
  !modeA op w.sa.toNat || !modeB op w.sb.toNat || badIndex w.sa w.ai || badIndex w.sb w.bi ||
    (extension op && (w.sa == 3 || w.sb == 3)) || (w.sa != 0 && w.sb != 0 && op != 0x103) || (w.tg == 5 && w.sb == 7) ||
    ((w.sa == 5 || w.sb == 5) && w.ty != 3 && op != 0x14D) || (op == 0x14C && w.sa == 4 && w.ai == 7)

/-- Codes 0x04: the type, and the source type in IMM. -/
def badType (op : Nat) (w : EW) : Bool :=
  (match typesOf op with
    | some l => !hasNat l w.ty.toNat
    | none => w.ty != 2) ||
  ((0x58 ≤ op && op < 0x60) && (w.ty == 2 || w.imm.extractLsb' 0 3 == 2)) || (op == 0x098 && (w.imm.extractLsb' 0 3).toNat < 4)

/-- Code 0x05: an operation that FEAT0 does not accept (R14). -/
def notAccepted (op : Nat) (feat : Word) : Bool :=
  (op < 0x68 && op % 8 == 4 && !feat.getLsbD 3) ||
    (0x140 ≤ op && op < 0x14C && !feat.getLsbD (match op % 4 with | 0 => 0 | 3 => 2 | _ => 1)) ||
    (0x162 ≤ op && op ≤ 0x164 && !feat.getLsbD 5)

/-- Code 0x06 of R191: a node outside its column. -/
def badColumn (op e : Nat) : Bool := (memNode op && e % 8 != 0) || (0x160 ≤ op && e % 8 != 7)

/-- A slot that consumes a port in the patched image. A slot whose OP is unassigned consumes none (log 87, DESIGN CHOICE). -/
def imgConsumes (m : Map RawElem) (t : BitVec 13) : Bool :=
  match Map.find m (tgtElem t) with
  | none => false
  | some r =>
    let slot := tgtPort t / 2
    let w := Map.get r.slots 0 slot
    r.slotv.getLsbD slot && (decodeElem w).isSome && takesPort w (tgtPort t % 2)

/-- A target breaks R185 or names an `mdrn` port (R250). -/
def badTarget (m : Map RawElem) (t : BitVec 13) : Bool :=
  let op := match Map.find m (tgtElem t) with | some r => (opOf (Map.get r.slots 0 (tgtPort t / 2))).toNat | none => 0
  tgtV t && (!imgConsumes m t || (0x148 ≤ op && op < 0x14C))

/-- An earlier active slot of the element is also an `mdrn` (R250). -/
def secondMdrn (r : RawElem) (slot : Nat) : Bool :=
  let is := fun i => r.slotv.getLsbD i && 0x148 ≤ (opOf (Map.get r.slots 0 i)).toNat && (opOf (Map.get r.slots 0 i)).toNat < 0x14C
  is slot && anyOf (range 0 slot) is

/-- The lowest code that applies to an active slot, if any (R31, R196). -/
def slotCode (m : Map RawElem) (sl : Bool) (feat : Word) (e : Nat) (r : RawElem) (slot : Nat) : Option Nat :=
  let word := Map.get r.slots 0 slot
  let w := ewOf word
  let op := (opOf word).toNat
  if (decodeElem word).isNone then some 1
  else if reservedSlot op w then some 2
  else if badSources op w then some 3
  else if badType op w then some 4
  else if notAccepted op feat then some 5
  else if badColumn op e || badTarget m w.t0 || badTarget m w.t1 || secondMdrn r slot then some 6
  else if (sl && 0x0B0 ≤ op && op ≤ 0x0B2) || ((op == 0x160 || op == 0x161) && 8 ≤ (w.imm.extractLsb' 0 4).toNat) then some 7
  else none

/-- Whole-element failures of R196 on E1 and E3 (log 51, DEDUCED). -/
def elemCode (r : RawElem) : Option Nat :=
  let tin := (r.e1.extractLsb' 0 7).toNat
  if r.e1.extractLsb' 15 49 != 0 || r.e1.getLsbD 7 || r.e3 != 0 then some 2
  else if tin = 0 || 64 < tin || 64 < (r.e1.extractLsb' 8 7).toNat then some 7
  else none

/-- One whole-element record per element, with its lowest code (R196) (log 51, DEDUCED). -/
def mergeFails (l : List Fail) : Map Nat :=
  each l (fun f m => match f.2.1 with
    | none => Map.put m f.1 (min f.2.2 (Map.get m f.2.2 f.1))
    | some _ => m) []

/-- Every failure of an image at a core: whole-element records, then slot records. -/
def Core.imageFails (c : Core) (x : Nat) (h : List Word) : List (Nat × Nat × Nat) :=
  let (m, bad) := imgElems x h
  let bad := bad ++ (imgSpt x h m).2
  let foreign := keep (range 0 64) fun e => (Map.find m e).isNone &&
    (let y := Map.get c.elems Elem.reset e
     (match y.act with | some g => g.ctx == imgCtx h | none => false) || (match y.sh with | some g => g.ctx == imgCtx h | none => false))
  let ents := keep (imgEnts h) fun t => tgtV t && !imgConsumes m t
  let bad : List Fail := bad ++ foreign.map (fun e => (e, none, 7)) ++ ents.map (fun t => (tgtElem t, none, 7)) ++
    (m.map fun r => match elemCode r.2 with | some k => [(r.1, none, k)] | none => []).flatten
  let slots := (m.map fun r => ((range 0 32).map fun i =>
    if r.2.slotv.getLsbD i then
      (match slotCode m (((nth h 0).getD 0).getLsbD 35) c.feat r.1 r.2 i with | some k => [(r.1, i, k)] | none => [])
    else []).flatten).flatten
  ((mergeFails bad).map fun r => (r.1, 0, r.2)) ++ slots

/-- The image of an element as its bank holds it (R180, R194). -/
def bankOfRaw (h : List Word) (spt : Map Word) (e : Nat) (r : RawElem) : EImage where
  ctx := imgCtx h
  mx := ((nth h 0).getD 0).getLsbD 34
  slotv := r.slotv
  slots := keep r.slots fun w => r.slotv.getLsbD w.1
  k := r.k
  rbid := r.e0.extractLsb' 40 8
  cbid := r.e0.extractLsb' 32 8
  min := (r.e1.extractLsb' 8 7).toNat
  tin := (r.e1.extractLsb' 0 7).toNat
  back := r.e2
  ents := (keep (imgEnts h) fun t => tgtV t && tgtElem t == e).map tgtPort
  live := Map.find spt e
  hasSpt := imgSptoff h != 0

/-! ## The loader (R169, R196, R199) -/

/-- A context has an image that is active, in a shadow bank or waiting (R133). -/
def Core.ctxKnown (c : Core) (ctx : Nat) : Bool :=
  let is := fun (g : Option EImage) => match g with | some g => g.ctx.toNat == ctx | none => false
  anyOf c.elems (fun e => is e.2.act || is e.2.sh) || anyOf c.cfgq fun q => (imgCtx q.hdr).toNat == ctx

/-- Commands bound to a context whose only image was rejected run as unbound commands (R133). -/
def Core.unbind (c : Core) (ctx : Nat) : Core :=
  let f := fun (q : Cmd) => if q.bound = some ctx then { q with word := q.word &&& ~~~(0x1F#64 <<< 16) } else q
  if c.ctxKnown ctx then c
  else { c with engines := c.engines.map fun e => (e.1, ⟨e.2.queue.map f, e.2.runs.map fun r => { r with cmd := f r.cmd }⟩) }

/-- The bytes of an image read as a configuration fetch. -/
def State.imageBytes (s : State) (p va n : Nat) : State × Got :=
  match s.checkSpan p va n .fetch 1 anyClass with
  | (s, .ok l) => s.loadParts p l
  | (s, _) => (s, .stall)

/-- `CONFIG_IMAGE_LOAD` (R31, R196, R199): the image at the head of the queue is rejected with its records, or written into the shadow banks
once all of them are free; elements with no active configuration flip at once (log 47, DEDUCED). -/
def execConfigImageLoad (p : Nat) (s : State) : Ans :=
  let c := s.core p
  match c.cfgq with
  | [] => go s
  | q :: rest =>
    match s.imageBytes p q.va (imgLen q.hdr) with
    | (s', .ok x) =>
      let els := (imgElems x q.hdr).1
      if c.stalled (fun r => r.unit == 6) || anyOf els (fun r => (Map.get c.elems Elem.reset r.1).sh.isSome) then go s
      else
        let c := s'.core p
        match c.imageFails x q.hdr with
        | [] =>
          let spt := (imgSpt x q.hdr els).1
          let s := s'.setCore p { c with cfgq := rest }
          let s := each els (fun r s => s.modElem p r.1 fun y => { y with sh := some (bankOfRaw q.hdr spt r.1 r.2) }) s
          go (each els (fun r s => if (s.elem p r.1).act.isNone then s.flip p r.1 else s) s)
        | l =>
          let s := each l (fun (r : Nat × Nat × Nat) s =>
            s.putBoth p ⟨recW0 7 r.2.2 0 r.1 r.2.1 0 (imgCtx q.hdr).toNat 6 0 c.vcnNum, BitVec.ofNat 64 q.va, 0, 0⟩) s'
          go (s.modCore p fun c => { c with cfgq := rest }.unbind (imgCtx q.hdr).toNat)
    | _ => go s

end Sys2Proof.Machine
end

