-- ==== Sys2Proof/Machine/ElemArith.lean ====
section
/-!
DEFINITION. The scalar element operations: arithmetic and logic (R225), compares, `sel` and `mov` (R226), conversion and packing (R227,
R228).
-/
namespace Sys2Proof.Machine

open Sys2Proof

/-! ## Results -/

/-- The take of this firing's rounding (R214). -/
def Fx.take (f : Fx) : Nat := f.x.lfsr.toNat
/-- Takes of a scalar operation in a rounding mode: one under SR (R214). -/
def takesOf (rm : BitVec 3) : Nat := if rm = 4 then 1 else 0

/-- The write-back of R223 to e[AI] when SA selects it, cleared at once when the operation flushes and the match holds L = 1. -/
def Fx.writeBack (f : Fx) (flush : Bool) (v : Word) (x : Elem) : Elem :=
  if f.w.sa = 1 then { x with e := Map.put x.e f.w.ai.toNat (if flush && f.m.flag Token.l then 0 else v) } else x

/-- A value on both targets. -/
def Fx.value (f : Fx) (v : Word) : Fire := Fire.emit (f.both v)
/-- A value on both targets, written back (R223). -/
def Fx.valueBack (f : Fx) (flush : Bool) (takes : Nat) (v : Word) : Fire := ⟨f.both v, f.writeBack flush v, takes, none⟩

/-- A two-operand operation on typed bits, written back (R223, R225). -/
def binary (w : EW) (flush : Bool) (takes : Nat) (g : Fx → Nat → Nat → Nat) (s : State) : Ans :=
  plainOp w (fun f => f.valueBack flush takes (writeTy f.ty (g f f.opA f.opB))) s
/-- A one-operand operation on typed bits. -/
def unary (w : EW) (g : Nat → Nat → Nat) (s : State) : Ans := plainOp w (fun f => f.value (writeTy f.ty (g f.ty f.opA))) s

/-! ## Arithmetic and logic (R225) -/

/-- Integer arithmetic wraps; floats round once (R207, R211). -/
def arith (int : Int → Int → Int) (flt : Fmt → Nat → Nat → Nat) (f : Fx) (a b : Nat) : Nat :=
  if isInt f.ty then wrapInt f.ty (int (intOf f.ty a) (intOf f.ty b)) else flt (fmtOf f.ty) a b

/-- `add` (R225). -/
def execEAdd (rm : BitVec 3) (w : EW) (s : State) : Ans :=
  binary w true (takesOf rm) (fun f a b => arith (· + ·) (fun t => t.add rm.toNat f.take) f a b) s
/-- `sub` (R225). -/
def execESub (rm : BitVec 3) (w : EW) (s : State) : Ans :=
  binary w true (takesOf rm) (fun f a b => arith (· - ·) (fun t => t.sub rm.toNat f.take) f a b) s
/-- `mul` (R225). -/
def execEMul (rm : BitVec 3) (w : EW) (s : State) : Ans :=
  binary w true (takesOf rm) (fun f a b => arith (· * ·) (fun t => t.mul rm.toNat f.take) f a b) s

/-- A × B + e7 at the slot's type. -/
def Fx.madValue (f : Fx) (rm : BitVec 3) : Word :=
  let c := readTy f.ty (f.x.ereg 7).toNat
  writeTy f.ty (if isInt f.ty then wrapInt f.ty (intOf f.ty f.opA * intOf f.ty f.opB + intOf f.ty c)
    else (fmtOf f.ty).fma rm.toNat f.take f.opA f.opB c)

/-- `mad` (R225): e7 takes the result, and is cleared after a match with L = 1 (R223). -/
def execEMad (rm : BitVec 3) (w : EW) (s : State) : Ans :=
  plainOp w (fun f =>
    let v := f.madValue rm
    ⟨f.both v, fun x => { x with e := Map.put x.e 7 (if f.m.flag Token.l then 0 else v) }, takesOf rm, none⟩) s

/-- The smaller of two typed values (R207, R225). -/
def minTy (ty a b : Nat) : Nat := if isInt ty then (if intOf ty a ≤ intOf ty b then a else b) else (fmtOf ty).min a b
/-- The larger of two typed values. -/
def maxTy (ty a b : Nat) : Nat := if isInt ty then (if intOf ty a ≤ intOf ty b then b else a) else (fmtOf ty).max a b

/-- `min` (R225). -/
def execEMin (w : EW) (s : State) : Ans := binary w true 0 (fun f a b => minTy f.ty a b) s
/-- `max` (R225). -/
def execEMax (w : EW) (s : State) : Ans := binary w true 0 (fun f a b => maxTy f.ty a b) s

/-- A floating code with its sign replaced; NaN becomes canonical (R225). -/
def signTo (t : Fmt) (neg : Bool) (a : Nat) : Nat := if t.read a = .nan then t.nan else t.signed neg (a % t.signBit)

/-- `abs` at a type (R225). -/
def absTy (ty a : Nat) : Nat := if isInt ty then wrapInt ty (intOf ty a).natAbs else signTo (fmtOf ty) false a
/-- `neg` at a type. -/
def negTy (ty a : Nat) : Nat := if isInt ty then wrapInt ty (-(intOf ty a)) else signTo (fmtOf ty) (!a.testBit ((fmtOf ty).eb + (fmtOf ty).mb)) a

/-- `abs` (R225). -/
def execEAbs (w : EW) (s : State) : Ans := unary w absTy s
/-- `neg` (R225). -/
def execENeg (w : EW) (s : State) : Ans := unary w negTy s
/-- `and` (R225). -/
def execEAnd (w : EW) (s : State) : Ans := binary w true 0 (fun _ a b => a &&& b) s
/-- `or` (R225). -/
def execEOr (w : EW) (s : State) : Ans := binary w true 0 (fun _ a b => a ||| b) s
/-- `xor` (R225). -/
def execEXor (w : EW) (s : State) : Ans := binary w true 0 (fun _ a b => a ^^^ b) s

/-- The shift amount: B[4:0] for 32-bit types, B[5:0] for i64 (R225). -/
def shiftBy (ty b : Nat) : Nat := if ty = 2 then b % 64 else b % 32
/-- A shift right with copies of the top bit at the type's width; of an n32 value too, whose sign bit the spec does not name (log 85, DESIGN CHOICE). -/
def sarTy (ty a n : Nat) : Nat :=
  if ty = 2 then ((BitVec.ofNat 64 a).sshiftRight n).toNat else ((BitVec.ofNat 32 a).sshiftRight n).toNat

/-- `shl` (R225). -/
def execEShl (w : EW) (s : State) : Ans := binary w false 0 (fun f a b => readTy f.ty (a <<< shiftBy f.ty b)) s
/-- `shr` (R225). -/
def execEShr (w : EW) (s : State) : Ans := binary w false 0 (fun f a b => a >>> shiftBy f.ty b) s
/-- `sar` (R225). -/
def execESar (w : EW) (s : State) : Ans := binary w false 0 (fun f a b => sarTy f.ty a (shiftBy f.ty b)) s

/-- Leading zero bits of a at a width. -/
def clzOf (width a : Nat) : Nat := if a = 0 then width else width - 1 - Nat.log2 a

/-- `clz` (R225). -/
def execEClz (w : EW) (s : State) : Ans := unary w (fun ty a => clzOf (widthOf ty) a) s

/-- The field of `ext` (R225): position b[5:0], width b[11:6] with 0 as 64; sign-extended for i32 and i64. -/
def extTy (ty a b : Nat) : Nat :=
  let wd := if bits b 11 6 = 0 then 64 else bits b 11 6
  let x := (a >>> (b % 64)) % 2 ^ wd
  if ty = 1 then readTy ty x else wrapInt ty (if x.testBit (wd - 1) then (x : Int) - 2 ^ wd else x)

/-- `ext` (R225). B is read as a 64-bit value. -/
def execEExt (w : EW) (s : State) : Ans := binary w false 0 (fun f a _ => extTy f.ty a f.rawB.toNat) s

/-! ## Compares, `sel` and `mov` (R226) -/

/-- Equality, less than and unordered of typed values: a NaN operand is unordered (R207). -/
def cmpTy (ty a b : Nat) : Bool × Bool :=
  if isInt ty then (intOf ty a == intOf ty b, decide (intOf ty a < intOf ty b))
  else ((valueOf ty a).eq (valueOf ty b), (valueOf ty a).lt (valueOf ty b))

/-- A compare: VALUE 1 or 0, 64-bit. -/
def compare (w : EW) (g : Bool × Bool → Bool) (s : State) : Ans :=
  plainOp w (fun f => f.value (if g (cmpTy f.ty f.opA f.opB) then 1 else 0)) s

/-- `ceq` (R226). -/
def execECeq (w : EW) (s : State) : Ans := compare w (fun r => r.1) s
/-- `cne` (R226): true with a NaN. -/
def execECne (w : EW) (s : State) : Ans := compare w (fun r => !r.1) s
/-- `clt` (R226). -/
def execEClt (w : EW) (s : State) : Ans := compare w (fun r => r.2) s
/-- `cle` (R226). -/
def execECle (w : EW) (s : State) : Ans := compare w (fun r => r.1 || r.2) s

/-- `sel` (R226): the predicate is B's whole 64-bit VALUE. -/
def execESel (w : EW) (s : State) : Ans := plainOp w (fun f => f.value (if f.rawB != 0 then writeTy f.ty f.opA else 0)) s

/-- `mov` (R226): B when SB is not none, else A; the bits are copied. -/
def execEMov (w : EW) (s : State) : Ans := plainOp w (fun f => f.valueBack false 0 (writeTy f.ty (if f.noB then f.opA else f.opB))) s

/-! ## Conversion and packing (R227, R228) -/

/-- Operand A of a conversion, read at the source type of IMM[2:0]. -/
def Fx.srcA (f : Fx) : Nat := readTy f.srcTy f.rawA.toNat
/-- Operand B read at the source type. -/
def Fx.srcB (f : Fx) : Nat := readTy f.srcTy f.rawB.toNat

/-- `cvt` (R227): poison goes to T0 only. -/
def execECvt (rm : BitVec 3) (w : EW) (s : State) : Ans :=
  fires s (s.firePlain w (fun f =>
    ⟨[(0, f.token (writeTy f.ty (convert f.srcTy f.ty rm.toNat f.take f.srcA).1))], id, takesOf rm, none⟩) fun f v => f.poisonOn [0] v)

/-- `cvts` (R227): an overflow also emits A's VALUE unchanged on T1. -/
def execECvts (rm : BitVec 3) (w : EW) (s : State) : Ans :=
  fires s (s.firePlain w (fun f =>
    let r := convert f.srcTy f.ty rm.toNat f.take f.srcA
    ⟨(0, f.token (writeTy f.ty r.1)) :: (if r.2 then [(1, f.token f.rawA)] else []), id, takesOf rm, none⟩) fun f v => f.poisonOn [0] v)

/-- `pack` (R228): the whole 64-bit word is emitted and written back. -/
def execEPack (rm : BitVec 3) (w : EW) (s : State) : Ans :=
  plainOp w (fun f =>
    let c := (convert f.srcTy f.ty rm.toNat f.take f.srcB).1
    let wd := widthOf f.ty
    f.valueBack true (takesOf rm) ((BitVec.ofNat 64 c <<< (64 - wd)) ||| (f.rawA >>> wd))) s

/-- `unpack` (R228): value B mod n of the packed word A, converted under RNE. -/
def execEUnpack (w : EW) (s : State) : Ans :=
  plainOp w (fun f =>
    let wd := widthOf f.srcTy
    let j := f.rawB.toNat % (64 / wd)
    f.value (writeTy f.ty (convert f.srcTy f.ty 0 0 ((f.rawA.toNat >>> (wd * j)) % 2 ^ wd)).1)) s

end Sys2Proof.Machine
end

