-- ==== Sys2Proof/Machine/ElemTime.lean ====
section
/-!
DEFINITION. Path and time instructions of the elements (R232 to R237).
-/
namespace Sys2Proof.Machine

open Sys2Proof

/-! ## Paths (R232 to R234) -/

/-- A token's PATH replaced. -/
def Token.withPath (t : Token) (q : BitVec 11) : Token := { t with path := q }

/-- The targets and bit of a predicate (R232). -/
def armOf (b : Word) : Nat × Bool := if b != 0 then (0, true) else (1, false)

/-- `steer` (R232): A is read and written at the bits of TY (R219, R220), and B is a whole VALUE; poison on a poison predicate goes to T0 with bit 1, poison on A follows the predicate; at LEN = 7 poison keeps its
path, and other tokens fail with cause 0x23 on the chosen target. -/
def execESteer (w : EW) (s : State) : Ans :=
  let push := fun (t : Token) b => if pathLen t.path = 7 then t else t.withPath (pathPush t.path b)
  fires s (s.firePlain w (fun f =>
    let arm := armOf f.rawB
    if pathLen f.m.tag.path = 7 then Fire.failOn 0x23 arm.1
    else Fire.emit [(arm.1, (f.token (writeTy f.ty f.opA)).withPath (pathPush f.m.tag.path arm.2))]) fun f v =>
      let badB := match f.m.b with | some b => b.p | none => false
      let arm := if badB then (0, true) else armOf f.rawB
      [(arm.1, push (f.poison v) arm.2)])

/-- `merge` (R233): a token at either port, with its path popped; port a needs the top bit 1, port b the top bit 0. -/
def execEMerge (w : EW) (s : State) : Ans :=
  fires s (s.firePlain w (fun f =>
    let q := f.m.tag.path
    if pathLen q = 0 || pathTop q != f.m.a.isSome then Fire.fail 0x24
    else Fire.emit [(0, (f.token f.m.tag.value).withPath (pathPop q))]) fun f v =>
      let t := f.poison v
      [(0, if pathLen t.path = 0 then t else t.withPath (pathPop t.path))])

/-- `gate` (R234): A at the bits of TY, by B's whole VALUE; poison goes to T0. -/
def execEGate (w : EW) (s : State) : Ans :=
  fires s (s.firePlain w (fun f => Fire.emit [((armOf f.rawB).1, f.token (writeTy f.ty f.opA))]) fun f v => f.poisonOn [0] v)

/-! ## Times (R235 to R237) -/

/-- `tjn` (R235): the DIFF product that saturates writes the overflow token on T1. -/
def execETjn (w : EW) (s : State) : Ans :=
  plainOp w (fun f =>
    let b := f.rawB
    if !timeOk b then Fire.fail 0x22
    else
      let prod := f.diffA * f.diffB
      let d := satInt prod 32
      let t := tJoin f.m.tag.time b
      Fire.emit ((0, { f.token f.rawA with time := t, diff := BitVec.ofInt 32 d }) ::
        (if prod ≠ d then [(1, { f.token (BitVec.ofInt 64 prod) with time := t, diff := 0 })] else []))) s

/-- `tle` (R236). -/
def execETle (w : EW) (s : State) : Ans :=
  plainOp w (fun f => if !timeOk f.rawA || !timeOk f.rawB then Fire.fail 0x22 else f.value (if tLe f.rawA f.rawB then 1 else 0)) s

/-- The field of a time that `tgt` selects (R236). -/
def tgtField (t : Word) (n : Nat) : Word :=
  match n with
  | 0 => BitVec.ofNat 64 (epochOf t)
  | 1 => BitVec.ofNat 64 (ctrOf t 1)
  | 2 => BitVec.ofNat 64 (ctrOf t 2)
  | 3 => BitVec.ofNat 64 (ctrOf t 3)
  | 4 => BitVec.ofNat 64 (depthOf t)
  | _ => t

/-- `tgt` (R236): of two failures the lower cause stands (R222). -/
def execETgt (w : EW) (s : State) : Ans :=
  plainOp w (fun f =>
    if !timeOk f.rawA then Fire.fail 0x22
    else if 5 < f.rawB.toNat then Fire.fail 0x26
    else f.value (tgtField f.rawA f.rawB.toNat)) s

/-- The times of the frontier register of a scope (R13, R224). -/
def Fx.frontier (f : Fx) (n : Nat) : List Word := (Map.get f.fnt ⟨[], 0⟩ n).times

/-- `tadv` (R237). -/
def execETadv (w : EW) (s : State) : Ans :=
  plainOp w (fun f =>
    if !timeOk f.rawA then Fire.fail 0x22
    else if 7 < f.rawB.toNat then Fire.fail 0x26
    else f.value (tAdv f.rawA (f.frontier f.rawB.toNat))) s

/-- `tst` (R237): A goes to T0 when the tag time is complete in scope B, else to T1. -/
def execETst (w : EW) (s : State) : Ans :=
  plainOp w (fun f =>
    if 7 < f.rawB.toNat then Fire.fail 0x26
    else Fire.emit [(if completeIn (f.frontier f.rawB.toNat) f.m.tag.time then 0 else 1, f.token f.rawA)]) s

end Sys2Proof.Machine
end

