-- ==== Sys2Proof/Machine/Nodes.lean ====
section
/-!
DEFINITION. The control nodes (R254 to R261): counters, repeat, `emit`, `sink`, `mark`, `tdn` and `cmpl`.
-/
namespace Sys2Proof.Machine

open Sys2Proof

/-! ## Node state -/

/-- The node state of a slot replaced, or removed. -/
def Elem.setNode (x : Elem) (slot : Nat) (n : Option Node) : Elem :=
  { x with nodes := match n with | some y => Map.put x.nodes slot y | none => Map.del x.nodes slot }

/-- The executing element with the node state of its slot changed. -/
def State.setMyNode (s : State) (n : Option Node) : State := s.modElem s.cur.p s.cur.e fun x => x.setNode s.cur.slot n

/-- A firing that takes no match (R254 to R257): the tokens with the tag operation applied, and the node state after it. A failing tag
operation emits poison with its cause on every valid target (R184). `b` is the VALUE of operand B where that was a port token (log 85, DESIGN CHOICE). -/
def State.fireFree (s : State) (w : EW) (b : Option Word) (l : List (Nat × Token)) (k : State → State) : Option State :=
  let p := s.cur.p
  let e := s.cur.e
  let t := (l.head?.map Prod.snd).getD (Token.blank 0)
  let f := s.fx w ⟨s.cur.slot, some t, b.map fun v => { Token.blank 0 with value := v }⟩
  let outs := match f.tagAll l with
    | .ok q => q
    | .error c => [(0, { t with value := poisonValue c p e s.cur.slot, p := true }), (1, { t with value := poisonValue c p e s.cur.slot, p := true })]
  if s.mayFire p e && (s.elem p e).slotMay s.cur.slot then s.emitFits w outs fun s => (k s).modElem p e fun x => { x with fired := true }
  else none

/-! ## Counters (R254, R255) -/

/-- The run's base token: the start's PATH, DIFF and C, the loop level entered with counter 0 (log 49, DEDUCED). -/
def Fx.runBase (f : Fx) : Token := { f.token 0 with time := enterLoop f.m.tag.time 0, l := false }

/-- The token of index i of a run (log 49, DEDUCED). -/
def CtrRun.index (r : CtrRun) (i : Nat) (v : Word) (l : Bool) : Token :=
  { r.base with value := v, time := setCtr r.base.time (depthOf r.base.time) i, l := l }

/-- The cause with which a start fails (R254): 0x27 for the count, then 0x21 for a tag at depth 3 (log 22, DEDUCED). -/
def startFault (t : Word) (n : Int) : Option Nat := if n < 0 ∨ 1024 < n then some 0x27 else if depthOf t = 3 then some 0x21 else none

/-- `ctr` (R254): a start is taken when no run is in progress (log 22, DEDUCED). -/
def execECtr (w : EW) (s : State) : Ans :=
  fires s (if (Map.find (s.elem s.cur.p s.cur.e).nodes s.cur.slot).isSome then none
    else s.fireNode fun n m =>
      let f := s.fx w m
      match m.poison with
      | some v => s.emitFits w (f.resolvePoison (f.poisonOn [0, 1] v)) fun s => s.consume n
      | none =>
        match startFault m.tag.time f.rawB.toInt with
        | some c => s.emitFits w (f.failOuts c [0, 1]) fun s => s.consume n
        | none => some ((s.consume n).setMyNode (some (.ctr ⟨f.runBase, 0, f.rawB.toInt⟩))))

/-- BND, the run and the waiting poison of a `ctrb` node (R255). -/
def Elem.ctrb (x : Elem) (slot : Nat) : Word × Option CtrRun × List Token :=
  match Map.find x.nodes slot with
  | some (.ctrb b r bad) => (b, r, bad)
  | _ => (0, none, [])

/-- `ctrb` (R255): each start at port a is a match of its own. -/
def execECtrb (w : EW) (s : State) : Ans :=
  let (b, run, bad) := (s.elem s.cur.p s.cur.e).ctrb s.cur.slot
  fires s (if run.isSome then none
    else s.fireNode fun n m =>
      let f := s.fx w m
      match m.poison with
      | some v => s.emitFits w (f.resolvePoison (f.poisonOn [0, 1] v)) fun s => s.consume n
      | none =>
        if depthOf m.tag.time = 3 then s.emitFits w (f.failOuts 0x21 [0, 1]) fun s => s.consume n
        else some ((s.consume n).setMyNode (some (.ctrb b (some ⟨f.runBase, 0, 0⟩) bad))))

/-- A firing that a node may make: its key, the VALUE of operand B (the trip count, BND, or the count of `rpt`), its tokens before the tag operation, and
the node state after it (log 85, DESIGN CHOICE). -/
structure NodeFire where
  key : Nat
  opB : Word
  outs : List (Nat × Token)
  after : Option Node

/-- The next emission of a `ctr` run (R254). -/
def CtrRun.next (r : CtrRun) (slot : Nat) : NodeFire :=
  if (r.i : Int) < r.n then
    let t := r.index r.i (BitVec.ofNat 64 r.i) (decide ((r.i : Int) + 1 = r.n))
    ⟨fireKey t.time slot, BitVec.ofInt 64 r.n, [(0, t)], some (.ctr { r with i := r.i + 1 })⟩
  else
    let t := r.index (r.i - 1) (BitVec.ofInt 64 r.n) true
    ⟨fireKey t.time slot, BitVec.ofInt 64 r.n, [(1, t)], none⟩

/-- The next emission of a `ctrb` run under BND (R255): the test comes before each emission. -/
def CtrRun.nextBound (r : CtrRun) (p e slot : Nat) (b : Word) (bad : List Token) : NodeFire :=
  let n := b.toInt
  if n < 0 ∨ 1024 < n then
    let t := { r.base with time := setDepth r.base.time (depthOf r.base.time - 1), value := poisonValue 0x27 p e slot, p := true }
    ⟨fireKey t.time slot, b, [(1, t)], some (.ctrb b none bad)⟩
  else if n ≤ r.i then
    let t := r.index (r.i - 1) (BitVec.ofNat 64 r.i) true
    ⟨fireKey t.time slot, b, [(1, t)], some (.ctrb b none bad)⟩
  else
    let t := r.index r.i (BitVec.ofNat 64 r.i) (decide ((r.i : Int) + 1 = n))
    ⟨fireKey t.time slot, b, [(0, t)], some (.ctrb b (some { r with i := r.i + 1 }) bad)⟩

/-- The waiting poison with the smallest key, and the rest (R183, R255). -/
def pickBad (slot : Nat) (l : List Token) : Option (Token × List Token) :=
  match l with
  | [] => none
  | t :: r =>
    match pickBad slot r with
    | none => some (t, [])
    | some (u, q) => if fireKey t.time slot ≤ fireKey u.time slot then some (t, r) else some (u, t :: q)

/-- The emissions that a counter slot may make now, in key order. -/
def Elem.counterFires (x : Elem) (p e slot : Nat) : List NodeFire :=
  match Map.find x.nodes slot with
  | some (.ctr r) => [r.next slot]
  | some (.ctrb b run bad) =>
    let a := match run with | some r => [r.nextBound p e slot b bad] | none => []
    match pickBad slot bad with
    | none => a
    | some (t, rest) =>
      let q : NodeFire := ⟨fireKey t.time slot, b, [(1, t)], some (.ctrb b run rest)⟩
      match a with
      | y :: _ => if q.key ≤ y.key then [q, y] else [y, q]
      | [] => [q]
  | _ => []

/-- The first firing of a list that its targets have room for. -/
def State.fireFirst (s : State) (w : EW) (l : List NodeFire) : Option State :=
  match l with
  | [] => none
  | q :: r =>
    match s.fireFree w (some q.opB) q.outs fun s => s.setMyNode q.after with
    | some s => some s
    | none => State.fireFirst s w r

/-- The word of a slot, where it is active. -/
def State.slotWord (s : State) (p e slot : Nat) : EW := ewOf (((s.elem p e).word slot).getD 0)
/-- The state with the agent set to a slot of an element. -/
def State.atSlot (s : State) (p e slot : Nat) : State := { s with cur := { s.cur with p := p, e := e, slot := slot, pick := none } }

/-- `COUNTER_INDEX_EMIT` (R254, R255). -/
def execCounterIndexEmit (p e slot : Nat) (s : State) : Ans :=
  let t := s.atSlot p e slot
  fires s (t.fireFirst (s.slotWord p e slot) ((s.elem p e).counterFires p e slot))

/-- `CTRB_BOUND_ABSORB` (R255): a data or last token sets BND at once; a poison token waits to be passed on T1 at its own tag, at most two of them at a
time (log 84, DESIGN CHOICE). -/
def execCtrbBoundAbsorb (p e slot : Nat) (s : State) : Ans :=
  let x := s.elem p e
  match s.headOf p e slot 1 with
  | none => go s
  | some k =>
    if x.op slot != 0x101 || k.m || k.ctx != x.ctx then go s
    else
      let (b, run, bad) := x.ctrb slot
      let n := if k.p then Node.ctrb b run (bad ++ [k]) else Node.ctrb k.value run bad
      if k.p && 2 ≤ bad.length then go s else go ((s.popHead p e slot 1).modElem p e fun x => x.setNode slot (some n))

/-! ## Repeat (R256) -/

/-- The stream, whether its L token has come, and the run of an `rpt` node. -/
def Elem.rpt (x : Elem) (slot : Nat) : List Token × Bool × Option (Nat × Nat × Nat) :=
  match Map.find x.nodes slot with
  | some (.rpt buf full run _) => (buf, full, run)
  | _ => ([], false, none)

/-- `RPT_TOKEN_ABSORB` (R256): the count is read at the bits of TY (R212); a stream token joins the buffer, a count starts the copies; the failures of R256 empty the buffer and owe
poison on T0 at the token's tag (log 43, DEDUCED). -/
def execRptTokenAbsorb (p e slot port : Nat) (s : State) : Ans :=
  let x := s.elem p e
  match s.headOf p e slot port with
  | none => go s
  | some k =>
    if x.op slot != 0x102 || k.m || k.ctx != x.ctx then go s
    else
      let (buf, full, run) := x.rpt slot
      let w := s.slotWord p e slot
      let take := fun (n : Node) => (s.popHead p e slot port).modElem p e fun x => x.setNode slot (some n)
      let fail := fun (v : Word) => (take (.rpt [] false none [])).owe p e slot w [(0, { k with value := v, p := true })]
      if port = 0 then
        if full || run.isSome then go s
        else if buf.length < 32 then go (take (.rpt (buf ++ [k]) k.l none []))
        else go (fail (poisonValue 0x29 p e slot))
      else if !full || run.isSome then go s
      else if k.p then go (fail k.value)
      else
        let c := intOf w.ty.toNat (readTy w.ty.toNat k.value.toNat)
        if c < 0 ∨ 1024 < c then go (fail (poisonValue 0x27 p e slot))
        else if c = 0 then go (take (.rpt [] false none []))
        else go (take (.rpt buf true (some (c.toNat, 0, 0)) []))

/-- Copy j of repetition r (R256): one loop level entered with counter r; a token at depth 3 gives poison with cause 0x21, and poison there
keeps its origin. -/
def rptCopy (p e slot r : Nat) (k : Token) : Token :=
  if depthOf k.time = 3 then (if k.p then k else { k with value := poisonValue 0x21 p e slot, p := true })
  else { k with time := enterLoop k.time r }

/-- The next copy of a running repeat node: the firing, and the node state after it. -/
def Elem.rptFire (x : Elem) (p e slot : Nat) : Option NodeFire :=
  match x.rpt slot with
  | (buf, true, some (c, r, j)) =>
    match nth buf j with
    | none => none
    | some k =>
      let t := rptCopy p e slot r k
      let after := if j + 1 < buf.length then Node.rpt buf true (some (c, r, j + 1)) []
        else if r + 1 < c then Node.rpt buf true (some (c, r + 1, 0)) [] else Node.rpt [] false none []
      some ⟨fireKey t.time slot, BitVec.ofNat 64 c, [(0, t)], some after⟩
  | _ => none

/-- The next copy of the repeat node at a slot is emitted, when it has one and its target has room. -/
def State.emitCopy (s : State) (w : EW) (p e slot : Nat) : Option State :=
  match (s.elem p e).rptFire p e slot with
  | some q => (s.atSlot p e slot).fireFirst w [q]
  | none => none

/-- `RPT_COPY_EMIT` (R256). -/
def execRptCopyEmit (p e slot : Nat) (s : State) : Ans := fires s (s.emitCopy (s.slotWord p e slot) p e slot)
/-- `rpt` (R256): the firings of the node are its copies. -/
def execERpt (w : EW) (s : State) : Ans := fires s (s.emitCopy w s.cur.p s.cur.e s.cur.slot)

/-! ## Source, sink and record nodes (R257 to R261) -/

/-- The token that `emit` gives (R257): A at time B, or at time 0; a malformed time fails with cause 0x22. -/
def Fx.source0 (f : Fx) : Token :=
  let t := if f.noB then 0 else f.rawB
  let k := Token.blank f.x.ctx
  if timeOk t then { k with value := f.rawA, time := t } else { k with value := poisonValue (f.lowest 0x22) f.p f.e f.slot, p := true }

/-- `emit` (R257): once after each flip, without a token. -/
def execEEmit (w : EW) (s : State) : Ans :=
  let x := s.elem s.cur.p s.cur.e
  fires s (if (Map.find x.nodes s.cur.slot).isSome then none
    else
      let k := (s.fx w ⟨s.cur.slot, none, none⟩).source0
      let put := fun (s : State) => s.setMyNode (some .emitted)
      if k.p then (if s.mayFire s.cur.p s.cur.e && x.slotMay s.cur.slot then s.emitFits w [(0, k), (1, k)] put else none)
      else s.fireFree w none [(0, k), (1, k)] put)

/-- A node that takes one token and emits nothing: poison stops here with its record (R338). -/
def stopNode (w : EW) (act : Fx → State → State) (s : State) : Ans :=
  fires s (s.fireNode fun n m =>
    let p := s.cur.p
    if !(s.core p).eqRoom && m.poison.isSome then none
    else if m.poison.isSome then some ((s.consume n).stopPoison p s.cur.e s.cur.slot m.poisonTok.1 m.poisonTok.2)
    else some (act (s.fx w m) (s.consume n)))

/-- `sink` (R258). -/
def execESink (w : EW) (s : State) : Ans := stopNode w (fun _ s => s) s
/-- `tdn` (R260): the first token starts teardown of the element's own context. -/
def execETdn (w : EW) (s : State) : Ans := stopNode w (fun f s => s.teardown f.p f.x.ctx.toNat) s

/-- The CMPL record of a token (R150, R261). -/
def cmplRec (vcn e slot : Nat) (k : Token) : Rec :=
  ⟨recW0 5 0 0 e slot 0 k.ctx.toNat 0 0 vcn, k.diff.signExtend 64, k.value, k.time⟩

/-- `cmpl` (R261): the match is not ready while the event queue is full. -/
def execECmpl (w : EW) (s : State) : Ans :=
  if (s.core s.cur.p).eqRoom then stopNode w (fun f s => s.putRec f.p (cmplRec (s.core f.p).vcnNum f.e f.slot f.m.tag)) s else go s

/-- `mark` (R259): the token on T0, and, when B's VALUE is not 0, a marker with its TIME and PATH on each target that is no back-edge. -/
def execEMark (w : EW) (s : State) : Ans :=
  fires s (s.fireNode fun n m =>
    let f := s.fx w m
    match m.poison with
    | some v => s.emitFits w (f.resolvePoison (f.poisonOn [0] v)) fun s => s.consume n
    | none =>
      let back := match f.x.act with | some g => g.back | none => 0
      let k := f.token f.rawA
      let mk := { k with value := 0, m := true, l := false, c := false, diff := 1 }
      let marks := if f.rawB != 0 then (keep [0, 1] fun j => !back.getLsbD (2 * f.slot + j)).map fun j => (j, mk) else []
      let r := f.resolve (Fire.emit ((0, k) :: marks))
      s.emitFits w r.1 fun s => s.consume n)

end Sys2Proof.Machine
end

