-- ==== Sys2Proof/Machine/MemNodes.lean ====
section
/-!
DEFINITION. The memory ports and their nodes (R69 to R72, R262 to R269).
-/
namespace Sys2Proof.Machine

open Sys2Proof

/-! ## Ports -/

/-- Memory port M(row) of a core. -/
def Core.port (c : Core) (row : Nat) : Port := Map.get c.ports Port.idle row
/-- A port replaced. -/
def Core.setPort (c : Core) (row : Nat) (x : Port) : Core := { c with ports := Map.put c.ports row x }
/-- A port changed. -/
def State.modPort (s : State) (p row : Nat) (f : Port → Port) : State := s.modCore p fun c => c.setPort row (f (c.port row))

/-- The port can accept an access: neither an access nor a record of its own is held (R69, R151), and fewer than 64 accesses are in flight, their owed
tokens included (R262, log 11, DEDUCED). -/
def State.portRoom (s : State) (p e : Nat) : Bool :=
  let x := (s.core p).port (e / 8)
  x.held.isNone && !(s.core p).elemStalled e && x.accs.length + (s.elem p e).due.length < 64

/-- A record of a missing translation for a held access (R69, R70, R150). -/
def holdRec (vcn e : Nat) (a : PortAcc) (port va : Nat) : Rec :=
  ⟨recW0 4 0x10 0 e a.slot port a.tag.ctx.toNat 0 0 vcn, BitVec.ofNat 64 va, 0, a.tag.time⟩

/-- A record whose destination FDST chooses: the core's event queue, or the host (R70) (log 38, DESIGN CHOICE). -/
def State.faultRec (s : State) (p : Nat) (r : Rec) (toHost : Bool) : State :=
  if toHost then { s with hub := { s.hub with hostRecs := s.hub.hostRecs ++ [r] } } else s.putRec p r

/-- An access is held at its port with its record (R69): the port takes no further token until it has been performed. -/
def State.holdPort (s : State) (p e : Nat) (a : PortAcc) (port fva : Nat) (toHost : Bool) : State :=
  (s.modPort p (e / 8) fun x => { x with held := some a, hport := port, fva := fva, woken := false }).faultRec p (holdRec (s.core p).vcnNum e a port fva) toHost

/-- The bytes of an access by op (R265): 128 for `vld` and `vst`, else those of the type. -/
def portBytes (op ty : Nat) : Nat := if op == 0x113 || op == 0x114 then 128 else widthOf ty / 8
/-- The access kind of an op (R65, R76). -/
def portKind (op : Nat) : AK :=
  if op == 0x112 || op == 0x114 then .store
  else if 0x118 ≤ op && op < 0x120 then .update
  else if 0x120 ≤ op then .atomic
  else .load

/-- The checks of a port access (R79, R264): `amo` nodes need natural alignment and an immediate window. -/
def State.portCheck (s : State) (p va n op : Nat) : State × ChkAll :=
  s.checkSpan p va n (portKind op) (if 0x120 ≤ op then n else 1) (if 0x120 ≤ op then immOnly else anyClass)

/-! ## Results -/

/-- The access's tokens owed, on targets with their VALUE and C flag: at the tag operation's time and path, or poison with its cause on
every valid target (R184, R263). -/
def State.owePort (s : State) (p e : Nat) (w : EW) (a : PortAcc) (l : List (Nat × Word × Bool)) : State :=
  match a.tgBad with
  | some c =>
    let k := { a.tag with value := poisonValue c p e a.slot, p := true }
    s.owe p e a.slot w [(0, k), (1, k)]
  | none => s.owe p e a.slot w (l.map fun o => (o.1, { a.tag with value := o.2.1, time := a.time, path := a.path, c := a.tag.c || o.2.2 }))

/-- Poison with an access's cause on the node's valid targets (R264); the lowest cause when the tag operation fails too (R222). -/
def State.owePortFault (s : State) (p e : Nat) (w : EW) (a : PortAcc) (c : Nat) : State :=
  let k := { a.tag with value := poisonValue (match a.tgBad with | some d => min c d | none => c) p e a.slot, p := true }
  s.owe p e a.slot w [(0, k), (1, k)]

/-! ## Streams (R266) -/

/-- The token of index i of a stream, or its T1 token. -/
def streamToken (start : Token) (i : Nat) (v : Word) (l c : Bool) : Token :=
  { start with value := v, time := setCtr start.time (depthOf start.time) i, l := l, c := start.c || c }

/-- A stream token with the slot's tag operation; a fault gives poison on every valid target. -/
def streamOuts (p e slot : Nat) (w : EW) (n : Nat) (j : Nat) (t : Token) : List (Nat × Token) :=
  match tagOp w.tg (BitVec.ofNat 64 n) t.time t.path with
  | .ok (u, q) => [(j, { t with time := u, path := q })]
  | .error c => if t.p then [(j, t)] else let k := { t with value := poisonValue c p e slot, p := true }; [(0, k), (1, k)]

/-- The performed reads of a stream that are next in index order become owed tokens; after the last, the T1 token (R266). -/
def State.drainStream (fuel : Nat) (s : State) (p e slot : Nat) : State :=
  match fuel with
  | 0 => s
  | fuel + 1 =>
    match Map.find (s.elem p e).nodes slot with
    | some (.ldst start base n reads next) =>
      let w := s.slotWord p e slot
      if n ≤ next then
        let t := streamToken start (n - 1) (BitVec.ofNat 64 n) true true
        (s.owe p e slot w (streamOuts p e slot w n 1 t)).modElem p e fun x => x.setNode slot none
      else
        match firstOf reads fun r => r.1 == next with
        | none => s
        | some (_, v, bad) =>
          let t := streamToken start next (if bad then poisonValue v p e slot else writeTy w.ty.toNat v) (next + 1 == n) false
          let s := s.owe p e slot w (if bad then [(0, { t with p := true })] else streamOuts p e slot w n 0 t)
          State.drainStream fuel (s.modElem p e fun x => x.setNode slot (some (.ldst start base n (keep reads fun r => r.1 != next) (next + 1)))) p e slot
    | _ => s

/-- A read of a stream performed or failed. -/
def State.streamRead (s : State) (p e slot i v : Nat) (bad : Bool) : State :=
  (s.modElem p e fun x => match Map.find x.nodes slot with
    | some (.ldst start base n reads next) => x.setNode slot (some (.ldst start base n (reads ++ [(i, v, bad)]) next))
    | _ => x).drainStream 1026 p e slot

/-- Reads of a stream already issued. -/
def Core.issued (c : Core) (e slot : Nat) : Nat :=
  match Map.find (Map.get c.elems Elem.reset e).nodes slot with
  | some (.ldst _ _ _ reads next) =>
    next + reads.length + (keep (c.port (e / 8)).accs fun a => a.slot == slot).length +
      bit (match (c.port (e / 8)).held with | some a => a.slot == slot && !(c.port (e / 8)).woken | none => false)
  | _ => 0

/-- The access of read i of a stream. -/
def streamAcc (slot i va n : Nat) (parts : List Acc) (start : Token) : PortAcc :=
  ⟨slot, i, va, n, parts, 0, 0, 0, { start with time := setDepth start.time (depthOf start.time - 1) }, start.time, start.path, none⟩

/-- The port issues a stream's next reads while it has room: a read that finds V = 0 holds the port at its index, one that fails another
check is kept as that cause (R69, R266). -/
def State.issueStream (fuel : Nat) (s : State) (p e slot : Nat) : State :=
  match fuel with
  | 0 => s
  | fuel + 1 =>
    match Map.find (s.elem p e).nodes slot with
    | some (.ldst start base n _ _) =>
      let i := (s.core p).issued e slot
      if n ≤ i || !s.portRoom p e then s
      else
        let sz := widthOf (s.slotWord p e slot).ty.toNat / 8
        let va := (base + BitVec.ofNat 64 (i * sz)).toNat
        match s.portCheck p va sz 0x110 with
        | (s, .stall) => s
        | (s, .bad 0x10 fva h) =>
          let a := streamAcc slot i va sz [] start
          s.holdPort p e a 0 fva h
        | (s, .bad c _ _) => State.issueStream fuel (s.streamRead p e slot i c true) p e slot
        | (s, .ok l) => State.issueStream fuel (s.modPort p (e / 8) fun x => { x with accs := x.accs ++ [streamAcc slot i va sz l start] }) p e slot
    | _ => s

/-- Every stream of an element goes on issuing. -/
def State.issueStreams (s : State) (p e : Nat) : State := each (range 0 32) (fun slot s => s.issueStream 65 p e slot) s

/-! ## Nodes -/

/-- A memory-port node takes its match: poison stops here with its record; `va` and `data` give the access's address and operand, `pre` a
failure in the operation itself. A missing translation holds the port; another failing check emits poison (R264). -/
def portNode (w : EW) (va : Fx → Word) (data cmp : Fx → Nat) (pre : Fx → Option Nat) (s : State) : Ans :=
  let p := s.cur.p
  let e := s.cur.e
  let slot := s.cur.slot
  let op := (s.elem p e).op slot
  fires s (s.fireNode fun n m =>
    let f := s.fx w m
    if m.poison.isSome then
      (if (s.core p).eqRoom then some ((s.consume n).stopPoison p e slot m.poisonTok.1 m.poisonTok.2) else none)
    else if !s.portRoom p e then none
    else
      let tg := tagOp w.tg f.rawB m.tag.time m.tag.path
      let a : PortAcc := ⟨slot, 0, (va f).toNat, portBytes op f.ty, [], data f, cmp f, (s.core p).ph, f.token 0,
        match tg with | .ok r => r.1 | .error _ => 0, match tg with | .ok r => r.2 | .error _ => 0,
        match tg with | .ok _ => none | .error c => some c⟩
      match pre f with
      | some c => some ((s.consume n).owePortFault p e w a c)
      | none =>
        match s.portCheck p a.va a.n op with
        | (_, .stall) => none
        | (s, .bad 0x10 fva h) =>
          some ((s.consume n).holdPort p e a (if m.a.isSome then 0 else 1) fva h)
        | (s, .bad c _ _) => some ((s.consume n).owePortFault p e w a c)
        | (s, .ok l) => some ((s.consume n).modPort p (e / 8) fun x => { x with accs := x.accs ++ [{ a with parts := l }] }))

/-- No failure of the operation itself. -/
def noFault (_ : Fx) : Option Nat := none
/-- No operand. -/
def noData (_ : Fx) : Nat := 0

/-- `ldr` (R265). -/
def execELdr (w : EW) (s : State) : Ans := portNode w Fx.rawA noData noData noFault s
/-- `str` (R265): A at the slot's type. -/
def execEStr (w : EW) (s : State) : Ans := portNode w Fx.rawB Fx.opA noData noFault s
/-- `vld` (R265): B names the destination. -/
def execEVld (w : EW) (s : State) : Ans := portNode w Fx.rawA noData noData noFault s

/-- The register that B of `vld` or `vst` names. -/
def Fx.vecReg (f : Fx) : VOperand := f.vecB f.ty

/-- `vst` (R265): a port reference outside the codes it may name fails with cause 0x25. -/
def execEVst (w : EW) (s : State) : Ans :=
  portNode w Fx.rawA (fun f => (f.vecReg.value f.x).toNat) noData (fun f => if f.vecReg = .bad then some 0x25 else none) s

/-- `upd.add` (R267). -/
def execEUpdAdd (w : EW) (s : State) : Ans := portNode w Fx.rawB Fx.opA noData noFault s
/-- `upd.min` (R267). -/
def execEUpdMin (w : EW) (s : State) : Ans := portNode w Fx.rawB Fx.opA noData noFault s
/-- `upd.max` (R267). -/
def execEUpdMax (w : EW) (s : State) : Ans := portNode w Fx.rawB Fx.opA noData noFault s
/-- `upd.or` (R267). -/
def execEUpdOr (w : EW) (s : State) : Ans := portNode w Fx.rawB Fx.opA noData noFault s
/-- `upd.swap` (R267). -/
def execEUpdSwap (w : EW) (s : State) : Ans := portNode w Fx.rawB Fx.opA noData noFault s

/-- e6 at the firing, at the type's width: the comparand of `amo.cas` (R268). -/
def Fx.e6 (f : Fx) : Nat := readTy f.ty (f.x.ereg 6).toNat

/-- `amo.add` (R268). -/
def execEAmoAdd (w : EW) (s : State) : Ans := portNode w Fx.rawB Fx.opA noData noFault s
/-- `amo.min` (R268). -/
def execEAmoMin (w : EW) (s : State) : Ans := portNode w Fx.rawB Fx.opA noData noFault s
/-- `amo.max` (R268). -/
def execEAmoMax (w : EW) (s : State) : Ans := portNode w Fx.rawB Fx.opA noData noFault s
/-- `amo.and` (R268). -/
def execEAmoAnd (w : EW) (s : State) : Ans := portNode w Fx.rawB Fx.opA noData noFault s
/-- `amo.or` (R268). -/
def execEAmoOr (w : EW) (s : State) : Ans := portNode w Fx.rawB Fx.opA noData noFault s
/-- `amo.xor` (R268). -/
def execEAmoXor (w : EW) (s : State) : Ans := portNode w Fx.rawB Fx.opA noData noFault s
/-- `amo.swap` (R268). -/
def execEAmoSwap (w : EW) (s : State) : Ans := portNode w Fx.rawB Fx.opA noData noFault s
/-- `amo.cas` (R268). -/
def execEAmoCas (w : EW) (s : State) : Ans := portNode w Fx.rawB Fx.opA Fx.e6 noFault s
/-- `amo.fadd` (R268). -/
def execEAmoFadd (w : EW) (s : State) : Ans := portNode w Fx.rawB Fx.opA noData noFault s

/-- `ldst` (R266): the counter rules of R254 for the start, then the port reads ahead. -/
def execELdst (w : EW) (s : State) : Ans :=
  let p := s.cur.p
  let e := s.cur.e
  let slot := s.cur.slot
  fires s (if (Map.find (s.elem p e).nodes slot).isSome then none
    else s.fireNode fun n m =>
      let f := s.fx w m
      if m.poison.isSome then (if (s.core p).eqRoom then some ((s.consume n).stopPoison p e slot m.poisonTok.1 m.poisonTok.2) else none)
      else if !s.portRoom p e then none
      else
        match startFault m.tag.time f.rawB.toInt with
        | some c => s.emitFits w (f.failOuts c [0, 1]) fun s => s.consume n
        | none =>
          some ((((s.consume n).modElem p e fun x => x.setNode slot
            (some (.ldst f.runBase f.rawA f.rawB.toNat [] 0))).drainStream 1026 p e slot).issueStream 65 p e slot))

/-! ## Performance (R262 to R268) -/

/-- Two accesses overlap: in their virtual bytes, or, through two mappings of a page, in their physical bytes (R41, R263). -/
def overlaps (a b : PortAcc) : Bool :=
  (a.va < b.va + b.n && b.va < a.va + a.n) ||
    anyOf a.parts fun x => anyOf b.parts fun y => x.pa < y.pa + y.n && y.pa < x.pa + x.n

/-- Two accesses meet at one home slice in immediate windows, or at one channel of host-shared windows (R40, R44). -/
def State.sameHome (s : State) (a b : PortAcc) : Bool :=
  anyOf a.parts fun x => anyOf b.parts fun y =>
    (winClass x.win == 1 && winClass y.win == 1 &&
      sliceKey x.pa (homeOf (s.accDomain x) (x.pa / 128)) == sliceKey y.pa (homeOf (s.accDomain y) (y.pa / 128))) ||
    (winClass x.win == 2 && winClass y.win == 2 && stackOf x.pa == stackOf y.pa && channelOf (winSprd x.win) x.pa == channelOf (winSprd y.win) y.pa)

/-- The new value of an ordered update (R267). -/
def updNew (op ty old a : Nat) : Nat :=
  match op with
  | 0x118 => if isInt ty then wrapInt ty (intOf ty old + intOf ty a) else (fmtOf ty).add 0 0 old a
  | 0x119 => minTy ty old a
  | 0x11A => maxTy ty old a
  | 0x11B => old ||| a
  | _ => a

/-- What the performance of an access answers: the value read (the old value of an update), or failing data, or a wait (log 11, DEDUCED). -/
def State.portDo (s : State) (p op ty : Nat) (a : PortAcc) : State × Got :=
  if op == 0x112 || op == 0x114 then s.storeParts p a.parts a.data
  else if 0x120 ≤ op then
    match a.parts with
    | acc :: _ =>
      match s.atHome p acc (.amo (BitVec.ofNat 3 (if op = 0x128 then 0 else op - 0x120)) (op == 0x128) a.n (BitVec.ofNat 64 a.data) (BitVec.ofNat 64 a.cmp)
          a.ph) with
      | none => (s, .stall)
      | some (s, r) => (s, match r.reply with | .value v _ => .ok v.toNat | _ => .poison)
    | [] => (s, .ok 0)
  else
    match s.loadParts p a.parts with
    | (s, .ok x) =>
      if 0x118 ≤ op then
        match s.storeParts p a.parts (updNew op ty x a.data) with
        | (s, .ok _) => (s, .ok x)
        | r => r
      else (s, .ok x)
    | r => r

/-- Access n has been performed: it leaves, and with it, where it is the woken one, what its token held back (R72). -/
def Port.performed (q : Port) (n : Nat) : Port :=
  if q.woken && n + 1 == q.accs.length then ⟨dropNth q.accs n, none, 0, 0, false⟩ else { q with accs := dropNth q.accs n }

/-- `MEMPORT_ACCESS_PERFORMED` (R262 to R268): the n-th access of M(row) is performed once no earlier access overlaps it (R263) or orders it
(R40, R44), and its tokens become due. -/
def execMemportAccessPerformed (p row n : Nat) (s : State) : Ans :=
  let port := (s.core p).port row
  let e := row * 8
  match nth port.accs n with
  | none => go s
  | some a =>
    let x := s.elem p e
    if anyOf (firstN port.accs n) fun b => overlaps a b || s.sameHome a b then go s
    else
      let w := s.slotWord p e a.slot
      let op := x.op a.slot
      let ty := w.ty.toNat
      let drop := fun (s : State) => s.modPort p row fun q => q.performed n
      match s.portDo p op ty a with
      | (_, .stall) => go s
      | (t, .poison) =>
        -- the whole access fails: no part of a store is kept, what reads changed stands
        let t := if op == 0x112 || op == 0x114 || 0x118 ≤ op then s else t
        go (if op = 0x110 then ((drop t).streamRead p e a.slot a.idx 0x16 true).issueStreams p e
          else ((drop t).owePortFault p e w a 0x16).issueStreams p e)
      | (t, .ok v) =>
        let t := drop t
        let va := BitVec.ofNat 64 a.va
        let t := match op with
          | 0x110 => t.streamRead p e a.slot a.idx v false
          | 0x111 => t.owePort p e w a [(0, writeTy ty v, false), (1, va, true)]
          | 0x112 => t.owePort p e w a [(0, va, true)]
          | 0x114 => t.owePort p e w a [(0, va, true)]
          | 0x113 =>
            let code := if w.sb = 5 then 8 + w.bi.toNat else w.bi.toNat
            let t := if a.tgBad.isSome then t else t.modElem p e fun x => x.setVreg code (BitVec.ofNat 1024 v)
            t.owePort p e w a [(0, BitVec.ofNat 64 code, true)]
          | _ => t.owePort p e w a [(0, writeTy ty v, true)]
        go (t.issueStreams p e)

/-! ## Wake (R71) -/

/-- A held access of a port is walked again (R71): while the address that had no translation has none it stays held; otherwise a wake token comes, and
the access is made: it is accepted, fails, or, where another of its pages has no translation, is held again with a new record. A port that holds its own
record takes no wake token (R151) (log 60, DEDUCED). -/
def State.wakePort (s : State) (p row : Nat) : State :=
  let e := row * 8
  let q := (s.core p).port row
  match q.held with
  | none => s
  | some a =>
    let op := (s.elem p e).op a.slot
    let later := s.modCore p fun c => { c with rewalk := true }
    if q.woken then s
    else if (s.core p).elemStalled e then later
    else match s.check p q.fva 1 (portKind op) 1 anyClass with
      | (_, .stall) => later
      | (s, .bad 0x10 _) => s
      | (s, _) =>
        match s.portCheck p a.va a.n op with
        | (_, .stall) => later
        | (s, .bad 0x10 fva h) => s.holdPort p e a q.hport fva h
        | (s, .bad c _ _) =>
          let s := s.modPort p row fun x => ⟨x.accs, none, 0, 0, false⟩
          if op = 0x110 then (s.streamRead p e a.slot a.idx c true).issueStreams p e else s.owePortFault p e (s.slotWord p e a.slot) a c
        | (s, .ok l) => s.modPort p row fun x => { x with accs := x.accs ++ [{ a with parts := l }], woken := true }

end Sys2Proof.Machine
end

