-- ==== Sys2Proof/Machine/EngIssue.lean ====
section
/-!
DEFINITION. The issue of engine commands (R131 to R133) with each command's limits (R138 to R147).
-/
namespace Sys2Proof.Machine

open Sys2Proof

/-! ## Engines of a core -/

/-- Engine i of a core: 0 copy, 1 gather/scatter, 2 merge, 3 collective port. -/
def Core.engine (c : Core) (i : Nat) : Engine := Map.get c.engines Engine.reset i
/-- An engine replaced. -/
def Core.setEngine (c : Core) (i : Nat) (g : Engine) : Core := { c with engines := Map.put c.engines i g }

/-- Word i of a command's descriptor. -/
def Cmd.dw (c : Cmd) (i : Nat) : Word := (nth c.d i).getD 0
/-- Word i of a descriptor as a number. -/
def Cmd.dn (c : Cmd) (i : Nat) : Nat := (c.dw i).toNat
/-- Bits [hi:lo] of a descriptor word. -/
def Cmd.df (c : Cmd) (i hi lo : Nat) : Nat := bits (c.dn i) hi lo

/-- The ranges [a, a + n) and [b, b + m) share a byte, as whole numbers. -/
def meets (a n b m : Nat) : Bool := decide (0 < n) && decide (0 < m) && decide (a < b + m) && decide (b < a + n)

/-- Words i to 7 of a descriptor are zero. -/
def Cmd.zeroFrom (c : Cmd) (i : Nat) : Bool := allOf (c.d.drop i) fun w => w == 0

/-! ## Limits -/

/-- `cpy` (R139). -/
def Cmd.cpyOk (c : Cmd) : Bool :=
  c.dw 2 >>> 32 == 0 && c.zeroFrom 3 && !meets (c.dn 0) (c.dn 2) (c.dn 1) (c.dn 2)

/-- OP of `gath` and `scat`. -/
def Cmd.rowOp (c : Cmd) : Nat := c.df 3 51 49
/-- Bytes of an index. -/
def Cmd.ixBytes (c : Cmd) : Nat := if (c.dw 3).getLsbD 48 then 8 else 4
/-- ROW. -/
def Cmd.row (c : Cmd) : Nat := c.df 3 47 32
/-- COUNT of `gath` and `scat`. -/
def Cmd.count (c : Cmd) : Nat := c.df 3 31 0
/-- The element size of an OP of `scat` in bytes. -/
def rowElem (op : Nat) : Nat :=
  match op with
  | 1 => 4
  | 2 => 2
  | 3 => 2
  | 4 => 4
  | 5 => 8
  | _ => 1

/-- `gath` and `scat` (R140). -/
def Cmd.rowsOk (scat : Bool) (c : Cmd) : Bool :=
  c.dw 3 >>> 52 == 0 && c.zeroFrom 6 && c.row != 0 && (if scat then c.rowOp < 6 && c.row % rowElem c.rowOp == 0 else c.rowOp == 0) &&
    !meets (c.dn 2) (c.count * c.row) (c.dn 1) (c.count * c.ixBytes) && !meets (c.dn 2) (c.count * c.row) (c.dn 0) (c.dn 5 * c.dn 4)

/-- RUNS of `mrg`. -/
def Cmd.runCount (c : Cmd) : Nat := c.df 1 4 0 + 1
/-- The record address of run i, from the run table. -/
def Cmd.runAt (c : Cmd) (i : Nat) : Nat := (nth c.extra (2 * i)).getD 0
/-- The record count of run i. -/
def Cmd.runLen (c : Cmd) (i : Nat) : Nat := (nth c.extra (2 * i + 1)).getD 0

/-- `mrg` before its run table is read (R142). -/
def Cmd.mrgFields (c : Cmd) : Bool :=
  c.dw 1 >>> 5 == 0 && c.dn 1 < 16 && c.dn 2 % 8 == 0 && c.dw 5 >>> 4 == 0 && c.zeroFrom 6

/-- `mrg` with its run table (R142): record addresses, and the overlaps of destination, directory and runs. -/
def Cmd.mrgOk (c : Cmd) : Bool :=
  let dir := if c.dn 4 = 0 then 0 else 16 * c.dn 3
  !meets (c.dn 2) (32 * c.dn 3) (c.dn 4) dir &&
    allOf (range 0 c.runCount) fun i =>
      c.runAt i % 8 == 0 && !meets (c.dn 2) (32 * c.dn 3) (c.runAt i) (32 * c.runLen i) && !meets (c.dn 4) dir (c.runAt i) (32 * c.runLen i)

/-- `hprobe` and `hins` (R147). -/
def Cmd.hashOk (ins : Bool) (c : Cmd) : Bool :=
  c.dw 1 >>> 16 == 0 && c.df 1 7 5 == 0 && 4 ≤ c.df 1 4 0 && c.df 1 4 0 ≤ 28 && c.dn 0 % 16 == 0 && c.zeroFrom 6 &&
    (!ins || c.dw 5 >>> 1 == 0)

/-- ROLE = 1 of `coll`. -/
def Cmd.receives (c : Cmd) : Bool := (c.dw 2).getLsbD 58
/-- Destination VCN of `coll`. -/
def Cmd.dst (c : Cmd) : Nat := c.df 2 57 48
/-- Stream number. -/
def Cmd.stream (c : Cmd) : Nat := c.df 2 47 40
/-- LANES. -/
def Cmd.lanes (c : Cmd) : Nat := c.df 2 36 32 + 1
/-- Entries to send, or receive capacity. -/
def Cmd.entries (c : Cmd) : Nat := c.df 2 31 0
/-- VT, from fn (R19). -/
def Cmd.vt (c : Cmd) : BitVec 2 := BitVec.ofNat 2 ((c.op - 8) / 2)
/-- ZD, from fn. -/
def Cmd.zd (c : Cmd) : Bool := c.op % 2 == 1

/-- `coll` before its member list is read (R144). -/
def Cmd.collFields (c : Cmd) : Bool :=
  c.dw 2 >>> 59 == 0 && c.df 2 39 37 == 0 && c.dw 4 >>> 10 == 0 && c.zeroFrom 5 && 1 ≤ c.dn 4 && c.dn 4 ≤ 576

/-- `coll` with its member list (R144): every member and the destination held by this module, a sender among the members. -/
def State.collOk (s : State) (p : Nat) (c : Cmd) : Bool :=
  s.local c.dst && allOf c.extra s.local && (c.receives || hasNat c.extra (s.core p).vcnNum)

/-! ## Issue (R133) -/

/-- The command enters the queue of its engine; with the queue full the issue waits, and the loaded and checked command with it. Started commands keep their
entries until they retire. -/
def enqueueCmd (eng : Nat) (c : Cmd) (s : State) : Ans :=
  let g := s.mine.engine eng
  if 8 ≤ g.queue.length + g.runs.length then go (s.modMe fun x => { x with wait := some (.engine eng c) })
  else done ((s.modMine fun x => x.setEngine eng { g with queue := g.queue ++ [c] }).modMe fun x => { x with wait := none })

/-- The checks of R133 in their order; `limits` makes check 4 and continues. A command that has passed them and waits for its queue is not loaded again. -/
def issue (op : Nat) (a b : BitVec 5) (limits : Cmd → State → Ans) (s : State) : Ans :=
  match s.me.wait with
  | some (.engine eng c) => enqueueCmd eng c s
  | _ =>
  let w := s.gr b
  let va := s.gr a
  if w >>> 22 != 0 || (w.getLsbD 16 && !s.mine.ctxKnown (w.extractLsb' 17 4).toNat) then faults 0x17 0 s
  else if va.extractLsb' 0 3 != 0 then faults 0x18 0 s
  else readWords va.toNat 8 .load s fun s d => limits ⟨op, s.cur.k, va, w, d, [], []⟩ s

/-- A command whose limits are those of its descriptor alone. -/
def issuePlain (op eng : Nat) (ok : Cmd → Bool) (a b : BitVec 5) (s : State) : Ans :=
  issue op a b (fun c s => if ok c then enqueueCmd eng c s else faults 0x18 0 s) s

/-- `cpy` (R139). -/
def execCpy (a b : BitVec 5) (s : State) : Ans := issuePlain 0 0 Cmd.cpyOk a b s
/-- `gath` (R140, R141). -/
def execGath (a b : BitVec 5) (s : State) : Ans := issuePlain 1 1 (Cmd.rowsOk false) a b s
/-- `scat` (R140, R141). -/
def execScat (a b : BitVec 5) (s : State) : Ans := issuePlain 2 1 (Cmd.rowsOk true) a b s

/-- `mrg` (R142, R143): the run table, and the frontier for CMODE = 1, are read at issue (log 56, DEDUCED). -/
def execMrg (a b : BitVec 5) (s : State) : Ans :=
  issue 3 a b (fun c s =>
    if !c.mrgFields then faults 0x18 0 s
    else
      readWords (c.dn 0) (2 * c.runCount) .load s fun s l =>
        let c := { c with
          extra := l.map BitVec.toNat
          front := if (c.dw 5).getLsbD 0 then (s.mine.frontier (c.df 5 3 1)).times else [] }
        if c.mrgOk then enqueueCmd 2 c s else faults 0x18 0 s) s

/-- `coll` (R144, R145): the member list is read at issue (log 56, DEDUCED). -/
def execColl (a b : BitVec 5) (vt : BitVec 2) (zd : BitVec 1) (s : State) : Ans :=
  needs 4 (.coll a b vt zd) s fun s =>
    issue (8 + vt.toNat * 2 + zd.toNat) a b (fun c s =>
      if !c.collFields then faults 0x18 0 s
      else
        readItems (c.dn 3) 2 (c.dn 4) .load s fun s l =>
          let c := { c with extra := l.map BitVec.toNat }
          if s.collOk s.cur.p c then enqueueCmd 3 c s else faults 0x18 0 s) s

/-- `hprobe` (R147, R148). -/
def execHprobe (a b : BitVec 5) (s : State) : Ans := needs 5 (.hprobe a b) s fun s => issuePlain 0x11 1 (Cmd.hashOk false) a b s
/-- `hins` (R147, R148). -/
def execHins (a b : BitVec 5) (s : State) : Ans := needs 5 (.hins a b) s fun s => issuePlain 0x12 1 (Cmd.hashOk true) a b s

end Sys2Proof.Machine
end

