-- ==== Sys2Proof/Machine/Progress.lean ====
section
/-!
DEFINITION. Times and progress: the time instructions (R325 to R329), the progress buffers, the switches' tables, the crown and the
frontiers (R314 to R321).
-/
namespace Sys2Proof.Machine

open Sys2Proof

/-! ## Reports to the host (R373) -/

/-- Q0 of a report. -/
def reportQ0 (kind job chip reason vcn : Nat) : Word :=
  BitVec.ofNat 8 kind ++ BitVec.ofNat 16 job ++ BitVec.ofNat 12 chip ++ BitVec.ofNat 8 reason ++ 0#10 ++ BitVec.ofNat 10 vcn
/-- The job id that reports carry; 0 with no job. -/
def State.jobId (s : State) : Nat := match s.job with | some j => j.id.toNat | none => 0
/-- A report joins the queue. -/
def State.pushReport (s : State) (q : List Word) : State := { s with hub := { s.hub with reports := s.hub.reports ++ [⟨q⟩] } }
/-- The report queue is full (64 entries): the event that makes a report waits. -/
def State.reportsFull (s : State) : Bool := 64 ≤ s.hub.reports.length

/-! ## Consolidation (R316) -/

/-- The exact sum of two i64 lanes, clamped, and whether it was clamped. -/
def lane (a b : Word) : Word × Bool :=
  let x := a.toInt + b.toInt
  (BitVec.ofInt 64 (satInt x 64), satInt x 64 != x)

/-- A change entered into a list of entries: lane by lane into its time's entry, an entry with both lanes zero removed; the entries
and the clampings. -/
def addChange (l : List PEnt) (t stake msg : Word) : List PEnt × Nat :=
  match l with
  | [] => (if stake = 0 ∧ msg = 0 then [] else [⟨t, stake, msg⟩], 0)
  | e :: r =>
    if e.time = t then
      let a := lane e.stake stake
      let b := lane e.msg msg
      (if a.1 = 0 ∧ b.1 = 0 then r else ⟨t, a.1, b.1⟩ :: r, bit a.2 + bit b.2)
    else
      let x := addChange r t stake msg
      (e :: x.1, x.2)

/-- A batch folded into entries (R318). -/
def foldBatch (l : List PEnt) (ents : List PEnt) : List PEnt × Nat :=
  match ents with
  | [] => (l, 0)
  | e :: r =>
    let a := addChange l e.time e.stake e.msg
    let b := foldBatch a.1 r
    (b.1, a.2 + b.2)

/-- n32 saturating addition of counts. -/
def satAdd32 (a b : Nat) : Nat := min (a + b) 0xFFFFFFFF

/-- A scope's progress buffer of a core (R316). -/
def Core.progress (c : Core) (n : Nat) : Batch := Map.get c.prog ⟨[], 0⟩ n

/-- A change enters the core's buffer: none while an earlier one waits for the buffer to be sent, and when it finds 64 other entries. -/
def Core.enterChange (c : Core) (n : Nat) (t stake msg : Word) : Option Core :=
  let b := c.progress n
  let x := addChange b.ents t stake msg
  if hasNat c.progStop n || 64 < x.1.length then none else some { c with prog := Map.put c.prog n ⟨x.1, satAdd32 b.sat x.2⟩ }

/-- A change waits: nothing enters the scope's buffer until it has been sent (R316). -/
def Core.stopProgress (c : Core) (n : Nat) : Core := { c with progStop := insertNat c.progStop n }

/-- What a scalar core hands over: the buffer with its changes, or a wait until the buffer has been sent (R130, R316). -/
def handsOver (n : Nat) (c : Option Core) (s : State) : Ans :=
  match c with
  | some c => done (s.setCore s.cur.p c)
  | none => go (s.modCore s.cur.p fun c => c.stopProgress n)

/-- The smallest EPOCH of a frontier, 0 for an empty one (R320). -/
def minEpoch (l : List Word) : Nat :=
  match l with
  | [] => 0
  | [t] => epochOf t
  | t :: r => min (epochOf t) (minEpoch r)

/-- The checks of R329 on the time operands of a change in scope n. -/
def Core.timesRefused (c : Core) (n : Nat) (ta : Word) (ts : List Word) : Bool :=
  let f := (c.frontier n).times
  match f with
  | [] => true
  | f0 :: _ =>
    anyOf (ta :: ts) (fun t => depthOf t != depthOf f0 || minEpoch f + 2 ^ 14 ≤ epochOf t) || completeIn f ta

/-! ## The time instructions -/

/-- `tjoin` (R326). -/
def execTjoin (d a b : BitVec 3) (s : State) : Ans := doneT d (tJoin (s.me.tr a) (s.me.tr b)) s
/-- `tmeet` (R326). -/
def execTmeet (d a b : BitVec 3) (s : State) : Ans := doneT d (tMeet (s.me.tr a) (s.me.tr b)) s
/-- `tle` (R326). -/
def execTle (d : BitVec 5) (a b : BitVec 3) (s : State) : Ans := doneG d (if tLe (s.me.tr a) (s.me.tr b) then 1 else 0) s
/-- `tadv` (R326). -/
def execTadv (d a : BitVec 3) (b : BitVec 5) (s : State) : Ans :=
  let n := (s.gr b).toNat
  if 7 < n then faults 0x17 0 s else doneT d (tAdv (s.me.tr a) (s.mine.frontier n).times) s

/-- `tinc` of counter i, 0 for EPOCH (R326): a counter beyond the depth traps with 0x21, an overflow with 0x20. -/
def timeInc (i : Nat) (d a : BitVec 3) (s : State) : Ans :=
  if depthOf (s.me.tr a) < i then faults 0x21 0 s
  else
    match tInc (s.me.tr a) i with
    | some t => doneT d t s
    | none => faults 0x20 0 s

/-- `tinc.e` (R326). -/
def execTincE (d a : BitVec 3) (s : State) : Ans := timeInc 0 d a s
/-- `tinc.1` (R326). -/
def execTinc1 (d a : BitVec 3) (s : State) : Ans := timeInc 1 d a s
/-- `tinc.2` (R326). -/
def execTinc2 (d a : BitVec 3) (s : State) : Ans := timeInc 2 d a s
/-- `tinc.3` (R326). -/
def execTinc3 (d a : BitVec 3) (s : State) : Ans := timeInc 3 d a s

/-- `tmk` (R327). -/
def execTmk (d : BitVec 3) (a : BitVec 5) (s : State) : Ans := if timeOk (s.gr a) then doneT d (s.gr a) s else faults 0x22 0 s

/-- A selected field of a time (R327). -/
def timeField (sel : Nat) (t : Word) : Word :=
  match sel with
  | 0 => BitVec.ofNat 64 (epochOf t)
  | 4 => BitVec.ofNat 64 (depthOf t)
  | 5 => t
  | i => BitVec.ofNat 64 (ctrOf t i)

/-- `tfld` (R327): an unassigned selector is an illegal instruction (R22). -/
def execTfld (d : BitVec 5) (a : BitVec 3) (sel : BitVec 6) (s : State) : Ans :=
  if 5 < sel.toNat then illegal (.tfld d a sel) s else doneG d (timeField sel.toNat (s.me.tr a)) s

/-- `fget` (R328). -/
def execFget (d scope : BitVec 3) (word : BitVec 2) (s : State) : Ans :=
  doneT d ((s.mine.frontier scope.toNat).word word.toNat) s

/-- `fwait` (R328): it waits until t[a] is complete in the scope. -/
def execFwait (d : BitVec 5) (a scope : BitVec 3) (s : State) : Ans :=
  let f := s.mine.frontier scope.toNat
  if completeIn f.times (s.me.tr a) then doneG d (f.ver.setWidth 64) s else waits s

/-- A change of `stkget` or `stkdrop` (R329): stake count times sign, message diff. -/
def stakeChange (neg : Bool) (a : BitVec 3) (b : BitVec 5) (scope : BitVec 3) (s : State) : Ans :=
  let c := s.mine
  let t := s.me.tr a
  let md : Word := ((s.gr b).extractLsb' 32 32).signExtend 64
  let sc : Word := ((s.gr b).extractLsb' 0 32).setWidth 64
  if c.timesRefused scope.toNat t [] || s.gr b == 0 then faults 0x17 0 s
  else handsOver scope.toNat (c.enterChange scope.toNat t (if neg then 0 - sc else sc) md) s

/-- `stkget` (R329). -/
def execStkget (a : BitVec 3) (b : BitVec 5) (scope : BitVec 3) (s : State) : Ans := stakeChange false a b scope s
/-- `stkdrop` (R329). -/
def execStkdrop (a : BitVec 3) (b : BitVec 5) (scope : BitVec 3) (s : State) : Ans := stakeChange true a b scope s

/-- `stkdn` (R329): both changes enter in one step, the one at t[a] first; equal times enter nothing. -/
def execStkdn (a b scope : BitVec 3) (s : State) : Ans :=
  let c := s.mine
  let n := scope.toNat
  let ta := s.me.tr a
  let tb := s.me.tr b
  if c.timesRefused n ta [tb] || !tLe ta tb then faults 0x17 0 s
  else if ta = tb then done s
  else handsOver n ((c.enterChange n ta (BitVec.allOnes 64) 0).bind fun c => c.enterChange n tb 1 0) s

/-! ## Batches as run packets (R317) -/

/-- D of scope n (R314, R372). -/
def Job.depth (j : Job) (n : Nat) : Nat := (j.scopes.extractLsb' (4 * n) 2).toNat
/-- The depth of the times counted in a scope. -/
def State.scopeDepth (s : State) (n : Nat) : Nat := match s.job with | some j => j.depth n | none => 0

/-- The time that an index stands for, its EPOCH cut to EP. -/
def indexedTime (depth x : Nat) : Word := mkTime (x / 2 ^ 30 % 2 ^ 15) (x / 2 ^ 20 % 2 ^ 10) (x / 2 ^ 10 % 2 ^ 10) (x % 2 ^ 10) depth

/-- A change in its place among changes by index, lane by lane into an equal index. -/
def insertIndexed (l : List (Nat × PEnt)) (x : Nat) (e : PEnt) : List (Nat × PEnt) :=
  match l with
  | [] => [(x, e)]
  | y :: r =>
    if x = y.1 then (x, ⟨e.time, (lane y.2.stake e.stake).1, (lane y.2.msg e.msg).1⟩) :: r
    else if x < y.1 then (x, e) :: y :: r
    else y :: insertIndexed r x e

/-- Indexed changes cut into segments of 256 indices: BASE, and the lanes by offset. -/
def segmentsOf (l : List (Nat × PEnt)) : List (Nat × List (Nat × List Word)) :=
  match l with
  | [] => []
  | x :: r =>
    let base := x.1 / 256 * 256
    let e := (x.1 % 256, [x.2.stake, x.2.msg])
    match segmentsOf r with
    | [] => [(base, [e])]
    | y :: rest => if y.1 = base then (base, e :: y.2) :: rest else (base, [e]) :: y :: rest

/-- The run packets of a batch of scope n: class C15, plane P(n mod 4), two i64 lanes, ZD = 1, sparse, every trailer with the batch's SAT and
the last with LAST (log 90, DESIGN CHOICE). -/
def packetsOf (n sat : Nat) (l : List (Nat × List (Nat × List Word))) : List Pkt :=
  match l with
  | [] => []
  | x :: r => ⟨15, BitVec.ofNat 2 n, n, 0, x.1, false, 3, true, 2, x.2, sat, false, r.isEmpty, false⟩ :: packetsOf n sat r

/-- A batch as run packets with increasing BASE (R317). -/
def Batch.packets (b : Batch) (n : Nat) : List Pkt :=
  packetsOf n b.sat (segmentsOf (each b.ents (fun e l => insertIndexed l (progIndex n e.time) e) []))

/-- The batch that run packets of a scope with times of a depth hold. -/
def batchOf (depth : Nat) (l : List Pkt) : Batch :=
  ⟨(l.map fun k => k.ents.map fun e => (⟨indexedTime depth (k.base + e.1), (nth e.2 0).getD 0, (nth e.2 1).getD 0⟩ : PEnt)).flatten,
    match l.getLast? with | some k => k.sat | none => 0⟩

/-! ## Switches and crown -/

/-- The number of a switch of a die: its slice position (R42), offset from the cores' numbers. -/
def switchId (die s : Nat) : Nat := 1000 + die * 21 + s
/-- Child c of a switch: a core below a leaf, a leaf below a level-2 switch, a level-2 switch below a die root (R81). -/
def childOf (sw c : Nat) : Nat :=
  let die := (sw - 1000) / 21
  let i := (sw - 1000) % 21
  if i < 16 then die * 64 + i * 4 + c else if i < 20 then switchId die ((i - 16) * 4 + c) else switchId die (16 + c)

/-- Batches a node has sent upward that its parent has not taken. -/
def State.batches (s : State) (node n : Nat) : List (List Pkt) := Map.get s.pq [] (node * 8 + n)
/-- A batch sent upward. -/
def State.sendBatch (s : State) (node n : Nat) (b : Batch) : State :=
  { s with pq := Map.put s.pq (node * 8 + n) (s.batches node n ++ [b.packets n]) }
/-- The C15 link above a node has credit for a batch of a scope (R316, R318) (log 90, DESIGN CHOICE). -/
def State.credit (s : State) (node n : Nat) : Bool := (s.batches node n).isEmpty || (s.batches node n).length ≤ Config.linkCredit

/-- `PROGRESS_BATCH_SEND` (R316, R317): the buffer's contents become one batch, and a change that waited may enter. -/
def execProgressBatchSend (p scope : Nat) (s : State) : Ans :=
  let c := s.core p
  let b := c.progress scope
  if 8 ≤ scope || b.ents.isEmpty || !s.credit p scope then go s
  else go ((s.setCore p { c with prog := Map.put c.prog scope ⟨[], 0⟩, progStop := eraseNat c.progStop scope }).sendBatch p scope b)

/-- The pending table of a switch (R318). -/
def State.pending (s : State) (sw n : Nat) : Batch := Map.get s.ptab ⟨[], 0⟩ (sw * 8 + n)

/-- The pending table sent upward as one batch. -/
def State.flushTable (s : State) (sw n : Nat) : State :=
  ({ s with ptab := Map.put s.ptab (sw * 8 + n) ⟨[], 0⟩ }).sendBatch sw n (s.pending sw n)

/-- `SWITCH_BATCH_FOLD` (R318): the oldest batch of a child folded whole; a table that could overflow is sent first. -/
def execSwitchBatchFold (sw scope child : Nat) (s : State) : Ans :=
  match s.batches (childOf sw child) scope with
  | [] => go s
  | k :: rest =>
    let b := batchOf (s.scopeDepth scope) k
    let full := decide (256 < (s.pending sw scope).ents.length + b.ents.length)
    if 8 ≤ scope || sw < 1000 || 3 < child || (full && !s.credit sw scope) then go s
    else
      let s := { s with pq := Map.put s.pq (childOf sw child * 8 + scope) rest }
      let s := if full then s.flushTable sw scope else s
      let t := s.pending sw scope
      let x := foldBatch t.ents b.ents
      go { s with ptab := Map.put s.ptab (sw * 8 + scope) ⟨x.1, satAdd32 (satAdd32 t.sat b.sat) x.2⟩ }

/-- `SWITCH_TABLE_SEND` (R318). -/
def execSwitchTableSend (sw scope : Nat) (s : State) : Ans :=
  if 8 ≤ scope || sw < 1000 || (s.pending sw scope).ents.isEmpty || !s.credit sw scope then go s else go (s.flushTable sw scope)

/-- The full EPOCH of a change (R320). -/
def recoverEpoch (t : Word) (emin : Nat) : Word := setCtr t 0 (emin + (epochOf t + 32768 - emin % 32768) % 32768)

/-- A change applied at the crown (R320): at t_adv(t, F), with a record, when t is not ≥ any time of F. -/
def State.crownChange (s : State) (n : Nat) (e : PEnt) : State :=
  let f := (Map.get s.front ⟨[], 0⟩ n).times
  let t := recoverEpoch e.time (minEpoch f)
  let late := !anyOf f fun x => tLe x t
  let t' := if late then tAdv t f else t
  let s := if late then s.report (.lateChange n t) else s
  { s with crown := Map.put s.crown n (addChange (Map.get s.crown [] n) t' e.stake e.msg).1 }

/-- The key order of R183 on times. -/
def keyLe (a b : Word) : Bool := fireKey a 0 ≤ fireKey b 0
/-- A time inserted in key order, once. -/
def insertTime (l : List Word) (t : Word) : List Word :=
  match l with
  | [] => [t]
  | a :: r => if a = t then l else if keyLe t a then t :: a :: r else a :: insertTime r t
/-- The minimal elements under t_le, in key order. -/
def minimal (l : List Word) : List Word :=
  each (keep l fun t => !anyOf l fun u => u != t && tLe u t) (fun t m => insertTime m t) []

/-- The candidate frontier (R321): at most four elements. -/
def candidate (l : List PEnt) : List Word :=
  let g := minimal ((keep l fun e => 0 < e.stake.toInt || 0 < e.msg.toInt).map PEnt.time)
  if 4 < g.length then
    match g.drop 3 with
    | [] => g
    | t :: r => minimal (firstN g 3 ++ [tMeetAll t r])
  else g

/-- The candidate moves the frontier forward (R321). -/
def moves (g f : List Word) : Bool := g != f && allOf g fun t => anyOf f fun u => tLe u t

/-- A new frontier broadcast to every core of the module, with a report when the scope has REP = 1 (R321, R374) (log 25, DESIGN CHOICE). -/
def State.broadcast (s : State) (n : Nat) (g : List Word) : State :=
  let old := Map.get s.front ⟨[], 0⟩ n
  let ver := old.ver + 1
  let s := { s with front := Map.put s.front n ⟨g, ver⟩ }
  let g := arranged s.choice g.length g
  let s := { s with
    bq := each (range 0 Config.cores) (fun p m => Map.put m (p * 8 + n) (Map.get m [] (p * 8 + n) ++ [g])) s.bq }
  let rep := match s.job with | some j => j.scopes.getLsbD (4 * n + 2) | none => false
  if !rep then s
  else if s.reportsFull then { s with hub := { s.hub with dropped := s.hub.dropped + 1 } }
  else
    s.pushReport ([reportQ0 6 s.jobId s.hub.chip 0 0, 0, BitVec.ofNat 64 (ver.toNat * 2 ^ 32 + g.length * 2 ^ 8 + n)] ++
      (range 0 4).map fun i => (nth g i).getD 0)

/-- `CROWN_BATCH_APPLY` (R318 to R321): the oldest batch of a die root applied whole. One that would need more than 4,096 times stays, and the
crown takes no batch of another die root in that scope before it. -/
def execCrownBatchApply (scope die : Nat) (s : State) : Ans :=
  let node := switchId die 20
  match s.batches node scope with
  | [] => go s
  | k :: rest =>
    let b := batchOf (s.scopeDepth scope) k
    let s' := each b.ents (fun e s => s.crownChange scope e) { s with pq := Map.put s.pq (node * 8 + scope) rest, stuck := Map.del s.stuck scope }
    if 8 ≤ scope || Map.get s.stuck die scope != die then go s
    else if 4096 < (Map.get s'.crown [] scope).length then go { s with stuck := Map.put s.stuck scope die }
    else
      let s' := if b.sat = 0 then s' else s'.report (.saturated scope)
      let g := candidate (Map.get s'.crown [] scope)
      go (if moves g (Map.get s'.front ⟨[], 0⟩ scope).times then s'.broadcast scope g else s')

/-- `FRONTIER_BROADCAST_ARRIVAL` (R13, R321): FNTn is written whole and VER incremented. -/
def execFrontierBroadcastArrival (p scope : Nat) (s : State) : Ans :=
  match Map.get s.bq [] (p * 8 + scope) with
  | [] => go s
  | g :: rest =>
    if 8 ≤ scope then go s
    else
      let s := { s with bq := Map.put s.bq (p * 8 + scope) rest }
      go (s.modCore p fun c => { c with fnt := Map.put c.fnt scope ⟨g, (c.frontier scope).ver + 1⟩ })

end Sys2Proof.Machine
end

