-- ==== Sys2Proof/Machine/EngWork.lean ====
section
/-!
DEFINITION. How the copy, gather/scatter and merge engines perform their commands unit by unit (R134 to R143, R147, R148). A step of the
schedule reads or writes one unit: for `cpy` the bytes up to the next line boundary of source or destination, for `gath` and `scat` a row,
for `mrg` a group read or a record written, for the hash commands a key.
-/
namespace Sys2Proof.Machine

open Sys2Proof

/-! ## Running commands -/

/-- The i-th started command of an engine changed. -/
def State.modRun (s : State) (p eng i : Nat) (f : EngRun → EngRun) : State :=
  s.modCore p fun c =>
    let g := c.engine eng
    c.setEngine eng { g with runs := match nth g.runs i with | some r => setNth g.runs i (f r) | none => g.runs }

/-- W0 of a command's record (R149). -/
def EngRun.w0 (r : EngRun) (kind cause eng vcn : Nat) : Word :=
  recW0 kind cause (r.cmd.word.extractLsb' 0 16).toNat 0 0 0 (r.cmd.bound.getD 0) (eng + 1) r.cmd.k.code vcn

/-- An access of unit u has failed (R135): V = 0 holds the command there with an ENGHOLD record; any other cause ends it; its units read
and not written are dropped, with a merge's directory entries among them (log 57, DEDUCED). -/
def State.engFault (s : State) (p eng i u cause va : Nat) (toHost : Bool) : State :=
  match nth ((s.core p).engine eng).runs i with
  | none => s
  | some r =>
    if cause = 0x10 then
      (s.modRun p eng i fun r => { r with held := r.held ++ [(u, va)] }).faultRec p
        ⟨r.w0 3 0x10 eng (s.core p).vcnNum, BitVec.ofNat 64 va, BitVec.ofNat 64 r.w2, 0⟩ toHost
    else
      s.modRun p eng i fun r =>
        { r with err := some (cause, va), buf := [], held := [], fin := true
                 b := if r.cmd.op = 3 then r.b - (keep r.buf fun e => e.2 / 2 ^ 256 != 0).length else r.b }

/-- The unit has been read: its value waits for its write. -/
def EngRun.got (r : EngRun) (u x : Nat) : EngRun := { r with buf := Map.put r.buf u x }
/-- The unit has been performed: n more in W2. -/
def EngRun.did (r : EngRun) (u n : Nat) : EngRun := { r with buf := Map.del r.buf u, done := u :: r.done, w2 := r.w2 + n }
/-- A publication of the command returned this WTS (R279). -/
def EngRun.wrote (r : EngRun) (w : Nat) : EngRun := { r with wts := maxW r.wts (BitVec.ofNat 64 w) }
/-- A command with a stop cause or with nothing left ends when its last write is performed. -/
def EngRun.close (r : EngRun) (all : Bool) : EngRun := { r with fin := r.fin || ((all || r.err.isSome) && r.buf.isEmpty) }

/-- Continues with what a read answered for unit u: a wait changes nothing. -/
def State.engThen (s : State) (p eng i u : Nat) (g : State × EngGot) (k : State → Nat → State) : State :=
  match g with
  | (_, .stall) => s
  | (t, .bad c va h) => t.engFault p eng i u c va h
  | (t, .ok x) => k t x

/-! ## cpy (R139) -/

/-- The number of bytes of the unit at offset u; 0 where no unit begins. -/
def cpyUnit (src dst n u : Nat) : Nat :=
  if u < n ∧ (u = 0 ∨ (src + u) % 128 = 0 ∨ (dst + u) % 128 = 0) then
    min (n - u) (min (128 - (src + u) % 128) (128 - (dst + u) % 128))
  else 0

/-- Reads a unit of `cpy`. -/
def State.cpyRead (s : State) (p i u : Nat) (r : EngRun) : State :=
  let m := cpyUnit (r.cmd.dn 0) (r.cmd.dn 1) (r.cmd.dn 2) u
  if m = 0 || hasNat r.done u || (Map.find r.buf u).isSome then s
  else s.engThen p 0 i u (s.engRead p ((r.cmd.dn 0 + u) % 2 ^ 64) m) fun s x => s.modRun p 0 i fun r => r.got u x

/-- Writes a unit of `cpy`. -/
def State.cpyWrite (s : State) (p i u x : Nat) (r : EngRun) : State :=
  let m := cpyUnit (r.cmd.dn 0) (r.cmd.dn 1) (r.cmd.dn 2) u
  s.engThen p 0 i u (s.engWrite p ((r.cmd.dn 1 + u) % 2 ^ 64) m x) fun s w =>
    s.modRun p 0 i fun r => let q := (r.did u m).wrote w; q.close (q.w2 == r.cmd.dn 2)

/-! ## gath and scat (R141) -/

/-- The index of row i: its value and whether it is out of range. -/
def State.rowIndex (s : State) (p i : Nat) (c : Cmd) : State × EngGot := s.engRead p ((c.dn 1 + c.ixBytes * i) % 2 ^ 64) c.ixBytes
/-- The address of table row x. -/
def Cmd.tableRow (c : Cmd) (x : Nat) : Nat := (c.dn 0 + x * c.dn 4) % 2 ^ 64
/-- The address of row i in the array of rows. -/
def Cmd.rowsAt (c : Cmd) (i : Nat) : Nat := (c.dn 2 + i * c.row) % 2 ^ 64

/-- What is kept of a row read: its bytes, its index and whether the index is out of range. -/
def packRow (x idx : Nat) (oor : Bool) : Nat := (x * 2 ^ 64 + idx) * 2 + bit oor

/-- The index of a row has been read: it is known while the row is held, so that later rows of other table rows can be written (R135, R141). -/
def EngRun.knows (r : EngRun) (u idx : Nat) : EngRun := { r with known := Map.put r.known u idx }
/-- Row u may be read: a `scat` reads its indices in order, so that every row under way knows which earlier rows name its table row (log 55, DEDUCED). -/
def EngRun.mayRead (r : EngRun) (u : Nat) : Bool := r.cmd.op != 2 || allOf (range 0 u) fun j => (Map.find r.known j).isSome

/-- Reads row i: the index, then, in range, the row of the table (`gath`) or of the array (`scat`). -/
def State.rowRead (s : State) (p i u : Nat) (r : EngRun) : State :=
  let c := r.cmd
  if c.count ≤ u || hasNat r.done u || (Map.find r.buf u).isSome || !r.mayRead u then s
  else
    s.engThen p 1 i u (s.rowIndex p u c) fun s idx =>
      let s := s.modRun p 1 i fun r => r.knows u idx
      if c.dn 5 ≤ idx then s.modRun p 1 i fun r => r.got u (packRow 0 idx true)
      else
        s.engThen p 1 i u (s.engRead p (if c.op = 1 then c.tableRow idx else c.rowsAt u) c.row) fun s x =>
          s.modRun p 1 i fun r => r.got u (packRow x idx false)

/-- One element of an add (R141): the new bits and a clamping. -/
def rowAdd (op old x : Nat) : Nat × Nat :=
  let ints := fun (n : Nat) =>
    let y := (BitVec.ofNat n old).toInt + (BitVec.ofNat n x).toInt
    ((BitVec.ofInt n (satInt y n)).toNat, bit (decide (satInt y n ≠ y)))
  match op with
  | 1 => (fmtF32.add 0 0 old x, 0)
  | 2 => (fmtF16.add 0 0 old x, 0)
  | 3 => (fmtBf16.add 0 0 old x, 0)
  | 4 => ints 32
  | _ => ints 64

/-- n elements of w bytes added: the new bytes and the clampings. -/
def rowAdds (op w n old x : Nat) : Nat × Nat :=
  match n with
  | 0 => (0, 0)
  | n + 1 =>
    let m := 2 ^ (8 * w)
    let a := rowAdd op (old % m) (x % m)
    let r := rowAdds op w n (old / m) (x / m)
    (a.1 + r.1 * m, a.2 + r.2)

/-- Bytes combined into a table row where they lie, each element under its line's lock: the clampings, and the largest WTS times 2^32. -/
def State.engUpdate (s : State) (p va : Nat) (c : Cmd) (x : Nat) : State × EngGot :=
  match s.checkSpan p va c.row .update 1 anyClass with
  | (s, .stall) => (s, .stall)
  | (s, .bad k a h) => (s, .bad k a h)
  | (s, .ok l) =>
    match s.engLoads p l with
    | (_, .stall) => (s, .stall)
    | (_, .poison) => (s, .bad 0x16 va false)
    | (t, .ok old) =>
      let y := rowAdds c.rowOp (rowElem c.rowOp) (c.row / rowElem c.rowOp) old x
      match t.engStores p l y.1 with
      | (_, .stall) => (s, .stall)
      | (_, .poison) => (s, .bad 0x16 va false)
      | (t, .ok w) => (t, .ok (y.2 % 2 ^ 32 + w * 2 ^ 32))

/-- Row u of `scat` may be written: every earlier row has been, or is known to name another table row (R141). -/
def EngRun.rowTurn (r : EngRun) (u idx : Nat) : Bool :=
  allOf (range 0 u) fun j => hasNat r.done j || (match Map.find r.known j with | some y => y != idx | none => false)

/-- A row performed: out of range it counts in W3, else in W2; `sats` clampings count in W3. -/
def EngRun.rowDone (r : EngRun) (u : Nat) (oor : Bool) (sats : Nat) : EngRun :=
  let q := r.did u (1 - bit oor)
  { q with a := q.a + bit oor, b := satAdd32 q.b sats }.close (q.done.length == r.cmd.count)

/-- Writes row u. -/
def State.rowWrite (s : State) (p i u y : Nat) (r : EngRun) : State :=
  let c := r.cmd
  let oor := y % 2 == 1
  let idx := y / 2 % 2 ^ 64
  let x := y / 2 / 2 ^ 64
  let fin := fun (s : State) (sats w : Nat) => s.modRun p 1 i fun r => (r.wrote w).rowDone u oor sats
  if c.op = 1 then s.engThen p 1 i u (s.engWrite p (c.rowsAt u) c.row x) fun s w => fin s 0 w
  else if oor then fin s 0 0
  else if !r.rowTurn u idx then s
  else if c.rowOp = 0 then s.engThen p 1 i u (s.engWrite p (c.tableRow idx) c.row x) fun s w => fin s 0 w
  else s.engThen p 1 i u (s.engUpdate p (c.tableRow idx) c x) fun s y => fin s (y % 2 ^ 32) (y / 2 ^ 32)

/-! ## mrg (R143) -/

/-- A change record's words. -/
structure Change where
  key : Nat
  val : Nat
  time : Word
  diff : Int
  deriving DecidableEq, Repr

/-- A record from its 32 bytes. -/
def Change.ofBytes (x : Nat) : Change := ⟨x % 2 ^ 64, x / 2 ^ 64 % 2 ^ 64, BitVec.ofNat 64 (x / 2 ^ 128), (BitVec.ofNat 64 (x / 2 ^ 192)).toInt⟩
/-- The bytes of a record. -/
def Change.bytes (c : Change) : Nat :=
  c.key + c.val * 2 ^ 64 + c.time.toNat * 2 ^ 128 + (BitVec.ofInt 64 c.diff).toNat * 2 ^ 192
/-- (KEY, VAL) as one number. -/
def Change.group (c : Change) : Nat := c.key * 2 ^ 64 + c.val
/-- (KEY, VAL, TIME) as one number. -/
def Change.order (c : Change) : Nat := c.group * 2 ^ 64 + c.time.toNat

/-- What the reads of a merge answer. -/
inductive MrgGot (α : Type) where
  | ok (x : α)
  | bad (cause va : Nat) (toHost : Bool)
  | stall

/-- Record j of run i, if the run has it. -/
def State.runRecord (s : State) (p i j : Nat) (c : Cmd) : State × MrgGot (Option Change) :=
  if c.runLen i ≤ j then (s, .ok none)
  else
    match s.engRead p ((c.runAt i + 32 * j) % 2 ^ 64) 32 with
    | (s, .ok x) => (s, .ok (some (Change.ofBytes x)))
    | (s, .bad k a h) => (s, .bad k a h)
    | (s, .stall) => (s, .stall)

/-- The records of run i from record j on. Its head must be readable; a later record that is not ends what is looked at before its turn (log 58, DEDUCED). -/
def State.runAhead (fuel : Nat) (s : State) (p : Nat) (c : Cmd) (i j : Nat) : State × MrgGot (List Change) :=
  match fuel with
  | 0 => (s, .ok [])
  | fuel + 1 =>
    match s.runRecord p i j c with
    | (s, .stall) => (s, .stall)
    | (s, .bad k a h) => (s, .bad k a h)
    | (s, .ok none) => (s, .ok [])
    | (s, .ok (some x)) =>
      match State.runAhead fuel s p c i (j + 1) with
      | (t, .ok l) => (t, .ok (x :: l))
      | (_, .bad ..) => (s, .ok [x])
      | r => r

/-- The record order before record j of run i: that of the record before it, 0 at the run's start. -/
def State.runBefore (s : State) (p i j : Nat) (c : Cmd) : State × MrgGot Nat :=
  if j = 0 then (s, .ok 0)
  else
    match s.runRecord p i (j - 1) c with
    | (s, .stall) => (s, .stall)
    | (s, .bad k a h) => (s, .bad k a h)
    | (s, .ok x) => (s, .ok ((x.map Change.order).getD 0))

/-- What every run has left, runs in table order: the order before it and its records. -/
def State.runsLeft (s : State) (p : Nat) (c : Cmd) (l : List (Nat × Nat)) : State × MrgGot (List (Nat × List Change)) :=
  match l with
  | [] => (s, .ok [])
  | (i, j) :: rest =>
    match s.runBefore p i j c with
    | (s, .stall) => (s, .stall)
    | (s, .bad k a h) => (s, .bad k a h)
    | (s, .ok b) =>
      match s.runAhead (c.runLen i) p c i j with
      | (s, .stall) => (s, .stall)
      | (s, .bad k a h) => (s, .bad k a h)
      | (s, .ok x) =>
        match State.runsLeft s p c rest with
        | (s, .ok y) => (s, .ok ((b, x) :: y))
        | r => r

/-- The next (KEY, VAL) in increasing order that is present in any run (R143). -/
def nextGroup (l : List (Nat × List Change)) : Option Nat :=
  each ((l.map Prod.snd).flatten) (fun x m => some (match m with | some y => min x.group y | none => x.group)) none

/-- A run's records decrease somewhere up to its last of a (KEY, VAL). -/
def fallsTo (b kv : Nat) (l : List Change) : Bool :=
  match l with
  | [] => false
  | x :: r => (anyOf (x :: r) fun y => y.group == kv) && (decide (x.order < b) || fallsTo x.order kv r)

/-- The records of a (KEY, VAL) in a list. -/
def ofGroup (kv : Nat) (l : List Change) : List Change := keep l fun x => x.group == kv

/-- Times in increasing order, each once. -/
def insertWord (l : List Word) (t : Word) : List Word :=
  match l with
  | [] => [t]
  | a :: r => if a = t then l else if t.toNat < a.toNat then t :: a :: r else a :: insertWord r t

/-- The sum of the DIFFs of a time, clamped at each addition, and the clampings. -/
def sumDiffs (l : List Change) (t : Word) (d : Int) (n : Nat) : Int × Nat :=
  match l with
  | [] => (d, n)
  | x :: r => if x.time = t then let y := satInt (d + x.diff) 64
                                sumDiffs r t y (n + bit (decide (y ≠ d + x.diff)))
              else sumDiffs r t d n

/-- A record waiting for its write: its bytes, and 1 + its directory index where it is the first of its key. -/
def packOut (x : Change) (dir : Nat) : Nat := x.bytes + dir * 2 ^ 256

/-- The output records of a group, appended to the run's buffer: `next` counts records, `b` directory entries, `a` clampings, `last` is the
last key written. A full destination stops with 0x1B. -/
def EngRun.emitTimes (r : EngRun) (g : List Change) (ts : List Word) : EngRun :=
  match ts with
  | [] => r
  | t :: rest =>
    let y := sumDiffs g t 0 0
    let r := { r with a := satAdd32 r.a y.2 }
    match g with
    | [] => r
    | x :: _ =>
      if y.1 = 0 then EngRun.emitTimes r g rest
      else if r.cmd.dn 3 ≤ r.next then { r with err := some (0x1B, 0) }
      else
        let fresh := r.cmd.dn 4 != 0 && r.last != some x.key
        EngRun.emitTimes { r with
          buf := Map.put r.buf r.next (packOut ⟨x.key, x.val, t, y.1⟩ (if fresh then r.b + 1 else 0))
          next := r.next + 1, b := if fresh then r.b + 1 else r.b, last := some x.key } g rest

/-- Reads the next group and consolidates it (R143); with every run exhausted the command has nothing left to write (log 58, DEDUCED). -/
def State.mrgRead (s : State) (p i : Nat) (r : EngRun) : State :=
  let c := r.cmd
  let heads := (range 0 c.runCount).map fun n => (n, (nth r.pos n).getD 0)
  if !r.buf.isEmpty then s
  else
    match s.runsLeft p c heads with
    | (_, .stall) => s
    | (t, .bad k a h) => t.engFault p 2 i r.next k a h
    | (t, .ok l) =>
      match nextGroup l with
      | none => t.modRun p 2 i fun r => r.close true
      | some kv =>
        let g := (l.map fun x => ofGroup kv x.2).flatten
        if anyOf l fun x => fallsTo x.1 kv x.2 then t.modRun p 2 i fun r => { r with err := some (0x1A, 0) }.close false
        else if 1024 < g.length then t.modRun p 2 i fun r => { r with err := some (0x1C, 0) }.close false
        else
          let pos := (range 0 l.length).map fun n => (nth r.pos n).getD 0 + ((nth l n).map fun x => (ofGroup kv x.2).length).getD 0
          let g := if (c.dw 5).getLsbD 0 then g.map fun x => { x with time := tAdv x.time c.front } else g
          t.modRun p 2 i fun r => (({ r with pos := pos }.emitTimes g (each g (fun x l => insertWord l x.time) [])).close false)

/-- Writes output record u and, where it is the first of its key, its directory entry (log 58, DEDUCED). -/
def State.mrgWrite (s : State) (p i u y : Nat) (r : EngRun) : State :=
  let c := r.cmd
  let dir := y / 2 ^ 256
  s.engThen p 2 i u (s.engWrite p ((c.dn 2 + 32 * u) % 2 ^ 64) 32 (y % 2 ^ 256)) fun t w =>
    let fin := fun (s : State) (v : Nat) => s.modRun p 2 i fun r => (((r.did u 1).wrote w).wrote v).close false
    if dir = 0 then fin t 0
    else
      match t.engWrite p ((c.dn 4 + 16 * (dir - 1)) % 2 ^ 64) 16 (y % 2 ^ 64 + u * 2 ^ 64) with
      | (_, .stall) => s
      | (_, .bad k a h) => s.engFault p 2 i u k a h
      | (t, .ok v) => fin t v

/-! ## hprobe and hins (R148) -/

/-- PLIM. -/
def Cmd.plim (c : Cmd) : Nat := c.df 1 15 8 + 1
/-- s. -/
def Cmd.size (c : Cmd) : Nat := c.df 1 4 0

/-- Reads key u, the next in array order, and, for `hprobe`, probes it; `hins` reads its value. -/
def State.hashRead (s : State) (p i u : Nat) (r : EngRun) : State :=
  let c := r.cmd
  if c.dn 3 ≤ u || u != r.next || (Map.find r.buf u).isSome then s
  else
    s.engThen p 1 i u (s.engRead p ((c.dn 2 + 8 * u) % 2 ^ 64) 8) fun t k =>
      let keep_ := fun (t : State) (x : Nat) => t.modRun p 1 i fun r => { r.got u x with next := u + 1 }
      if c.op = 0x11 then
        -- kept: the value to write and whether the key was found
        if k = emptyKey then keep_ t (c.dn 5 * 2)
        else
          match t.probe p (c.dn 0) c.size k .load c.plim (hashOf k c.size) with
          | (_, .stall) => s
          | (t, .bad cause a h) => t.engFault p 1 i u cause a h
          | (t, .found _ v) => keep_ t (v * 2 + 1)
          | (t, _) => keep_ t (c.dn 5 * 2)
      else if k = emptyKey then keep_ t k
      else
        match t.engRead p ((c.dn 4 + 8 * u) % 2 ^ 64) 8 with
        | (_, .stall) => s
        | (t, .bad cause a h) => t.engFault p 1 i u cause a h
        | (t, .ok v) => keep_ t (k + v * 2 ^ 64)

/-- A key performed: n counts in W2, m in W3. -/
def EngRun.keyDone (r : EngRun) (u n m : Nat) : EngRun :=
  let q := r.did u n
  { q with a := satAdd32 q.a m }.close (q.done.length == r.cmd.dn 3)

/-- n bytes written at their home slice, in the slot a probe found; a poisoned word fails. -/
def State.homeWrite (s : State) (p : Nat) (a : Acc) (n x : Nat) : State × Got :=
  match s.atHome p a (.write n x) with
  | none => (s, .stall)
  | some (t, r) => if r.reply = .error 0x16 then (s, .poison) else (t, .ok 0)

/-- Writes the result of key u (`hprobe`), or inserts it (`hins`) once every earlier key has been. -/
def State.hashWrite (s : State) (p i u y : Nat) (r : EngRun) : State :=
  let c := r.cmd
  let fin := fun (s : State) (n m : Nat) => s.modRun p 1 i fun r => r.keyDone u n m
  if c.op = 0x11 then
    s.engThen p 1 i u (s.engWrite p ((c.dn 4 + 8 * u) % 2 ^ 64) 8 (y / 2)) fun s w => fin (s.modRun p 1 i fun r => r.wrote w) (y % 2) 0
  else if anyOf r.buf fun e => e.1 < u then s
  else
    let k := y % 2 ^ 64
    if k = emptyKey then fin s 0 1
    else
      let put := fun (t : State) (a : Acc) (n x : Nat) =>
        match t.homeWrite p a n x with
        | (_, .stall) => s
        | (t, .poison) => t.engFault p 1 i u 0x16 a.va false
        | (t, .ok _) => fin t 1 0
      match s.probe p (c.dn 0) c.size k .update c.plim (hashOf k c.size) with
      | (_, .stall) => s
      | (t, .bad cause a h) => t.engFault p 1 i u cause a h
      | (t, .full) => fin t 0 1
      | (t, .empty a) => put t a 16 y
      | (t, .found a _) => if (c.dw 5).getLsbD 0 then put t { a with pa := a.pa + 8, n := 8 } 8 (y / 2 ^ 64) else fin t 0 0

end Sys2Proof.Machine
end

