-- ==== Sys2Proof/Machine/Coll.lean ====
section
/-!
DEFINITION. Merge-reduce streams (R102 to R106, R144 to R146, R363, R364): their tables in the switches, the sums, and the work of the
collective port.
-/
namespace Sys2Proof.Machine

open Sys2Proof

/-! ## The switches of a stream (R145) -/

/-- The number of the crown. -/
def crownId : Nat := 1000 + Config.dies * Config.slices
/-- The switch of level n above position p: 1 leaf, 2 level-2, 3 die root, 4 crown (R81). -/
def switchAbove (p n : Nat) : Nat :=
  match n with
  | 1 => switchId (p / 64) (p % 64 / 4)
  | 2 => switchId (p / 64) (16 + p % 64 / 16)
  | 3 => switchId (p / 64) 20
  | _ => crownId
/-- The child of that switch through which p is reached. -/
def childAbove (p n : Nat) : Nat :=
  match n with
  | 1 => p % 4
  | 2 => p / 4 % 4
  | 3 => p / 16 % 4
  | _ => p / 64
/-- The parent of a switch, and which of its children the switch is. -/
def parentOf (sw : Nat) : Nat × Nat :=
  let die := (sw - 1000) / 21
  let i := (sw - 1000) % 21
  if i < 16 then (switchId die (16 + i / 4), i % 4) else if i < 20 then (switchId die 20, i - 16) else (crownId, die)

/-- A position lies below a switch of its die. -/
def below (sw p : Nat) : Bool := anyOf (range 1 3) fun n => switchAbove p n == sw

/-- The level of the smallest subtree that holds every position of a list. -/
def rootLevel (l : List Nat) : Nat :=
  match l with
  | [] => 1
  | p :: r =>
    if allOf r fun q => q / 4 == p / 4 then 1
    else if allOf r fun q => q / 16 == p / 16 then 2
    else if allOf r fun q => q / 64 == p / 64 then 3
    else 4

/-- The class and the plane of a stream (R144): its run packets keep them from its open on (R88). -/
def streamClass (n : Nat) : BitVec 4 := BitVec.ofNat 4 (8 + n % 4)
def streamPlane (n : Nat) : BitVec 2 := BitVec.ofNat 2 (n / 4)

/-- A child that has brought nothing yet. -/
def Child.fresh : Child := ⟨none, false, false, 0, false, false, []⟩
/-- The table of a stream at a switch. -/
def strmKey (sw stream : Nat) : Nat := sw * 256 + stream

/-- The table that a sender's open asks for at the switch of level n above it. -/
def State.openTable (s : State) (p n : Nat) (c : Cmd) : Strm :=
  let l := c.extra.map s.posOf
  let kids := each (keep l fun q => switchAbove q n == switchAbove p n) (fun q (m : Map Child) => Map.put m (childAbove q n) Child.fresh) []
  ⟨each c.extra (fun v m => insertNat m v) [], switchAbove p (rootLevel l), c.dst, c.vt, c.lanes, c.zd, (s.core (s.posOf c.dst)).dth, kids, 0,
    false, false, false⟩

/-- A later open agrees with a table (R145). -/
def Strm.agrees (t u : Strm) (child : Nat) : Bool :=
  t.members == u.members && t.root == u.root && t.dst == u.dst && t.vt == u.vt && t.lanes == u.lanes && t.zd == u.zd &&
    (Map.find t.kids child).isSome

/-- A child changed. -/
def Strm.modKid (t : Strm) (child : Nat) (f : Child → Child) : Strm := { t with kids := Map.put t.kids child (f (Map.get t.kids Child.fresh child)) }
/-- A stream table replaced. -/
def State.setStrm (s : State) (sw stream : Nat) (t : Strm) : State := { s with strms := Map.put s.strms (strmKey sw stream) t }

/-- A sender's open reaches the switch of level n above it (R145): the first open there writes the table with its destination's DTH (R363); a
disagreeing one goes no further, its child counts as having sent LAST, ERR is set and Zusil hears of it (R106). The second part says whether it travels on (log 59, DEDUCED). -/
def State.openAt (s : State) (o : StrmOpen) : State × Bool :=
  let c := o.cmd
  let sw := switchAbove o.pos o.level
  let child := childAbove o.pos o.level
  let u := s.openTable o.pos o.level c
  match Map.find s.strms (strmKey sw c.stream) with
  | none => (s.setStrm sw c.stream u, sw != u.root)
  | some t =>
    if t.agrees u child then (s, sw != t.root)
    else ((s.setStrm sw c.stream { t.modKid child fun k => { k with refused := true } with err := true }).report (.runPacket c.stream child), false)

/-- The n-th open under way reaches its next switch (R363). -/
def State.openMoves (s : State) (n : Nat) : State :=
  match nth s.strmOpens n with
  | none => s
  | some o =>
    let (t, on) := s.openAt o
    { t with strmOpens := if on then setNth s.strmOpens n { o with level := o.level + 1 } else dropNth s.strmOpens n }

/-- An open of a stream is still on its way to a switch from the child through which these positions are reached: the stream's packets
stay behind it (log 59, DEDUCED). -/
def State.opening (s : State) (stream sw : Nat) (from_ : Nat → Bool) : Bool :=
  anyOf s.strmOpens fun o => o.cmd.stream == stream && switchAbove o.pos o.level == sw && from_ o.pos

/-- A packet reaches a switch from one of its children: kept for its merge, or dropped with ERR and a record (R106), also where the switch
has no table of its stream (log 88, DESIGN CHOICE). -/
def State.switchTakes (s : State) (sw child : Nat) (k : Pkt) : State :=
  match Map.find s.strms (strmKey sw k.stream) with
  | none => s.report (.runPacket k.stream child)
  | some t =>
    let kid := Map.get t.kids Child.fresh child
    let last := match kid.q.getLast? with | some x => some x.base | none => kid.base
    let rising := match last with | some b => b < k.base | none => true
    if kid.refused || !rising || k.base % 256 != 0 || k.vt != t.vt || k.lanes != t.lanes || k.zd != t.zd then
      (s.setStrm sw k.stream { t with err := true }).report (.runPacket k.stream child)
    else s.setStrm sw k.stream (t.modKid child fun x => { x with q := x.q ++ [k] })

/-! ## Sums (R104) -/

/-- A lane's sum with its clampings and overflow. -/
abbrev Sum : Type := Word × Nat × Bool

/-- A sum of two floating lanes of a format: an overflow to infinity of finite operands sets OVF. -/
def floatSum (f : Fmt) (a b : Nat) : Nat × Bool :=
  let r := f.add 0 0 a b
  let inf := fun (x : Nat) => match f.read x with | .inf _ => true | _ => false
  let fin := fun (x : Nat) => match f.read x with | .fin .. => true | _ => false
  (r, inf r && fin a && fin b)

/-- x ⊕ y of two lanes by VT. -/
def oplus (vt : BitVec 2) (x y : Sum) : Sum :=
  let n := x.2.1 + y.2.1
  let o := x.2.2 || y.2.2
  match vt.toNat with
  | 0 => let r := floatSum fmtF32 x.1.toNat y.1.toNat
         (BitVec.ofNat 64 r.1, n, o || r.2)
  | 1 => let r := floatSum fmtBf16 x.1.toNat y.1.toNat
         (BitVec.ofNat 64 r.1, n, o || r.2)
  | 2 =>
    let e := (x.1.setWidth 32).toInt + (y.1.setWidth 32).toInt
    (BitVec.ofNat 64 (BitVec.ofInt 32 (satInt e 32)).toNat, n + bit (decide (satInt e 32 ≠ e)), o)
  | _ =>
    let e := x.1.toInt + y.1.toInt
    (BitVec.ofInt 64 (satInt e 64), n + bit (decide (satInt e 64 ≠ e)), o)

/-- x ⊕ y where either may be absent. -/
def oplusOpt (vt : BitVec 2) (x y : Option Sum) : Option Sum :=
  match x, y with
  | some a, some b => some (oplus vt a b)
  | some a, none => some a
  | none, b => b

/-- The sum over a switch's children, or over the crown's nine. -/
def sumKids (vt : BitVec 2) (crown : Bool) (x : Nat → Option Sum) : Option Sum :=
  let f := oplusOpt vt
  let four := fun i => f (f (x i) (x (i + 1))) (f (x (i + 2)) (x (i + 3)))
  if crown then f (f (four 0) (four 4)) (x 8) else four 0

/-- A lane is zero (R105). -/
def zeroLane (vt : BitVec 2) (w : Word) : Bool :=
  match vt.toNat with
  | 0 => w.toNat % 2 ^ 31 == 0
  | 1 => w.toNat % 2 ^ 15 == 0
  | _ => w == 0

/-- Zero values in every lane. -/
def zeroLanes (n : Nat) : List Word := (range 0 n).map fun _ => 0

/-- A packet's body from its entries (R105, R146, R364): without entries only when LAST must be carried; dense when told so or when the
fill exceeds DTH, with zero at every offset that holds no entry. -/
def shape (dense : Bool) (dth lanes : Nat) (last : Bool) (l : List (Nat × List Word)) : Option (Bool × List (Nat × List Word)) :=
  if dense || dth < l.length then some (true, (range 0 256).map fun o => (o, (Map.find l o).getD (zeroLanes lanes)))
  else if !l.isEmpty then some (false, l)
  else if last then some (false, [(0, zeroLanes lanes)])
  else none

/-! ## Merging (R104, R105) -/

/-- A child is finished with its stream: it has sent LAST, or counts so. -/
def Child.finished (k : Child) : Bool := k.refused || (k.last && k.q.isEmpty)
/-- The child takes part in a merge at a BASE. -/
def Child.at (k : Child) (base : Nat) : Option Pkt :=
  if k.refused then none
  else match k.q with
    | x :: _ => if x.base = base then some x else none
    | [] => none
/-- The child after a merge at a BASE. -/
def Child.after (k : Child) (base : Nat) : Child :=
  match k.at base with
  | some x => { k with q := k.q.drop 1, base := some base, last := x.last, sat := x.sat, ovf := x.ovf, err := x.err }
  | none => k

/-- The smallest BASE at the heads of the children. -/
def Strm.nextBase (t : Strm) : Option Nat :=
  each t.kids (fun (e : Nat × Child) (b : Option Nat) =>
    if e.2.refused then b
    else match e.2.q, b with
      | x :: _, some y => some (min x.base y)
      | x :: _, none => some x.base
      | [], _ => b) none

/-- The packet that a switch makes of its children's heads at a BASE, and its table afterwards. -/
def Strm.merge (t : Strm) (stream : Nat) (crown : Bool) (base : Nat) : Option Pkt × Strm :=
  let heads := fun i => (Map.find t.kids i).bind fun k => k.at base
  let n := if crown then 9 else 4
  let offs := each (range 0 n) (fun i l => match heads i with | some k => each k.ents (fun e l => insertNat l e.1) l | none => l) []
  let sums := offs.map fun o => (o, (range 0 t.lanes).map fun j =>
    (sumKids t.vt crown fun i => (heads i).bind fun k => (Map.find k.ents o).map fun v => (((nth v j).getD 0, 0, false) : Sum)).getD (0, 0, false))
  let sat := satAdd32 t.sat (each sums (fun e m => each e.2 (fun (x : Sum) m => m + x.2.1) m) 0)
  let ovf := t.ovf || anyOf sums fun e => anyOf e.2 fun x => x.2.2
  let t := { t with kids := t.kids.map fun e => (e.1, e.2.after base), sat := sat, ovf := ovf }
  let ents := sums.map fun e => (e.1, e.2.map fun x => x.1)
  let dense := anyOf (range 0 n) fun i => match heads i with | some k => k.dense | none => false
  let ents := if t.zd && !dense then keep ents fun e => !allOf e.2 (zeroLane t.vt) else ents
  let last := allOf t.kids fun e => e.2.finished
  let pkt := (shape dense t.dth t.lanes last ents).map fun b =>
    (⟨streamClass stream, streamPlane stream, stream, t.dst, base, b.1, t.vt, t.zd, t.lanes, b.2, each t.kids (fun (e : Nat × Child) m => satAdd32 m e.2.sat) sat,
      ovf || anyOf t.kids (fun e => e.2.ovf), last, t.err || anyOf t.kids fun e => e.2.err⟩ : Pkt)
  (pkt, t)

/-- `SWITCH_SEGMENT_MERGE` (R104, R105): once every member child has a packet or is finished, the children with the smallest BASE merge; the
packet goes up, behind the opens of its stream, or from the root down to the destination. -/
def execSwitchSegmentMerge (sw stream : Nat) (s : State) : Ans :=
  match Map.find s.strms (strmKey sw stream) with
  | none => go s
  | some t =>
    let up := parentOf sw
    if !(allOf t.kids fun e => e.2.finished || !e.2.q.isEmpty) || 256 ≤ stream
        || (sw != t.root && s.opening stream up.1 (below sw)) then go s
    else
      match t.nextBase with
      | none => go s
      | some base =>
        let (pkt, u) := t.merge stream (sw == crownId) base
        let ended := allOf u.kids fun e => e.2.finished
        let s := if ended then { s with strms := Map.del s.strms (strmKey sw stream) } else s.setStrm sw stream u
        match pkt with
        | none => go s
        | some k =>
          if sw = t.root then go { s with pkts := s.pkts ++ [k] } else go (s.switchTakes up.1 up.2 k)

/-! ## Sending (R146) -/

/-- Bytes of a lane by VT (R103). -/
def laneBytes (vt : BitVec 2) : Nat :=
  match vt.toNat with
  | 1 => 2
  | 3 => 8
  | _ => 4

/-- The lanes of an entry's bytes, lane 0 first. -/
def unpackLanes (w n x : Nat) : List Word := (range 0 n).map fun j => BitVec.ofNat 64 (x / 2 ^ (8 * w * j) % 2 ^ (8 * w))
/-- The bytes of an entry's lanes. -/
def packLanes (w : Nat) (l : List Word) : Nat :=
  match l with
  | [] => 0
  | x :: r => x.toNat % 2 ^ (8 * w) + 2 ^ (8 * w) * packLanes w r

/-! ## The flits of a run packet (R103) -/

/-- Bytes cut into n flits, the first from the lowest byte up. -/
def flitsOf (n x : Nat) : List (BitVec 128) :=
  match n with
  | 0 => []
  | n + 1 => BitVec.ofNat 128 x :: flitsOf n (x / 2 ^ 128)

/-- The header flit. -/
def Pkt.header (k : Pkt) : BitVec 128 :=
  k.cls ++ BitVec.ofNat 10 k.dst ++ BitVec.ofNat 8 k.stream ++ BitVec.ofNat 8 (k.ents.length - 1) ++ BitVec.ofBool k.dense ++ k.vt
    ++ BitVec.ofNat 5 (k.lanes - 1) ++ BitVec.ofBool k.zd ++ k.plane ++ 0#39 ++ BitVec.ofNat 48 k.base
/-- The offset flits: a byte for each entry, 16 in a flit; a dense body has none. -/
def Pkt.offsets (k : Pkt) : List (BitVec 128) :=
  if k.dense then [] else flitsOf ((k.ents.length + 15) / 16) (packLanes 1 (k.ents.map fun e => BitVec.ofNat 64 e.1))
/-- The value flits: entry after entry, lane 0 first. -/
def Pkt.values (k : Pkt) : List (BitVec 128) :=
  let w := laneBytes k.vt
  flitsOf ((k.ents.length * k.lanes * w + 15) / 16) (packLanes w (k.ents.map fun e => e.2).flatten)
/-- The trailer flit. -/
def Pkt.trailer (k : Pkt) : BitVec 128 :=
  BitVec.ofNat 32 k.sat ++ BitVec.ofBool k.ovf ++ BitVec.ofBool k.last ++ BitVec.ofBool k.err ++ 0#93
/-- The flits of a run packet, in the order in which they travel. -/
def Pkt.flits (k : Pkt) : List (BitVec 128) := k.header :: k.offsets ++ k.values ++ [k.trailer]

/-- How a segment ends: another follows, no entry is left, or the index after it is out of order. -/
inductive SegEnd where
  | more
  | final
  | bad
  deriving DecidableEq, Repr

/-- The entries of a segment read from entry j on, with the index of the last and how the segment ends; `base` is none before its
first entry. -/
def State.readSegment (fuel : Nat) (s : State) (p : Nat) (c : Cmd) (j : Nat) (last base : Option Nat) :
    State × MrgGot (List (Nat × List Word) × Nat × Option Nat × SegEnd) :=
  match fuel with
  | 0 => (s, .ok ([], j, last, .more))
  | fuel + 1 =>
    if c.entries ≤ j then (s, .ok ([], j, last, .final))
    else
      match s.engRead p ((c.dn 0 + 8 * j) % 2 ^ 64) 8 with
      | (s, .stall) => (s, .stall)
      | (s, .bad k a h) => (s, .bad k a h)
      | (s, .ok x) =>
        if 2 ^ 48 ≤ x || (match last with | some y => decide (x ≤ y) | none => false) then (s, .ok ([], j, last, .bad))
        else if (match base with | some b => b != x / 256 | none => false) then (s, .ok ([], j, last, .more))
        else
          let n := c.lanes * laneBytes c.vt
          match s.engRead p ((c.dn 1 + n * j) % 2 ^ 64) n with
          | (s, .stall) => (s, .stall)
          | (s, .bad k a h) => (s, .bad k a h)
          | (s, .ok v) =>
            match State.readSegment fuel s p c (j + 1) (some x) (some (x / 256)) with
            | (s, .ok (l, m, y, e)) => (s, .ok ((x % 256, unpackLanes (laneBytes c.vt) c.lanes v) :: l, m, y, e))
            | r => r

/-- A send reads its next segment and its packet leaves the core (R146), behind its own open. -/
def State.sendSegment (s : State) (p i : Nat) (r : EngRun) : State :=
  let c := r.cmd
  if s.opening c.stream (switchAbove p 1) (· == p) then s else
  match s.readSegment 257 p c r.next r.last none with
  | (_, .stall) => s
  | (t, .bad k a h) => t.engFault p 3 i r.next k a h
  | (t, .ok (l, next, last, how)) =>
    let base := if l.isEmpty then 0 else (last.getD 0) / 256 * 256
    let l := if c.zd then keep l fun e => !allOf e.2 (zeroLane c.vt) else l
    let fin := how != SegEnd.more
    let t := match shape false (t.core p).dth c.lanes fin l with
      | none => t
      | some b => t.switchTakes (switchAbove p 1) (childAbove p 1) ⟨streamClass c.stream, streamPlane c.stream, c.stream, c.dst, base, b.1, c.vt, c.zd, c.lanes, b.2, 0, false, fin, how == SegEnd.bad⟩
    t.modRun p 3 i fun r => { r with
      next := next, last := last, w2 := r.w2 + l.length, b := if how = SegEnd.bad then 2 else r.b
      err := if how = SegEnd.bad then some (0x1A, 0) else r.err, fin := fin }

/-! ## Receiving (R146) -/

/-- An entry waiting to be written: its index and its lanes' bytes. -/
def packEntry (idx x : Nat) : Nat := idx + x * 2 ^ 48

/-- The entries of a packet that the receiver keeps: within its capacity, in order. -/
def EngRun.takePkt (r : EngRun) (k : Pkt) : EngRun :=
  let l := firstN k.ents (r.cmd.entries - r.next)
  let buf := (each l (fun e (a : Nat × Map Nat) =>
    (a.1 + 1, Map.put a.2 a.1 (packEntry (k.base + e.1) (packLanes (laneBytes k.vt) e.2)))) (r.next, r.buf)).2
  let q := { r with
    buf := buf, next := r.next + l.length, err := if l.length < k.ents.length then some (0x1B, 0) else r.err
    a := k.sat, b := bit k.ovf + 2 * bit k.err, last := if k.last then some 0 else r.last }
  { q with fin := q.last.isSome && q.buf.isEmpty }

/-- `COLL_PACKET_ARRIVAL` (R146): the oldest packet of a stream for this core is taken by its running receive. -/
def execCollPacketArrival (p n : Nat) (s : State) : Ans :=
  match nth s.pkts n with
  | none => go s
  | some k =>
    let first := !anyOf (firstN s.pkts n) fun e => e.dst == k.dst && e.stream == k.stream
    match indexOf ((s.core p).engine 3).runs fun r => r.cmd.receives && r.cmd.stream == k.stream && r.cmd.dst == k.dst && !r.fin with
    | none => go s
    | some i =>
      match nth ((s.core p).engine 3).runs i with
      | none => go s
      | some r =>
        if (s.core p).vcn != some k.dst || !first || !r.buf.isEmpty || r.last.isSome then go s
        else go (({ s with pkts := dropNth s.pkts n }).modRun p 3 i fun r => r.takePkt k)

/-- A receive writes its oldest waiting entry: the index to D0, the values to D1. -/
def State.writeEntry (s : State) (p i u y : Nat) (r : EngRun) : State :=
  let c := r.cmd
  let n := c.lanes * laneBytes c.vt
  s.engThen p 3 i u (s.engWrite p ((c.dn 0 + 8 * u) % 2 ^ 64) 8 (y % 2 ^ 48)) fun t _ =>
    match t.engWrite p ((c.dn 1 + n * u) % 2 ^ 64) n (y / 2 ^ 48) with
    | (_, .stall) => s
    | (_, .bad k a h) => s.engFault p 3 i u k a h
    | (t, .ok _) => t.modRun p 3 i fun r => let q := r.did u 1; { q with fin := q.last.isSome && q.buf.isEmpty }

end Sys2Proof.Machine
end

