-- ==== Sys2Proof/Machine/ElemVec.lean ====
section
/-!
DEFINITION. The vector instructions (R229 to R231) with the lane reduction (R218).
-/
namespace Sys2Proof.Machine

open Sys2Proof

/-- Takes of a vector operation in a rounding mode: one per lane under SR (R34, R214). -/
def laneTakes (rm : BitVec 3) : Nat := if rm = 4 then 32 else 0
/-- The lanes' takes of this firing, lane 0 first. -/
def Fx.lanes (f : Fx) : List Nat := (lfsrTakes 32 f.x.lfsr).1

/-- A lane operation on every value of a lane (R230): `g take a b`. -/
def laneMap (ty : Nat) (g : Nat → Nat → Nat → Nat) (take a b : Nat) : Nat :=
  packLane ty ((range 0 (perLane ty)).map fun j => g take (laneValue ty a j) (laneValue ty b j))

/-- The register a vector instruction writes, cleared at once when it flushes and the match holds L = 1 (R223). -/
def Fx.writeVec (f : Fx) (flush : Bool) (code : Nat) (v : Vec) (x : Elem) : Elem := x.setVreg code (if flush && f.m.flag Token.l then 0 else v)

/-- A vector instruction with destination A: the result goes to the register, and its reference code to the targets (R229). -/
def Fx.vecResult (f : Fx) (flush : Bool) (takes : Nat) (bad : Bool) (g : Nat → Vec) : Fire :=
  match f.vecA with
  | .reg code => if bad then Fire.failWith 0x25 takes else ⟨f.both (BitVec.ofNat 64 code), f.writeVec flush code (g code), takes, none⟩
  | _ => Fire.failWith 0x25 takes

/-- A lanewise instruction D ← g D B (R230); every operand is read before D is written. -/
def lanewise (w : EW) (takes : Nat) (g : Fx → Nat → Nat → Nat → Nat → Nat) (s : State) : Ans :=
  plainOp w (fun f =>
    let b := f.vecB f.ty
    f.vecResult true takes (b == .bad) fun code =>
      ofLanes ((range 0 32).map fun l =>
        laneMap f.ty (g f l) ((nth f.lanes l).getD 0) (laneOf (f.x.vreg code) l) (laneOf (b.value f.x) l))) s

/-- A value operation of the lanewise instructions. -/
def laneArith (int : Int → Int → Int) (flt : Fmt → Nat → Nat → Nat → Nat) (ty take a b : Nat) : Nat :=
  if isInt ty then wrapInt ty (int (intOf ty a) (intOf ty b)) else flt (fmtOf ty) take a b

/-- `vadd` (R230). -/
def execEVadd (rm : BitVec 3) (w : EW) (s : State) : Ans :=
  lanewise w (laneTakes rm) (fun f _ => laneArith (· + ·) (fun t => t.add rm.toNat) f.ty) s
/-- `vsub` (R230). -/
def execEVsub (rm : BitVec 3) (w : EW) (s : State) : Ans :=
  lanewise w (laneTakes rm) (fun f _ => laneArith (· - ·) (fun t => t.sub rm.toNat) f.ty) s
/-- `vmul` (R230). -/
def execEVmul (rm : BitVec 3) (w : EW) (s : State) : Ans :=
  lanewise w (laneTakes rm) (fun f _ => laneArith (· * ·) (fun t => t.mul rm.toNat) f.ty) s

/-- A + B × C at a type, fused. -/
def fusedTy (ty rm take a b c : Nat) : Nat :=
  if isInt ty then wrapInt ty (intOf ty a + intOf ty b * intOf ty c) else (fmtOf ty).fma rm take b c a

/-- `vfma` (R230): D ← A + B × v7. -/
def execEVfma (rm : BitVec 3) (w : EW) (s : State) : Ans :=
  plainOp w (fun f =>
    let b := f.vecB f.ty
    f.vecResult true (laneTakes rm) (b == .bad) fun code =>
      ofLanes ((range 0 32).map fun l =>
        packLane f.ty ((range 0 (perLane f.ty)).map fun j =>
          fusedTy f.ty rm.toNat ((nth f.lanes l).getD 0) (laneValue f.ty (laneOf (f.x.vreg code) l) j)
            (laneValue f.ty (laneOf (b.value f.x) l) j) (laneValue f.ty (laneOf (f.x.vreg 7) l) j)))) s

/-- `vmin` (R230). -/
def execEVmin (w : EW) (s : State) : Ans := lanewise w 0 (fun f _ _ a b => minTy f.ty a b) s
/-- `vmax` (R230). -/
def execEVmax (w : EW) (s : State) : Ans := lanewise w 0 (fun f _ _ a b => maxTy f.ty a b) s

/-- `vcvt` (R230): value j of each source lane, for the smaller of the two counts; the other values are zero. -/
def execEVcvt (rm : BitVec 3) (w : EW) (s : State) : Ans :=
  plainOp w (fun f =>
    let b := f.vecB f.srcTy
    f.vecResult false (laneTakes rm) (b == .bad) fun _ =>
      ofLanes ((range 0 32).map fun l =>
        packLane f.ty ((range 0 (perLane f.ty)).map fun j =>
          if j < perLane f.srcTy then (convert f.srcTy f.ty rm.toNat ((nth f.lanes l).getD 0) (laneValue f.srcTy (laneOf (b.value f.x) l) j)).1
          else 0))) s

/-- The values that `vred` adds: 32, or 64 of 16 bits (R218). -/
def redValues (ty : Nat) (v : Vec) : List Nat := ((lanesOf v).map fun l => (range 0 (perLane ty)).map fun j => laneValue ty l j).flatten

/-- The sum of R218: a node rounds with the take of the lane at which its right subtree begins. -/
def Fx.reduce (f : Fx) (rm : BitVec 3) (v : Vec) : Nat :=
  let op := fun m a b => if isInt f.ty then wrapInt f.ty (intOf f.ty a + intOf f.ty b)
    else (fmtOf f.ty).add rm.toNat ((nth f.lanes (m / perLane f.ty)).getD 0) a b
  redTree op (if perLane f.ty = 1 then 5 else 6) 1 (redValues f.ty v)

/-- `vred` (R218, R231). -/
def execEVred (rm : BitVec 3) (w : EW) (s : State) : Ans :=
  plainOp w (fun f =>
    match f.vecA with
    | .bad => Fire.failWith 0x25 (laneTakes rm)
    | o => ⟨f.both (writeTy f.ty (f.reduce rm (o.value f.x))), id, laneTakes rm, none⟩) s

/-- The lane of IMM[4:0]. -/
def Fx.lane (f : Fx) : Nat := (f.w.imm.extractLsb' 0 5).toNat

/-- `vbc` (R231): B has the vector role only when SB selects v or acc directly. -/
def execEVbc (w : EW) (s : State) : Ans :=
  plainOp w (fun f =>
    let vec := f.w.sb == 4 || f.w.sb == 5
    let b := f.vecB f.ty
    f.vecResult false 0 (vec && b == .bad) fun _ =>
      ofLanes ((range 0 32).map fun _ => if vec then laneOf (b.value f.x) f.lane else f.opB)) s

/-- `vins` (R231). -/
def execEVins (w : EW) (s : State) : Ans :=
  plainOp w (fun f =>
    f.vecResult false 0 false fun code =>
      ofLanes ((range 0 32).map fun l => if l = f.lane then f.opB else laneOf (f.x.vreg code) l)) s

/-- `vext` (R231): the offset is bits [4:0] of B's 64-bit VALUE. -/
def execEVext (w : EW) (s : State) : Ans :=
  plainOp w (fun f =>
    match f.vecA with
    | .bad => Fire.fail 0x25
    | o => f.value (writeTy f.ty (laneOf (o.value f.x) ((f.lane + (if f.noB then 0 else f.rawB.toNat % 32)) % 32)))) s

end Sys2Proof.Machine
end

