-- ==== Sys2Proof/Machine/EngStep.lean ====
section
/-!
DEFINITION. The engines' events (R131 to R136) and the rewalk of held accesses (R71).
-/
namespace Sys2Proof.Machine

open Sys2Proof

/-! ## Start -/

/-- A command that has just started; one with nothing to do is complete at once. -/
def Cmd.start (c : Cmd) : EngRun :=
  let none_ := match c.op with
    | 0 => c.dn 2 == 0
    | 1 => c.count == 0
    | 2 => c.count == 0
    | 3 => false
    | 0x11 => c.dn 3 == 0
    | 0x12 => c.dn 3 == 0
    | _ => false
  { cmd := c, buf := [], done := [], next := 0, w2 := 0, a := 0, b := 0, held := [], err := none, fin := none_, last := none, pos := []
    wts := 0, known := [] }

/-- `ENGINE_COMMAND_START` (R131, R145): the next queued command starts. The collective port may have several under way, so that a receive
does not keep its own core's send from starting; a send opens its stream (log 59, DEDUCED). -/
def execEngineCommandStart (p eng : Nat) (s : State) : Ans :=
  let g := (s.core p).engine eng
  match g.queue with
  | [] => go s
  | c :: rest =>
    if 4 ≤ eng || (eng != 3 && !g.runs.isEmpty) then go s
    else
      let s := s.modCore p fun x => x.setEngine eng ⟨rest, g.runs ++ [c.start]⟩
      go (if eng = 3 && !c.receives then { s with strmOpens := s.strmOpens ++ [⟨p, 1, c⟩] } else s)

/-! ## Units (R134, R135) -/

/-- An engine reads a unit of a started command: `unit` is the byte offset of a piece, a row, a key, or, for the collective port, which
of its commands goes on. It starts no unit while it holds one (R135) or a record (R151), nor with 64 under way (log 55, DEDUCED). -/
def State.engReads (s : State) (p eng unit : Nat) : State :=
  let i := if eng = 3 then unit else 0
  match nth ((s.core p).engine eng).runs i with
  | none => s
  | some r =>
    if r.fin || r.err.isSome || !r.held.isEmpty || 64 ≤ r.buf.length || (s.core p).stalled (fun q => q.unit == eng + 1) then s
    else
      match r.cmd.op with
      | 0 => s.cpyRead p i unit r
      | 1 => s.rowRead p i unit r
      | 2 => s.rowRead p i unit r
      | 3 => s.mrgRead p i r
      | 0x11 => s.hashRead p i unit r
      | 0x12 => s.hashRead p i unit r
      | _ => if r.cmd.receives then s else s.sendSegment p i r

/-- An engine writes a unit that it has read, which is not held (log 55, DEDUCED). -/
def State.engWrites (s : State) (p eng unit : Nat) : State :=
  let i := if eng = 3 then unit else 0
  match nth ((s.core p).engine eng).runs i with
  | none => s
  | some r =>
    let u := if eng = 3 then (match r.buf with | e :: _ => e.1 | [] => 0) else unit
    match Map.find r.buf u with
    | none => s
    | some y =>
      if r.fin || anyOf r.held fun h => h.1 == u then s
      else
        match r.cmd.op with
        | 0 => s.cpyWrite p i u y r
        | 1 => s.rowWrite p i u y r
        | 2 => s.rowWrite p i u y r
        | 3 => s.mrgWrite p i u y r
        | 0x11 => s.hashWrite p i u y r
        | 0x12 => s.hashWrite p i u y r
        | _ => s.writeEntry p i u y r

/-! ## Completion (R136, R138) -/

/-- W3 of a command's record (R138). -/
def EngRun.w3 (r : EngRun) : Nat :=
  match r.cmd.op with
  | 0 => 0
  | 1 => r.a
  | 2 => r.a + r.b * 2 ^ 32
  | 3 => r.a + r.b * 2 ^ 32
  | 0x11 => 0
  | 0x12 => r.a
  | _ => r.a + r.b * 2 ^ 32

/-- The record that a completed command writes: none with QUIET = 1 and no error. -/
def EngRun.record (r : EngRun) (eng vcn : Nat) : Option Rec :=
  match r.err with
  | some (c, va) => some ⟨r.w0 2 c eng vcn, BitVec.ofNat 64 va, BitVec.ofNat 64 r.w2, BitVec.ofNat 64 r.w3⟩
  | none => if r.cmd.word.getLsbD 21 then none else some ⟨r.w0 1 0 eng vcn, r.cmd.desc, BitVec.ofNat 64 r.w2, BitVec.ofNat 64 r.w3⟩

/-- `ENGINE_COMMAND_COMPLETE` (R131, R136): the oldest command, when every one of its accesses has been performed, writes its record and
retires, and its publications' largest WTS counts (R279); with no room in the event queue it keeps its entry (R151). -/
def execEngineCommandComplete (p eng : Nat) (s : State) : Ans :=
  let c := s.core p
  let g := c.engine eng
  match g.runs with
  | [] => go s
  | r :: rest =>
    if !r.fin then go s
    else
      let c' := (c.setEngine eng { g with runs := rest }).notePub r.wts
      match r.record eng c.vcnNum with
      | none => go (s.setCore p c')
      | some q => if c.eqRoom then go (s.setCore p (c'.putRec q)) else go s

/-! ## Rewalk (R71) -/

/-- An engine's i-th command resumes with its held units at a rewalk: a unit that faults again is held again, with a new record (R135) (log 60, DEDUCED). -/
def State.wakeRun (s : State) (p eng i : Nat) : State := s.modRun p eng i fun r => { r with held := [] }

/-- `REWALK` (R71): every access held at a core is walked again, at its memory ports and its engines (log 60, DEDUCED). -/
def execRewalk (p : Nat) (s : State) : Ans :=
  if !(s.core p).rewalk then go s
  else
    let s := s.modCore p fun c => { c with rewalk := false }
    let s := each (range 0 8) (fun row s => s.wakePort p row) s
    go (each (range 0 4) (fun eng s =>
      each (range 0 ((s.core p).engine eng).runs.length) (fun i s => s.wakeRun p eng i) s) s)

end Sys2Proof.Machine
end

