-- ==== Sys2Proof/Machine/Traps.lean ====
section
/-!
DEFINITION. Trap, safe-point, context and migration instructions (R332 to R351, R359), `halt` (R178) and the safe-point distance fault
(R339).
-/
namespace Sys2Proof.Machine

open Sys2Proof

/-- `tret` (R335). -/
def execTret (s : State) : Ans := returnTrap .tret s
/-- `trap` (R337): cause 0x08, EADDR zext(imm16, 16), EPC the next instruction. -/
def execTrap (imm : BitVec 16) (s : State) : Ans := faultsNext 0x08 (imm.setWidth 64) s
/-- `brk` (R337): with DBE = 1 the scalar core stops and Zusil notifies the debugger; else cause 0x05. -/
def execBrk (s : State) : Ans :=
  if s.me.dbe then go ((s.modMe fun x => { x.advance with stop := some .brk }).report (.breakStop s.mine.vcnNum s.cur.k))
  else faultsNext 0x05 0 s
/-- `halt` (R178): the scalar core stops after the instruction completes. -/
def execHalt (s : State) : Ans := go (s.modMe fun x => { x.advance with stop := some .halt })

/-- `spt` (R340): SPCOUNT is cleared; with SPP = 1 the scalar core stops here, and RESUME is the pc execution takes next. -/
def execSpt (imm : BitVec 16) (s : State) : Ans :=
  if s.me.nsp ≤ imm.toNat then faults 0x17 0 s
  else
    go (s.modMe fun x =>
      let y := { x with spcount := 0 }.advance
      if x.spp then { y with sp := some (imm.toNat, y.pc) } else y)

/-- What an open `rng` has under way and its wait may still withdraw (R295): its request at the interface, in flight, or kept by the keeper for a slot. -/
def State.rngWithdraw (s : State) (p : Nat) (k : Kind) : Option State :=
  let v := (s.core p).vcnNum
  let opens := fun (m : Msg) => m.opc == 8 && m.subop == 3
  let sent := fun (e : NetMsg) => e.issuer == some k && e.msg.src.toNat == v && opens e.msg
  let kept := fun (b : Kind × List Msg) => b.1 == k && anyOf b.2 opens
  let asked := fun (o : OpenReq) => o.vcn == v && o.kind == k
  match (s.scal p k).wait with
  | some (.rngOpen e) =>
    if anyOf s.net sent || anyOf (s.core p).behind kept || anyOf s.opens asked then
      some (({ s with net := keep s.net fun x => !sent x, opens := keep s.opens fun o => !asked o }).modCore p fun c =>
        { c with behind := keep c.behind fun b => !kept b }.setTask e { Task.reset with gen := (c.task e).gen })
    else none
  | some (.engine ..) => some s
  | some _ => none
  | none => some s

/-- `SAFE_POINT_DISTANCE_FAULT` (R130, R179, R339): SPCOUNT exceeds SPMAX on a scalar core with a running firing that is neither stopped
nor frozen. A wait for a resource is abandoned; an instruction in progress completes first. EADDR is SPCOUNT before the reset. -/
def execSafePointDistanceFault (p : Nat) (k : Kind) (s : State) : Ans :=
  let c := s.core p
  let x := c.scal k
  if x.run.isSome && x.stop.isNone && x.sp.isNone && c.spmax.toNat < x.spcount.toNat then
    match s.rngWithdraw p k with
    | some s => go (s.trap p k 0x04 x.pc x.spcount)
    | none => go s
  else go s

/-! ## Context records (R348 to R350) -/

/-- The live registers' words in the order of R348. -/
def Scalar.liveWords (x : Scalar) (live : Word) : List Word :=
  ((range 1 31).map fun i => if live.getLsbD i then [Map.get x.g 0 i] else []).flatten ++
  ((range 0 8).map fun i => if live.getLsbD (32 + i) then [Map.get x.t 0 i] else []).flatten ++
  (if live.getLsbD 40 then [x.lpc] else []) ++ (if live.getLsbD 41 then [x.lps] else []) ++
  (if live.getLsbD 42 then [x.lpe] else []) ++ (if live.getLsbD 43 then [x.slps, x.slpe] else [])

/-- NW of a record (R348). -/
def recordWords (hnd : Bool) (live : Word) : Nat := 3 + 4 * bit hnd + popcount (live.toNat / 2) 42 + 2 * bit (live.getLsbD 43)

/-- C0 of a record (R348). -/
def recordHead (k : Kind) (x : Scalar) (live : Word) (spt resume : Nat) : Word :=
  BitVec.ofNat 8 0x5C ++ BitVec.ofNat 8 (recordWords x.hnd live) ++ BitVec.ofNat 2 k.code ++ BitVec.ofBool x.hnd ++ BitVec.ofBool x.lpa
    ++ x.prio ++ BitVec.ofBool x.dbe ++ 0#9 ++ BitVec.ofNat 16 spt ++ BitVec.ofNat 16 resume

/-- The scalar record of a scalar core under a safe-point entry (R348). -/
def Scalar.record (x : Scalar) (k : Kind) (live : Word) (spt resume : Nat) : List Word :=
  [recordHead k x live spt resume, live, x.tvec] ++ (if x.hnd then [x.epc, x.ecause, x.eaddr, x.ssr] else []) ++ x.liveWords live

/-- Words as one little-endian number. -/
def packWords (l : List Word) : Nat :=
  match l with
  | [] => 0
  | w :: r => w.toNat + 2 ^ 64 * packWords r

/-- `ctxsv` (R349): the entry's LIVE is read from the section's safe-point table; all pages are checked before any word is written (log 30, DEDUCED). -/
def execCtxsv (d a b : BitVec 5) (s : State) : Ans :=
  let va := s.gr a
  let n := s.gr b
  let x := s.me
  if va.extractLsb' 0 3 != 0 || x.nsp ≤ n.toNat then faults 0x17 0 s
  else
    readWords (x.sptab.toNat + 16 * n.toNat) 1 .load s fun s w =>
      let live := (nth w 0).getD 0
      if d != 0 && live.getLsbD d.toNat then faults 0x17 0 s
      else
        let l := x.record s.cur.k live (n.toNat % 65536) (x.pc + 4).toNat
        checked va.toNat (8 * l.length) .store 1 anyClass s fun s parts =>
          doneG d (BitVec.ofNat 64 (8 * l.length)) (s.storeOn s.cur.p s.cur.k parts (packWords l) (wordOf (.ctxsv d a b)))

/-- Takes the first word of a list when a register is live. -/
def takeWord (live : Bool) (l : List Word) (x : Scalar) (f : Word → Scalar → Scalar) : List Word × Scalar :=
  if live then (l.drop 1, f (l.head?.getD 0) x) else (l, x)

/-- The live registers restored from a record's words (R350). -/
def Scalar.restoreLive (x : Scalar) (live : Word) (l : List Word) : Scalar :=
  let r := each (range 1 31) (fun i (a : List Word × Scalar) =>
    takeWord (live.getLsbD i) a.1 a.2 fun w y => { y with g := Map.put y.g i w }) (l, x)
  let r := each (range 0 8) (fun i (a : List Word × Scalar) =>
    takeWord (live.getLsbD (32 + i)) a.1 a.2 fun w y => { y with t := Map.put y.t i w }) r
  let r := takeWord (live.getLsbD 40) r.1 r.2 fun w y => { y with lpc := w }
  let r := takeWord (live.getLsbD 41) r.1 r.2 fun w y => { y with lps := w }
  let r := takeWord (live.getLsbD 42) r.1 r.2 fun w y => { y with lpe := w }
  let r := takeWord (live.getLsbD 43) r.1 r.2 fun w y => { y with slps := w }
  (takeWord (live.getLsbD 43) r.1 r.2 fun w y => { y with slpe := w }).2

/-- The t words that a record restores (R350). -/
def recordTimes (live : Word) (l : List Word) : List Word :=
  firstN (l.drop (popcount (live.toNat / 2) 31)) (popcount (live.toNat / 2 ^ 32) 8)

/-- The header of a record is one that this kind's `ctxld` accepts (R350). -/
def recordOk (k : Kind) (c0 c1 : Word) : Bool :=
  c0.extractLsb' 56 8 == 0x5C && (c0.extractLsb' 46 2).toNat == k.code && c0.extractLsb' 32 9 == 0 && !c1.getLsbD 0 &&
    c1.extractLsb' 44 20 == 0 && (c0.extractLsb' 48 8).toNat == recordWords (c0.getLsbD 45) c1 &&
    (c0.extractLsb' 0 16).toNat < Config.storeBytes k && c0.extractLsb' 0 2 == 0

/-- A record restored into a scalar core (R350): rest are the words after C2. -/
def Scalar.restore (x : Scalar) (c0 c1 c2 : Word) (rest : List Word) : Scalar :=
  let f := fun i => (nth rest i).getD 0
  let hnd := c0.getLsbD 45
  let x := { x with tvec := c2 &&& ~~~3#64 }
  let x := if hnd then { x with epc := f 0, ecause := f 1 &&& 0xFF, eaddr := f 2, ssr := f 3, hnd := true } else x
  let x := x.restoreLive c1 (if hnd then rest.drop 4 else rest)
  { x with lpa := c1.getLsbD 40 && c0.getLsbD 44, prio := c0.extractLsb' 42 2, dbe := c0.getLsbD 41, spcount := 0
           pc := (c0.extractLsb' 0 16).setWidth 64 }

/-- `ctxld` (R350): elements held for a resumption start when the control core's completes (R351). -/
def execCtxld (a : BitVec 5) (s : State) : Ans :=
  if s.me.hnd then illegal (.ctxld a) s
  else
    let va := s.gr a
    readWords va.toNat 2 .load s fun s h =>
      let c0 := (nth h 0).getD 0
      let c1 := (nth h 1).getD 0
      if va.extractLsb' 0 3 != 0 || !recordOk s.cur.k c0 c1 then faults 0x06 va s
      else
        readWords va.toNat (recordWords (c0.getLsbD 45) c1) .load s fun s w =>
          let rest := w.drop 3
          let live := if c0.getLsbD 45 then rest.drop 4 else rest
          if !allOf (recordTimes c1 live) timeOk then faults 0x06 va s
          else
            let s := if s.cur.k = .control then s.modMine fun c => { c with resumeWait := false } else s
            go (s.modMe fun x => x.restore c0 c1 ((nth w 2).getD 0) rest)

/-! ## Migration (R359) -/

/-- `tmigr` (R359). -/
def execTmigr (a : BitVec 5) (s : State) : Ans :=
  needs 7 (.tmigr a) s fun s =>
    let w := s.gr a
    let v := (w.extractLsb' 0 10).toNat
    let req := w.getLsbD 11
    let pin := w.getLsbD 10
    if w >>> 12 != 0 || (req && pin) || (!req && v != 0) then faults 0x17 0 s
    else if req && (v = s.mine.vcnNum || !s.local v || s.posOf v / 64 != s.cur.p / 64) then faults 0x17 0 s
    else done (s.modMine fun c => { c with sw := { c.sw with pin := pin && !req, req := if req then some (v, 0) else none } })

end Sys2Proof.Machine
end

