-- ==== Sys2Proof/Machine/Freeze.lean ====
section
/-!
DEFINITION. Freezing a core, saving and resuming it (R345 to R351), as pre-emption, checkpoint and tourbillon use it.
-/
namespace Sys2Proof.Machine

open Sys2Proof

/-! ## The request (R345) -/

/-- The three kinds, control core first. -/
def kinds : List Kind := [.control, .loader, .storer]

/-- Whether an element stops at the request: one that is not covered after its current firing, a covered one when it holds nothing and has
not fired since its last marker or flip. -/
def Core.stopsNow (c : Core) (e : Nat) (x : Elem) : Bool :=
  match x.act with
  | none => true
  | some g => !g.covered || (!c.elemHolds e && !x.fired)

/-- A freeze is requested of core p: SPP becomes 1, and the elements that stop at once stand at their cut. A position that holds no VCN has
nothing to freeze (R353). -/
def State.requestFreeze (s : State) (p : Nat) (by_ : FreezeBy) : State :=
  s.modCore p fun c =>
    let c' := { c with freeze := some ⟨by_, 0, c.vcn.isNone⟩, elems := c.elems.map fun (e : Nat × Elem) => (e.1, { e.2 with atCut := c.stopsNow e.1 e.2 }) }
    c'.modAll fun x => { x with spp := true }

/-- The first part of R345's table that has not stopped, by its row counted from 0. -/
def State.unstopped (s : State) (p : Nat) : Option Nat :=
  let c := s.core p
  if anyOf kinds fun k => (c.scal k).run.isSome && (c.scal k).sp.isNone && (c.scal k).stop.isNone then some 1
  else if anyOf kinds fun k => (c.scal k).stop.isSome then some 2
  else if anyOf c.elems fun e => (match e.2.act with | some g => !g.covered | none => false) && !e.2.atCut then some 3
  else if anyOf c.elems fun e => e.2.act.isSome && !e.2.atCut then some 4
  else if anyOf (range 0 4) fun i => !(c.engine i).queue.isEmpty || anyOf (c.engine i).runs fun r => !r.fin then some 5
  else if anyOf (range 0 8) fun n => !(c.progress n).ents.isEmpty then some 6
  else if anyOf (range 0 8) fun i => !(c.port i).accs.isEmpty || (c.port i).held.isSome then some 7
  else if anyOf s.reqs (fun r => r.p == p) || anyOf s.replies (fun r => r.req.p == p) then some 8
  else none

/-! ## Publication in one step (R54, R345) -/

/-- The dirty bytes of a line of core p published at its home, the WTS returned and the line clean; none while the home line is under a lock. -/
def State.publishPlace (s : State) (p : Nat) (w : Place) : Option State :=
  let c := s.core p
  match c.lineAt w with
  | none => some s
  | some l =>
    if l.dirty = 0 then some s
    else
      let a : Acc := ⟨0, c.placeLine w * 128, 128, phasedWin l.dom l.sprd⟩
      match s.atHome p a (.publish l.dirty l.data l.poison c.ph) with
      | none => none
      | some (t, r) =>
        match r.reply with
        | .wts q => some (t.modCore p fun c => (c.setLine w (some { l with dirty := 0, wts := q, rts := q })).notePub q)
        | _ => some t

/-- Every line of a list published. -/
def State.publishPlaces (s : State) (p : Nat) (l : List Place) : Option State :=
  match l with
  | [] => some s
  | w :: r => (s.publishPlace p w).bind fun s => State.publishPlaces s p r

/-- Every dirty line of L1 and stash published, and PH raised to the largest WTS returned (R345). -/
def State.publishCore (s : State) (p : Nat) : Option State :=
  (s.publishPlaces p (s.core p).dirtyPlaces).map fun s => s.modCore p fun c => { c with ph := maxW c.ph c.pubMax }

/-! ## Saving (R347, R348) -/

/-- The context area of VCN v. -/
def State.contextOf (s : State) (v : Nat) : Nat := (match s.job with | some j => j.ctxb.toNat | none => 0) + v * 0x400000
/-- The scalar record of a kind in the context area of VCN v. -/
def State.recordOf (s : State) (v : Nat) (k : Kind) : Nat := (s.contextOf v + 0x40000 + k.code * 0x200) % 2 ^ 64

/-- LIVE and STUB of entry n of a scalar core's safe-point table (R341); none when its line is under a lock or its page cannot be read (log 30, DEDUCED). -/
def State.safePoint (s : State) (p : Nat) (k : Kind) (n : Nat) : Option (State × Word × Word) :=
  match s.items p k ((s.scal p k).sptab.toNat + 16 * n) 8 2 .load with
  | (s, .ok [live, stub]) => some (s, live, stub.extractLsb' 0 16 |>.setWidth 64)
  | _ => none

/-- Words written in the name of core p at an address and published. -/
def State.putWords (s : State) (p va : Nat) (l : List Word) : Option State :=
  match s.engWrite p (va % 2 ^ 64) (8 * l.length) (packWords l) with
  | (s, .ok w) => some (s.modCore p fun c => c.notePub (BitVec.ofNat 64 w))
  | _ => none

/-- The record of a frozen scalar core written into its context area, in the core's name and published (R347, R348). -/
def State.saveScalar (s : State) (p v : Nat) (k : Kind) : Option State :=
  let x := s.scal p k
  match x.run, x.sp with
  | some _, some (n, resume) => (s.safePoint p k n).bind fun r => r.1.putWords p (s.recordOf v k) (x.record k r.2.1 n resume.toNat)
  | _, _ => s.putWords p (s.recordOf v k) [0]

/-- The job's part of VCN 0's context area. -/
def State.jobSaved (s : State) : JobSaved :=
  ⟨s.cohorts, s.ranges, s.opens, s.domains, s.pq, s.ptab, s.crown, s.stuck, s.front, s.bq, s.strms, s.strmOpens, s.pkts, s.net, s.hub.works⟩

/-- The 192-bit image of a token bound for a slot and port (R33). -/
def Token.image (k : Token) (slot port : Nat) : BitVec 192 :=
  k.value ++ k.time ++ k.diff ++ k.path ++ BitVec.ofBool k.p ++ BitVec.ofBool k.m ++ BitVec.ofBool k.l ++ BitVec.ofBool k.c
    ++ k.ctx ++ 0#7 ++ BitVec.ofNat 5 slot ++ BitVec.ofNat 1 port

/-- n words of a number, the least significant first. -/
def wordsOfNat (n x : Nat) : List Word :=
  match n with
  | 0 => []
  | n + 1 => BitVec.ofNat 64 x :: wordsOfNat n (x / 2 ^ 64)

/-- A waiting token's image as three words (R33). -/
def Waiting.words (w : Waiting) : List Word := wordsOfNat 3 (w.tok.image w.slot w.port).toNat
/-- A spilled token's 32-byte entry: its image and ELEM (R190). -/
def Spill.words (x : Spill) : List Word := x.w.words ++ [BitVec.ofNat 64 (x.e % 64)]

/-- A section of a context area ends in a check word (R347). -/
def sealed (l : List Word) : List Word := l ++ [Config.checkWord l]
/-- The words of the core section: one word stands for what it holds (R347) (log 9, DESIGN CHOICE). -/
def Saved.coreSection (x : Saved) : List Word := sealed [x.coreWord]
/-- The words of the fabric section: one word for what it holds, then the images of the tokens, which are always saved (R343), and the overflow
entries (R33, R190, R347) (log 9, DESIGN CHOICE). -/
def Saved.fabricSection (x : Saved) : List Word :=
  sealed (x.fabricWord :: ((x.core.elems.map fun e => (e.2.tokens.map Waiting.words).flatten).flatten ++ (x.core.overflow.map Spill.words).flatten))

/-- The core and fabric sections of core p written into the context area of VCN v, with a job's part where one is given (R347). -/
def State.saveSections (s : State) (p v : Nat) (j : Option JobSaved) : Option State :=
  let x : Saved := ⟨Config.freeWord s.free, Config.freeWord (s.free + 1), s.core p, j⟩
  (s.putWords p (s.contextOf v) x.coreSection).bind fun s =>
    (s.putWords p (s.contextOf v + 0x50000) x.fabricSection).map fun s => { s with free := s.free + 2, saved := x :: s.saved }

/-- A frozen core's sections written into its context area; `whole` says that the whole job is frozen (R347). -/
def State.saveCore (s : State) (p : Nat) (whole : Bool) : Option State :=
  match (s.core p).vcn with
  | none => some s
  | some v =>
    (((s.publishCore p).bind fun s => s.saveScalar p v .control).bind fun s => s.saveScalar p v .loader).bind fun s =>
      (s.saveScalar p v .storer).bind fun s => s.saveSections p v (if whole && v = 0 then some s.jobSaved else none)

/-- The positions that hold a VCN. -/
def State.occupied (s : State) : List Nat := (keep s.cores fun e => e.2.vcn.isSome).map Prod.fst

/-- Several cores saved. -/
def State.saveCores (s : State) (l : List Nat) : Option State :=
  match l with
  | [] => some s
  | p :: r => (s.saveCore p true).bind fun s => State.saveCores s r

/-! ## Resuming (R343, R351) -/

/-- An element restored at a cut: state that is not live takes its values of R343 where the element is covered; an element with MX = 1 asks for
a grant (R241). The rounding register takes the free value given (log 12). -/
def Elem.resumed (x : Elem) (free : Word) : Elem :=
  match x.act with
  | none => { x with atCut := false }
  | some g =>
    let x := { x with atCut := false, lfsr := lfsrLoad free, mx := false, granted := false, asked := x.asked || x.mx }
    match g.live with
    | none => x
    | some w =>
      let live := fun (b : Nat) => w.getLsbD b
      { x with
        e := keep x.e fun r => live r.1
        v := keep x.v fun r => live (8 + r.1)
        acc := keep x.acc fun r => live (16 + r.1)
        k := (range 0 8).map fun i => (i, if live (21 + i) then Map.get x.k 0 i else Map.get g.k 0 i)
        cim := if live 20 then x.cim else { Cim.empty with wp := x.cim.wp } }

/-- A scalar core restarted at a stub (R351): g1 holds the record's address, and PRIO comes from the record's header. The firing is the one that the
core section holds. -/
def Scalar.atStub (x : Scalar) (head record stub : Word) : Scalar :=
  { x with g := [(1, record)], t := [], pc := stub, lpc := 0, lps := 0, lpe := 0, slps := 0, slpe := 0, lpa := false, hnd := false, spcount := 0
           prio := head.extractLsb' 42 2, run := some (x.run.getD .launch), spp := false, sp := none, wait := none, stop := none }
/-- FMT and SPT of a scalar record's header (R348). -/
def headFmt (head : Word) : Nat := (head.extractLsb' 56 8).toNat
def headSpt (head : Word) : Nat := (head.extractLsb' 16 16).toNat

/-- A scalar core of a resumed occupant (R351), by its record in the context area: FMT 0x5C starts it at the stub of entry SPT; otherwise it is idle. -/
def State.resumeScalar (s : State) (p v : Nat) (k : Kind) : Option State :=
  match s.items p k (s.recordOf v k) 8 1 .load with
  | (s, .ok [head]) =>
    if headFmt head = 0x5C then
      (s.safePoint p k (headSpt head)).map fun r => r.1.modScal p k fun x => x.atStub head (BitVec.ofNat 64 (s.recordOf v k)) r.2.2
    else some (s.modScal p k fun x => { x with run := none, spp := false, sp := none })
  | _ => none

/-- An occupant's core state placed at position p (R356, R351): the lines of L1, stash and TLB are empty, stash mappings stay (R58), and
what belongs to the position stays with it (R353) (log 67, DEDUCED). -/
def State.placeCore (s : State) (p : Nat) (c : Core) : State :=
  let here := s.core p
  s.setCore p { c with
    l1 := [], tlb := [], stash := c.stash.map fun b => (b.1, { b.2 with lines := [] }), freeze := none, rewalk := false
    sw := { c.sw with since := here.sw.since, pairs := here.sw.pairs } }

/-- The occupant of position p resumes (R351); its elements wait for the control core's `ctxld` when that core had a firing. None while a
table cannot be read. -/
def State.resumeCore (s : State) (p : Nat) : Option State :=
  match (s.core p).vcn with
  | none => some s
  | some v =>
    let n := (s.core p).elems.length
    let s := s.modCore p fun c => { c with
      elems := (each c.elems (fun (e : Nat × Elem) (a : Nat × Map Elem) =>
        (a.1 + 1, a.2 ++ [(e.1, e.2.resumed (Config.freeWord (s.free + a.1)))])) (0, [])).2 }
    let s := { s with free := s.free + n }
    (((s.resumeScalar p v .control).bind fun s => s.resumeScalar p v .loader).bind fun s => s.resumeScalar p v .storer).map fun s =>
      s.modCore p fun c => { c with resumeWait := c.ctl.run.isSome }

/-- Several cores resumed where they stand: L1, TLB and stash lines emptied first. -/
def State.resumeCores (s : State) (l : List Nat) : Option State :=
  match l with
  | [] => some s
  | p :: r => ((s.placeCore p (s.core p)).resumeCore p).bind fun s => State.resumeCores s r

/-! ## The end of a freeze without a save (R346) -/

/-- The sections of the context area of VCN v, read by core p (R347): none where a check word does not match, or the words are none that were written. -/
def State.context (s : State) (p v : Nat) : State × Option Saved :=
  match s.items p .control (s.contextOf v) 8 2 .load with
  | (s, .ok l) =>
    match firstOf s.saved fun x => x.coreSection == l with
    | none => (s, none)
    | some x =>
      match s.items p .control (s.contextOf v + 0x50000) 8 x.fabricSection.length .load with
      | (s, .ok m) => (s, if m = x.fabricSection then some x else none)
      | (s, _) => (s, none)
  | (s, _) => (s, none)

/-- Every stopped part resumes where it stopped; SPP becomes 0. -/
def State.unfreeze (s : State) (p : Nat) : State :=
  s.modCore p fun c =>
    ({ c with freeze := none, elems := c.elems.map fun (e : Nat × Elem) => (e.1, { e.2 with atCut := false }) }).modAll fun x => { x with spp := false, sp := none }

/-- What a whole-job freeze is for, if one is under way: its cores are those without a freeze of another kind. -/
def State.jobFreeze (s : State) : Option FreezeBy :=
  if s.hub.preempting.isSome then some .preempt
  else match s.hub.check with
    | some k => if k.frozen then some .checkpoint else none
    | none => none

/-- A core whose exchange has ended joins a whole-job freeze that is under way (R377). -/
def State.rejoin (s : State) (p : Nat) : State :=
  match s.jobFreeze with
  | some b => if (s.core p).vcn.isSome then s.requestFreeze p b else s
  | none => s

/-- A whole-job freeze is requested of every core without a freeze. -/
def State.freezeAll (s : State) (b : FreezeBy) : State :=
  each s.occupied (fun p s => if (s.core p).freeze.isNone then s.requestFreeze p b else s) s

/-- Every core of the job is frozen for a reason. -/
def State.allFrozen (s : State) (b : FreezeBy) : Bool :=
  allOf s.occupied fun p => match (s.core p).freeze with | some f => f.complete && f.by_ == b | none => false

/-- Every core frozen for a reason is let go. -/
def State.unfreezeAll (s : State) (b : FreezeBy) : State :=
  each s.occupied (fun p s => match (s.core p).freeze with | some f => if f.by_ = b then s.unfreeze p else s | none => s) s

end Sys2Proof.Machine
end

