-- ==== Sys2Proof/Machine/Launch.lean ====
section
/-!
DEFINITION. The job block and what a launch does with it (R39, R46, R66, R75, R82, R89, R154, R291, R292, R314, R341, R372), and the
clearing of a job (R372, R381).
-/
namespace Sys2Proof.Machine

open Sys2Proof

/-! ## Reading by physical address -/

/-- n words at physical address pa, read at the channel controllers under the local interleave (log 14, DEDUCED); none outside DRAM or on a poisoned
word. -/
def State.physWords (s : State) (pa n : Nat) : Option (List Word) :=
  match n with
  | 0 => some []
  | n + 1 =>
    if Config.dramBytes < pa + 8 then none
    else (s.dramGet pa 8).bind fun x => (State.physWords s (pa + 8) n).map fun l => BitVec.ofNat 64 x :: l

/-- The 16-bit entries of a list of words, lowest first. -/
def halves (l : List Word) : List (BitVec 16) :=
  (l.map fun w => [w.extractLsb' 0 16, w.extractLsb' 16 16, w.extractLsb' 32 16, w.extractLsb' 48 16]).flatten

/-- A list in groups of two. -/
def pairsOf (l : List Word) : List (Word × Word) :=
  match l with
  | a :: b :: r => (a, b) :: pairsOf r
  | _ => []

/-- A list in groups of four words. -/
def foursOf (l : List Word) : List (Word × Word × Word × Word) :=
  match l with
  | a :: b :: c :: d :: r => (a, b, c, d) :: foursOf r
  | _ => []

/-- A list as a map from 0. -/
def numbered {V : Type} (n : Nat) (l : List V) : Map V :=
  match l with
  | [] => []
  | x :: r => (n, x) :: numbered (n + 1) r

/-! ## The job block (R372) -/

/-- A code section (R372): VCN, kind, NSP, length, and the virtual addresses of code, safe-point table and handler words. -/
structure Section where
  vcn : Nat
  kind : Kind
  nsp : Nat
  len : Nat
  code : Nat
  sptab : Nat
  handlers : Nat
  deriving DecidableEq, Repr

/-- A job block as it was read. -/
structure JobBlock where
  job : Job
  reloc : List (BitVec 16)
  sections : List Section
  /-- The domain tables of all dies; none for the default (J12 = 0). -/
  dtab : Option (List Word)
  atab : List (BitVec 128)
  deriving DecidableEq, Repr

/-- What a check answers: a reason with the VCN it names (R373) and Zusil's records, where an access made some; or what it made. -/
inductive Checked (α : Type) where
  | bad (reason vcn : Nat) (z : Option (List ZRec))
  | ok (x : α)

/-- A check followed by another. -/
def Checked.then {α β : Type} (x : Checked α) (f : α → Checked β) : Checked β :=
  match x with
  | .bad r v z => .bad r v z
  | .ok a => f a

/-- A check that fails with a reason unless the condition holds. -/
def require {α : Type} (c : Bool) (reason vcn : Nat) (k : Checked α) : Checked α := if c then k else .bad reason vcn none

/-- A value, or a reason. -/
def Checked.of {α : Type} (x : Option α) (reason vcn : Nat) : Checked α :=
  match x with
  | some a => .ok a
  | none => .bad reason vcn none

/-- The format of J0 to J15: MAGIC, VER, every reserved bit zero, and the limits of NVCN, FUTB, NSEC and NAT (R372) (log 69, DEDUCED). -/
def blockOk (j : List Word) : Bool :=
  let f := fun i => (nth j i).getD 0
  let small := fun i => (f i).extractLsb' 48 16 == 0
  (f 0).extractLsb' 48 16 == 0xD31D && (f 0).extractLsb' 40 8 == 1 && (f 0).extractLsb' 10 30 == 0 &&
    1 ≤ ((f 0).extractLsb' 0 10).toNat && ((f 0).extractLsb' 0 10).toNat ≤ 576 &&
    small 1 && small 2 && small 3 && (f 4).extractLsb' 32 32 == 0 && (f 5).extractLsb' 32 32 == 0 && (f 7).extractLsb' 0 5 == 0 &&
    small 8 && (f 9).extractLsb' 11 53 == 0 && 1 ≤ (f 9).toNat && (f 9).toNat ≤ 1728 && small 10 && (f 11).extractLsb' 16 48 == 0 &&
    small 12 && small 13 && (f 14).extractLsb' 5 59 == 0 && (f 14).toNat ≤ 29 && f 15 == 0

/-- The window table keeps R39 and R66. -/
def windowsOk (l : List Word) : Bool :=
  allOf l (fun w => w.extractLsb' 12 52 == 0 && w.extractLsb' 1 2 == 0) &&
    match keep l winPtw with
    | [w] => winClass w == 1 || winClass w == 2
    | _ => false

/-- The first VCN whose relocation entry breaks R82, or names a position that an earlier one names (log 15, DESIGN CHOICE). -/
def relocBad (l : List (BitVec 16)) (v : Nat) (taken : List Nat) : Option Nat :=
  match l with
  | [] => none
  | e :: r =>
    let here := relocV e && !relocRmt e
    if e.getLsbD 12 || (here && (576 ≤ relocNum e || hasNat taken (relocNum e))) then some v
    else relocBad r (v + 1) (if here then relocNum e :: taken else taken)

/-- An access entry with a reserved bit set (R75). -/
def atabReserved (e : BitVec 128) : Bool := e.extractLsb' 108 15 != 0 || e.extractLsb' 32 4 != 0

/-- A section entry: its format (R372), then a section (log 69, DEDUCED). -/
def sectionOf (local_ : Nat → Bool) (w : Word × Word × Word × Word) : Checked Section :=
  let s0 := w.1
  let v := (s0.extractLsb' 0 10).toNat
  let code := (s0.extractLsb' 10 2).toNat
  let kind := Kind.ofCode code
  let nsp := (s0.extractLsb' 13 17).toNat
  let len := (s0.extractLsb' 32 32).toNat
  require (code != 3 && !s0.getLsbD 12 && s0.extractLsb' 30 2 == 0 && nsp ≤ 65536 && local_ v && len ≤ Config.storeBytes kind &&
      len % 4 == 0 && (code == 0 || w.2.2.2 == 0)) 2 v <|
    require (w.2.2.1.extractLsb' 0 3 == 0) 6 v (.ok ⟨v, kind, nsp, len, w.2.1.toNat, w.2.2.1.toNat, w.2.2.2.toNat⟩)

/-- Every section entry, in order (log 68, DEDUCED). -/
def sectionsOf (local_ : Nat → Bool) (l : List (Word × Word × Word × Word)) : Checked (List Section) :=
  match l with
  | [] => .ok []
  | w :: r => (sectionOf local_ w).then fun x => (sectionsOf local_ r).then fun xs => .ok (x :: xs)

/-- The job block at ADDR read and checked (R372, R373), for a packet of job `id` with this SEQ. `start` says that the domain tables come from
DTAB (log 68, DEDUCED). -/
def State.readBlock (s : State) (addr : Nat) (id : BitVec 16) (seq : Word) (start : Bool) : Checked JobBlock :=
  require (addr % 4096 == 0) 2 0 <|
  (Checked.of (s.physWords addr 16) 2 0).then fun j =>
  let f := fun i => (nth j i).getD 0
  let at_ := fun i => (f i).toNat
  require (blockOk j) 2 0 <|
  (Checked.of (s.physWords (at_ 2) 64) 3 0).then fun wt =>
  require (windowsOk wt) 3 0 <|
  (Checked.of (s.physWords (at_ 3) 256) 4 0).then fun rt =>
  let reloc := halves rt
  match relocBad reloc 0 [] with
  | some v => .bad 4 v none
  | none =>
  let e := fun v => (nth reloc v).getD 0
  require (relocV (e 0) && !relocRmt (e 0)) 7 0 <|
  (Checked.of (s.physWords (at_ 8) (4 * at_ 9)) 2 0).then fun st =>
  (sectionsOf (fun v => relocV (e v) && !relocRmt (e v)) (foursOf st)).then fun secs =>
  (Checked.of (s.physWords (at_ 10) (2 * at_ 11)) 2 0).then fun xt =>
  let ext := (pairsOf xt).map fun (p : Word × Word) => (p.1.toNat, p.2.toNat)
  require (allOf ext fun p => p.1 % 4096 == 0 && p.2 % 4096 == 0) 2 0 <|
  (Checked.of (if at_ 12 = 0 || !start then some [] else s.physWords (at_ 12) 144) 2 0).then fun dt =>
  require (allOf dt fun d => domAccepted d && d.extractLsb' 42 22 == 0) 2 0 <|
  (Checked.of (s.physWords (at_ 13) (2 * at_ 14)) 2 0).then fun at0 =>
  let atab := (pairsOf at0).map fun (p : Word × Word) => p.2 ++ p.1
  require (allOf atab fun a => !atabReserved a) 2 0 <|
  .ok { job := { id := id, root := at_ 1, wtab := numbered 0 wt, scopes := f 4, gain := (f 5).extractLsb' 0 32, ctxb := f 6, futb := f 7
                 extents := ext, nvcn := ((f 0).extractLsb' 0 10).toNat, seq := seq }
        reloc := reloc, sections := secs, dtab := if at_ 12 = 0 then none else some dt, atab := atab }

/-! ## Tables -/

/-- An access entry that admits a master kind, of every index, to pages first to last (R75). -/
def accessEntry (perm kind first last : Nat) : BitVec 128 :=
  BitVec.ofNat 128 (2 ^ 127 + perm * 2 ^ 123 + last * 2 ^ 72 + first * 2 ^ 36 + 0xF000 * 2 ^ 16 + kind * 2 ^ 12)
/-- The last DRAM page. -/
def lastDramPage : Nat := Config.dramBytes / 4096 - 1
/-- Entry 30 (R372): Zusil, every access. -/
def zusilEntry : BitVec 128 := accessEntry 15 2 0 (2 ^ 36 - 1)
/-- Entry 31 while no job is resident (R372): the host, every access to DRAM. -/
def hostEntry : BitVec 128 := accessEntry 15 1 0 lastDramPage
/-- Entry 29 of a job (R372): the checkpoint controller reads every DRAM page. -/
def checkpointEntry : BitVec 128 := accessEntry 1 5 0 lastDramPage

/-- The access tables with no job resident (R372). -/
def idleAccess : Map (BitVec 128) := [(30, zusilEntry), (31, hostEntry)]
/-- The access tables of a job (R372). -/
def jobAccess (atab : List (BitVec 128)) : Map (BitVec 128) := numbered 0 atab ++ [(29, checkpointEntry), (30, zusilEntry)]

/-- The default domain entry (R372): VALID 1, VER 0, HMASK 0x000F, SMASK 0x0_FFFF. -/
def defaultDomain : Word := BitVec.ofNat 64 (2 ^ 41 + 0x000F * 2 ^ 21 + 0xFFFF)
/-- The domain tables of a launch (R372), each VER written 0. -/
def launchDomains (dtab : Option (List Word)) : Map Word :=
  match dtab with
  | none => (range 0 (9 * 16)).map fun i => (i, defaultDomain)
  | some l => numbered 0 (l.map fun e => e &&& ~~~(0xF#64 <<< 37))

/-- The tables and the relocation entries of a job, with every TLB empty. -/
def State.withTables (s : State) (b : JobBlock) (domains : Map Word) : State :=
  { s with
    job := some b.job, reloc := numbered 0 b.reloc, access := jobAccess b.atab, domains := domains
    leafTlb := []
    cores := s.cores.map fun (c : Nat × Core) => (c.1, { c.2 with tlb := [] }) }

/-! ## Starting a job (R154, R292, R314) -/

/-- The VCNs, from v on, whose relocation entry is valid and names a position of this module. -/
def localVcns (v : Nat) (l : List (BitVec 16)) : List Nat :=
  match l with
  | [] => []
  | e :: r => if relocV e && !relocRmt e then v :: localVcns (v + 1) r else localVcns (v + 1) r
/-- The VCNs of the job on this module. -/
def JobBlock.vcns (b : JobBlock) : List Nat := localVcns 0 b.reloc
/-- EN of scope n (R372). -/
def Job.enabled (j : Job) (n : Nat) : Bool := j.scopes.getLsbD (4 * n + 3)

/-- A core of a starting job (R10, R13, R14, R314): its VCN, the accepted features, and the frontier of each enabled scope (log 70, DEDUCED). -/
def Core.launched (c : Core) (j : Job) (v : Nat) (feat : Word) : Core :=
  { c with
    vcn := some v, feat := feat
    fnt := (keep (range 0 8) j.enabled).map fun n => (n, ⟨[mkTime 0 0 0 0 (j.depth n)], 1⟩) }

/-- The words of a store from a section's bytes, four bytes each (R154). -/
def storeWords (n i x : Nat) : Map (BitVec 32) :=
  match n with
  | 0 => []
  | n + 1 => (i, BitVec.ofNat 32 x) :: storeWords n (i + 1) (x / 2 ^ 32)

/-- A safe-point entry keeps R341, for a store of this size. -/
def safePointOk (k : Kind) (live stub : Word) : Bool :=
  live.extractLsb' 44 20 == 0 && !live.getLsbD 0 && stub.extractLsb' 16 48 == 0 && stub.extractLsb' 0 2 == 0 && stub.toNat < Config.storeBytes k

/-- The handler table from 16 handler words (R89): HADDR, MODE and PRIO of C0 to C7 and C13, EN clear. -/
def handlerTable (l : List Word) : Map Handler :=
  [0, 1, 2, 3, 4, 5, 6, 7, 13].map fun i =>
    let w := (nth l i).getD 0
    (i, ⟨w.extractLsb' 16 16 &&& ~~~3#16, w.getLsbD 7, w.extractLsb' 5 2, false, false⟩)

/-- A section loaded into its scalar core in the core's name (R154, R341): the code fetched, the safe-point table checked, and for the control
core the handler words read. -/
def State.loadSection (s : State) (x : Section) : Checked State :=
  let p := s.posOf x.vcn
  match s.checkSpan p x.code x.len .fetch 1 anyClass with
  | (s, .ok l) =>
    match s.engLoads p l with
    | (s, .ok code) =>
      match s.items p x.kind x.sptab 8 (2 * x.nsp) .load with
      | (s, .ok tab) =>
        require (allOf (pairsOf tab) fun e => safePointOk x.kind e.1 e.2) 6 x.vcn <|
        let s := s.modScal p x.kind fun y => { y with store := storeWords (x.len / 4) 0 code, section_ := true, nsp := x.nsp, sptab := BitVec.ofNat 64 x.sptab }
        if x.kind != .control then .ok s
        else match s.items p x.kind x.handlers 8 16 .load with
          | (s, .ok h) => .ok (s.modCore p fun c => { c with handlers := handlerTable h })
          | (s, _) => .bad 2 x.vcn (some s.zusil)
      | (s, _) => .bad 6 x.vcn (some s.zusil)
    | (s, _) => .bad 5 x.vcn (some s.zusil)
  | (s, _) => .bad 5 x.vcn (some s.zusil)

/-- Every section loaded, in the table's order. -/
def State.loadSections (s : State) (l : List Section) : Checked State :=
  match l with
  | [] => .ok s
  | x :: r => (s.loadSection x).then fun s => State.loadSections s r

/-- The launch firings (R292): one at level 0 on each scalar core that has a section. -/
def State.startFirings (s : State) (l : List Section) : State :=
  each l (fun x s => s.modScal (s.posOf x.vcn) x.kind fun y => if (Map.get y.ready [] 0).isEmpty then y.enqueue 0 .launch else y) s

/-- The crown's side of the enabled scopes (R314): one stake for each core at the zero time, and the frontier of that time. -/
def State.startScopes (s : State) (j : Job) (cores : Nat) : State :=
  each (keep (range 0 8) j.enabled) (fun n s =>
    let z := mkTime 0 0 0 0 (j.depth n)
    { s with
      crown := Map.put s.crown n [⟨z, BitVec.ofNat 64 cores, 0⟩]
      front := Map.put s.front n ⟨[z], 1⟩ }) s

/-- A job started from its checked block (R292, R314, R372) (log 70, DEDUCED). -/
def State.startJob (s : State) (b : JobBlock) : Checked State :=
  let feat := Map.get s.hub.feata 0xFF 0
  let s := s.withTables b (launchDomains b.dtab)
  let s := each b.vcns (fun v s => s.modCore (s.posOf v) fun c => c.launched b.job v feat) s
  (s.loadSections b.sections).then fun s => .ok ((s.startScopes b.job b.vcns.length).startFirings b.sections)

/-! ## The end of a job (R372, R381) -/

/-- Every L2 line leaves its slice, the dirty ones written to DRAM; no lock is left. -/
def State.emptyL2 (s : State) : State :=
  let s := each s.slices (fun (x : Nat × Slice) s => each x.2.lines (fun (l : Nat × L2Line) s => s.dropL2 x.1 l.1) s) s
  { s with slices := s.slices.map fun (x : Nat × Slice) => (x.1, { x.2 with lines := [], locks := [], conflict := [] }) }

/-- MB3 of a core shows the clock step of its die (R378). -/
def State.showStep (s : State) (p : Nat) : State :=
  s.modCore p fun c => { c with mb := Map.put c.mb 3 ((Map.get s.clkStep 0 (p / 64)).setWidth 64) }
/-- Every core of a die whose clock is not at step 0. -/
def State.showSteps (s : State) : State :=
  each s.clkStep (fun d s => each (range (d.1 * 64) 64) (fun p s => s.showStep p) s) s

/-- No job is resident (R372): cores and their instruction stores are cleared, with what was under way for the job; the tables stand as with
no job. -/
def State.clearJob (s : State) : State :=
  let s := s.emptyL2
  State.showSteps { s with
    cores := [], reloc := [], domains := [], access := idleAccess, job := none, net := [], reqs := [], replies := [], cohorts := [], ranges := []
    opens := [], pq := [], ptab := [], crown := [], stuck := [], front := [], bq := [], strms := [], strmOpens := [], pkts := [], leafTlb := [], instant := []
    hub := { s.hub with works := [] } }

/-- All job DRAM zeroed (R371, log 16, DEDUCED). -/
def State.scrub (s : State) : State := { s with dram := [], empties := [], poisons := [] }

/-! ## Resuming a job (R351, R372) -/

/-- The job's part of VCN 0's context area restored. -/
def State.withJobSaved (s : State) (j : JobSaved) : State :=
  { s with
    cohorts := j.cohorts, ranges := j.ranges, opens := j.opens, domains := j.domains, pq := j.pq, ptab := j.ptab, crown := j.crown
    stuck := j.stuck, front := j.front, bq := j.bq, strms := j.strms, strmOpens := j.strmOpens, pkts := j.pkts, net := j.net, hub := { s.hub with works := j.works } }

/-- A resumption refused for the context of a VCN (R347): Zusil has a record; the reason is the free value given (log 12, DESIGN CHOICE). -/
def State.badContext (s : State) (v : Nat) (free : Word) : Checked State := .bad (free.toNat % 256) v (some (s.report (.badContext v)).zusil)

/-- Every VCN restored from its context area and resumed (R351). -/
def State.restoreAll (s : State) (l : List Nat) (free : Word) : Checked State :=
  match l with
  | [] => .ok s
  | v :: r =>
    let p := s.posOf v
    match s.context p v with
    | (s, none) => s.badContext v free
    | (s, some x) =>
      (Checked.of (((s.placeCore p { x.core with vcn := some v }).showStep p).resumeCore p) 6 v).then fun s => State.restoreAll s r free

/-- The job's part that VCN 0's context area holds, with its domain tables (R347, R372): the area is read under the tables that it carries (log 9, DESIGN
CHOICE). -/
def State.jobContext (s : State) (b : JobBlock) : Option JobSaved :=
  (firstOf s.saved fun x => match x.job with
    | some j => ((s.withTables b j.domains).context ((s.withTables b j.domains).posOf 0) 0).2 == some x
    | none => false).bind Saved.job

/-- A job resumed from its checked block and its context areas (R351, R372). -/
def State.resumeJob (s : State) (b : JobBlock) : Checked State :=
  let free := Config.freeWord s.free
  let s := { s with free := s.free + 1 }
  match s.jobContext b with
  | none => s.badContext 0 free
  | some j => ((s.withTables b j.domains).withJobSaved j).restoreAll b.vcns free

end Sys2Proof.Machine
end

