-- ==== Sys2Proof/Machine/EvFreeze.lean ====
section
/-!
DEFINITION. The events of a freeze, of the tourbillon and of a checkpoint (R345, R346, R352 to R358, R377, R381).
-/
namespace Sys2Proof.Machine

open Sys2Proof

/-! ## Reports (R373) -/

/-- A report of a kind with a reason and the VCN it names, for a job and the SEQ of the packet concerned. -/
def State.answer (s : State) (kind reason vcn job : Nat) (seq : Word) : State :=
  s.pushReport [reportQ0 kind job s.hub.chip reason vcn, seq, 0, 0, 0, 0, 0]
/-- JOB of a packet (R371). -/
def Packet.job (k : Packet) : Nat := (((nth k.w 0).getD 0).extractLsb' 40 16).toNat
/-- SEQ of a packet. -/
def Packet.seq (k : Packet) : Word := (nth k.w 7).getD 0

/-! ## The freeze (R345, R346) -/

/-- FWD of the VCN at a position, in every relocation copy (R356). -/
def State.setFwd (s : State) (p : Nat) (on : Bool) : State :=
  match (s.core p).vcn with
  | none => s
  | some v => { s with reloc := Map.put s.reloc v ((s.relocOf v &&& ~~~(1#16 <<< 14)) ||| (if on then 1#16 <<< 14 else 0)) }

/-- A freeze for an exchange with q is complete at p. -/
def State.frozenFor (s : State) (p q : Nat) : Bool :=
  match (s.core p).freeze with
  | some f => f.complete && f.by_ == .swap q
  | none => false

/-- The whole job is frozen for a pre-emption: its context areas are written, the report is made and no job is resident (R381). -/
def State.preempted (s : State) (k : Packet) : Option State :=
  if s.reportsFull then none
  else (s.saveCores s.occupied).map fun s =>
    let s := s.clearJob
    { s with hub := { s.hub with preempting := none } }.answer 3 0 0 k.job k.seq

/-- The whole job is frozen for a checkpoint: its context areas are written (R377, step 2). -/
def State.checkpointed (s : State) (k : Check) : Option State :=
  (s.saveCores s.occupied).map fun s => { s with hub := { s.hub with check := some { k with saved := true } } }

/-- What the completion of a freeze at p leads to: FWD ← 1 once both cores of an exchange are frozen (R356); for a whole job, the context
areas once the last core is frozen. -/
def State.afterFreeze (s : State) (p : Nat) (b : FreezeBy) : Option State :=
  match b with
  | .swap q => some (if s.frozenFor q p then (s.setFwd p true).setFwd q true else s)
  | .preempt => match s.hub.preempting with | some k => if s.allFrozen .preempt then s.preempted k else some s | none => some s
  | .checkpoint => match s.hub.check with | some k => if s.allFrozen .checkpoint then s.checkpointed k else some s | none => some s

/-- `FREEZE_COMPLETE` (R345): every part has stopped within SPMAX cycles; the core publishes its dirty lines and raises PH (log 73, DEDUCED). -/
def execFreezeComplete (p : Nat) (s : State) : Ans :=
  let c := s.core p
  match c.freeze with
  | none => go s
  | some f =>
    if f.complete || (s.unstopped p).isSome || c.spmax.toNat < f.elapsed then go s
    else
      go (((s.publishCore p).bind fun t =>
        (t.modCore p fun c => { c with freeze := some { f with complete := true } }).afterFreeze p f.by_).getD s)

/-- A pair's refusal or swap noted at a position, against its partner (R353). -/
def Swap.noted (w : Swap) (q : Nat) : Swap := { w with pairs := (q, 0) :: keep w.pairs fun e => e.1 != q }
/-- A request for a VCN that is settled (R359). -/
def Swap.settled (w : Swap) (v : Option Nat) : Swap :=
  match w.req with
  | some (x, _) => if v = some x then { w with req := none } else w
  | none => w
/-- The pair p and q noted as swapped or refused: neither is a candidate pair for 8 instants, and a request for it ends. -/
def State.notePair (s : State) (p q : Nat) : State :=
  let vp := (s.core p).vcn
  let vq := (s.core q).vcn
  (s.modCore p fun c => { c with sw := (c.sw.noted q).settled vq }).modCore q fun c => { c with sw := (c.sw.noted p).settled vp }

/-- `FREEZE_REFUSAL` (R346): SPMAX cycles have passed; the core resumes where it stopped, and what asked for the freeze is refused (log 72, DEDUCED) (log 73, DEDUCED). -/
def execFreezeRefusal (p : Nat) (s : State) : Ans :=
  let c := s.core p
  match c.freeze with
  | none => go s
  | some f =>
    if f.complete || f.elapsed < c.spmax.toNat then go s
    else
      let t := (s.unfreeze p).report (.freezeRefused f.by_ p ((s.unstopped p).getD 9))
      match f.by_ with
      | .swap q => go ((((t.unfreeze q).notePair p q).rejoin p).rejoin q)
      | .preempt =>
        match s.hub.preempting with
        | none => go t
        | some k =>
          if s.reportsFull then go s
          else
            let t := t.unfreezeAll .preempt
            go ({ t with hub := { t.hub with preempting := none } }.answer 2 10 c.vcnNum k.job k.seq)
      | .checkpoint =>
        if s.reportsFull then go s
        else
          let t := t.unfreezeAll .checkpoint
          go ({ t with hub := { t.hub with check := none, ckbusy := false } }.answer 8 10 c.vcnNum s.jobId 0)

/-! ## Swap instants (R353 to R355) -/

/-- N of the occupant at x toward position c of its level-2 group, and M toward group g. -/
def State.cntN (s : State) (x c : Nat) : Int := Int.ofNat (Map.get (s.core x).sw.n 0 (c % 16)).toNat
def State.cntM (s : State) (x g : Nat) : Int := Int.ofNat (Map.get (s.core x).sw.m 0 (g % 4)).toNat

/-- A sum over a list. -/
def sumOf (l : List Nat) (f : Nat → Int) : Int :=
  match l with
  | [] => 0
  | x :: r => f x + sumOf r f

/-- The positions of x's leaf, and of its level-2 group, without x. -/
def leafPeers (x : Nat) : List Nat := keep (range (x / 4 * 4) 4) (· != x)
def groupPeers (x : Nat) : List Nat := keep (range (x / 16 * 16) 16) (· != x)

/-- Gain2 (R354). -/
def State.gain2 (s : State) (a b : Nat) : Int :=
  sumOf (leafPeers b) (fun c => s.cntN a c - s.cntN b c) + sumOf (leafPeers a) (fun c => s.cntN b c - s.cntN a c)

/-- Gain3 (R354). -/
def State.gain3 (s : State) (a b : Nat) : Int :=
  let half := fun (x : Nat) => sumOf (groupPeers x) fun c => s.cntN x c * (Int.ofNat (distance x c) - 3)
  half a + s.cntM a (b / 16) + half b + s.cntM b (a / 16)

/-- A position is eligible at an instant (R353): one that holds no VCN is, unless it takes part in an exchange that is under way (log 75, DEDUCED). -/
def State.eligible (s : State) (x : Nat) : Bool :=
  let c := s.core x
  c.freeze.isNone && (c.vcn.isNone ||
    (c.feat.getLsbD 7 && !c.sw.pin && (match c.sw.since with | some n => 4 < n | none => true) && allOf kinds fun k => (c.scal k).stop.isNone))

/-- A pair is eligible (R353) (log 75, DEDUCED). -/
def State.pairEligible (s : State) (a b : Nat) : Bool :=
  let recent := fun (x y : Nat) => anyOf (s.core x).sw.pairs fun e => e.1 == y && e.2 ≤ 8
  s.eligible a && s.eligible b && !recent a b && !recent b a && ((s.core a).vcn.isSome || (s.core b).vcn.isSome)

/-- One of the two asked for the other (R359). -/
def State.requested (s : State) (a b : Nat) : Bool :=
  let asks := fun (x y : Nat) => match (s.core x).sw.req with | some (v, _) => (s.core y).vcn == some v | none => false
  asks a b || asks b a

/-- A candidate: requested, gain, lower and higher position. -/
abbrev Cand : Type := Bool × Int × Nat × Nat

/-- The order of picking (R355): requested first, then descending gain, then the lower and the higher position. -/
def Cand.before (x y : Cand) : Bool :=
  if x.1 != y.1 then x.1
  else if x.2.1 != y.2.1 then decide (y.2.1 < x.2.1)
  else if x.2.2.1 != y.2.2.1 then decide (x.2.2.1 < y.2.2.1)
  else decide (x.2.2.2 < y.2.2.2)

/-- A candidate in its place. -/
def insertCand (l : List Cand) (x : Cand) : List Cand :=
  match l with
  | [] => [x]
  | y :: r => if Cand.before x y then x :: y :: r else y :: insertCand r x

/-- The candidates among pairs, in the order of picking: eligible, and requested or with a gain above G (log 17, DEDUCED). -/
def State.candidates (s : State) (g : Int) (gain : Nat → Nat → Int) (pairs : List (Nat × Nat)) : List Cand :=
  each pairs (fun (q : Nat × Nat) (l : List Cand) =>
    let r := s.requested q.1 q.2
    let x := gain q.1 q.2
    if s.pairEligible q.1 q.2 && (r || decide (g < x)) then insertCand l (r, x, q.1, q.2) else l) []

/-- The pairs picked after those already picked; each core takes part in at most one. -/
def pickPairs (l : List Cand) (picked : List (Nat × Nat)) : List (Nat × Nat) :=
  each l (fun (x : Cand) (m : List (Nat × Nat)) =>
    if anyOf m fun e => e.1 == x.2.2.1 || e.2 == x.2.2.1 || e.1 == x.2.2.2 || e.2 == x.2.2.2 then m else m ++ [(x.2.2.1, x.2.2.2)]) picked

/-- The pairs a < b of a die. -/
def diePairs (die : Nat) : List (Nat × Nat) :=
  ((range (die * 64) 64).map fun a => (keep (range (die * 64) 64) fun b => a < b).map fun b => (a, b)).flatten

/-- Steps 1 and 2 of R355, requested pairs of both levels before all others. A pair in one leaf is a level-2 pair of gain 0: only a request makes it a candidate (log 17, DEDUCED). -/
def State.picks (s : State) (die : Nat) : List (Nat × Nat) :=
  let g : Int := match s.job with | some j => Int.ofNat j.gain.toNat | none => 0
  let two := keep (diePairs die) fun q => q.1 / 16 == q.2 / 16
  let three := keep (diePairs die) fun q => q.1 / 16 != q.2 / 16
  let gain2 := fun a b => if a / 4 = b / 4 then 0 else s.gain2 a b
  let l2 := s.candidates g gain2 two
  let l3 := s.candidates g s.gain3 three
  let asked := fun (l : List Cand) => keep l fun x => x.1
  let rest := fun (l : List Cand) => keep l fun x => !x.1
  pickPairs (rest l3) (pickPairs (rest l2) (pickPairs (asked l3) (pickPairs (asked l2) [])))

/-- An instant's ageing of a position: cooldown and pair ages. -/
def Swap.aged (w : Swap) : Swap :=
  { w with since := w.since.map (· + 1), pairs := keep (w.pairs.map fun (e : Nat × Nat) => (e.1, e.2 + 1)) fun e => e.2 ≤ 8 }
/-- Every counter halved, and a request's age: it ends after 8 instants (R355, R359). -/
def Swap.halved (w : Swap) : Swap :=
  let h := fun (m : Map (BitVec 32)) => m.map fun (e : Nat × BitVec 32) => (e.1, e.2 >>> 1)
  { w with n := h w.n, m := h w.m, x := w.x >>> 1
           req := match w.req with | some (v, a) => if a + 1 < 8 then some (v, a + 1) else none | none => none }

/-- A change of the tourbillon state of every position of a die. -/
def State.modSwaps (s : State) (die : Nat) (f : Swap → Swap) : State :=
  { s with cores := s.cores.map fun (c : Nat × Core) => (c.1, if c.1 / 64 = die then { c.2 with sw := f c.2.sw } else c.2) }

/-- TQ of a die: that of its core with PCN die x 64 (R353). -/
def State.tqOf (s : State) (die : Nat) : Nat := (s.core (die * 64)).tq.toNat

/-- `SWAP_INSTANT` (R353 to R356): every TQ network cycles of a die with TQ not 0. -/
def execSwapInstant (die : Nat) (s : State) : Ans :=
  let tq := s.tqOf die
  let n := Map.get s.instant 0 die
  if 9 ≤ die || tq = 0 || n < tq then go s
  else
    let s := ({ s with instant := Map.put s.instant die (n - tq) }).modSwaps die Swap.aged
    let l := s.picks die
    go (each l (fun (q : Nat × Nat) s => (s.requestFreeze q.1 (.swap q.2)).requestFreeze q.2 (.swap q.1)) (s.modSwaps die Swap.halved))

/-! ## The exchange (R356 to R358) -/

/-- A message of C0 to C7 to the VCN is still on its way: a drain flit behind it has not arrived. -/
def State.onItsWay (s : State) (v : Option Nat) : Bool :=
  match v with
  | none => false
  | some v => anyOf s.net fun e => !e.held && e.msg.cls.toNat < 8 && e.msg.dst.toNat == v

/-- N with the entries of two positions exchanged; no entry is kept for a count of 0. -/
def swapN (m : Map (BitVec 32)) (a b : Nat) : Map (BitVec 32) :=
  Map.set (Map.set m 0 (a % 16) (Map.get m 0 (b % 16))) 0 (b % 16) (Map.get m 0 (a % 16))

/-- The counters of the core at r after positions p and q exchanged their occupants (R358) (log 67, DEDUCED). -/
def Swap.afterSwap (w : Swap) (r p q : Nat) : Swap :=
  if r = p || r = q then { w with n := if p / 16 = q / 16 then swapN w.n p q else [] }
  else if r / 16 = p / 16 && r / 16 = q / 16 then { w with n := swapN w.n p q }
  else if r / 16 = p / 16 then { w with n := Map.set w.n 0 (p % 16) 0 }
  else if r / 16 = q / 16 then { w with n := Map.set w.n 0 (q % 16) 0 }
  else w

/-- The relocation entry of a VCN names a position, with FWD = 0 (R356). -/
def State.moveTo (s : State) (v : Option Nat) (p : Nat) : State :=
  match v with
  | none => s
  | some v => { s with reloc := Map.put s.reloc v (0x8000#16 ||| BitVec.ofNat 16 p) }

/-- Frontier broadcasts on their way to an occupant go to its new position (log 18, DEDUCED). -/
def State.swapBq (s : State) (p q : Nat) : State :=
  { s with bq := each (range 0 8) (fun n (m : Map (List (List Word))) =>
      Map.put (Map.put m (p * 8 + n) (Map.get s.bq [] (q * 8 + n))) (q * 8 + n) (Map.get s.bq [] (p * 8 + n))) s.bq }

/-- No change of a node is on its way up in any scope: none in its table, none that its parent has still to take (log 91, DESIGN CHOICE). -/
def State.nodeQuiet (s : State) (node : Nat) : Bool := allOf (range 0 8) fun n => (s.batches node n).isEmpty && (s.pending node n).ents.isEmpty

/-- The changes of two positions have reached their lowest common switch, so that later ones of the same occupants stay behind them (R323)
(log 91, DESIGN CHOICE). -/
def State.progressQuiet (s : State) (p q : Nat) : Bool :=
  allOf [p, q] fun r => s.nodeQuiet r && (p / 4 == q / 4 || s.nodeQuiet (switchAbove r 1)) && (p / 16 == q / 16 || s.nodeQuiet (switchAbove r 2))

/-- `EXCHANGE_STATE_TRANSFER` (R356, R358): both cores are frozen and every drain flit is in; the sections cross, the entries flip, held
messages are released and both occupants resume. -/
def execExchangeStateTransfer (p q : Nat) (s : State) : Ans :=
  let vp := (s.core p).vcn
  let vq := (s.core q).vcn
  if p = q || !s.frozenFor p q || !s.frozenFor q p || s.onItsWay vp || s.onItsWay vq || !s.progressQuiet p q then go s
  else
    let crossed := ((s.saveCore p false).bind fun s => s.saveCore q false).bind fun s =>
      let cp := s.core p
      let cq := s.core q
      let s := (s.placeCore p cq).placeCore q cp
      let s := ((s.moveTo vp q).moveTo vq p).swapBq p q
      let s := { s with
        net := s.net.map fun (e : NetMsg) => if vp = some e.msg.dst.toNat ∨ vq = some e.msg.dst.toNat then { e with held := false } else e
        cores := s.cores.map fun (c : Nat × Core) => (c.1, { c.2 with sw := c.2.sw.afterSwap c.1 p q }) }
      let s := s.notePair p q
      let s := (s.modCore p fun c => { c with sw := { c.sw with since := some 0 } }).modCore q fun c => { c with sw := { c.sw with since := some 0 } }
      (s.resumeCore p).bind fun s => s.resumeCore q
    go (match crossed with
      | some t => (t.rejoin p).rejoin q
      | none => s)

/-! ## Checkpoints (R377) -/

/-- A CKREQ write (R377): STEP and SCOPE are stored; GO starts a checkpoint, or sets OVR while one runs. -/
def State.checkRequest (s : State) (x : Word) : State :=
  let req := x &&& ~~~(0xFFFFFFF8#64)
  if !x.getLsbD 3 then { s with hub := { s.hub with ckreq := req } }
  else if s.hub.ckbusy then { s with hub := { s.hub with ckovr := true } }
  else { s with hub := { s.hub with
    ckreq := req, ckbusy := true, check := some ⟨x.extractLsb' 32 32, x.extractLsb' 0 3, false, false⟩ } }

/-- `CHECKPOINT_GO` (R377). -/
def execCheckpointGo (x : Word) (s : State) : Ans := if s.hub.open_ && x.getLsbD 3 then go (s.checkRequest x) else go s

/-- `CHECKPOINT_FRONTIER_REACHED` (R377): no time of the scope's crown frontier has EPOCH ≤ s; Zusil freezes every core. -/
def execCheckpointFrontierReached (s : State) : Ans :=
  match s.hub.check with
  | none => go s
  | some k =>
    let f := (Map.get s.front ⟨[], 0⟩ k.scope.toNat).times
    if k.frozen || s.job.isNone || s.hub.preempting.isSome || anyOf f (fun t => epochOf t ≤ k.step.toNat) then go s
    else go ({ s with hub := { s.hub with check := some { k with frozen := true } } }.freezeAll .checkpoint)

/-- The 4 KiB blocks of the extents, in order. -/
def blocksOf (l : List (Nat × Nat)) : List Nat := (l.map fun (e : Nat × Nat) => (range 0 (e.2 / 4096)).map fun i => e.1 + 4096 * i).flatten

/-- The master id of the checkpoint controller (R74). -/
def checkpointMaster : Nat := 0x5000

/-- The blocks written from a logical block on (R377), each read at the channel controllers through the access tables; none where a read is denied,
with its record (log 74, DEDUCED). -/
def State.writeBlocks (s : State) (lba : Nat) (l : List Nat) : State × Bool :=
  match l with
  | [] => (s, true)
  | a :: r =>
    if Config.dramBytes < a + 4096 then (s, false)
    else if !s.admits checkpointMaster a AK.load.perm then
      (s.report (.denied (1000 + stackOf a * 64 + channelOf false a) checkpointMaster a), false)
    else State.writeBlocks { s with hub := { s.hub with nvm := dramWrite s.hub.nvm (lba * 4096) 4096 (dramRead s.dram a 4096) } } (lba + 1) r

/-- The cores resume, and the checkpoint ends with a report (R377). -/
def State.checkpointEnds (s : State) (kind reason : Nat) (q2 : Word) : Option State :=
  (s.resumeCores s.occupied).map fun s =>
    let s := s.pushReport [reportQ0 kind s.jobId s.hub.chip reason 0, 0, q2, 0, 0, 0, 0]
    { s with hub := { s.hub with check := none, ckbusy := false } }

/-- `CHECKPOINT_WRITE_DONE` (R377): the NVMe writes have finished, or failed; every core resumes, and on success MB2 takes s (log 74, DEDUCED). -/
def execCheckpointWriteDone (ok : Bool) (s : State) : Ans :=
  match s.hub.check, s.job with
  | some k, some j =>
    if !k.saved || s.reportsFull then go s
    else
      let l := blocksOf j.extents
      let w := if ok then s.writeBlocks s.hub.cklba.toNat l else (s, false)
      if w.2 then
        let s' := each w.1.occupied (fun p s => s.modCore p fun c => { c with mb := Map.put c.mb 2 (k.step.setWidth 64) }) w.1
        go ((s'.checkpointEnds 7 0 (BitVec.ofNat 64 (l.length * 2 ^ 32))).getD s)
      else go ((w.1.checkpointEnds 8 11 0).getD s)
  | _, _ => go s

end Sys2Proof.Machine
end

