-- ==== Sys2Proof/Machine/Rings.lean ====
section
/-!
DEFINITION. The inbound queues and spill rings of the request classes (R99 to R101).
-/
namespace Sys2Proof.Machine

open Sys2Proof

/-- The bytes of a ring entry (R99): the header flit, then the payload flit. -/
def Msg.image (m : Msg) : Nat := m.header.toNat + m.payload.toNat * 2 ^ 128
/-- The message of a ring entry. -/
def Msg.ofImage (x : Nat) : Msg := Msg.ofFlits (BitVec.ofNat 128 x) (BitVec.ofNat 128 (x / 2 ^ 128))

/-- The address of entry i of a ring. -/
def Ring.va (r : Ring) (i : Nat) : Nat := (r.base.toNat + 32 * (i % r.size)) % 2 ^ 64

/-- What a ring access answers. -/
inductive RingGot where
  | ok (x : Nat)
  | bad (cause : Nat)
  | stall
  deriving DecidableEq, Repr

/-- A ring entry written, or read (no contents), at its home slice with the core as master (R99); a window of another class faults with 0x15 (log 36, DEDUCED). -/
def State.ringAccess (s : State) (p va : Nat) (w : Option Nat) : State × RingGot :=
  match s.check p va 32 (if w.isSome then .store else .load) 1 immOnly with
  | (s, .stall) => (s, .stall)
  | (s, .bad c _) => (s, .bad c)
  | (s, .ok a) =>
    match w with
    | some x =>
      match s.storePart p a x with
      | (s, .ok _) => (s, .ok 0)
      | (s, .poison) => (s, .bad 0x16)
      | (s, .stall) => (s, .stall)
    | none =>
      match s.loadPart p a with
      | (s, .ok x) => (s, .ok x)
      | (s, .poison) => (s, .bad 0x16)
      | (s, .stall) => (s, .stall)

/-- The class enters HELD, or stays there, with its error record (R100, R101) (log 36, DEDUCED). -/
def State.enterHeld (s : State) (p cls cause : Nat) (m : Option Msg) : State :=
  let x := (s.core p).inbound cls
  (s.modCore p fun c => c.setInbound cls { x with st := .held, heldMsg := if m.isSome then m else x.heldMsg }).netErr p 3 cls 0 (BitVec.ofNat 64 cause)

/-- A message written at the tail of the current ring (R100): the state, and whether it is delivered; none while a line is under a lock. -/
def State.spillMsg (s : State) (p cls : Nat) (m : Msg) : Option (State × Bool) :=
  let x := (s.core p).inbound cls
  match x.cur with
  | none => some (s.enterHeld p cls 0 (some m), false)
  | some r =>
    if r.size ≤ r.count then some (s.enterHeld p cls 0 (some m), false)
    else
      match s.ringAccess p (r.va (r.head + r.count)) (some m.image) with
      | (_, .stall) => none
      | (s, .bad c) => some (s.enterHeld p cls c (some m), false)
      | (s, .ok _) =>
        some (s.modCore p fun c => c.setInbound cls { c.inbound cls with st := .spill, heldMsg := none, cur := some { r with count := r.count + 1 } }, true)

/-- A class that has left HELD writes the message that the interface held first (R100). -/
def State.writeHeld (s : State) (p cls : Nat) : State :=
  let x := (s.core p).inbound cls
  match x.st, x.heldMsg with
  | .spill, some m =>
    match s.spillMsg p cls m with
    | some (s, true) => s.delivered p m x.heldChip
    | some (s, false) => s
    | none => s
  | _, _ => s

/-- An MSG delivered to a class (R94, R99, R100): the state and whether it is delivered; none when the class refuses it or a line is
under a lock. -/
def State.takeMsg (s : State) (p cls : Nat) (m : Msg) : Option (State × Bool) :=
  let x := (s.core p).inbound cls
  if x.st = .held || x.heldMsg.isSome then none
  else if x.q.length < 16 && x.spilled = 0 then
    some (s.modCore p fun c => c.setInbound cls { x with q := x.q ++ [m], st := .queue }, true)
  else s.spillMsg p cls m

/-- The ring's head is read back into the queue (R99, R101): from the previous ring until it is empty, then from the current one (log 37, DEDUCED). -/
def State.refillQueue (s : State) (p cls : Nat) : State :=
  let s := s.writeHeld p cls
  let x := (s.core p).inbound cls
  if 16 ≤ x.q.length || x.spilled = 0 then s
  else
    let old := 0 < ringCount x.old
    match if old then x.old else x.cur with
    | none => s
    | some r =>
      match s.ringAccess p (r.va r.head) none with
      | (_, .stall) => s
      | (s', .bad c) => if (s.core p).eqRoom then s'.enterHeld p cls c none else s
      | (s, .ok v) =>
        let r := some { r with head := (r.head + 1) % r.size, count := r.count - 1 }
        let x := (s.core p).inbound cls
        let x := { x with q := x.q ++ [Msg.ofImage v], cur := if old then x.cur else r, old := if old then r else x.old }
        let x := if x.spilled = 0 && x.st = .spill && x.heldMsg.isNone then { x with st := .queue } else x
        (s.modCore p fun c => c.setInbound cls x).kick 17 p cls

end Sys2Proof.Machine
end

