-- ==== Sys2Proof/Machine/FabricCmd.lean ====
section
/-!
DEFINITION. The fabric commands, messages and waits of the scalar cores (R169 to R177), and `evget` (R152).
-/
namespace Sys2Proof.Machine

open Sys2Proof

/-! ## Configuration and teardown (R169, R170) -/

/-- `cfg` (R169): alignment, the header and every page of the image as a configuration fetch, the header's format; then the image is
queued, or the instruction waits for room. -/
def execCfg (a : BitVec 5) (s : State) : Ans :=
  controlOnly (.cfg a) s fun s =>
    let va := s.gr a
    if va.extractLsb' 0 5 != 0 then faults 0x17 0 s
    else
      readWords va.toNat 4 .fetch s fun s h =>
        checked va.toNat (imgLen h) .fetch 1 anyClass s fun s _ =>
          if !headerOk h then faults 0x17 0 s
          else if 4 ≤ s.mine.cfgq.length then waits s
          else done (s.modMine fun c => { c with cfgq := c.cfgq ++ [⟨va.toNat, h⟩] })

/-- `teard` (R170): every context when a = 0, else the one in g[a]. -/
def execTeard (a : BitVec 5) (s : State) : Ans :=
  controlOnly (.teard a) s fun s =>
    let p := s.cur.p
    if a = 0 then done (each (range 0 16) (fun n s => s.teardown p n) s)
    else if s.gr a >>> 4 != 0 then faults 0x17 0 s
    else done (s.teardown p (s.gr a).toNat)

/-! ## Constants (R171) -/

/-- A pending constant of an element with an active configuration; discarded when there is none. -/
def Elem.pend (x : Elem) (d : BitVec 3) (v : Word) : Elem := if x.act.isSome then { x with pendK := Map.put x.pendK d.toNat v } else x

/-- `kset` on one element (R171). -/
def execKset (d : BitVec 3) (a : BitVec 5) (elem : BitVec 6) (s : State) : Ans :=
  controlOnly (.kset d a elem) s fun s => done (s.modElem s.cur.p elem.toNat fun x => x.pend d (s.gr a))

/-- `kset` on every element with an active configuration (R171). -/
def execKsetAll (d : BitVec 3) (a : BitVec 5) (s : State) : Ans :=
  controlOnly (.ksetAll d a) s fun s => done (each (range 0 64) (fun e t => t.modElem s.cur.p e fun x => x.pend d (s.gr a)) s)

/-! ## Tokens in and out (R172, R173) -/

/-- `inj` (R172), loader only (log 83, DEDUCED). -/
def execInj (d : BitVec 5) (a : BitVec 3) (row : BitVec 3) (slot : BitVec 5) (port : BitVec 1) (s : State) : Ans :=
  match s.cur.k with
  | .loader =>
    let e := row.toNat * 8
    let t : BitVec 13 := 1#1 ++ (row ++ 0#3) ++ slot ++ port
    match (s.elem s.cur.p e).act with
    | none => waits s
    | some g =>
      if !(match g.word slot.toNat with | some w => feedsPort w port.toNat | none => false) then faults 0x17 0 s
      else if s.mine.free t = 0 then waits s
      else done (s.place s.cur.p t { Token.blank g.ctx with value := s.gr d, time := s.me.tr a })
  | _ => illegal (.inj d a row slot port) s

/-- `drn` (R173), storer only: a teardown token, or a token of another context, at the head is left to the element (R188, R258);
the trap of a slot that does not drain comes before the wait for a token (log 20, DEDUCED) (log 52, DEDUCED). -/
def execDrn (d : BitVec 5) (a : BitVec 3) (elem : BitVec 6) (slot : BitVec 5) (port : BitVec 1) (s : State) : Ans :=
  match s.cur.k with
  | .storer =>
    let p := s.cur.p
    let x := s.elem p elem.toNat
    match x.act with
    | none => waits s
    | some g =>
      if !(match g.word slot.toNat with | some w => drains w | none => false) then faults 0x17 0 s
      else
        match (Map.get x.bufs [] (portKey slot.toNat port.toNat)).head? with
        | none => waits s
        | some k =>
          if (k.m && k.l) || k.ctx != g.ctx then waits s
          else
            let s := s.popHead p elem.toNat slot.toNat port.toNat
            go (s.modMe fun x => ((x.setG d k.value |>.setG (d + 1) (k.low slot.toNat port.toNat)).setT a k.time).advance)
  | _ => illegal (.drn d a elem slot port) s

/-! ## Messages and classes (R174 to R176) -/

/-- `snd` and `snd.o` (R174): the message waits under R95. -/
def sendInstr (o : Bool) (d : BitVec 3) (a b : BitVec 5) (cls : BitVec 3) (s : State) : Ans :=
  let w := s.gr a
  if w.extractLsb' 22 9 != 0 then faults 0x17 0 s
  else
    let m := s.blank s.cur.p cls.toNat 0 (w.extractLsb' 0 10).toNat
    let m := { m with
      cont := w.extractLsb' 10 12, o := o, diff := if w.getLsbD 31 then w.extractLsb' 32 32 else 1, value := s.gr b, time := s.me.tr d }
    match s.sendCounted s.cur.p m with
    | none => waits s
    | some s => done s

/-- `snd` (R174). -/
def execSnd (d : BitVec 3) (a b : BitVec 5) (cls : BitVec 3) (s : State) : Ans := sendInstr false d a b cls s
/-- `snd.o` (R174). -/
def execSndO (d : BitVec 3) (a b : BitVec 5) (cls : BitVec 3) (s : State) : Ans := sendInstr true d a b cls s

/-- `clsm` (R175): EN of the class becomes 0; a class with no handler entry is an illegal instruction. -/
def execClsm (cls : BitVec 4) (s : State) : Ans :=
  controlOnly (.clsm cls) s fun s =>
    if !(Instr.clsm cls).wellFormed then illegal (.clsm cls) s
    else done (s.modMine fun c => c.setHandler cls.toNat { c.handler cls.toNat with en := false })

/-- `clsu` (R175): EN becomes 1, and a waiting class enqueues its firing (R90). -/
def execClsu (cls : BitVec 4) (s : State) : Ans :=
  controlOnly (.clsu cls) s fun s =>
    if !(Instr.clsu cls).wellFormed then illegal (.clsu cls) s
    else done ((s.modMine fun c => c.setHandler cls.toNat { c.handler cls.toNat with en := true }).kick 17 s.cur.p cls.toNat)

/-- `qspill` (R176): the ring's limits; then the new ring takes later writes, the entries of the current one are read out first, and a class
in HELD writes its message. It stalls while both rings hold entries. -/
def execQspill (a b : BitVec 5) (cls : BitVec 3) (s : State) : Ans :=
  controlOnly (.qspill a b cls) s fun s =>
    let base := s.gr a
    let n := (s.gr b).toNat
    let cl := cls.toNat
    let x := s.mine.inbound cl
    if base.extractLsb' 0 5 != 0 || n = 0 || 2 ^ 20 < n || 2 ^ 64 < base.toNat + 32 * n then faults 0x17 0 s
    else if 0 < ringCount x.old && 0 < ringCount x.cur then waits s
    else
      let y : Inbound := { x with
        old := if 0 < ringCount x.cur then x.cur else x.old
        cur := some ⟨base, n, 0, 0⟩
        st := if x.st = .held then .spill else x.st }
      done ((s.modMine fun c => c.setInbound cl y).writeHeld s.cur.p cl)

/-! ## The event queue (R152, R177) -/

/-- `wfe` (R177). -/
def execWfe (s : State) : Ans := controlOnly .wfe s fun s => if s.mine.eq.isEmpty then waits s else done s

/-- `evget` (R152): the oldest record, or four zeros; a record held by its producer then enters the queue (R151). -/
def execEvget (d : BitVec 5) (s : State) : Ans :=
  controlOnly (.evget d) s fun s =>
    if !(Instr.evget d).wellFormed then illegal (.evget d) s
    else
      let p := s.cur.p
      let put := fun (r : Rec) (s : State) =>
        go (s.modMe fun x => (x.setG d r.w0 |>.setG (d + 1) r.w1 |>.setG (d + 2) r.w2 |>.setG (d + 3) r.w3).advance)
      match s.mine.eq with
      | [] => put ⟨0, 0, 0, 0⟩ s
      | r :: rest => put r (((s.modMine fun c => { c with eq := rest }.moveHeld).settleNaks 64 p).kickAll p)

end Sys2Proof.Machine
end

