-- ==== Sys2Proof/Machine/Sched.lean ====
section
/-!
DEFINITION. The scheduling instructions (R295 to R313) and the escapement's and keeper's events on class C13 (R86, R299 to R312).
-/
namespace Sys2Proof.Machine

open Sys2Proof

/-! ## Instructions -/

/-- A spawn's parts as messages (R86): HND in [104] when the `spawn` has d ≠ 0. -/
def State.spawnParts (s : State) (p v : Nat) (hnd : Bool) (w : List Word) : List Msg :=
  let m := { s.blank p 13 5 v with plane := 0 }
  (range 0 4).map fun i =>
    { m with value := (nth w (2 * i)).getD 0, time := (nth w (2 * i + 1)).getD 0, cont := BitVec.ofNat 12 (i + bit hnd * 4) }

/-- The VCN is a destination that a scheduling instruction may name (R82, R296, R298). -/
def State.badVcn (s : State) (v : Nat) : Bool := !s.local v

/-- `spawn` (R296): the descriptor is read and checked as R133 reads an engine descriptor, then sent, or taken here. -/
def execSpawn (d a : BitVec 5) (s : State) : Ans :=
  let va := s.gr a
  if va.extractLsb' 0 3 != 0 then faults 0x18 0 s
  else
    readWords va.toNat 8 .load s fun s w =>
      let v := (((nth w 0).getD 0).extractLsb' 32 10).toNat
      if !spawnOk w then faults 0x18 0 s
      else if s.badVcn v then faults 0x17 0 s
      else if v = s.mine.vcnNum then
        match s.mine.takeSpawn w with
        | none => waits s
        | some (c, e) => let s := s.setCore s.cur.p c
                         if d = 0 then done s else doneG d (c.refTo e) s
      else
        let s := s.enqueueAt s.cur.p s.cur.k (s.spawnParts s.cur.p v (d != 0) w)
        if d = 0 then done s else go (s.modMe fun x => { x with wait := some (.spawnRef d) })

/-- A range descriptor keeps its limits (R309). -/
def rangeOk (w : List Word) : Bool :=
  let f := fun i => (nth w i).getD 0
  let kind := Kind.ofCode ((f 2).extractLsb' 18 2).toNat
  (f 0).toNat ≤ (f 1).toNat && (f 1).toNat - (f 0).toNat < 2 ^ 48 && (f 2).extractLsb' 32 32 != 0 && (f 2).extractLsb' 26 6 == 0 &&
    (f 2).extractLsb' 18 2 != 3 && ((f 2).extractLsb' 0 16).toNat < Config.storeBytes kind && (f 2).extractLsb' 0 2 == 0 &&
    (f 4).extractLsb' 27 36 == 0 && f 5 == 0 && f 6 == 0 && f 7 == 0

/-- `rng` (R309): it waits for a FREE entry and for the keeper. -/
def execRng (a : BitVec 5) (s : State) : Ans :=
  let va := s.gr a
  let p := s.cur.p
  let k := s.cur.k
  if va.extractLsb' 0 3 != 0 then faults 0x18 0 s
  else
    readWords va.toNat 8 .load s fun s w =>
      let f := fun i => (nth w i).getD 0
      let n := ((f 2).extractLsb' 20 6).toNat
      if !rangeOk w then faults 0x18 0 s
      else if !s.mine.cmask.getLsbD n then faults 0x17 0 s
      else
        match s.mine.freeEntry with
        | none => waits s
        | some e =>
          let t : Task := {
            Task.reset with
            gen := (s.mine.task e).gen, kind := Kind.ofCode ((f 2).extractLsb' 18 2).toNat, prio := (f 2).extractLsb' 16 2
            entry := (f 2).extractLsb' 0 16, arg := f 3, range := some (0, n), reserved := true }
          let s1 := (s.modMine fun c => c.setTask e t).modMe fun x => { x with wait := some (.rngOpen e) }
          if s.isKeeper p then
            match s1.keeperOpen s.mine.vcnNum k w with
            | none => waits s
            | some s2 => go s2
          else go (s1.keeperAsk p k 3 ((range 0 4).map fun i => (f (2 * i), f (2 * i + 1))))

/-- The piece of the running range firing. -/
def State.myPiece (s : State) : Option (BitVec 16) :=
  match s.me.run with
  | some (.task e) => (s.mine.task e).range.map Prod.fst
  | _ => none

/-- `rng.c` (R310): valid only in a range firing. -/
def execRngC (d : BitVec 5) (s : State) : Ans :=
  if s.me.hnd then illegal (.rngC d) s
  else
    match s.myPiece with
    | none => faults 0x17 0 s
    | some pid =>
      let s := s.modMe fun x => { x with wait := some (.rngClaim d) }
      if s.isKeeper s.cur.p then go (s.keeperClaim s.mine.vcnNum s.cur.k pid) else go (s.keeperAsk s.cur.p s.cur.k 4 [(pid.setWidth 64, 0)])

/-- A counter instruction on the reference in g[a] (R298): reserved bits, or a VCN that is not in the job here, trap with 0x17. -/
def counterInstr (op : Nat) (a : BitVec 5) (value : Word) (s : State) : Ans :=
  let r := s.gr a
  if r >>> 27 != 0 || s.badVcn (refVcn r) then faults 0x17 0 s else done (s.counterSend s.cur.p s.cur.k op r value)

/-- `dcnt` (R298). -/
def execDcnt (a : BitVec 5) (s : State) : Ans := counterInstr 0 a 0 s
/-- `dset` (R298). -/
def execDset (a b : BitVec 5) (s : State) : Ans := counterInstr 1 a (s.gr b) s

/-- `cjoin` and `cleave` (R306): the CMASK bit at issue, and an enqueue at the keeper. -/
def cohortChange (join : Bool) (a : BitVec 5) (s : State) : Ans :=
  let w := s.gr a
  let n := (w.extractLsb' 0 6).toNat
  if w >>> 6 != 0 then faults 0x17 0 s
  else
    let s := s.modMine fun c => { c with cmask := if join then c.cmask ||| (1#64 <<< n) else c.cmask &&& ~~~(1#64 <<< n) }
    if s.isKeeper s.cur.p then done (if join then s.keeperJoin s.mine.vcnNum n else s.keeperLeave s.mine.vcnNum n)
    else done (s.keeperAsk s.cur.p s.cur.k (if join then 0 else 1) [(BitVec.ofNat 64 n, 0)])

/-- `cjoin` (R306). -/
def execCjoin (a : BitVec 5) (s : State) : Ans := cohortChange true a s
/-- `cleave` (R306). -/
def execCleave (a : BitVec 5) (s : State) : Ans := cohortChange false a s

/-- `cbar` (R307): the arrival goes to the keeper and the firing ends. -/
def execCbar (a b : BitVec 5) (s : State) : Ans :=
  let w := s.gr a
  let n := (w.extractLsb' 0 6).toNat
  let c := s.mine
  let cont := s.gr b
  let p := s.cur.p
  let k := s.cur.k
  let s0 := s
  if s.me.hnd then illegal (.cbar a b) s
  else if w >>> 6 != 0 || !c.cmask.getLsbD n || c.amask.getLsbD n || !(cont.extractLsb' 0 2 == 0 && cont.extractLsb' 18 14 == 0) then faults 0x17 0 s
  else
    let slot : BarSlot := ⟨k, cont.extractLsb' 0 16, cont.extractLsb' 16 2, cont.extractLsb' 32 32, 0⟩
    let s := s.modMine fun c => { c with amask := c.amask ||| (1#64 <<< n), bars := Map.put c.bars n slot }
    let s := if s.isKeeper p then s.keeperArrive c.vcnNum n (c.ph.extractLsb' 0 24) else s.keeperAsk p k 2 [(BitVec.ofNat 64 n, 0)]
    if s.endWaits p k then waits s0 else go (s.endFiring p k)

/-- `yield` (R313). -/
def execYield (s : State) : Ans := if s.me.hnd then illegal .yield s else go (s.yieldFiring s.cur.p s.cur.k)
/-- `fin` (R313): it waits only where R83 makes it. -/
def execFin (s : State) : Ans :=
  if s.me.hnd then illegal .fin s else if s.endWaits s.cur.p s.cur.k then waits s else go (s.endFiring s.cur.p s.cur.k)
/-- `prio` (R303). -/
def execPrio (a : BitVec 5) (s : State) : Ans :=
  if s.gr a >>> 2 != 0 then faults 0x17 0 s else done (s.modMe fun x => { x with prio := (s.gr a).extractLsb' 0 2, prioSet := true })

/-! ## Arrivals on C13 -/

/-- Message n of C13 with an opcode, arriving in order (R92): it is taken at once (R98). The test on the continuation and the action are the event's. -/
def State.onC13 (s : State) (n opc : Nat) (test : Msg → Bool) (act : State → NetMsg → State) : State :=
  match s.arrivable n with
  | none => s
  | some e =>
    if e.msg.cls != 13 || e.msg.opc.toNat != opc || !test e.msg then s else act s e

/-- The message at n and its following parts, removed from the network (R86): the parts are consecutive messages of one plane. -/
def State.takeParts (s : State) (n k : Nat) (e : NetMsg) : State × List Msg :=
  let same := fun (f : NetMsg) => f.msg.src == e.msg.src && f.msg.dst == e.msg.dst && f.msg.plane == e.msg.plane && f.msg.cls == e.msg.cls
  let rest := s.net.drop n
  let parts := firstN (keep rest same) k
  let others := keep rest (fun f => !same f) ++ (keep rest same).drop k
  -- order within each source, destination, plane and class is kept
  ({ s with net := firstN s.net n ++ others }, parts.map NetMsg.msg)

/-- The words of a descriptor's four parts. -/
def wordsOfParts (l : List Msg) : List Word := (l.map fun m => [m.value, m.time]).flatten

/-- `FDSP` (R118): the dispatch makes the continuation READY at its core. -/
def execFdsp (n : Nat) (s : State) : Ans :=
  go (s.onC13 n 4 (fun _ => true) fun s e =>
    let m := e.msg
    (s.dropMsg n).modCore (s.posOf m.dst.toNat) fun c =>
      c.dispatch ⟨m.time, m.value, (m.path.extractLsb' 0 2 ++ m.cont ++ 0#2 : BitVec 16), m.path.extractLsb' 2 2, m.diff, m.phase⟩)

/-- `SPWN` (R296): the four parts arrive; the escapement takes an entry and answers the reference, or refuses. -/
def execSpwn (n : Nat) (s : State) : Ans :=
  go (s.onC13 n 5 (fun m => m.cont.extractLsb' 0 2 == 0) fun s e =>
    let (s, parts) := s.takeParts n 4 e
    let p := s.posOf e.msg.dst.toNat
    let ans := fun (s : State) (ok : Bool) (v : Word) =>
      let m := s.blank p 13 6 e.msg.src.toNat
      s.postWith p e.issuer parts { m with value := v, diff := if ok then 1 else 0 }
    match (s.core p).takeSpawn (wordsOfParts parts) with
    | some (c, i) => ans (s.setCore p c) true (c.refTo i)
    | none => ans s false 0)

/-- `SPREF` (R296): a spawn that is taken completes a waiting `spawn` and lets the enqueues behind it go; a refused one is to be sent again. -/
def execSpref (n : Nat) (s : State) : Ans :=
  go (s.onC13 n 6 (fun _ => true) fun s e =>
    let s := s.dropMsg n
    let p := s.posOf e.msg.dst.toNat
    let k := e.issuer.getD .control
    match indexOf (s.core p).retry fun r => r.issuer == e.issuer && r.parts == e.parts && !r.refused with
    | none => s
    | some i =>
      if e.msg.diff = 0 then s.modCore p fun c => { c with retry := setNth c.retry i ⟨0, e.issuer, e.parts, true⟩ }
      else
        let s := (s.modCore p fun c => { c with retry := dropNth c.retry i }).releaseBehind ((s.core p).behind.length + 1) p k e.msg.src.toNat
        match (s.scal p k).wait, (e.parts.head?.map fun m => m.cont.getLsbD 2) with
        | some (.spawnRef d), some true => s.modScal p k fun x => ({ x with wait := none }.setG d e.msg.value).advance
        | _, _ => s)

/-- `SPAWN_RETRY` (R296): a refused spawn sent again once 256 network cycles have passed. -/
def execSpawnRetry (p n : Nat) (s : State) : Ans :=
  match nth (s.core p).retry n with
  | none => go s
  | some r =>
    if r.age < 256 || !r.refused then go s
    else go ((s.modCore p fun c => { c with retry := setNth c.retry n { r with refused := false } }).sendParts p r.issuer r.parts)

/-- A CNTOP of one operation (R298, R299). -/
def counterArrival (op n : Nat) (s : State) : Ans :=
  go (s.onC13 n 7 (fun m => (m.cont.extractLsb' 0 2).toNat == op) fun s e =>
    (s.dropMsg n).counterOp (s.posOf e.msg.dst.toNat) op e.msg.value e.msg.time e.msg.src.toNat 0)

/-- `CNTOP_DECREMENT` (R298). -/
def execCntopDecrement (n : Nat) (s : State) : Ans := counterArrival 0 n s
/-- `CNTOP_SET` (R298). -/
def execCntopSet (n : Nat) (s : State) : Ans := counterArrival 1 n s
/-- `CNTOP_ADD` (R299). -/
def execCntopAdd (n : Nat) (s : State) : Ans := counterArrival 2 n s

/-- A KREQ of one subop at the keeper. -/
def keeperRequest (sub n : Nat) (act : State → NetMsg → State) (s : State) : Ans :=
  go (s.onC13 n 8 (fun m => m.subop == sub && (m.part == 0 || sub != 3)) fun s e => act s e)

/-- `KREQ_CJOIN` (R306). -/
def execKreqCjoin (n : Nat) (s : State) : Ans :=
  keeperRequest 0 n (fun s e => (s.dropMsg n).keeperJoin e.msg.src.toNat (e.msg.value.toNat % 64)) s
/-- `KREQ_CLEAVE` (R306). -/
def execKreqCleave (n : Nat) (s : State) : Ans :=
  keeperRequest 1 n (fun s e => (s.dropMsg n).keeperLeave e.msg.src.toNat (e.msg.value.toNat % 64)) s
/-- `KREQ_CBAR` (R308). -/
def execKreqCbar (n : Nat) (s : State) : Ans :=
  keeperRequest 2 n (fun s e => (s.dropMsg n).keeperArrive e.msg.src.toNat (e.msg.value.toNat % 64) e.msg.phase) s
/-- `KREQ_RNG_OPEN` (R309): taken at once; the keeper keeps it while the cohort has four open ranges. -/
def execKreqRngOpen (n : Nat) (s : State) : Ans :=
  keeperRequest 3 n (fun s e =>
    let (s, parts) := s.takeParts n 4 e
    s.openOrKeep ⟨e.msg.src.toNat, e.issuer.getD .control, wordsOfParts parts⟩) s
/-- `KREQ_RNG_CLAIM` (R310). -/
def execKreqRngClaim (n : Nat) (s : State) : Ans :=
  keeperRequest 4 n (fun s e => (s.dropMsg n).keeperClaim e.msg.src.toNat (e.issuer.getD .control) (e.msg.value.extractLsb' 0 16)) s
/-- `KREQ_WORK_REQUEST` (R311). -/
def execKreqWorkRequest (n : Nat) (s : State) : Ans :=
  keeperRequest 5 n (fun s e => (s.dropMsg n).keeperWork e.msg.src.toNat (Kind.ofCode (e.msg.value.extractLsb' 0 2).toNat)) s
/-- `KREQ_PIECE_RELEASE` (R312). -/
def execKreqPieceRelease (n : Nat) (s : State) : Ans :=
  keeperRequest 6 n (fun s e => (s.dropMsg n).keeperRelease (e.msg.value.extractLsb' 0 16)) s

/-- A KREP of one subop at its core. -/
def keeperReply (sub n : Nat) (act : Core → NetMsg → Core) (s : State) : Ans :=
  go (s.onC13 n 9 (fun m => m.subop == sub) fun s e => (s.dropMsg n).modCore (s.posOf e.msg.dst.toNat) fun c => act c e)

/-- `KREP_BARRIER_COMPLETION` (R308). -/
def execKrepBarrierCompletion (n : Nat) (s : State) : Ans := keeperReply 0 n (fun c e => c.barrierDone (e.msg.value.toNat % 64) e.msg.phase) s
/-- `KREP_RANGE_OPENED` (R309). -/
def execKrepRangeOpened (n : Nat) (s : State) : Ans :=
  keeperReply 1 n (fun c e => c.rangeOpened (e.issuer.getD .control) (e.msg.value.extractLsb' 0 16)) s
/-- `KREP_CLAIM_REPLY` (R310). -/
def execKrepClaimReply (n : Nat) (s : State) : Ans := keeperReply 2 n (fun c e => c.claimed (e.issuer.getD .control) e.msg.value e.msg.time) s
/-- `KREP_PIECE_GRANTED` (R311): both parts. -/
def execKrepPieceGranted (n : Nat) (s : State) : Ans :=
  go (s.onC13 n 9 (fun m => m.subop == 3 && m.part == 0) fun s e =>
    let (s, parts) := s.takeParts n 2 e
    match parts with
    | [_, m] => s.modCore (s.posOf e.msg.dst.toNat) fun c =>
        c.granted (e.issuer.getD .control) m.value (m.time.extractLsb' 0 16) (m.time.extractLsb' 16 2) (m.time.extractLsb' 18 6).toNat
          (m.time.extractLsb' 32 16)
    | _ => s)
/-- `KREP_NO_WORK` (R311). -/
def execKrepNoWork (n : Nat) (s : State) : Ans := keeperReply 4 n (fun c e => c.noWork (e.issuer.getD .control)) s

/-! ## The escapement's own events -/

/-- `WORK_REQUEST_TIMER` (R311): an idle scalar core asks the keeper for work, at first and 1,024 arithmetic cycles after each request (`askAge` is one more
than those cycles), and an entry is reserved while it asks. -/
def execWorkRequestTimer (p : Nat) (k : Kind) (s : State) : Ans :=
  let c := s.core p
  let x := c.scal k
  if x.run.isSome || x.head.isSome || c.cmask = 0 || x.asking.isSome || !(x.askAge = 0 || 1024 < x.askAge) || c.freeze.isSome then go s
  else
    match c.freeEntry with
    | none => go s
    | some e =>
      let c := (c.setTask e { c.task e with reserved := true }).modScal k fun x => { x with asking := some e, askAge := 1 }
      let s := s.setCore p c
      if s.isKeeper p then go (s.keeperWork c.vcnNum k) else go (s.keeperAsk p k 5 [(BitVec.ofNat 64 k.code, 0)])

/-- `READY_AGING` (R300): the first firing of a level that has waited AGE cycles moves to the tail of the next. -/
def execReadyAging (p : Nat) (k : Kind) (level : Nat) (s : State) : Ans :=
  let c := s.core p
  let q := Map.get (c.scal k).ready [] level
  match indexOf q fun e => c.age.toNat ≤ e.age with
  | none => go s
  | some i =>
    if 3 ≤ level then go s
    else
      match nth q i with
      | none => go s
      | some e =>
        go (s.modScal p k fun x =>
          let r := Map.put x.ready level (dropNth q i)
          { x with ready := Map.put r (level + 1) (Map.get r [] (level + 1) ++ [⟨e.id, 0⟩]) })

/-- `FIRING_START` (R302): the head of the highest non-empty level starts, when it is not a handler firing still to take its message. -/
def execFiringStart (p : Nat) (k : Kind) (s : State) : Ans :=
  match (s.scal p k).head with
  | none => go s
  | some (n, e) =>
    match e.id with
    | .handler _ none => go s
    | id => if s.mayStart p k then go (s.startFiring p k n id) else go s

/-- `HANDLER_FIRING_START` (R90): a handler firing starts with the oldest message of its class, which leaves the inbound queue (log 64, DEDUCED). -/
def execHandlerFiringStart (p cls : Nat) (s : State) : Ans :=
  let c := s.core p
  match c.ctl.head, (c.inbound cls).q with
  | some (n, ⟨.handler cl none, _⟩), m :: _ =>
    if cl = cls && !m.p && s.mayStart p .control then go ((s.setCore p (c.popInbound cls)).startFiring p .control n (.handler cls (some m))) else go s
  | _, _ => go s

end Sys2Proof.Machine
end

