-- ==== Sys2Proof/Machine/EvNet.lean ====
section
/-!
DEFINITION. What a core's network interface does on its own: arrivals, deliveries, acknowledgements and probes (R83 to R101, R128, R287,
R288, R376, R382).
-/
namespace Sys2Proof.Machine

open Sys2Proof

/-! ## Arrival (R85, R87, R92, R95) -/

/-- The opcode lies outside its class's set, or is reserved (R85, R86, R87). -/
def Msg.bad (m : Msg) (chip : Option Nat) : Bool :=
  let op := m.opc.toNat
  if m.cls.toNat < 8 then 1 < op
  else if m.cls.toNat = 13 then
    match op with
    | 0 => chip.isNone
    | 1 => true
    | 3 => chip.isNone
    | 7 => m.cont.extractLsb' 0 2 == 3
    | 8 => 7 ≤ m.subop
    | 9 => 5 ≤ m.subop
    | _ => 9 < op
  else true

/-- A record that concerns the class waits for the event queue: a request class then accepts no arrival (R151). -/
def Core.withheld (c : Core) (cls : Nat) : Bool := c.stalled fun r => r.unit == 5 && r.kind == 8 && (r.w0.extractLsb' 32 16).toNat == cls

/-- An O message of this module whose earlier messages have not all been delivered (R95); one of another module is never held (R376). -/
def Core.mustHold (c : Core) (m : Msg) (chip : Option Nat) : Bool := m.o && chip.isNone && Map.get c.dlv 0 m.src.toNat != m.seq

/-- An MSG delivered to its class (R94, R99); none while it cannot be. A message whose spill fails stays with the interface (R100). -/
def State.deliverMsg (s : State) (p : Nat) (m : Msg) (chip : Option Nat) : Option State :=
  let cls := m.cls.toNat
  if cls = 13 then
    let x := (s.core p).inbound 13
    some (((s.modCore p fun c => c.setInbound 13 { x with q := x.q ++ [m] }).delivered p m chip).kick 17 p 13)
  else
    match s.takeMsg p cls m with
    | none => none
    | some (t, true) => some ((t.delivered p m chip).kick 17 p cls)
    | some (t, false) => some (t.modCore p fun c => c.setInbound cls { c.inbound cls with heldChip := chip })

/-! ## Remote stores (R128, R287) -/

/-- The core's L1 line after a remote store to it was published: discarded when clean; else the delivered bytes enter where the line holds
none of its own, present and clean. -/
def Line.afterRst (l : Line) (off x : Nat) : Option Line :=
  if l.clean then none
  else
    let m := byteMask off 8 &&& ~~~l.own
    some { l with
      data := mergeData m l.data (BitVec.ofNat 1024 (x % 2 ^ 64 * 2 ^ (8 * off))), present := l.present ||| m
      poison := setWords l.poison (keep [off / 8] fun _ => l.own &&& byteMask off 8 == 0) false }

/-- The 8-byte store in the name of the destination core: done, a fault's cause, or a wait for a line. -/
def State.rstStore (s : State) (p va x : Nat) : State × EngGot :=
  match s.checkSpan p va 8 .store 8 anyClass with
  | (s, .stall) => (s, .stall)
  | (s, .bad c a h) => (s, .bad c a h)
  | (s, .ok l) =>
    match l with
    | [] => (s, .ok 0)
    | a :: _ =>
      if winClass a.win = 0 && !(s.core p).stashed a then
        let off := a.pa % 128
        match s.publishNow p a (byteMask off 8) (putBytes 0 off 8 x) 0 with
        | none => (s, .stall)
        | some (t, q) =>
          let c := (t.core p).notePub q
          let w := c.place a
          (t.setCore p (match c.lineAt w with | some l => c.setLine w (l.afterRst off x) | none => c), .ok 0)
      else
        match s.storePart p a x with
        | (t, .ok _) => (t, .ok 0)
        | (_, .poison) => (s, .bad 0x16 va false)
        | (_, .stall) => (s, .stall)

/-- A remote store delivered (R128): for an O message the phase first; a failing check writes the NETERR record, and the message counts as
delivered all the same. None while its line is under a lock. -/
def State.deliverRst (s : State) (p : Nat) (m : Msg) (chip : Option Nat) : Option State :=
  let t := s.delivered p m chip
  match t.rstStore p m.time.toNat m.value.toNat with
  | (_, .stall) => none
  | (t, .ok _) => some t
  | (t, .bad c _ _) => some (t.netErr p 4 m.cls.toNat m.time (BitVec.ofNat 64 c))

/-! ## Arrival events -/

/-- A counted message at the head of its order: held for its sequence (R95), or delivered. -/
def State.arrive (s : State) (n : Nat) (e : NetMsg) (deliver : State → Nat → Msg → Option Nat → Option State) : State :=
  let p := s.posOf e.msg.dst.toNat
  let c := s.core p
  let cls := e.msg.cls.toNat
  if cls < 8 && (c.withheld cls || (c.inbound cls).st == .held) then s
  else if cls < 8 && c.mustHold e.msg e.chip then
    (if 16 ≤ c.hold.length then s else (s.dropMsg n).modCore p fun c => { c with hold := c.hold ++ [e.msg] })
  else (deliver (s.dropMsg n) p e.msg e.chip).getD s

/-- `MSG_ARRIVAL` (R85, R94, R95, R99): an MSG is delivered or held; a message with a reserved opcode, or one outside its class's set, is
discarded with a record to Zusil (log 63, DEDUCED). -/
def execMsgArrival (n : Nat) (s : State) : Ans :=
  match s.arrivable n with
  | none => go s
  | some e =>
    if e.msg.bad e.chip then go ((s.dropMsg n).report (.badMessage e.msg.dst.toNat e.msg.opc))
    else if e.msg.opc != 0 then go s
    else go (s.arrive n e State.deliverMsg)

/-- `RST_DELIVERY` (R128, R287). -/
def execRstDelivery (n : Nat) (s : State) : Ans :=
  match s.arrivable n with
  | none => go s
  | some e => if e.msg.bad e.chip || e.msg.opc != 1 then go s else go (s.arrive n e State.deliverRst)

/-- `ORDERED_HOLD_RELEASE` (R95): a held O message is delivered once DLV of its source equals its sequence. -/
def execOrderedHoldRelease (p n : Nat) (s : State) : Ans :=
  let c := s.core p
  match nth c.hold n with
  | none => go s
  | some m =>
    if c.mustHold m none || c.withheld m.cls.toNat || (c.inbound m.cls.toNat).st == .held then go s
    else
      let s' := s.modCore p fun c => { c with hold := dropNth c.hold n }
      go (((if m.opc = 1 then State.deliverRst else State.deliverMsg) s' p m none).getD s)

/-- `INBOUND_QUEUE_REFILL` (R99, R101). -/
def execInboundQueueRefill (p cls : Nat) (s : State) : Ans := if 8 ≤ cls then go s else go (s.refillQueue p cls)

/-- The token of a message delivered to the fabric (R91) (log 65, DEDUCED). -/
def Msg.token (m : Msg) (ctx : BitVec 4) : Token := ⟨m.value, m.time, m.diff, m.path, m.p, m.m, m.l, false, ctx⟩

/-- `FABRIC_DELIVERY` (R91): the oldest message of a MODE 1 class enters its element, or is removed with a NETERR record (log 65, DEDUCED). -/
def execFabricDelivery (p cls : Nat) (s : State) : Ans :=
  let c := s.core p
  let h := c.handler cls
  match (c.inbound cls).q with
  | [] => go s
  | m :: _ =>
    let e := (m.cont.extractLsb' 6 6).toNat
    let slot := (m.cont.extractLsb' 1 5).toNat
    let port := bit (m.cont.getLsbD 0)
    let t : BitVec 13 := 1#1 ++ m.cont
    let x := s.elem p e
    let drop := s.setCore p (c.popInbound cls)
    let bad := drop.netErr p 2 cls (m.cont.setWidth 64) 0
    if !(h.mode && h.en) || c.withheld cls then go s
    else if e % 8 != 7 then go bad
    else
      match x.act with
      | none => go s
      | some g =>
        if !(match g.word slot with | some w => feedsPort w port | none => false) then go bad
        else if c.free t = 0 then go s
        else go (drop.place p t (m.token g.ctx))

/-! ## Acknowledgements (R97) -/

/-- Deliveries of a source on a plane that one ACK covers: the first of them and those behind it from the same module, up to a count; an O
delivery stands alone. -/
def coverable (l : List (Nat × Nat × Bool × Option Nat)) (src plane : Nat) : List (Nat × Nat × Bool × Option Nat) :=
  keep l fun e => e.1 == src && e.2.1 == plane

/-- The list without its first n entries of a source and plane. -/
def uncover (l : List (Nat × Nat × Bool × Option Nat)) (src plane n : Nat) : List (Nat × Nat × Bool × Option Nat) :=
  match l, n with
  | [], _ => []
  | l, 0 => l
  | e :: r, n + 1 => if e.1 = src ∧ e.2.1 = plane then uncover r src plane n else e :: uncover r src plane (n + 1)

/-- `ACK_SEND` (R97): one ACK for `count` deliveries from a source on a plane, on that plane; back to the other module for a message that came
from one (R376) (log 61, DEDUCED). -/
def execAckSend (p src plane count : Nat) (s : State) : Ans :=
  let c := s.core p
  let l := firstN (coverable c.toAck src plane) count
  match l with
  | [] => go s
  | (_, _, o, chip) :: _ =>
    if count = 0 || 511 < count || l.length < count || anyOf l (fun e => e.2.2.2 != chip || e.2.2.1 != o) || (o && count != 1) then go s
    else
      let s := s.setCore p { c with toAck := uncover c.toAck src plane count }
      let m := { s.blank p 13 2 src with plane := BitVec.ofNat 2 plane, diff := BitVec.ofNat 32 count, o := o }
      match chip with
      | none => go (s.post p none m)
      | some ch => go (s.sendOff p ch m)

/-- `ACK_ARRIVAL` (R97): always taken at once. -/
def execAckArrival (n : Nat) (s : State) : Ans :=
  match s.arrivable n with
  | none => go s
  | some e =>
    if e.msg.cls != 13 || e.msg.opc != 2 then go s
    else
      go ((s.dropMsg n).modCore (s.posOf e.msg.dst.toNat) fun c =>
        c.acked e.msg.src.toNat e.msg.plane.toNat e.msg.diff.toNat e.msg.o e.chip.isSome)

/-- `NAK_ARRIVAL` (R83, R376): a NAK from another module enters its reserved slot at once; its record follows while the event queue has room,
and then it counts. -/
def execNakArrival (n : Nat) (s : State) : Ans :=
  match s.arrivable n with
  | none => go s
  | some e =>
    if e.msg.cls != 13 || e.msg.opc != 3 || e.chip.isNone then go s
    else
      let p := s.posOf e.msg.dst.toNat
      go (((s.dropMsg n).modCore p fun c => { c with naks := c.naks ++ [e.msg] }).settleNaks 64 p)

/-! ## Probes (R98, R382) -/

/-- A scalar core is halted: the debugger may read and write its registers and instruction store (R9, R382). -/
def Scalar.halted (x : Scalar) : Bool := x.stop.isSome

/-- The system numbers of the registers of a scalar core that can be written (R10, R12): SR (its DBE), SSR, EPC, TVEC, LPC, LPS, LPE. -/
def debugWrites (n : Nat) : Bool := hasNat [0, 1, 2, 5, 8, 9, 10] n

/-- `PROBE_MESSAGE` (R9, R98, R370, R382): a read answers Zusil; a write of a time register that breaks R32 is refused; MB0 is written at any
time. -/
def execProbeMessage (p : Nat) (op : ProbeOp) (s : State) : Ans :=
  let scal := fun (k : Kind) => (s.core p).scal k
  let read := fun (k : Kind) (v : Word) => if (scal k).halted then go (s.report (.probeValue p v)) else go s
  let write := fun (k : Kind) (f : Scalar → Scalar) => if (scal k).halted then go (s.modScal p k f) else go s
  match op with
  | .readG k r => read k ((scal k).gr r)
  | .writeG k r x => write k fun y => y.setG r x
  | .readT k r => read k ((scal k).tr r)
  | .writeT k r x => if (scal k).halted && !timeOk x then go (s.report (.probeRefused p)) else write k fun y => y.setT r x
  | .readSys k n =>
    match sysValue s p k n.toNat with
    | some v => read k v
    | none => go (s.report (.probeRefused p))
  | .writeSys k n x => if debugWrites n.toNat then write k fun y => y.sysWrite n.toNat x else go (s.report (.probeRefused p))
  | .readShadow k e => read k (if e then (scal k).slpe else (scal k).slps)
  | .writeShadow k e x => write k fun y => if e then { y with slpe := x } else { y with slps := x }
  | .readPc k => read k (scal k).pc
  | .writeLoop k which x =>
    write k fun y => match which.toNat with
      | 0 => { y with lpc := x }
      | 1 => { y with lps := x }
      | 2 => { y with lpe := x }
      | _ => y
  | .writePc k x => write k fun y => { y with pc := x }
  | .readStore k a => read k (((scal k).storeWord a).setWidth 64)
  | .writeStore k a w =>
    if Config.storeBytes k ≤ a || a % 4 != 0 then go (s.report (.probeRefused p))
    else write k fun y => { y with store := Map.put y.store (a / 4) w }
  | .writeMb0 x => go (s.modCore p fun c => { c with mb := Map.put c.mb 0 x })

end Sys2Proof.Machine
end

