-- ==== Sys2Proof/Machine/Hub.lean ====
section
/-!
DEFINITION. The hub die: Delrid packets and residency reports (R371 to R373, R381), the device registers (R369, R370, R382), memory requests and
messages from outside (R367, R368, R375, R376), and Zusil's boot and attestation (R379, R380).
-/
namespace Sys2Proof.Machine

open Sys2Proof

/-! ## Delrid packets (R371) -/

/-- Word i of a packet. -/
def Packet.word (k : Packet) (i : Nat) : Word := (nth k.w i).getD 0
/-- TYPE. -/
def Packet.type (k : Packet) : Nat := ((k.word 0).extractLsb' 56 8).toNat
/-- DCHIP. -/
def Packet.dchip (k : Packet) : Nat := ((k.word 0).extractLsb' 16 12).toNat
/-- VCN. -/
def Packet.vcn (k : Packet) : Nat := ((k.word 0).extractLsb' 0 10).toNat
/-- ADDR. -/
def Packet.addr (k : Packet) : Nat := ((k.word 1).extractLsb' 0 48).toNat
/-- SCRUB. -/
def Packet.scrub (k : Packet) : Bool := (k.word 0).getLsbD 10
/-- The bits that R371's table reserves are zero. -/
def Packet.plain (k : Packet) : Bool := (k.word 0).extractLsb' 11 5 == 0 && allOf [2, 3, 4, 5, 6] fun i => k.word i == 0

/-- A REJECTED report for a packet; none while the report queue is full (R373). -/
def State.reject (s : State) (k : Packet) (reason vcn : Nat) : Option State :=
  if s.reportsFull then none else some (s.answer 2 reason vcn k.job k.seq)

/-- The oldest packet, when its TYPE is one that the event handles: forwarded when it is for another chip, rejected when its format is broken,
else handled. It stays where no report can be made, and while a pre-emption is under way (R371, R373) (log 71, DEDUCED). -/
def State.onPacket (s : State) (type : Nat → Bool) (f : Packet → State → Option State) : Ans :=
  match s.hub.packets with
  | [] => go s
  | k :: rest =>
    if !type k.type || s.hub.preempting.isSome then go s
    else
      let t := { s with hub := { s.hub with packets := rest, busy := s.hub.busy && k.gateway } }
      let r := if k.dchip != s.hub.chip then
          match Map.get s.hub.routes none k.dchip with
          | some port => some { t with hub := { t.hub with sent := t.hub.sent ++ [(port, k.w)] } }
          | none => t.reject k 1 0
        else if !k.plain then t.reject k 1 0
        else f k t
      go (r.getD s)

/-- The job that a packet names is resident. -/
def State.isJob (s : State) (k : Packet) : Bool := match s.job with | some j => j.id.toNat == k.job | none => false

/-- What a launch's check answers, reported: the state it made, or a rejection that changes nothing else. -/
def State.launchReport (s : State) (k : Packet) (kind : Nat) (r : Checked State) : Option State :=
  match r with
  | .ok t => if s.reportsFull then none else some (t.answer kind 0 0 k.job k.seq)
  | .bad reason vcn z => { s with zusil := z.getD s.zusil }.reject k reason vcn

/-- `DELRID_START` (R292, R314, R372). -/
def execDelridStart (s : State) : Ans :=
  s.onPacket (· == 1) fun k t =>
    if t.job.isSome then t.reject k 8 0
    else t.launchReport k 1 ((t.readBlock k.addr (BitVec.ofNat 16 k.job) k.seq true).then t.startJob)

/-- A WORK spawn offered to its VCN (R292, R296): taken, or refused and kept; it stays behind an earlier one to the same VCN (log 72, DEDUCED). -/
def State.sendWork (s : State) (r : WorkReq) : State :=
  let wait := { s with hub := { s.hub with works := s.hub.works ++ [{ r with age := 0 }] } }
  if anyOf s.hub.works fun x => x.vcn == r.vcn then wait
  else match (s.core (s.posOf r.vcn)).takeSpawn r.words with
    | some (c, _) => s.setCore (s.posOf r.vcn) c
    | none => wait

/-- A refused WORK spawn sent again once 256 network cycles have passed, in the order of the packets for its VCN (R292, R296). -/
def State.resendWork (s : State) (n : Nat) : State :=
  match nth s.hub.works n with
  | none => s
  | some r =>
    if r.age < 256 || anyOf (firstN s.hub.works n) fun x => x.vcn == r.vcn then s
    else match (s.core (s.posOf r.vcn)).takeSpawn r.words with
      | some (c, _) => { s with hub := { s.hub with works := dropNth s.hub.works n } }.setCore (s.posOf r.vcn) c
      | none => { s with hub := { s.hub with works := setNth s.hub.works n { r with age := 0 } } }

/-- `DELRID_WORK` (R292, R371): a spawn from VCN 0x3FF to the VCN that the packet names, which is taken with its descriptor (log 72, DEDUCED). -/
def execDelridWork (s : State) : Ans :=
  s.onPacket (· == 2) fun k t =>
    if !t.isJob k then t.reject k 9 0
    else
      match t.physWords k.addr 8 with
      | none => t.reject k 1 k.vcn
      | some w =>
        if k.addr % 8 != 0 || !spawnOk w || !t.local k.vcn then t.reject k 1 k.vcn
        else some (t.sendWork ⟨0, k.vcn, w⟩)

/-- `DELRID_PREEMPT` (R381): Zusil freezes every core. A frozen checkpoint ends first (log 71, DEDUCED). -/
def execDelridPreempt (s : State) : Ans :=
  s.onPacket (· == 3) fun k t =>
    if !t.isJob k then t.reject k 9 0
    else if (match t.hub.check with | some c => c.frozen | none => false) then none
    else some ({ t with hub := { t.hub with preempting := some k } }.freezeAll .preempt)

/-- `DELRID_RESUME` (R347, R351, R372). The reason of a resumption refused for its context is a free value, and each packet takes one (log 12). -/
def execDelridResume (s : State) : Ans :=
  s.onPacket (· == 4) fun k t =>
    if t.job.isSome then t.reject k 8 0
    else { t with free := t.free + 1 }.launchReport k 4 ((t.readBlock k.addr (BitVec.ofNat 16 k.job) k.seq false).then t.resumeJob)

/-- `DELRID_END` (R372). A frozen checkpoint ends first (log 16, DEDUCED). -/
def execDelridEnd (s : State) : Ans :=
  s.onPacket (· == 5) fun k t =>
    if !t.isJob k then t.reject k 9 0
    else if t.reportsFull || (match t.hub.check with | some c => c.frozen | none => false) then none
    else
      let u := t.clearJob
      some ((if k.scrub then u.scrub else u).answer 5 0 0 k.job k.seq)

/-- `DELRID_REJECTED` (R373): any other TYPE. -/
def execDelridRejected (s : State) : Ans := s.onPacket (fun n => n == 0 || 5 < n) fun k t => t.reject k 1 0

/-- `REPORT_WRITE` (R373): the oldest report is written at RRBASE + 64 × RRTAIL while the ring has room. -/
def execReportWrite (s : State) : Ans :=
  let h := s.hub
  let size := 2 ^ h.rrsize
  match h.reports with
  | [] => go s
  | r :: rest =>
    if (h.rrtail + 1) % size = h.rrhead % size then go s
    else
      let q := packWords (firstN (r.q ++ [0, 0, 0, 0, 0, 0, 0]) 7 ++ [BitVec.ofNat 64 (min h.dropped 0xFFFFFFFF)])
      go { s with hub := { h with
        hostMem := dramWrite h.hostMem ((h.rrbase.toNat + 64 * h.rrtail) % 2 ^ 64) 64 q
        rrtail := (h.rrtail + 1) % size, reports := rest, dropped := 0, msix := h.msix + 1 } }

/-! ## Device registers (R369, R370) -/

/-- FEATOn: FEAT1 to FEAT3 are reserved (R14). -/
def Hub.offered (h : Hub) (n : Nat) : Word := if n = 0 then h.feato else 0

/-- A FEATA write (R370). -/
def State.writeFeata (s : State) (n : Nat) (x : Word) : State :=
  if s.job.isSome || 4 ≤ n then s else { s with hub := { s.hub with feata := Map.put s.hub.feata n (x &&& s.hub.offered n) } }

/-- A write of launch word W7 (R370, R371): the packet is taken from the window, or dropped while BUSY = 1. -/
def State.writeW7 (s : State) (x : Word) : State :=
  if s.hub.busy then { s with hub := { s.hub with ovr := true } }
  else { s with hub := { s.hub with
    busy := true, packets := s.hub.packets ++ [⟨(range 0 7).map (fun i => Map.get s.hub.launch 0 i) ++ [x], false⟩] } }

/-- The retry doorbell of a VCN (R71): a rewalk of its core's held accesses is due. -/
def State.ringRetry (s : State) (v : Nat) : State := if s.local v then s.modCore (s.posOf v) fun c => { c with rewalk := true } else s
/-- HMB(v) (R369). -/
def State.writeHmb (s : State) (v : Nat) (x : Word) : State :=
  if s.local v then s.modCore (s.posOf v) fun c => { c with mb := Map.put c.mb 1 x } else s
/-- DBG command 1 (R382): the scalar cores stop as `halt` stops them; one that is stopped stays as it is (log 76, DEDUCED). -/
def State.haltVcn (s : State) (v : Nat) : State :=
  if s.local v then s.modCore (s.posOf v) fun c => c.modAll fun x => { x with stop := some (x.stop.getD .debugger) } else s
/-- DBG command 2 (R382) (log 76, DEDUCED). -/
def State.restartVcn (s : State) (v : Nat) : State :=
  if s.local v then s.modCore (s.posOf v) fun c => c.modAll fun x => { x with stop := none } else s

/-- A host write at an offset of the device register window. -/
def State.hostWrite (s : State) (off : Nat) (x : Word) : State :=
  let h := s.hub
  if off % 8 != 0 then s
  else if 0x20 ≤ off && off < 0x40 then s.writeFeata ((off - 0x20) / 8) x
  else if off = 0x40 then { s with hub := { h with ovr := h.ovr && !x.getLsbD 1 } }
  else if off = 0x48 then { s with hub := { h with rrbase := x &&& ~~~63#64 } }
  else if off = 0x50 then
    let n := (x.extractLsb' 0 5).toNat
    { s with hub := { h with rrsize := if 4 ≤ n ∧ n ≤ 16 then n else 4 } }
  else if off = 0x60 then { s with hub := { h with rrhead := x.toNat } }
  else if off = 0x80 then s.checkRequest x
  else if off = 0x88 then { s with hub := { h with cklba := x } }
  else if off = 0x90 then { s with hub := { h with ckovr := h.ckovr && !x.getLsbD 1 } }
  else if off = 0xD0 then
    let v := (x.extractLsb' 0 10).toNat
    if x.extractLsb' 10 2 = 1 then s.haltVcn v else if x.extractLsb' 10 2 = 2 then s.restartVcn v else s
  else if 0x1000 ≤ off && off < 0x1038 then { s with hub := { h with launch := Map.put h.launch ((off - 0x1000) / 8) x } }
  else if off = 0x1038 then s.writeW7 x
  else if 0x2000 ≤ off && off < 0x4000 then s.ringRetry ((off - 0x2000) / 8)
  else if 0x4000 ≤ off && off < 0x6000 then s.writeHmb ((off - 0x4000) / 8) x
  else s

/-- A host read at an offset of the device register window (R369, R370): an unlisted or write-only offset reads 0, as all of the closed window
does (R379). -/
def State.deviceRead (s : State) (off : Nat) : Word :=
  let h := s.hub
  if !h.open_ || off % 8 != 0 then 0
  else if off < 0x20 then h.offered (off / 8)
  else if off < 0x40 then Map.get h.feata (if off = 0x20 then 0xFF else 0) ((off - 0x20) / 8)
  else if off = 0x40 then BitVec.ofNat 64 (2 * bit h.ovr + bit h.busy)
  else if off = 0x48 then h.rrbase
  else if off = 0x50 then BitVec.ofNat 64 h.rrsize
  else if off = 0x58 then BitVec.ofNat 64 h.rrtail
  else if off = 0x60 then BitVec.ofNat 64 h.rrhead
  else if off = 0x80 then h.ckreq
  else if off = 0x88 then h.cklba
  else if off = 0x90 then BitVec.ofNat 64 (2 * bit h.ckovr + bit h.ckbusy)
  else if off = 0xC0 then each (range 0 Config.dies) (fun d (x : Word) => x ||| ((Map.get s.clkStep 0 d).setWidth 64 <<< (2 * d))) 0
  else 0

/-- A write that the open window takes; the closed one ignores it (R379). -/
def State.whenOpen (s : State) (f : State → State) : Ans := go (if s.hub.open_ then f s else s)

/-- `FEATA_WRITE` (R370). -/
def execFeataWrite (n : Nat) (x : Word) (s : State) : Ans := s.whenOpen fun s => s.writeFeata n x
/-- `RETRY_DOORBELL` (R71). -/
def execRetryDoorbell (v : Nat) (s : State) : Ans := s.whenOpen fun s => s.ringRetry v
/-- `HMB_WRITE` (R369, R370). -/
def execHmbWrite (v : Nat) (x : Word) (s : State) : Ans := s.whenOpen fun s => s.writeHmb v x
/-- `DBG_HALT` (R382). -/
def execDbgHalt (v : Nat) (s : State) : Ans := s.whenOpen fun s => s.haltVcn v
/-- `DBG_RESTART` (R382). -/
def execDbgRestart (v : Nat) (s : State) : Ans := s.whenOpen fun s => s.restartVcn v
/-- `DEVICE_REGISTER_WRITE` (R369). -/
def execDeviceRegisterWrite (off : Nat) (x : Word) (s : State) : Ans := s.whenOpen fun s => s.hostWrite off x
/-- `LAUNCH_W7_DROPPED` (R370, R371): with BUSY = 0 the packet would be taken from the window, and this is not that event. -/
def execLaunchW7Dropped (x : Word) (s : State) : Ans := s.whenOpen fun s => if s.hub.busy then s.writeW7 x else s

/-! ## Memory requests from outside (R368, R375) -/

/-- An answer to a memory request from outside. -/
def State.answerMem (s : State) (a : MemAnswer) : State := { s with hub := { s.hub with answers := s.hub.answers ++ [a] } }

/-- The answer to a request that is not performed (R77): a denial status to a peer port; to the host, read data with poison, or the completion of a
dropped write. -/
def refusedAnswer (peer wr : Bool) : MemAnswer := if peer then .denied else if wr then .done else .poison

/-- A request of n bytes at pa by a master outside the module, performed at the channel controller, and its answer. A denied one is
not performed and has its record (R77); outside DRAM it reaches no target (log 14, DEDUCED) (log 77, DEDUCED). -/
def State.outsideAccess (s : State) (master : Nat) (wr : Bool) (pa n x : Nat) : State :=
  let peer := master / 0x1000 != 1
  let perm := if wr then AK.store.perm else AK.load.perm
  if Config.dramBytes < pa + n then s.answerMem (refusedAnswer peer wr)
  else if !(s.admits master pa perm && s.admits master (pa + n - 1) perm) then
    (s.report (.denied (1000 + stackOf pa * 64 + channelOf false pa) master pa)).answerMem (refusedAnswer peer wr)
  else if wr then
    match s.dramPut pa n x with
    | some t => t.answerMem .done
    | none => s.answerMem (if peer then .poison else .done)
  else s.answerMem (match s.dramGet pa n with | some v => .value v | none => .poison)

/-- `CXL_MEM_REQUEST` (R367, R368): 1 to 64 bytes of one line (log 77, DEDUCED). -/
def execCxlMemRequest (wr : Bool) (pa bytes x : Nat) (s : State) : Ans :=
  if bytes = 0 || 64 < bytes || 64 < pa % 64 + bytes then go s else go (s.outsideAccess 0x1000 wr pa bytes x)

/-- `PEER_MEMORY_ACCESS` (R375): eight UALink ports, KIND 3, and four Ethernet ports, KIND 4 (R74) (log 77, DEDUCED). -/
def execPeerMemoryAccess (ethernet : Bool) (port : Nat) (wr : Bool) (pa bytes x : Nat) (s : State) : Ans :=
  if bytes = 0 || 64 < bytes || 64 < pa % 64 + bytes || (if ethernet then 4 else 8) ≤ port then go s
  else go (s.outsideAccess ((if ethernet then 0x4000 else 0x3000) + port) wr pa bytes x)

/-! ## Messages from other modules (R375, R376) -/

/-- The NAK of a message that this module cannot deliver, on C13 with the two VCNs exchanged (R85, R376) (log 62, DEDUCED) (log 61, DEDUCED). -/
def Msg.nak (m : Msg) : Msg :=
  { cls := 13, dst := m.src, cont := 0, opc := 3, o := m.o, p := false, m := false, l := false, plane := m.plane, src := m.dst, seq := 0, path := 0
    diff := 1, phase := 0, value := 0, time := 0 }

/-- `PEER_MESSAGE_ARRIVAL` (R376): the hub passes a message to the core that this module's table names, or answers an MSG or RST with a NAK (log 63, DEDUCED). -/
def execPeerMessageArrival (chip : Nat) (hdr payload : BitVec 128) (s : State) : Ans :=
  let m := Msg.ofFlits hdr payload
  let e := s.relocOf m.dst.toNat
  if s.local m.dst.toNat then go { s with net := s.net ++ [⟨m, true, relocFwd e && m.cls.toNat < 8, none, some chip, []⟩] }
  else if m.opc = 0 ∨ m.opc = 1 then go (s.hubSends chip m.nak)
  else go s

/-! ## Zusil (R379, R380) -/

/-- The firmware is accepted, the links train and the memories test good (R379) (log 78, DEDUCED). -/
def bootGood (b : BootInput) (rollback : Nat) : Bool := b.sigOk && rollback ≤ b.version && b.linksOk && b.memOk

/-- `ZUSIL_BOOT` (R197, R372, R375, R379): on success the window opens; on failure FEATO reads zeros. Once open, there is no boot to make (log 78, DEDUCED). -/
def execZusilBoot (b : BootInput) (s : State) : Ans :=
  if s.hub.open_ then go s
  else if !bootGood b s.hub.rollback then go { s with hub := { s.hub with feato := 0 } }
  else
    go { s with
      fuses := each b.fuses (fun (f : Nat × Nat) m => Map.put m f.1 f.2) [], access := idleAccess
      hub := { s.hub with
        open_ := true, fwVersion := b.version, firmware := b.image, chip := b.chip % 4096
        routes := each b.routes (fun (r : Nat × Nat) m => Map.put m r.1 (some r.2)) [] } }

/-- An answer over the DOE mailbox. -/
def State.answerDoe (s : State) (r : DoeResp) : State := { s with hub := { s.hub with doe := s.hub.doe ++ [r] } }

/-- `SPDM_GET_CERTIFICATE` (R380): the device identity, signed. -/
def execSpdmGetCertificate (s : State) : Ans := go (s.answerDoe (.certificate Config.certificate (Config.signature Config.certificate)))

/-- The words that stand for the fuse state. -/
def State.fuseWords (s : State) : List Word := (s.fuses.map fun (f : Nat × Nat) => [BitVec.ofNat 64 f.1, BitVec.ofNat 64 f.2]).flatten
/-- The FEATA set. -/
def State.featWords (s : State) : List Word := (range 0 4).map fun n => s.deviceRead (0x20 + 8 * n)
/-- A digest as six words. -/
def digestWords (d : BitVec 384) : List Word := (range 0 6).map fun i => d.extractLsb' (64 * i) 64

/-- `SPDM_GET_MEASUREMENTS` (R380): digests of ROM, firmware, fuse state and the FEATA set, with a signature over them. -/
def execSpdmGetMeasurements (s : State) : Ans :=
  let rom := Config.digest Config.rom
  let fw := Config.digest s.hub.firmware
  let fuse := Config.digest s.fuseWords
  let feat := Config.digest s.featWords
  go (s.answerDoe (.measurements rom fw fuse feat (Config.signature ([rom, fw, fuse, feat].map digestWords).flatten)))

end Sys2Proof.Machine
end

