-- ==== Sys2Proof/Machine/Integer.lean ====
section
/-!
DEFINITION. The integer, branch, jump and loop instructions (R157 to R167).
-/
namespace Sys2Proof.Machine

open Sys2Proof

/-- The amount of a register shift (R163). -/
def shiftAmount (x : Word) : Nat := (x.extractLsb' 0 6).toNat
/-- 1 or 0. -/
def truth (b : Bool) : Word := if b then 1 else 0
/-- Leading zero bits of an n-bit number. -/
def leadingZeros (n x : Nat) : Nat :=
  match n with
  | 0 => 0
  | n + 1 => if x.testBit n then 0 else leadingZeros n x + 1
/-- Bits [127:64] of the signed product (R163). -/
def mulHigh (x y : Word) : Word := ((x.signExtend 128) * (y.signExtend 128)).extractLsb' 64 64
/-- Bits [127:64] of the unsigned product (R163). -/
def mulHighN (x y : Word) : Word := ((x.setWidth 128) * (y.setWidth 128)).extractLsb' 64 64
/-- Signed division (R163, R164): a zero divisor gives all ones; the overflow gives the dividend. -/
def divS (x y : Word) : Word := if y = 0 then BitVec.allOnes 64 else BitVec.ofInt 64 (x.toInt.tdiv y.toInt)
/-- Unsigned division (R163, R164). -/
def divN (x y : Word) : Word := if y = 0 then BitVec.allOnes 64 else BitVec.ofNat 64 (x.toNat / y.toNat)
/-- Signed remainder (R163, R164): a zero divisor gives the dividend. -/
def remS (x y : Word) : Word := if y = 0 then x else BitVec.ofInt 64 (x.toInt.tmod y.toInt)
/-- Unsigned remainder (R163, R164). -/
def remN (x y : Word) : Word := if y = 0 then x else BitVec.ofNat 64 (x.toNat % y.toNat)

/-- `add` (R163): the 64-bit wrapping sum. -/
def execAdd (d a b : BitVec 5) (s : State) : Ans := doneG d (s.gr a + s.gr b) s
/-- `sub` (R163): the 64-bit wrapping difference. -/
def execSub (d a b : BitVec 5) (s : State) : Ans := doneG d (s.gr a - s.gr b) s
/-- `and` (R163): bitwise AND. -/
def execAnd (d a b : BitVec 5) (s : State) : Ans := doneG d (s.gr a &&& s.gr b) s
/-- `or` (R163): bitwise OR. -/
def execOr (d a b : BitVec 5) (s : State) : Ans := doneG d (s.gr a ||| s.gr b) s
/-- `xor` (R163): bitwise exclusive OR. -/
def execXor (d a b : BitVec 5) (s : State) : Ans := doneG d (s.gr a ^^^ s.gr b) s
/-- `sll` (R163): g[a] shifted left by g[b][5:0]. -/
def execSll (d a b : BitVec 5) (s : State) : Ans := doneG d (s.gr a <<< shiftAmount (s.gr b)) s
/-- `srl` (R163): g[a] shifted right by g[b][5:0], zeros in. -/
def execSrl (d a b : BitVec 5) (s : State) : Ans := doneG d (s.gr a >>> shiftAmount (s.gr b)) s
/-- `sra` (R163): g[a] shifted right by g[b][5:0], copies of bit 63 in. -/
def execSra (d a b : BitVec 5) (s : State) : Ans := doneG d ((s.gr a).sshiftRight (shiftAmount (s.gr b))) s
/-- `mul` (R163): the low 64 bits of the product. -/
def execMul (d a b : BitVec 5) (s : State) : Ans := doneG d (s.gr a * s.gr b) s
/-- `mulh` (R163): bits [127:64] of the signed product. -/
def execMulh (d a b : BitVec 5) (s : State) : Ans := doneG d (mulHigh (s.gr a) (s.gr b)) s
/-- `mulhn` (R163): bits [127:64] of the unsigned product. -/
def execMulhn (d a b : BitVec 5) (s : State) : Ans := doneG d (mulHighN (s.gr a) (s.gr b)) s
/-- `div` (R164): the signed quotient. -/
def execDiv (d a b : BitVec 5) (s : State) : Ans := doneG d (divS (s.gr a) (s.gr b)) s
/-- `divn` (R164): the unsigned quotient. -/
def execDivn (d a b : BitVec 5) (s : State) : Ans := doneG d (divN (s.gr a) (s.gr b)) s
/-- `rem` (R164): the signed remainder. -/
def execRem (d a b : BitVec 5) (s : State) : Ans := doneG d (remS (s.gr a) (s.gr b)) s
/-- `remn` (R164): the unsigned remainder. -/
def execRemn (d a b : BitVec 5) (s : State) : Ans := doneG d (remN (s.gr a) (s.gr b)) s
/-- `min` (R163): the signed minimum. -/
def execMin (d a b : BitVec 5) (s : State) : Ans := doneG d (if (s.gr a).toInt ≤ (s.gr b).toInt then s.gr a else s.gr b) s
/-- `max` (R163): the signed maximum. -/
def execMax (d a b : BitVec 5) (s : State) : Ans := doneG d (if (s.gr a).toInt ≤ (s.gr b).toInt then s.gr b else s.gr a) s
/-- `minn` (R163): the unsigned minimum. -/
def execMinn (d a b : BitVec 5) (s : State) : Ans := doneG d (if (s.gr a).toNat ≤ (s.gr b).toNat then s.gr a else s.gr b) s
/-- `maxn` (R163): the unsigned maximum. -/
def execMaxn (d a b : BitVec 5) (s : State) : Ans := doneG d (if (s.gr a).toNat ≤ (s.gr b).toNat then s.gr b else s.gr a) s
/-- `slt` (R163): 1 when g[a] < g[b] as signed numbers. -/
def execSlt (d a b : BitVec 5) (s : State) : Ans := doneG d (truth ((s.gr a).toInt < (s.gr b).toInt)) s
/-- `sltn` (R163): 1 when g[a] < g[b] as unsigned numbers. -/
def execSltn (d a b : BitVec 5) (s : State) : Ans := doneG d (truth ((s.gr a).toNat < (s.gr b).toNat)) s
/-- `clz` (R163): the leading zero bits of g[a], 0 to 64. -/
def execClz (d a : BitVec 5) (s : State) : Ans := doneG d (BitVec.ofNat 64 (leadingZeros 64 (s.gr a).toNat)) s
/-- `popc` (R163): the set bits of g[a], 0 to 64. -/
def execPopc (d a : BitVec 5) (s : State) : Ans := doneG d (BitVec.ofNat 64 (popcount (s.gr a).toNat 64)) s
/-- `sext8` (R163): sext(g[a], 8). -/
def execSext8 (d a : BitVec 5) (s : State) : Ans := doneG d (sext (s.gr a) 8) s
/-- `sext16` (R163): sext(g[a], 16). -/
def execSext16 (d a : BitVec 5) (s : State) : Ans := doneG d (sext (s.gr a) 16) s
/-- `sext32` (R163): sext(g[a], 32). -/
def execSext32 (d a : BitVec 5) (s : State) : Ans := doneG d (sext (s.gr a) 32) s
/-- `zext8` (R163): zext(g[a], 8). -/
def execZext8 (d a : BitVec 5) (s : State) : Ans := doneG d (zext (s.gr a) 8) s
/-- `zext16` (R163): zext(g[a], 16). -/
def execZext16 (d a : BitVec 5) (s : State) : Ans := doneG d (zext (s.gr a) 16) s
/-- `zext32` (R163): zext(g[a], 32). -/
def execZext32 (d a : BitVec 5) (s : State) : Ans := doneG d (zext (s.gr a) 32) s
/-- `addi` (R165): g[a] plus the sign-extended imm16. -/
def execAddi (d a : BitVec 5) (imm : BitVec 16) (s : State) : Ans := doneG d (s.gr a + imm.signExtend 64) s
/-- `andi` (R165): g[a] AND the zero-extended imm16. -/
def execAndi (d a : BitVec 5) (imm : BitVec 16) (s : State) : Ans := doneG d (s.gr a &&& imm.setWidth 64) s
/-- `ori` (R165): g[a] OR the zero-extended imm16. -/
def execOri (d a : BitVec 5) (imm : BitVec 16) (s : State) : Ans := doneG d (s.gr a ||| imm.setWidth 64) s
/-- `xori` (R165): g[a] exclusive OR the zero-extended imm16. -/
def execXori (d a : BitVec 5) (imm : BitVec 16) (s : State) : Ans := doneG d (s.gr a ^^^ imm.setWidth 64) s
/-- `slli` (R165): g[a] shifted left by imm16[5:0]. -/
def execSlli (d a : BitVec 5) (imm : BitVec 6) (s : State) : Ans := doneG d (s.gr a <<< imm.toNat) s
/-- `srli` (R165): g[a] shifted right by imm16[5:0], zeros in. -/
def execSrli (d a : BitVec 5) (imm : BitVec 6) (s : State) : Ans := doneG d (s.gr a >>> imm.toNat) s
/-- `srai` (R165): g[a] shifted right by imm16[5:0], copies of bit 63 in. -/
def execSrai (d a : BitVec 5) (imm : BitVec 6) (s : State) : Ans := doneG d ((s.gr a).sshiftRight imm.toNat) s
/-- `slti` (R165): 1 when g[a] < sext(imm16, 16) as signed numbers. -/
def execSlti (d a : BitVec 5) (imm : BitVec 16) (s : State) : Ans := doneG d (truth ((s.gr a).toInt < (imm.signExtend 64 : Word).toInt)) s
/-- `lui` (R165): sext(imm16 ‖ 0x0000, 32). -/
def execLui (d : BitVec 5) (imm : BitVec 16) (s : State) : Ans := doneG d ((imm ++ 0#16).signExtend 64) s
/-- `beq` (R166): a branch when g[a] = g[b]. -/
def execBeq (a b : BitVec 5) (off : BitVec 16) (s : State) : Ans := branch (s.gr a == s.gr b) off s
/-- `bne` (R166): a branch when g[a] ≠ g[b]. -/
def execBne (a b : BitVec 5) (off : BitVec 16) (s : State) : Ans := branch (s.gr a != s.gr b) off s
/-- `blt` (R166): a branch when g[a] < g[b], signed. -/
def execBlt (a b : BitVec 5) (off : BitVec 16) (s : State) : Ans := branch ((s.gr a).toInt < (s.gr b).toInt) off s
/-- `bge` (R166): a branch when g[a] ≥ g[b], signed. -/
def execBge (a b : BitVec 5) (off : BitVec 16) (s : State) : Ans := branch ((s.gr b).toInt ≤ (s.gr a).toInt) off s
/-- `bltn` (R166): a branch when g[a] < g[b], unsigned. -/
def execBltn (a b : BitVec 5) (off : BitVec 16) (s : State) : Ans := branch ((s.gr a).toNat < (s.gr b).toNat) off s
/-- `bgen` (R166): a branch when g[a] ≥ g[b], unsigned. -/
def execBgen (a b : BitVec 5) (off : BitVec 16) (s : State) : Ans := branch ((s.gr b).toNat ≤ (s.gr a).toNat) off s
/-- `j` (R167). -/
def execJ (off : BitVec 26) (s : State) : Ans := jump (s.me.pc + 4 * off.signExtend 64) none s
/-- `jal` (R167): as `j`, with pc + 4 in g31. -/
def execJal (off : BitVec 26) (s : State) : Ans := jump (s.me.pc + 4 * off.signExtend 64) (some 31) s
/-- `jr` (R162, R167). -/
def execJr (a : BitVec 5) (s : State) : Ans := jump (s.gr a) none s
/-- `jalr` (R162, R167): with d = a the target is the old value of g[a]. -/
def execJalr (d a : BitVec 5) (s : State) : Ans := jump (s.gr a) (some d) s

/-- A loop entered with count c over the live LPS and LPE (R157); entered, it completes as any instruction does, with the back-edge check of R158 where the
end names the entering word itself (log 31, DEDUCED). -/
def Scalar.enter (c : Word) (x : Scalar) : Scalar :=
  if c = 0 then { x with lpc := c, lpa := false, pc := x.lpe + 4 } else Scalar.advance { x with lpc := c, lpa := true }

/-- `loop` (R157): LPS, LPE and their shadows; an end outside the store is the instruction-address fault, and HND = 1 an illegal
instruction (R160). -/
def execLoop (a : BitVec 5) (imm : BitVec 15) (s : State) : Ans :=
  let st := s.me.pc + 4
  let en := s.me.pc + 4 * imm.setWidth 64
  if s.me.hnd then illegal (.loop a imm) s
  else if outside s.cur.k en then faults 0x02 en s
  else go (s.modMe fun x => ({ x with lps := st, lpe := en, slps := st, slpe := en }).enter (x.gr a))

/-- `loop.s` (R157): from the shadow pair; a pair that names no loop in the store traps with 0x17. -/
def execLoopS (a : BitVec 5) (s : State) : Ans :=
  let x := s.me
  if x.hnd then illegal (.loopS a) s
  else if x.slpe.toNat < x.slps.toNat || x.slps.extractLsb' 0 2 != 0 || x.slpe.extractLsb' 0 2 != 0 || outside s.cur.k x.slpe then faults 0x17 0 s
  else go (s.modMe fun x => ({ x with lps := x.slps, lpe := x.slpe }).enter (x.gr a))

/-- `sysrd` (R11, R168). -/
def execSysrd (d : BitVec 5) (sys : BitVec 10) (s : State) : Ans :=
  match sysValue s s.cur.p s.cur.k sys.toNat with
  | none => illegal (.sysrd d sys) s
  | some v => if isMailbox sys.toNat && s.cur.k != .control then illegal (.sysrd d sys) s else doneG d v s

/-- A write to SPILLBASE (R189): the area it leaves stays in use while a token lies in it. -/
def Core.setArea (c : Core) (first blocks : Nat) : Core :=
  { c with spillFirst := first, spillBlocks := blocks
           oldAreas := if first = c.spillFirst ∧ blocks = c.spillBlocks then c.oldAreas else c.areasInUse ((c.spillFirst, c.spillBlocks) :: c.oldAreas) }

/-- The effect of a write to a core register (R10, R189); a read-only register ignores it. -/
def Core.sysWrite (c : Core) (n : Nat) (v : Word) : Core :=
  match n with
  | 0x011 => { c with lease := v }
  | 0x012 => { c with spmax := v }
  | 0x013 => { c with dth := min v.toNat 256 }
  | 0x014 => { c with tq := v }
  | 0x015 => { c with age := v }
  | 0x016 =>
    let first := (v.extractLsb' 0 9).toNat
    c.setArea first (min (v.extractLsb' 9 10).toNat (512 - first))
  | _ => if isMailbox n then { c with mb := Map.put c.mb (n - 0x024) v } else c

/-- `syswr` (R11, R168). -/
def execSyswr (a : BitVec 5) (sys : BitVec 10) (s : State) : Ans :=
  let n := sys.toNat
  match sysValue s s.cur.p s.cur.k n with
  | none => illegal (.syswr a sys) s
  | some _ =>
    if isCoreReg n then
      if s.cur.k != .control then illegal (.syswr a sys) s else done (s.modMine fun c => c.sysWrite n (s.gr a))
    else done (s.modMe fun x => x.sysWrite n (x.gr a))

/-- A word that decodes to no instruction (R17, R22). -/
def execIllegalInstruction (word : BitVec 32) (s : State) : Ans := faults 0x01 (word.setWidth 64) s

end Sys2Proof.Machine
end

