-- ==== Sys2Proof/Machine/Matrix.lean ====
section
/-!
DEFINITION. Matrix mode (R240 to R253) with its arithmetic (R215 to R217), the grants of R241 and R378, and the clock steps.
-/
namespace Sys2Proof.Machine

open Sys2Proof

/-! ## Formats: 0 e2m1, 1 e4m3, 2 i8, 3 f16 (R30) -/

/-- Bits of a value. -/
def matBits (fmt : BitVec 2) : Nat := if fmt = 0 then 4 else if fmt = 3 then 16 else 8
/-- K rows of a tile: 32, 16 or 8 (R242). -/
def matK (fmt : BitVec 2) : Nat := 128 / matBits fmt
/-- The 8-bit formats take their rows in pairs (R243). -/
def matPairs (fmt : BitVec 2) : Bool := fmt == 1 || fmt == 2

/-- The weight code at K row k and column c (R242). -/
def Cim.weight (m : Cim) (k c : Nat) : Nat :=
  let per := 64 / matBits m.fmt
  ((Map.get m.cells 0 (k * matBits m.fmt + c / per)).toNat >>> (matBits m.fmt * (c % per))) % 2 ^ matBits m.fmt

/-- Value k of a row of A (R243). -/
def ARow.value (r : ARow) (fmt : BitVec 2) (k : Nat) : Nat :=
  let half := matK fmt / 2
  ((if k < half then r.w0 else r.w1).toNat >>> (matBits fmt * (k % half))) % 2 ^ matBits fmt

/-- An integer operand: twice the e2m1 value, or the i8 byte. -/
def matInt (fmt : BitVec 2) (c : Nat) : Int := if fmt = 0 then e2m1Twice c else (BitVec.ofNat 8 c).toInt
/-- A floating operand. -/
def matFlt (fmt : BitVec 2) (c : Nat) : FVal := (if fmt = 1 then fmtE4m3 else fmtF16).read c

/-- A block partial sum over K rows lo to hi - 1 for column c (R215, R245): exact i32 for e2m1 and i8, one f32 rounding otherwise. -/
def Cim.sum (m : Cim) (r : ARow) (lo n c : Nat) : BitVec 32 :=
  if m.fmt = 0 || m.fmt = 2 then
    BitVec.ofInt 32 (sumInts ((range lo n).map fun k => (matInt m.fmt (r.value m.fmt k), matInt m.fmt (m.weight k c))))
  else
    BitVec.ofNat 32 (fmtF32.rnd 0 0 (sumProducts ((range lo n).map fun k => (matFlt m.fmt (r.value m.fmt k), matFlt m.fmt (m.weight k c)))))

/-- The 128 latch values of a segment (R245); an absent second row computes from zeros (R243). -/
def Cim.sums (m : Cim) (rows : List ARow) : List (BitVec 32) :=
  let zero : ARow := ⟨0, 0, 0, 0, 1, false⟩
  let r0 := (nth rows 0).getD zero
  let r1 := (nth rows 1).getD zero
  let cols := range 0 64
  if m.fmt = 0 then (cols.map fun c => m.sum r0 0 16 c) ++ cols.map fun c => m.sum r0 16 16 c
  else if m.fmt = 3 then (cols.map fun c => m.sum r0 0 8 c) ++ cols.map fun _ => 0
  else (cols.map fun c => m.sum r0 0 16 c) ++ cols.map fun c => m.sum r1 0 16 c

/-! ## Receivers (R192, R244, R248) -/

/-- An element accepts a beat's label. -/
def accepts (id label : BitVec 8) : Bool := label == id || label == 0xFF

/-- Receivers of a column-bus beat: elements of the column with MX = 1 that accept the label. -/
def Core.columnRcv (c : Core) (col : Nat) (label : BitVec 8) : List Nat :=
  keep ((range 0 8).map fun r => r * 8 + col) fun e =>
    let x := Map.get c.elems Elem.reset e
    x.mx && (match x.act with | some g => accepts g.cbid label | none => false)

/-- Receivers of a row-bus segment. -/
def Core.rowRcv (c : Core) (row : Nat) (label : BitVec 8) : List Nat :=
  keep (range (row * 8) 8) fun e =>
    let x := Map.get c.elems Elem.reset e
    x.mx && (match x.act with | some g => accepts g.rbid label | none => false)

/-- A segment is in progress at an element: its beats have started and its latch is not yet written. -/
def Core.inSegment (c : Core) (e : Nat) : Bool := anyOf c.bus fun b => hasNat b.2.rcv e

/-- The label in IMM[7:0]. -/
def busLabel (w : EW) : BitVec 8 := w.imm.extractLsb' 0 8

/-! ## `mpre` (R248) -/

/-- One word written to a macro (R240, R248). -/
def Cim.write (m : Cim) (fmt : BitVec 2) (v : Word) (l : Bool) : Cim :=
  let m := if m.st = 0 || m.fmt != fmt then ⟨m.st, fmt, 0, []⟩ else m
  let wp : BitVec 7 := if m.st = 2 then 0 else m.wp
  ⟨if l then 2 else 1, fmt, if l then 0 else wp + 1, Map.put m.cells wp.toNat v⟩

/-- A firing with MX = 0 after `mmode off` (R241): poison with cause 0x28. -/
def Fx.matState (f : Fx) : Option Nat := if f.x.mx then none else some 0x28

/-- `mpre` (R248). -/
def execEMpre (fmt : BitVec 2) (w : EW) (s : State) : Ans :=
  let p := s.cur.p
  let e := s.cur.e
  fires s (s.fireNode fun n m =>
    let f := s.fx w m
    match m.poison with
    | some v => s.emitFits w (f.resolvePoison (f.poisonOn [0, 1] v)) fun s => s.consume n
    | none =>
      match f.matState with
      | some c => s.emitFits w (f.failOuts (f.lowest c) [0, 1]) fun s => s.consume n
      | none =>
        let rcv := (s.core p).columnRcv (e % 8) (busLabel w)
        if anyOf rcv fun r => (s.core p).inSegment r then none
        else
          let r := f.resolve (Fire.emit [(0, { f.token (BitVec.ofNat 64 rcv.length) with c := true })])
          s.emitFits w r.1 fun s =>
            each rcv (fun r s => s.modElem p r fun x => { x with cim := x.cim.write fmt m.tag.value m.tag.l }) (s.consume n))

/-! ## `mrow` and segments (R243, R244, R249) -/

/-- The state of an `mrow` node: the word taken, the good row held, the rows of a segment ready to start. -/
def Elem.mrow (x : Elem) (slot : Nat) : Option Token × Option ARow × List ARow :=
  match Map.find x.nodes slot with
  | some (.mrow word row seg _) => (word, row, seg)
  | _ => (none, none, [])

/-- The row of two words: the tag of word 0, the saturated product of the DIFFs, the OR of the L flags (R249) (log 48, DEDUCED). -/
def rowOf (a b : Token) : ARow :=
  ⟨a.value, b.value, a.time, a.path, BitVec.ofInt 32 (satInt (a.diff.toInt * b.diff.toInt) 32), a.l || b.l⟩

/-- The poison of a row with a poison word, at the row's tag. -/
def rowPoison (a b : Token) : Token :=
  { a with value := if a.p then a.value else b.value, p := true, l := a.l || b.l, c := a.c || b.c
           diff := BitVec.ofInt 32 (satInt (a.diff.toInt * b.diff.toInt) 32) }

/-- `mrow` (R249): takes its tokens in arrival order; two words make a row, and a row or pair is a segment. -/
def execEMrow (fmt : BitVec 2) (w : EW) (s : State) : Ans :=
  let p := s.cur.p
  let e := s.cur.e
  let x := s.elem p e
  fires s (match firstOf (keep x.keyed fun q => q.2.2.slot == s.cur.slot) fun q => allOf x.keyed fun r => r.2.2.slot != s.cur.slot || q.2.1 ≤ r.2.1 with
    | none => none
    | some (_, n, m) =>
      if !(s.mayFire p e && x.slotMay s.cur.slot && (match s.cur.pick with | some i => i == n | none => true)) then none
      else
        let f := s.fx w m
        let (word, row, seg) := x.mrow s.cur.slot
        let put := fun (word : Option Token) (row : Option ARow) (seg : List ARow) (s : State) => (s.consume n).setMyNode (some (.mrow word row seg []))
        match f.matState with
        | some c => s.emitFits w (f.failOuts (f.lowest c) [0, 1]) fun s => s.consume n
        | none =>
          match word with
          | none => some (put (some m.tag) row seg s)
          | some a =>
            if a.p || m.tag.p then
              let t := rowPoison a m.tag
              let outs := (s.fx w ⟨s.cur.slot, some t, none⟩).resolvePoison [(0, t)]
              match row with
              | some r =>
                if t.l then (if seg.isEmpty then s.emitFits w outs (put none none [{ r with l := true }]) else none)
                else s.emitFits w outs (put none row seg)
              | none => s.emitFits w outs (put none none seg)
            else
              let r := rowOf a m.tag
              match row with
              | some q => if seg.isEmpty then some (put none none [q, r] s) else none
              | none =>
                if matPairs fmt && !r.l then some (put none (some r) seg s)
                else if seg.isEmpty then some (put none none [r] s) else none)

/-- The format of an `mrow` or `mdrn` OP. -/
def opFmt (op : Nat) : BitVec 2 := BitVec.ofNat 2 op

/-- A latch of the element is free. -/
def Elem.freeLatch (x : Elem) : Bool := !x.latch0.busy || !x.latch1.busy
/-- The first free latch becomes busy with a segment's rows and format. -/
def Elem.takeLatch (x : Elem) (fmt : BitVec 2) (rows : List ARow) : Elem :=
  let l : Latch := ⟨true, fmt, none, rows, false⟩
  if x.latch0.busy then { x with latch1 := l } else { x with latch0 := l }
/-- The latches after the first is free: the second takes its place, so that latch 0 is the older. -/
def Elem.freeFirst (x : Elem) : Elem := { x with latch0 := x.latch1, latch1 := Latch.free }

/-- A segment of this slot can start (R244): its rows are ready, the row bus is free, every receiver is LOADED with a free latch. -/
def Core.canStart (c : Core) (e slot : Nat) : Bool :=
  let x := Map.get c.elems Elem.reset e
  let rcv := c.rowRcv (e / 8) (busLabel (ewOf ((x.word slot).getD 0)))
  0x144 ≤ x.op slot && x.op slot < 0x148 && !(x.mrow slot).2.2.isEmpty && !c.elemStopped x && (Map.find c.bus (e / 8)).isNone &&
    allOf rcv fun r => (Map.get c.elems Elem.reset r).cim.st == 2 && (Map.get c.elems Elem.reset r).freeLatch

/-- `SEGMENT_START` (R244, R246): of several ready `mrow` slots of a row the lowest column starts first. -/
def execSegmentStart (p e slot : Nat) (s : State) : Ans :=
  let c := s.core p
  let x := s.elem p e
  if !c.canStart e slot || anyOf (range (e / 8 * 8) (e % 8)) (fun q => anyOf (range 0 32) fun i => c.canStart q i) then go s
  else
    let (word, row, rows) := x.mrow slot
    let rcv := c.rowRcv (e / 8) (busLabel (s.slotWord p e slot))
    let s := s.modElem p e fun x => x.setNode slot (some (.mrow word row [] []))
    let s := each rcv (fun r s => s.modElem p r fun y => y.takeLatch (opFmt (x.op slot)) rows) s
    go (s.modCore p fun c => { c with bus := Map.put c.bus (e / 8) ⟨e, slot, opFmt (x.op slot), rows, rcv⟩ })

/-- The element's active `mdrn` slot (R250). -/
def Elem.mdrnSlot (x : Elem) : Option Nat := firstOf (range 0 32) fun i => 0x148 ≤ x.op i && x.op i < 0x14C

/-- The unwritten latch of a receiver is written at the segment's end (R244, R245). -/
def Elem.writeLatch (x : Elem) (g : Seg) : Elem :=
  let w := fun (l : Latch) => { l with written := true, vals := if x.cim.fmt = g.fmt then some (x.cim.sums g.rows) else none }
  if x.latch0.busy && !x.latch0.written then { x with latch0 := w x.latch0 } else { x with latch1 := w x.latch1 }

/-- What a segment's end does at a receiver: its latch, and the segment token at its `mdrn`; without one the latch is discarded. -/
def State.segmentAt (s : State) (p : Nat) (g : Seg) (r : Nat) : State :=
  s.modElem p r fun x =>
    let x := x.writeLatch g
    match x.mdrnSlot, g.rows with
    | some slot, a :: _ =>
      x.putBuf (portKey slot 0) { Token.blank x.ctx with time := a.time, path := a.path, diff := a.diff, l := a.l }
    | _, _ => if x.latch1.busy then { x with latch1 := Latch.free } else { x with latch0 := Latch.free }

/-- `SEGMENT_END` (R244 to R246, R249): the latches are written, the segment tokens placed, and the sender's C = 1 token becomes due (log 48, DEDUCED). -/
def execSegmentEnd (p row : Nat) (s : State) : Ans :=
  match Map.find (s.core p).bus row with
  | none => go s
  | some g =>
    let s := each g.rcv (fun r s => s.segmentAt p g r) (s.modCore p fun c => { c with bus := Map.del c.bus row })
    match g.rows with
    | [] => go s
    | a :: rest =>
      let d := each rest (fun (r : ARow) (d : BitVec 32) => BitVec.ofInt 32 (satInt (d.toInt * r.diff.toInt) 32)) a.diff
      let k : Token := { Token.blank (s.elem p g.e).ctx with
        value := BitVec.ofNat 64 g.rcv.length, time := a.time, path := a.path, diff := d, l := anyOf g.rows ARow.l, c := true }
      let w := s.slotWord p g.e g.slot
      let f : Fx := ⟨p, g.e, g.slot, s.elem p g.e, w, ⟨g.slot, some k, none⟩, []⟩
      go (s.owe p g.e g.slot w (f.resolve (Fire.emit [(0, k)])).1)

/-! ## `mdrn`, `msca`, `mband` (R250 to R252) -/

/-- 32 latch values from a position, as a vector. -/
def latchVec (l : List (BitVec 32)) (at_ : Nat) : Vec := ofLanes (firstN (l.drop at_) 32 |>.map BitVec.toNat)

/-- The registers that `mdrn` writes (R250): the result of an absent second row is not drained (R243) (log 34, DEDUCED). -/
def Elem.drain (x : Elem) (fmt : BitVec 2) (b : Nat) (rows : Nat) (vals : List (BitVec 32)) : Elem :=
  each (range 0 (if fmt = 0 then 4 else if fmt = 3 then 2 else 2 * rows)) (fun i (y : Elem) => { y with v := Map.put y.v (b + i) (latchVec vals (32 * i)) }) x

/-- The base register IMM[2:0]. -/
def drainBase (w : EW) : Nat := (w.imm.extractLsb' 0 3).toNat

/-- A token of `mdrn` at a row's tag, with its DIFF and L. -/
def Fx.rowToken (f : Fx) (r : ARow) (v : Nat) : Token :=
  { f.token (BitVec.ofNat 64 v) with time := r.time, path := r.path, diff := r.diff, l := r.l }

/-- `mdrn` (R250): the written latch of the token's row, the older first (log 34, DEDUCED). -/
def execEMdrn (fmt : BitVec 2) (w : EW) (s : State) : Ans :=
  let p := s.cur.p
  let e := s.cur.e
  fires s (s.fireNode fun n m =>
    let f := s.fx w m
    let x := f.x
    let mine := fun (l : Latch) => l.busy && l.written && (match l.rows with | r :: _ => r.time == m.tag.time && r.path == m.tag.path | [] => false)
    let first := mine x.latch0
    let second := !first && mine x.latch1
    let latch := if first then x.latch0 else if second then x.latch1 else Latch.free
    let free := fun (s : State) => s.modElem p e fun x => if first then x.freeFirst else if second then { x with latch1 := Latch.free } else x
    match latch.rows, latch.vals with
    | r0 :: rest, some vals =>
      if !x.mx || latch.fmt != fmt then s.emitFits w (f.failOuts (f.lowest 0x28) [0, 1]) fun s => (free s).consume n
      else
        let b := drainBase w
        let outs := (0, f.rowToken r0 b) :: (if fmt = 3 then [] else if fmt = 0 then [(1, f.rowToken r0 (b + 2))]
          else match rest with | r1 :: _ => [(1, f.rowToken r1 (b + 2))] | [] => [])
        let r := f.resolve ⟨outs, fun x => x.drain fmt b latch.rows.length vals, 0, none⟩
        s.emitFits w r.1 fun s => ((free s).modElem p e r.2).consume n
    | _, _ => s.emitFits w (f.failOuts (f.lowest 0x28) [0, 1]) fun s => (free s).consume n)

/-- The scale byte sB of index j of a half of v[SBV] (R251). -/
def scaleByte (x : Elem) (sbv half j : Nat) : Nat :=
  let code := 64 * half + j
  (laneOf (x.vreg sbv) (code / 4) >>> (8 * (code % 4))) % 256

/-- A block partial sum read per PF (R215, R251). -/
def partialOf (pf : BitVec 2) (c : Nat) : FVal :=
  if pf = 0 then .fin (decide ((BitVec.ofNat 32 c).toInt < 0)) (BitVec.ofNat 32 c).toInt.natAbs (-2)
  else if pf = 2 then FVal.ofInt (BitVec.ofNat 32 c).toInt
  else fmtF32.read c

/-- acc + x × sA × sB, rounded once (R216). -/
def scaled (acc : Nat) (x : FVal) (sa sb : Nat) : Nat :=
  fmtF32.rnd 0 0 (FVal.add 0 (fmtF32.read acc) (FVal.mul (FVal.mul x (readE3m5 sa)) (readE3m5 sb)))

/-- The block scaling of an accumulator pair (R251): every operand is read before any accumulator is written. -/
def Fx.blockScale (f : Fx) (r : Nat) : Elem → Elem :=
  let ap := (f.w.imm.extractLsb' 0 1).toNat
  let sbv := (f.w.imm.extractLsb' 1 3).toNat
  let half := (f.w.imm.extractLsb' 4 1).toNat
  let pf : BitVec 2 := f.w.imm.extractLsb' 5 2
  let sa := f.rawB.toNat % 256
  let acc := fun h => ofLanes ((range 0 32).map fun l =>
    scaled (laneOf (f.x.vreg (8 + 2 * ap + h)) l) (partialOf pf (laneOf (f.x.vreg (r + h)) l)) sa (scaleByte f.x sbv half (32 * h + l)))
  fun x => (x.setVreg (8 + 2 * ap) (acc 0)).setVreg (9 + 2 * ap) (acc 1)

/-- The register reference of operand A: the direct register's code, or the port's VALUE. -/
def Fx.refA (f : Fx) : Nat := if f.w.sa = 4 then f.w.ai.toNat else if f.w.sa = 5 then 8 + f.w.ai.toNat else f.rawA.toNat

/-- `msca` (R251). -/
def execEMsca (w : EW) (s : State) : Ans :=
  plainOp w (fun f =>
    if 6 < f.refA then Fire.fail 0x25
    else ⟨[(0, f.token (BitVec.ofNat 64 (8 + 2 * (f.w.imm.extractLsb' 0 1).toNat)))], f.blockScale f.refA, 0, none⟩) s

/-- `mband` (R252). -/
def execEMband (w : EW) (s : State) : Ans :=
  plainOp w (fun f =>
    let r := f.refA
    if r < 8 || 11 < r then Fire.fail 0x25
    else
      let b := fmtBf16.read (f.rawB.toNat % 65536)
      let v := ofLanes ((range 0 32).map fun l => fmtF32.rnd 0 0 (FVal.mul (fmtF32.read (laneOf (f.x.vreg r) l)) b))
      ⟨[(0, f.token (BitVec.ofNat 64 r))], fun x => x.setVreg r v, 0, none⟩) s

/-! ## `mmode`, grants and clock steps (R241, R247, R378) -/

/-- `mmode` (R247) (log 21, DEDUCED). -/
def execEMmode (w : EW) (s : State) : Ans :=
  let p := s.cur.p
  let e := s.cur.e
  fires s (s.fireNode fun n m =>
    let f := s.fx w m
    let x := f.x
    match m.poison with
    | some v => s.emitFits w (f.resolvePoison (f.poisonOn [0, 1] v)) fun s => s.consume n
    | none =>
      if w.imm.getLsbD 0 then
        let r := f.resolve (Fire.emit [(0, f.token 1)])
        if x.mx then s.emitFits w r.1 fun s => s.consume n
        else
          some ((s.consume n).modElem p e fun x => { x with asked := true, moff := false, mwaits := x.mwaits ++ [(s.cur.slot, r.1)] })
      else if (s.core p).inSegment e || x.latch0.busy || x.latch1.busy then none
      else
        let r := f.resolve (Fire.emit [(0, f.token 0)])
        s.emitFits w r.1 fun s =>
          (s.consume n).modElem p e fun x => { x with mx := false, cim := Cim.empty, granted := false, moff := true })

/-- `GRANT_ARRIVAL` (R241, R247, R378): MX becomes 1 and the waiting `mmode on` tokens become due in the order of their firings; a vector request is granted (log 21, DEDUCED). -/
def execGrantArrival (p e : Nat) (s : State) : Ans :=
  let x := s.elem p e
  let s := if x.vasked then s.modElem p e fun x => { x with vgrant := true, vasked := false } else s
  if !x.asked then go s
  else
    let s := s.modElem p e fun x => { x with
      mx := true, granted := true, asked := false, moff := false, mwaits := [] }
    go (each x.mwaits (fun q s => s.owe p e q.1 (s.slotWord p e q.1) q.2) s)

/-- `FUSEE_CLOCK_STEP` (R378): the die's step, which MB3 of its cores shows. -/
def execFuseeClockStep (die : Nat) (stp : BitVec 2) (s : State) : Ans :=
  if Config.dies ≤ die then go s
  else
    let s := { s with clkStep := Map.set s.clkStep 0 die stp }
    go (each (range (die * 64) 64) (fun p s => s.modCore p fun c => { c with mb := Map.put c.mb 3 (stp.setWidth 64) }) s)

end Sys2Proof.Machine
end

