-- ==== Sys2Proof/Machine/Memory.lean ====
section
/-!
DEFINITION. The scalar loads and stores, `ldim`, `stim`, atomics and futures (R109 to R120).
-/
namespace Sys2Proof.Machine

open Sys2Proof

/-! ## Loads and stores (R109 to R111) -/

/-- The effective address g[a] + sext(imm16, 16). -/
def effAddr (a : BitVec 5) (imm : BitVec 16) (s : State) : Nat := (s.gr a + imm.signExtend 64).toNat

/-- A load of n bytes. -/
def load (n : Nat) (sg : Bool) (d a : BitVec 5) (imm : BitVec 16) (s : State) : Ans :=
  checked (effAddr a imm s) n .load 1 anyClass s fun s l => go (s.loadOn s.cur.p s.cur.k d n sg l 0 0)

/-- A store of the low n bytes of g[d]. -/
def store (n : Nat) (d a : BitVec 5) (imm : BitVec 16) (i : Instr) (s : State) : Ans :=
  checked (effAddr a imm s) n .store 1 anyClass s fun s l => done (s.storeOn s.cur.p s.cur.k l (s.gr d).toNat (wordOf i))

/-- `ld.i8` (R109). -/
def execLdI8 (d a : BitVec 5) (imm : BitVec 16) (s : State) : Ans := load 1 true d a imm s
/-- `ld.i16` (R109). -/
def execLdI16 (d a : BitVec 5) (imm : BitVec 16) (s : State) : Ans := load 2 true d a imm s
/-- `ld.i32` (R109). -/
def execLdI32 (d a : BitVec 5) (imm : BitVec 16) (s : State) : Ans := load 4 true d a imm s
/-- `ld.i64` (R109). -/
def execLdI64 (d a : BitVec 5) (imm : BitVec 16) (s : State) : Ans := load 8 true d a imm s
/-- `ld.n8` (R109). -/
def execLdN8 (d a : BitVec 5) (imm : BitVec 16) (s : State) : Ans := load 1 false d a imm s
/-- `ld.n16` (R109). -/
def execLdN16 (d a : BitVec 5) (imm : BitVec 16) (s : State) : Ans := load 2 false d a imm s
/-- `ld.n32` (R109). -/
def execLdN32 (d a : BitVec 5) (imm : BitVec 16) (s : State) : Ans := load 4 false d a imm s
/-- `st.8` (R109). -/
def execSt8 (d a : BitVec 5) (imm : BitVec 16) (s : State) : Ans := store 1 d a imm (.st8 d a imm) s
/-- `st.16` (R109). -/
def execSt16 (d a : BitVec 5) (imm : BitVec 16) (s : State) : Ans := store 2 d a imm (.st16 d a imm) s
/-- `st.32` (R109). -/
def execSt32 (d a : BitVec 5) (imm : BitVec 16) (s : State) : Ans := store 4 d a imm (.st32 d a imm) s
/-- `st.64` (R109). -/
def execSt64 (d a : BitVec 5) (imm : BitVec 16) (s : State) : Ans := store 8 d a imm (.st64 d a imm) s

/-! ## ldim and stim (R112) -/

/-- `ldim` of n bytes at g[a]. -/
def loadImm (n : Nat) (d a : BitVec 5) (i : Instr) (s : State) : Ans :=
  checked (s.gr a).toNat n .load n immOnly s fun s l =>
    match l with
    | acc :: _ => sendOp (.read n) acc false d false i s
    | [] => done s

/-- `stim` of n bytes at g[a]: posted. -/
def storeImm (n : Nat) (d a : BitVec 5) (i : Instr) (s : State) : Ans :=
  checked (s.gr a).toNat n .stim n immOnly s fun s l =>
    match l with
    | acc :: _ => sendOp (.write n ((s.gr d).toNat % 2 ^ (8 * n))) acc true 0 false i s
    | [] => done s

/-- `ldim.32` (R112). -/
def execLdim32 (d a : BitVec 5) (s : State) : Ans := loadImm 4 d a (.ldim32 d a) s
/-- `ldim.64` (R112). -/
def execLdim64 (d a : BitVec 5) (s : State) : Ans := loadImm 8 d a (.ldim64 d a) s
/-- `stim.32` (R112). -/
def execStim32 (d a : BitVec 5) (s : State) : Ans := storeImm 4 d a (.stim32 d a) s
/-- `stim.64` (R112). -/
def execStim64 (d a : BitVec 5) (s : State) : Ans := storeImm 8 d a (.stim64 d a) s

/-! ## Atomics (R113) -/

/-- An atomic at g[a]: posted when d = 0 and ACQ = 0. -/
def atomic (opn : BitVec 3) (fp : Bool) (n : Nat) (d a b : BitVec 5) (acq : Bool) (i : Instr) (s : State) : Ans :=
  checked (s.gr a).toNat n .atomic n immOnly s fun s l =>
    match l with
    | acc :: _ => sendOp (.amo opn fp n (s.gr b) (s.gr d) s.mine.ph) acc (d = 0 && !acq) d acq i s
    | [] => done s

/-- Bytes of an atomic: W = 0 is 32-bit, W = 1 is 64-bit (R20). -/
def amoBytes (w : BitVec 1) : Nat := if w = 0 then 4 else 8

/-- `amo.add` (R113). -/
def execAmoAdd (d a b : BitVec 5) (acq w : BitVec 1) (s : State) : Ans := atomic 0 false (amoBytes w) d a b (acq = 1) (.amoAdd d a b acq w) s
/-- `amo.min` (R113). -/
def execAmoMin (d a b : BitVec 5) (acq w : BitVec 1) (s : State) : Ans := atomic 1 false (amoBytes w) d a b (acq = 1) (.amoMin d a b acq w) s
/-- `amo.max` (R113). -/
def execAmoMax (d a b : BitVec 5) (acq w : BitVec 1) (s : State) : Ans := atomic 2 false (amoBytes w) d a b (acq = 1) (.amoMax d a b acq w) s
/-- `amo.and` (R113). -/
def execAmoAnd (d a b : BitVec 5) (acq w : BitVec 1) (s : State) : Ans := atomic 3 false (amoBytes w) d a b (acq = 1) (.amoAnd d a b acq w) s
/-- `amo.or` (R113). -/
def execAmoOr (d a b : BitVec 5) (acq w : BitVec 1) (s : State) : Ans := atomic 4 false (amoBytes w) d a b (acq = 1) (.amoOr d a b acq w) s
/-- `amo.xor` (R113). -/
def execAmoXor (d a b : BitVec 5) (acq w : BitVec 1) (s : State) : Ans := atomic 5 false (amoBytes w) d a b (acq = 1) (.amoXor d a b acq w) s
/-- `amo.swap` (R113). -/
def execAmoSwap (d a b : BitVec 5) (acq w : BitVec 1) (s : State) : Ans := atomic 6 false (amoBytes w) d a b (acq = 1) (.amoSwap d a b acq w) s
/-- `amo.cas` (R113): g[d] is the comparand. -/
def execAmoCas (d a b : BitVec 5) (acq w : BitVec 1) (s : State) : Ans := atomic 7 false (amoBytes w) d a b (acq = 1) (.amoCas d a b acq w) s
/-- `amo.fadd` (R113): f32, one RNE rounding. -/
def execAmoFadd (d a b : BitVec 5) (acq : BitVec 1) (s : State) : Ans := atomic 0 true 4 d a b (acq = 1) (.amoFadd d a b acq) s

/-! ## Futures (R115 to R119) -/

/-- A continuation word keeps its layout (R117): ENTRY aligned to a word, [31:18] zero. -/
def contOk (w : Word) : Bool := w.extractLsb' 0 2 == 0 && w.extractLsb' 18 14 == 0

/-- A free node of a core (R116): the first from where its search starts (log 24, DESIGN CHOICE). -/
def Core.freeNode (c : Core) : Option Nat := firstOf (around 64 c.alloc) fun i => Map.get c.futs .free i == .free

/-- `futget` (R117): the continuation is checked before any access; it waits for a free node unless the job has no node area. -/
def execFutget (d a b : BitVec 5) (s : State) : Ans :=
  controlOnly (.futget d a b) s fun s => needs 6 (.futget d a b) s fun s =>
    let cont := s.gr b
    if !contOk cont then faults 0x17 0 s
    else
      checked (s.gr a).toNat 8 .atomic 8 immOnly s fun s l =>
        match l with
        | [] => done s
        | acc :: _ =>
          if s.futb = 0 then sendOp (.futget none cont) acc false d true (.futget d a b) s
          else
            match s.mine.freeNode with
            | none => waits s
            | some n => sendOp (.futget (some n) cont) acc false d true (.futget d a b) (s.modMine fun c => { c with futs := Map.put c.futs n .asked })

/-- `futset` (R118): posted when d = 0. -/
def execFutset (d a b : BitVec 5) (s : State) : Ans :=
  needs 6 (.futset d a b) s fun s =>
    checked (s.gr a).toNat 8 .atomic 8 immOnly s fun s l =>
      match l with
      | [] => done s
      | acc :: _ => sendOp (.futset (s.gr b) s.mine.ph) acc (d = 0) d false (.futset d a b) s

/-- `futclr` (R119): posted. -/
def execFutclr (a : BitVec 5) (s : State) : Ans :=
  needs 6 (.futclr a) s fun s =>
    checked (s.gr a).toNat 8 .atomic 8 immOnly s fun s l =>
      match l with
      | [] => done s
      | acc :: _ => sendOp .futclr acc true 0 false (.futclr a) s

/-! ## What happens at the homes -/

/-- `L2_RENEWAL` (R51): request n's renewal at its home. -/
def execL2Renewal (n : Nat) (s : State) : Ans := go (s.homeEvent n fun op => match op with | .renew .. => true | _ => false)
/-- `L2_PUBLICATION` (R54). -/
def execL2Publication (n : Nat) (s : State) : Ans := go (s.homeEvent n fun op => match op with | .publish .. => true | _ => false)
/-- `L2_IMMEDIATE_ACCESS` (R44, R282). -/
def execL2ImmediateAccess (n : Nat) (s : State) : Ans :=
  go (s.homeEvent n fun op => match op with | .read .. => true | .write .. => true | _ => false)
/-- `L2_ATOMIC` (R113, R114). -/
def execL2Atomic (n : Nat) (s : State) : Ans := go (s.homeEvent n fun op => match op with | .amo .. => true | _ => false)
/-- `L2_FUTURE_OPERATION` (R117 to R119). -/
def execL2FutureOperation (n : Nat) (s : State) : Ans :=
  go (s.homeEvent n fun op => match op with | .futget .. => true | .futset .. => true | .futclr => true | _ => false)
/-- `BANK_CONFLICT_RELEASE` (R43): the oldest queued request of the bank whose line is free leaves the conflict queue. -/
def execBankConflictRelease (die slice bank : Nat) (s : State) : Ans :=
  let x := s.slice (die * Config.slices + slice)
  let free := fun id => match firstOf s.reqs fun r => r.id == id with
    | some r => bankOf (r.acc.pa / 128) == bank && !x.locked (lineKey r.acc (domVer (s.accDomain r.acc)))
    | none => false
  match firstOf x.conflict free with
  | none => go s
  | some id =>
    match firstOf s.reqs fun r => r.id == id with
    | some r => go (s.serve { r with stage := .flight } true)
    | none => go s
/-- `DRAM_CHANNEL_ACCESS` (R40, R283). -/
def execDramChannelAccess (n : Nat) (s : State) : Ans := go (s.channelEvent n)
/-- `MEMORY_REPLY` (R51, R52, R98): reply n reaches its core. -/
def execMemoryReply (n : Nat) (s : State) : Ans := go (s.replyEvent n)

end Sys2Proof.Machine
end

