-- ==== Sys2Proof/Machine/MsgNodes.lean ====
section
/-!
DEFINITION. The message and probe nodes of column 7 (R270 to R273, R330).
-/
namespace Sys2Proof.Machine

open Sys2Proof

/-- The token of a completion: C = 1 (R270, R273). -/
def Fx.completion (f : Fx) (v : Word) : List (Nat × Token) := [(0, { f.token v with c := true })]

/-- A node's tokens with the slot's tag operation applied (R184): poison with its cause on every valid target when it fails. -/
def Fx.tagOr (f : Fx) (l : List (Nat × Token)) : List (Nat × Token) :=
  match f.tagAll l with
  | .ok q => q
  | .error c => f.failOuts c [0, 1]

/-! ## snd (R270) -/

/-- `snd` and `snd.o` (R270): the message is taken by the interface and the completion token leaves in one firing, which waits under R95 (log 54, DEDUCED). -/
def sendNode (o : Bool) (w : EW) (s : State) : Ans :=
  let p := s.cur.p
  let e := s.cur.e
  let slot := s.cur.slot
  fires s (s.fireNode fun n m =>
    let f := s.fx w m
    match m.b.bind fun k => if k.p then some k else none with
    | some k => if (s.core p).eqRoom then some ((s.consume n).stopPoison p e slot 1 k) else none
    | none =>
      if f.rawB >>> 22 != 0 then s.emitFits w (f.failOuts (f.lowest 0x2A) [0, 1]) fun s => s.consume n
      else
        let v := (f.rawB.extractLsb' 0 10).toNat
        let msg := s.blank p (w.imm.extractLsb' 0 4).toNat 0 v
        let msg := { msg with
          value := f.rawA, time := m.tag.time, diff := m.diff, path := m.tag.path, l := m.flag Token.l, o := o
          cont := f.rawB.extractLsb' 10 12, p := m.poison.isSome }
        match s.sendCounted p msg with
        | none => none
        | some t => t.emitFits w (f.tagOr (f.completion (BitVec.ofNat 64 v))) fun s => s.consume n)

/-- `snd` (R270). -/
def execESnd (w : EW) (s : State) : Ans := sendNode false w s
/-- `snd.o` (R270). -/
def execESndO (w : EW) (s : State) : Ans := sendNode true w s

/-! ## hprobe (R271) -/

/-- `hprobe` (R271): a hit's VALUE on T0, or the key on T1. -/
def execEHprobe (w : EW) (s : State) : Ans :=
  let p := s.cur.p
  fires s (s.fireNode fun n m =>
    let f := s.fx w m
    match m.poison with
    | some v => s.emitFits w (f.resolvePoison (f.poisonOn [0, 1] v)) fun s => s.consume n
    | none =>
      let fail := fun (s : State) (c : Nat) => s.emitFits w (f.failOuts (f.lowest c) [0, 1]) fun s => s.consume n
      let miss := fun (s : State) => s.emitFits w (f.tagOr [(1, f.token f.rawA)]) fun s => s.consume n
      let b := f.rawB.toNat
      let sz := b % 32
      if sz < 4 || 28 < sz then fail s 0x2A
      else if f.rawA.toNat = emptyKey then miss s
      else
        match s.probe p (b / 4096 * 4096) sz f.rawA.toNat .load (b / 32 % 128 + 1) (hashOf f.rawA.toNat sz) with
        | (_, .stall) => none
        | (s, .bad c _ _) => fail s c
        | (s, .found _ v) => s.emitFits w (f.tagOr [(0, f.token (BitVec.ofNat 64 v))]) fun s => s.consume n
        | (s, _) => miss s)

/-! ## aprobe (R272) -/

/-- What the reads of `aprobe` answer: the pairs TIME, DIFF of the key's records, a cause, or a wait. -/
inductive History where
  | ok (l : List (Word × Int))
  | bad (cause : Nat)
  | stall
  deriving DecidableEq, Repr

/-- The directory searched for a key from entry i: the index of its first record. It stops at the first key that is not below (log 53, DEDUCED). -/
def State.searchDir (fuel : Nat) (s : State) (p base k i : Nat) : State × EngGot :=
  match fuel with
  | 0 => (s, .ok emptyKey)
  | fuel + 1 =>
    match s.engRead p ((base + 16 * i) % 2 ^ 64) 16 with
    | (s, .ok x) =>
      if x % 2 ^ 64 = k then (s, .ok (x / 2 ^ 64)) else if k < x % 2 ^ 64 then (s, .ok emptyKey) else State.searchDir fuel s p base k (i + 1)
    | r => r

/-- The records with a key from record i on, in batch order (log 53, DEDUCED). -/
def State.recordsOf (fuel : Nat) (s : State) (p base k i : Nat) : State × History :=
  match fuel with
  | 0 => (s, .ok [])
  | fuel + 1 =>
    match s.engRead p ((base + 32 * i) % 2 ^ 64) 32 with
    | (s, .stall) => (s, .stall)
    | (s, .bad c _ _) => (s, .bad c)
    | (s, .ok x) =>
      if x % 2 ^ 64 = k then
        match State.recordsOf fuel s p base k (i + 1) with
        | (s, .ok l) => (s, .ok ((BitVec.ofNat 64 (x / 2 ^ 128), (BitVec.ofNat 64 (x / 2 ^ 192)).toInt) :: l))
        | r => r
      else (s, .ok [])

/-- The reads of `aprobe`: descriptor, directory and records, all before the first emission. -/
def State.history (s : State) (p d k : Nat) : State × History :=
  if d % 32 != 0 then (s, .bad 0x2A)
  else
    match s.engRead p d 32 with
    | (s, .stall) => (s, .stall)
    | (s, .bad c _ _) => (s, .bad c)
    | (s, .ok x) =>
      let f := fun i => x / 2 ^ (64 * i) % 2 ^ 64
      if f 0 % 8 != 0 || f 2 % 16 != 0 then (s, .bad 0x2A)
      else
        match s.searchDir (f 3) p (f 2) k 0 with
        | (s, .stall) => (s, .stall)
        | (s, .bad c _ _) => (s, .bad c)
        | (s, .ok i) => s.recordsOf (f 1 - i) p (f 0) k i

/-- The pair of tokens of a record (R272): its TIME with DIFF sat(DIFF, i32), and the probe token again. -/
def Fx.pair (f : Fx) (r : Word × Int) : Token × Token :=
  let outs :=
    if timeOk r.1 then
      f.tagOr [(0, { f.token r.1 with diff := BitVec.ofInt 32 (satInt r.2 32) }), (1, { f.token f.rawA with diff := BitVec.ofInt 32 f.diffA })]
    else f.failOuts (f.lowest 0x22) [0, 1]
  match outs with
  | [a, b] => (a.2, b.2)
  | _ => (f.token 0, f.token 0)

/-- `aprobe` (R272): the first firing reads the history; each pair is then a firing of its own. -/
def execEAprobe (w : EW) (s : State) : Ans :=
  let p := s.cur.p
  let e := s.cur.e
  match Map.find (s.elem p e).nodes s.cur.slot with
  | some (.pairs (q :: rest)) =>
    fires s (if s.mayFire p e && (s.elem p e).slotMay s.cur.slot then
      s.emitFits w [(0, q.1), (1, q.2)] fun s => (s.setMyNode (if rest.isEmpty then none else some (.pairs rest))).modElem p e fun x => { x with fired := true }
      else none)
  | _ =>
    fires s (s.fireNode fun n m =>
      let f := s.fx w m
      match m.poison with
      | some v => s.emitFits w (f.resolvePoison (f.poisonOn [0, 1] v)) fun s => s.consume n
      | none =>
        match s.history p f.rawB.toNat f.rawA.toNat with
        | (_, .stall) => none
        | (s, .bad c) => s.emitFits w (f.failOuts (f.lowest c) [0, 1]) fun s => s.consume n
        | (s, .ok l) => some ((s.consume n).setMyNode (if l.isEmpty then none else some (.pairs (l.map f.pair)))))

/-! ## cons (R273, R330) -/

/-- `cons` (R273, R330): the change is handed over and the completion token leaves in one firing, which waits where the change does (R316). -/
def execECons (w : EW) (s : State) : Ans :=
  let p := s.cur.p
  let e := s.cur.e
  fires s (s.fireNode fun n m =>
    let f := s.fx w m
    if m.poison.isSome then
      (if (s.core p).eqRoom then some ((s.consume n).stopPoison p e s.cur.slot m.poisonTok.1 m.poisonTok.2) else none)
    else
      let fail := fun (c : Nat) => s.emitFits w (f.failOuts (f.lowest c) [0, 1]) fun s => s.consume n
      let md := satInt (f.rawA.toInt * m.diff.toInt) 64
      let scope := f.rawB.toNat
      if 7 < scope then fail 0x26
      else if md = 0 then s.emitFits w (f.tagOr (f.completion 0)) fun s => s.consume n
      else if (s.core p).timesRefused scope m.tag.time [] then fail 0x2B
      else
        let outs := f.tagOr (f.completion (BitVec.ofInt 64 md))
        match (s.core p).enterChange scope m.tag.time 0 (BitVec.ofInt 64 md) with
        | none => if (s.core p).fits (outs.map fun o => target w o.1) then some (s.modCore p fun c => c.stopProgress scope) else none
        | some c => (s.setCore p c).emitFits w outs fun s => s.consume n)

end Sys2Proof.Machine
end

