-- ==== Sys2Proof/Machine/Dispatch.lean ====
section
/-!
DEFINITION. One arm per step of the table: a direct call of its meaning.
-/
namespace Sys2Proof.Machine

open Sys2Proof

/-- What each step of the table does. -/
def exec (i : Instr) (s : State) : Host.Outcome State Fault Refusal :=
  match i with
  | .add d a b => Sys2Proof.Machine.execAdd d a b s
  | .sub d a b => Sys2Proof.Machine.execSub d a b s
  | .and d a b => Sys2Proof.Machine.execAnd d a b s
  | .or d a b => Sys2Proof.Machine.execOr d a b s
  | .xor d a b => Sys2Proof.Machine.execXor d a b s
  | .sll d a b => Sys2Proof.Machine.execSll d a b s
  | .srl d a b => Sys2Proof.Machine.execSrl d a b s
  | .sra d a b => Sys2Proof.Machine.execSra d a b s
  | .mul d a b => Sys2Proof.Machine.execMul d a b s
  | .mulh d a b => Sys2Proof.Machine.execMulh d a b s
  | .mulhn d a b => Sys2Proof.Machine.execMulhn d a b s
  | .div d a b => Sys2Proof.Machine.execDiv d a b s
  | .divn d a b => Sys2Proof.Machine.execDivn d a b s
  | .rem d a b => Sys2Proof.Machine.execRem d a b s
  | .remn d a b => Sys2Proof.Machine.execRemn d a b s
  | .min d a b => Sys2Proof.Machine.execMin d a b s
  | .max d a b => Sys2Proof.Machine.execMax d a b s
  | .minn d a b => Sys2Proof.Machine.execMinn d a b s
  | .maxn d a b => Sys2Proof.Machine.execMaxn d a b s
  | .clz d a => Sys2Proof.Machine.execClz d a s
  | .popc d a => Sys2Proof.Machine.execPopc d a s
  | .sext8 d a => Sys2Proof.Machine.execSext8 d a s
  | .sext16 d a => Sys2Proof.Machine.execSext16 d a s
  | .sext32 d a => Sys2Proof.Machine.execSext32 d a s
  | .zext8 d a => Sys2Proof.Machine.execZext8 d a s
  | .zext16 d a => Sys2Proof.Machine.execZext16 d a s
  | .zext32 d a => Sys2Proof.Machine.execZext32 d a s
  | .slt d a b => Sys2Proof.Machine.execSlt d a b s
  | .sltn d a b => Sys2Proof.Machine.execSltn d a b s
  | .jr a => Sys2Proof.Machine.execJr a s
  | .jalr d a => Sys2Proof.Machine.execJalr d a s
  | .addi d a imm => Sys2Proof.Machine.execAddi d a imm s
  | .andi d a imm => Sys2Proof.Machine.execAndi d a imm s
  | .ori d a imm => Sys2Proof.Machine.execOri d a imm s
  | .xori d a imm => Sys2Proof.Machine.execXori d a imm s
  | .slli d a imm => Sys2Proof.Machine.execSlli d a imm s
  | .srli d a imm => Sys2Proof.Machine.execSrli d a imm s
  | .srai d a imm => Sys2Proof.Machine.execSrai d a imm s
  | .slti d a imm => Sys2Proof.Machine.execSlti d a imm s
  | .lui d imm => Sys2Proof.Machine.execLui d imm s
  | .beq a b off => Sys2Proof.Machine.execBeq a b off s
  | .bne a b off => Sys2Proof.Machine.execBne a b off s
  | .blt a b off => Sys2Proof.Machine.execBlt a b off s
  | .bge a b off => Sys2Proof.Machine.execBge a b off s
  | .bltn a b off => Sys2Proof.Machine.execBltn a b off s
  | .bgen a b off => Sys2Proof.Machine.execBgen a b off s
  | .j off => Sys2Proof.Machine.execJ off s
  | .jal off => Sys2Proof.Machine.execJal off s
  | .loop a imm => Sys2Proof.Machine.execLoop a imm s
  | .loopS a => Sys2Proof.Machine.execLoopS a s
  | .ldI8 d a imm => Sys2Proof.Machine.execLdI8 d a imm s
  | .ldI16 d a imm => Sys2Proof.Machine.execLdI16 d a imm s
  | .ldI32 d a imm => Sys2Proof.Machine.execLdI32 d a imm s
  | .ldI64 d a imm => Sys2Proof.Machine.execLdI64 d a imm s
  | .ldN8 d a imm => Sys2Proof.Machine.execLdN8 d a imm s
  | .ldN16 d a imm => Sys2Proof.Machine.execLdN16 d a imm s
  | .ldN32 d a imm => Sys2Proof.Machine.execLdN32 d a imm s
  | .st8 d a imm => Sys2Proof.Machine.execSt8 d a imm s
  | .st16 d a imm => Sys2Proof.Machine.execSt16 d a imm s
  | .st32 d a imm => Sys2Proof.Machine.execSt32 d a imm s
  | .st64 d a imm => Sys2Proof.Machine.execSt64 d a imm s
  | .ldim32 d a => Sys2Proof.Machine.execLdim32 d a s
  | .ldim64 d a => Sys2Proof.Machine.execLdim64 d a s
  | .stim32 d a => Sys2Proof.Machine.execStim32 d a s
  | .stim64 d a => Sys2Proof.Machine.execStim64 d a s
  | .futget d a b => Sys2Proof.Machine.execFutget d a b s
  | .futset d a b => Sys2Proof.Machine.execFutset d a b s
  | .futclr a => Sys2Proof.Machine.execFutclr a s
  | .smap a b => Sys2Proof.Machine.execSmap a b s
  | .sunmap a => Sys2Proof.Machine.execSunmap a s
  | .sflush a => Sys2Proof.Machine.execSflush a s
  | .linv a b => Sys2Proof.Machine.execLinv a b s
  | .wbr a b => Sys2Proof.Machine.execWbr a b s
  | .dswitch a b => Sys2Proof.Machine.execDswitch a b s
  | .phadv => Sys2Proof.Machine.execPhadv s
  | .rst d a b => Sys2Proof.Machine.execRst d a b s
  | .rstO d a b => Sys2Proof.Machine.execRstO d a b s
  | .fenceE => Sys2Proof.Machine.execFenceE s
  | .fenceA => Sys2Proof.Machine.execFenceA s
  | .fenceQ => Sys2Proof.Machine.execFenceQ s
  | .fenceS => Sys2Proof.Machine.execFenceS s
  | .fenceAll => Sys2Proof.Machine.execFenceAll s
  | .amoAdd d a b acq w => Sys2Proof.Machine.execAmoAdd d a b acq w s
  | .amoMin d a b acq w => Sys2Proof.Machine.execAmoMin d a b acq w s
  | .amoMax d a b acq w => Sys2Proof.Machine.execAmoMax d a b acq w s
  | .amoAnd d a b acq w => Sys2Proof.Machine.execAmoAnd d a b acq w s
  | .amoOr d a b acq w => Sys2Proof.Machine.execAmoOr d a b acq w s
  | .amoXor d a b acq w => Sys2Proof.Machine.execAmoXor d a b acq w s
  | .amoSwap d a b acq w => Sys2Proof.Machine.execAmoSwap d a b acq w s
  | .amoCas d a b acq w => Sys2Proof.Machine.execAmoCas d a b acq w s
  | .amoFadd d a b acq => Sys2Proof.Machine.execAmoFadd d a b acq s
  | .cpy a b => Sys2Proof.Machine.execCpy a b s
  | .gath a b => Sys2Proof.Machine.execGath a b s
  | .scat a b => Sys2Proof.Machine.execScat a b s
  | .mrg a b => Sys2Proof.Machine.execMrg a b s
  | .coll a b vt zd => Sys2Proof.Machine.execColl a b vt zd s
  | .evget d => Sys2Proof.Machine.execEvget d s
  | .hprobe a b => Sys2Proof.Machine.execHprobe a b s
  | .hins a b => Sys2Proof.Machine.execHins a b s
  | .tjoin d a b => Sys2Proof.Machine.execTjoin d a b s
  | .tmeet d a b => Sys2Proof.Machine.execTmeet d a b s
  | .tle d a b => Sys2Proof.Machine.execTle d a b s
  | .tadv d a b => Sys2Proof.Machine.execTadv d a b s
  | .tincE d a => Sys2Proof.Machine.execTincE d a s
  | .tinc1 d a => Sys2Proof.Machine.execTinc1 d a s
  | .tinc2 d a => Sys2Proof.Machine.execTinc2 d a s
  | .tinc3 d a => Sys2Proof.Machine.execTinc3 d a s
  | .tmk d a => Sys2Proof.Machine.execTmk d a s
  | .tfld d a sel => Sys2Proof.Machine.execTfld d a sel s
  | .fget d scope word => Sys2Proof.Machine.execFget d scope word s
  | .fwait d a scope => Sys2Proof.Machine.execFwait d a scope s
  | .stkget a b scope => Sys2Proof.Machine.execStkget a b scope s
  | .stkdrop a b scope => Sys2Proof.Machine.execStkdrop a b scope s
  | .stkdn a b scope => Sys2Proof.Machine.execStkdn a b scope s
  | .cfg a => Sys2Proof.Machine.execCfg a s
  | .teard a => Sys2Proof.Machine.execTeard a s
  | .snd d a b cls => Sys2Proof.Machine.execSnd d a b cls s
  | .sndO d a b cls => Sys2Proof.Machine.execSndO d a b cls s
  | .clsm cls => Sys2Proof.Machine.execClsm cls s
  | .clsu cls => Sys2Proof.Machine.execClsu cls s
  | .qspill a b cls => Sys2Proof.Machine.execQspill a b cls s
  | .wfe => Sys2Proof.Machine.execWfe s
  | .halt => Sys2Proof.Machine.execHalt s
  | .inj d a row slot port => Sys2Proof.Machine.execInj d a row slot port s
  | .drn d a elem slot port => Sys2Proof.Machine.execDrn d a elem slot port s
  | .kset d a elem => Sys2Proof.Machine.execKset d a elem s
  | .ksetAll d a => Sys2Proof.Machine.execKsetAll d a s
  | .sysrd d sys => Sys2Proof.Machine.execSysrd d sys s
  | .syswr a sys => Sys2Proof.Machine.execSyswr a sys s
  | .spawn d a => Sys2Proof.Machine.execSpawn d a s
  | .rng a => Sys2Proof.Machine.execRng a s
  | .rngC d => Sys2Proof.Machine.execRngC d s
  | .dcnt a => Sys2Proof.Machine.execDcnt a s
  | .dset a b => Sys2Proof.Machine.execDset a b s
  | .cjoin a => Sys2Proof.Machine.execCjoin a s
  | .cleave a => Sys2Proof.Machine.execCleave a s
  | .cbar a b => Sys2Proof.Machine.execCbar a b s
  | .yield => Sys2Proof.Machine.execYield s
  | .fin => Sys2Proof.Machine.execFin s
  | .prio a => Sys2Proof.Machine.execPrio a s
  | .tret => Sys2Proof.Machine.execTret s
  | .ctxsv d a b => Sys2Proof.Machine.execCtxsv d a b s
  | .ctxld a => Sys2Proof.Machine.execCtxld a s
  | .tmigr a => Sys2Proof.Machine.execTmigr a s
  | .brk => Sys2Proof.Machine.execBrk s
  | .spt imm => Sys2Proof.Machine.execSpt imm s
  | .trap imm => Sys2Proof.Machine.execTrap imm s
  | .eAdd rm w => Sys2Proof.Machine.execEAdd rm w s
  | .eSub rm w => Sys2Proof.Machine.execESub rm w s
  | .eMul rm w => Sys2Proof.Machine.execEMul rm w s
  | .eMad rm w => Sys2Proof.Machine.execEMad rm w s
  | .eVadd rm w => Sys2Proof.Machine.execEVadd rm w s
  | .eVsub rm w => Sys2Proof.Machine.execEVsub rm w s
  | .eVmul rm w => Sys2Proof.Machine.execEVmul rm w s
  | .eVfma rm w => Sys2Proof.Machine.execEVfma rm w s
  | .eVred rm w => Sys2Proof.Machine.execEVred rm w s
  | .eCvt rm w => Sys2Proof.Machine.execECvt rm w s
  | .eCvts rm w => Sys2Proof.Machine.execECvts rm w s
  | .eVcvt rm w => Sys2Proof.Machine.execEVcvt rm w s
  | .ePack rm w => Sys2Proof.Machine.execEPack rm w s
  | .eMin w => Sys2Proof.Machine.execEMin w s
  | .eMax w => Sys2Proof.Machine.execEMax w s
  | .eAbs w => Sys2Proof.Machine.execEAbs w s
  | .eNeg w => Sys2Proof.Machine.execENeg w s
  | .eAnd w => Sys2Proof.Machine.execEAnd w s
  | .eOr w => Sys2Proof.Machine.execEOr w s
  | .eXor w => Sys2Proof.Machine.execEXor w s
  | .eShl w => Sys2Proof.Machine.execEShl w s
  | .eShr w => Sys2Proof.Machine.execEShr w s
  | .eSar w => Sys2Proof.Machine.execESar w s
  | .eCeq w => Sys2Proof.Machine.execECeq w s
  | .eCne w => Sys2Proof.Machine.execECne w s
  | .eClt w => Sys2Proof.Machine.execEClt w s
  | .eCle w => Sys2Proof.Machine.execECle w s
  | .eSel w => Sys2Proof.Machine.execESel w s
  | .eMov w => Sys2Proof.Machine.execEMov w s
  | .eClz w => Sys2Proof.Machine.execEClz w s
  | .eExt w => Sys2Proof.Machine.execEExt w s
  | .eUnpack w => Sys2Proof.Machine.execEUnpack w s
  | .eVmin w => Sys2Proof.Machine.execEVmin w s
  | .eVmax w => Sys2Proof.Machine.execEVmax w s
  | .eVbc w => Sys2Proof.Machine.execEVbc w s
  | .eVins w => Sys2Proof.Machine.execEVins w s
  | .eVext w => Sys2Proof.Machine.execEVext w s
  | .eSteer w => Sys2Proof.Machine.execESteer w s
  | .eMerge w => Sys2Proof.Machine.execEMerge w s
  | .eGate w => Sys2Proof.Machine.execEGate w s
  | .eTjn w => Sys2Proof.Machine.execETjn w s
  | .eTle w => Sys2Proof.Machine.execETle w s
  | .eTadv w => Sys2Proof.Machine.execETadv w s
  | .eTgt w => Sys2Proof.Machine.execETgt w s
  | .eTst w => Sys2Proof.Machine.execETst w s
  | .eCtr w => Sys2Proof.Machine.execECtr w s
  | .eCtrb w => Sys2Proof.Machine.execECtrb w s
  | .ctrbBoundAbsorb p e slot => Sys2Proof.Machine.execCtrbBoundAbsorb p e slot s
  | .eRpt w => Sys2Proof.Machine.execERpt w s
  | .rptTokenAbsorb p e slot port => Sys2Proof.Machine.execRptTokenAbsorb p e slot port s
  | .eEmit w => Sys2Proof.Machine.execEEmit w s
  | .eSink w => Sys2Proof.Machine.execESink w s
  | .eMark w => Sys2Proof.Machine.execEMark w s
  | .eTdn w => Sys2Proof.Machine.execETdn w s
  | .eCmpl w => Sys2Proof.Machine.execECmpl w s
  | .eLdst w => Sys2Proof.Machine.execELdst w s
  | .eLdr w => Sys2Proof.Machine.execELdr w s
  | .eStr w => Sys2Proof.Machine.execEStr w s
  | .eVld w => Sys2Proof.Machine.execEVld w s
  | .eVst w => Sys2Proof.Machine.execEVst w s
  | .eUpdAdd w => Sys2Proof.Machine.execEUpdAdd w s
  | .eUpdMin w => Sys2Proof.Machine.execEUpdMin w s
  | .eUpdMax w => Sys2Proof.Machine.execEUpdMax w s
  | .eUpdOr w => Sys2Proof.Machine.execEUpdOr w s
  | .eUpdSwap w => Sys2Proof.Machine.execEUpdSwap w s
  | .eAmoAdd w => Sys2Proof.Machine.execEAmoAdd w s
  | .eAmoMin w => Sys2Proof.Machine.execEAmoMin w s
  | .eAmoMax w => Sys2Proof.Machine.execEAmoMax w s
  | .eAmoAnd w => Sys2Proof.Machine.execEAmoAnd w s
  | .eAmoOr w => Sys2Proof.Machine.execEAmoOr w s
  | .eAmoXor w => Sys2Proof.Machine.execEAmoXor w s
  | .eAmoSwap w => Sys2Proof.Machine.execEAmoSwap w s
  | .eAmoCas w => Sys2Proof.Machine.execEAmoCas w s
  | .eAmoFadd w => Sys2Proof.Machine.execEAmoFadd w s
  | .memportAccessPerformed p row n => Sys2Proof.Machine.execMemportAccessPerformed p row n s
  | .eMpre fmt w => Sys2Proof.Machine.execEMpre fmt w s
  | .eMrow fmt w => Sys2Proof.Machine.execEMrow fmt w s
  | .eMdrn fmt w => Sys2Proof.Machine.execEMdrn fmt w s
  | .eMsca w => Sys2Proof.Machine.execEMsca w s
  | .eMband w => Sys2Proof.Machine.execEMband w s
  | .eMmode w => Sys2Proof.Machine.execEMmode w s
  | .segmentStart p e slot => Sys2Proof.Machine.execSegmentStart p e slot s
  | .segmentEnd p row => Sys2Proof.Machine.execSegmentEnd p row s
  | .eSnd w => Sys2Proof.Machine.execESnd w s
  | .eSndO w => Sys2Proof.Machine.execESndO w s
  | .eAprobe w => Sys2Proof.Machine.execEAprobe w s
  | .eHprobe w => Sys2Proof.Machine.execEHprobe w s
  | .eCons w => Sys2Proof.Machine.execECons w s
  | .safePointDistanceFault p k => Sys2Proof.Machine.execSafePointDistanceFault p k s
  | .counterIndexEmit p e slot => Sys2Proof.Machine.execCounterIndexEmit p e slot s
  | .rptCopyEmit p e slot => Sys2Proof.Machine.execRptCopyEmit p e slot s
  | .illegalInstruction word => Sys2Proof.Machine.execIllegalInstruction word s
  | .tokenTaken p e slot port => Sys2Proof.Machine.execTokenTaken p e slot port s
  | .markerPass p e => Sys2Proof.Machine.execMarkerPass p e s
  | .teardownTokenLeave p e => Sys2Proof.Machine.execTeardownTokenLeave p e s
  | .elementFlip p e => Sys2Proof.Machine.execElementFlip p e s
  | .configImageLoad p => Sys2Proof.Machine.execConfigImageLoad p s
  | .elementDistanceFault p e => Sys2Proof.Machine.execElementDistanceFault p e s
  | .grantArrival p e => Sys2Proof.Machine.execGrantArrival p e s
  | .fuseeClockStep die stp => Sys2Proof.Machine.execFuseeClockStep die stp s
  | .msgArrival n => Sys2Proof.Machine.execMsgArrival n s
  | .inboundQueueRefill p cls => Sys2Proof.Machine.execInboundQueueRefill p cls s
  | .handlerFiringStart p cls => Sys2Proof.Machine.execHandlerFiringStart p cls s
  | .fabricDelivery p cls => Sys2Proof.Machine.execFabricDelivery p cls s
  | .rstDelivery n => Sys2Proof.Machine.execRstDelivery n s
  | .orderedHoldRelease p n => Sys2Proof.Machine.execOrderedHoldRelease p n s
  | .ackSend p src plane count => Sys2Proof.Machine.execAckSend p src plane count s
  | .ackArrival n => Sys2Proof.Machine.execAckArrival n s
  | .nakArrival n => Sys2Proof.Machine.execNakArrival n s
  | .fdsp n => Sys2Proof.Machine.execFdsp n s
  | .spwn n => Sys2Proof.Machine.execSpwn n s
  | .spref n => Sys2Proof.Machine.execSpref n s
  | .spawnRetry p n => Sys2Proof.Machine.execSpawnRetry p n s
  | .cntopDecrement n => Sys2Proof.Machine.execCntopDecrement n s
  | .cntopSet n => Sys2Proof.Machine.execCntopSet n s
  | .cntopAdd n => Sys2Proof.Machine.execCntopAdd n s
  | .kreqCjoin n => Sys2Proof.Machine.execKreqCjoin n s
  | .kreqCleave n => Sys2Proof.Machine.execKreqCleave n s
  | .kreqCbar n => Sys2Proof.Machine.execKreqCbar n s
  | .kreqRngOpen n => Sys2Proof.Machine.execKreqRngOpen n s
  | .kreqRngClaim n => Sys2Proof.Machine.execKreqRngClaim n s
  | .kreqWorkRequest n => Sys2Proof.Machine.execKreqWorkRequest n s
  | .kreqPieceRelease n => Sys2Proof.Machine.execKreqPieceRelease n s
  | .krepBarrierCompletion n => Sys2Proof.Machine.execKrepBarrierCompletion n s
  | .krepRangeOpened n => Sys2Proof.Machine.execKrepRangeOpened n s
  | .krepClaimReply n => Sys2Proof.Machine.execKrepClaimReply n s
  | .krepPieceGranted n => Sys2Proof.Machine.execKrepPieceGranted n s
  | .krepNoWork n => Sys2Proof.Machine.execKrepNoWork n s
  | .workRequestTimer p k => Sys2Proof.Machine.execWorkRequestTimer p k s
  | .readyAging p k level => Sys2Proof.Machine.execReadyAging p k level s
  | .firingStart p k => Sys2Proof.Machine.execFiringStart p k s
  | .probeMessage p op => Sys2Proof.Machine.execProbeMessage p op s
  | .l2Renewal n => Sys2Proof.Machine.execL2Renewal n s
  | .l2Publication n => Sys2Proof.Machine.execL2Publication n s
  | .l2ImmediateAccess n => Sys2Proof.Machine.execL2ImmediateAccess n s
  | .l2Atomic n => Sys2Proof.Machine.execL2Atomic n s
  | .l2FutureOperation n => Sys2Proof.Machine.execL2FutureOperation n s
  | .bankConflictRelease die slice bank => Sys2Proof.Machine.execBankConflictRelease die slice bank s
  | .dramChannelAccess n => Sys2Proof.Machine.execDramChannelAccess n s
  | .memoryReply n => Sys2Proof.Machine.execMemoryReply n s
  | .rewalk p => Sys2Proof.Machine.execRewalk p s
  | .engineCommandStart p eng => Sys2Proof.Machine.execEngineCommandStart p eng s
  | .engineCommandComplete p eng => Sys2Proof.Machine.execEngineCommandComplete p eng s
  | .collPacketArrival p n => Sys2Proof.Machine.execCollPacketArrival p n s
  | .switchSegmentMerge sw stream => Sys2Proof.Machine.execSwitchSegmentMerge sw stream s
  | .progressBatchSend p scope => Sys2Proof.Machine.execProgressBatchSend p scope s
  | .switchBatchFold sw scope child => Sys2Proof.Machine.execSwitchBatchFold sw scope child s
  | .switchTableSend sw scope => Sys2Proof.Machine.execSwitchTableSend sw scope s
  | .crownBatchApply scope die => Sys2Proof.Machine.execCrownBatchApply scope die s
  | .frontierBroadcastArrival p scope => Sys2Proof.Machine.execFrontierBroadcastArrival p scope s
  | .freezeComplete p => Sys2Proof.Machine.execFreezeComplete p s
  | .freezeRefusal p => Sys2Proof.Machine.execFreezeRefusal p s
  | .swapInstant die => Sys2Proof.Machine.execSwapInstant die s
  | .exchangeStateTransfer p q => Sys2Proof.Machine.execExchangeStateTransfer p q s
  | .delridStart => Sys2Proof.Machine.execDelridStart s
  | .delridWork => Sys2Proof.Machine.execDelridWork s
  | .delridPreempt => Sys2Proof.Machine.execDelridPreempt s
  | .delridResume => Sys2Proof.Machine.execDelridResume s
  | .delridEnd => Sys2Proof.Machine.execDelridEnd s
  | .reportWrite => Sys2Proof.Machine.execReportWrite s
  | .feataWrite n x => Sys2Proof.Machine.execFeataWrite n x s
  | .retryDoorbell v => Sys2Proof.Machine.execRetryDoorbell v s
  | .hmbWrite v x => Sys2Proof.Machine.execHmbWrite v x s
  | .checkpointGo x => Sys2Proof.Machine.execCheckpointGo x s
  | .checkpointFrontierReached => Sys2Proof.Machine.execCheckpointFrontierReached s
  | .checkpointWriteDone ok => Sys2Proof.Machine.execCheckpointWriteDone ok s
  | .dbgHalt v => Sys2Proof.Machine.execDbgHalt v s
  | .dbgRestart v => Sys2Proof.Machine.execDbgRestart v s
  | .deviceRegisterWrite off x => Sys2Proof.Machine.execDeviceRegisterWrite off x s
  | .cxlMemRequest wr pa bytes x => Sys2Proof.Machine.execCxlMemRequest wr pa bytes x s
  | .peerMemoryAccess ethernet port wr pa bytes x => Sys2Proof.Machine.execPeerMemoryAccess ethernet port wr pa bytes x s
  | .peerMessageArrival chip hdr payload => Sys2Proof.Machine.execPeerMessageArrival chip hdr payload s
  | .zusilBoot b => Sys2Proof.Machine.execZusilBoot b s
  | .spdmGetCertificate => Sys2Proof.Machine.execSpdmGetCertificate s
  | .spdmGetMeasurements => Sys2Proof.Machine.execSpdmGetMeasurements s
  | .delridRejected => Sys2Proof.Machine.execDelridRejected s
  | .launchW7Dropped x => Sys2Proof.Machine.execLaunchW7Dropped x s

end Sys2Proof.Machine
end

