-- ==== Sys2Proof/Machine/Tape.lean ====
section
/-!
DEFINITION. What the schedule tape's entries other than instructions and named events do (log 3, log 4): time passes, caches evict, messages leave their
buffers, errors arise (R3, R45, R56, R67, R80, R93, R300, R311, R339, R344, R346, R353, R371).
-/
namespace Sys2Proof.Machine

open Sys2Proof

/-! ## Time (R3, R378) -/

/-- An arithmetic cycle at a clock step, in ticks of 1/126 GHz: 1.2, 1.05, 0.9 and 0.6 GHz (R378). -/
def arithTicks (step : BitVec 2) : Nat :=
  match step.toNat with
  | 0 => 105
  | 1 => 120
  | 2 => 140
  | _ => 210
/-- A network cycle: 1.5 GHz (R3). -/
def netTicks : Nat := 84
/-- Whole cycles of a period that end between two instants. -/
def cyclesIn (t n period : Nat) : Nat := (t + n) / period - t / period

/-- A count plus n, saturating at 2^64 − 1 (R339). -/
def satAdd64 (x : Word) (n : Nat) : Word := BitVec.ofNat 64 (min (x.toNat + n) 0xFFFFFFFFFFFFFFFF)

/-- A scalar core counts cycles (R339): its firing is in RUN and it is neither stopped nor frozen. -/
def Scalar.counting (x : Scalar) : Bool := x.run.isSome && x.stop.isNone && x.sp.isNone

/-- n arithmetic cycles at a scalar core: SPCOUNT (R339), ages in READY (R300), the wait before the next request for work (R311) (log 4, DESIGN CHOICE). -/
def Scalar.passes (x : Scalar) (n : Nat) : Scalar :=
  { x with
    spcount := if x.counting then satAdd64 x.spcount n else x.spcount
    ready := x.ready.map fun (l : Nat × List ReadyEnt) => (l.1, l.2.map fun (e : ReadyEnt) => { e with age := e.age + n })
    askAge := if x.askAge = 0 then 0 else x.askAge + n }

/-- n arithmetic cycles at an element (R344): EC counts while it holds something, and is 0 otherwise; MIN = 0 keeps none. -/
def Core.ecAfter (c : Core) (e n : Nat) (x : Elem) : Elem :=
  match x.act with
  | some g =>
    let x := { x with arrived := if c.elemHolds e then x.arrived else [] }
    if g.min = 0 then x else { x with ec := if c.elemHolds e then satAdd64 x.ec n else 0 }
  | none => x

/-- a arithmetic and n network cycles at a core: its freeze (R346) and refused spawns (R296) age with them (log 4, DESIGN CHOICE). -/
def Core.passes (c : Core) (a n : Nat) : Core :=
  { c with
    ctl := c.ctl.passes a, ldr := c.ldr.passes a, sto := c.sto.passes a
    elems := c.elems.map fun (e : Nat × Elem) => (e.1, c.ecAfter e.1 a e.2)
    freeze := c.freeze.map fun f => { f with elapsed := f.elapsed + a }
    retry := c.retry.map fun (r : Retry) => { r with age := r.age + n } }

/-- n ticks pass: each die counts arithmetic cycles at its clock step, everything else network cycles. -/
def State.passes (s : State) (n : Nat) : State :=
  let net := cyclesIn s.ticks n netTicks
  { s with
    ticks := s.ticks + n
    cores := s.cores.map fun (c : Nat × Core) => (c.1, c.2.passes (cyclesIn s.ticks n (arithTicks (Map.get s.clkStep 0 (c.1 / 64)))) net)
    instant := each (range 0 Config.dies) (fun d m => Map.put m d (Map.get m 0 d + net)) s.instant
    hub := { s.hub with works := s.hub.works.map fun (r : WorkReq) => { r with age := r.age + net } } }

/-! ## Caches, messages, errors -/

/-- A memory request leaves its interface's first buffer (R93). -/
def State.leavesReq (s : State) (n : Nat) : State :=
  match nth s.reqs n with
  | some r => { s with reqs := setNth s.reqs n { r with left := true } }
  | none => s

/-- A message leaves its source's first buffer (R93); one that is held stays (R356). -/
def State.leaves (s : State) (n : Nat) : State :=
  match nth s.net n with
  | some e => if e.held then s else { s with net := setNth s.net n { e with left := true } }
  | none => s

/-- A slice evicts a line (R45, R49), when the line is not under a lock. -/
def State.evictHome (s : State) (die slice line : Nat) : State :=
  let sk := die * Config.slices + slice
  if (s.slice sk).locked line then s else s.dropL2 sk line

/-- The TLB drops a translation (R67). -/
def State.dropTranslation (s : State) (p vpage : Nat) : State := s.modCore p fun c => { c with tlb := keep c.tlb fun e => e.vpage != vpage }

/-- The TLB of a leaf switch drops a translation (R67). -/
def State.dropLeaf (s : State) (leaf vpage : Nat) : State :=
  { s with leafTlb := Map.put s.leafTlb leaf (keep (Map.get s.leafTlb [] leaf) fun e => e.vpage != vpage) }

/-- A packet from the rack-launch gateway (R371): eight words, once the links are up. -/
def State.gatewayPacket (s : State) (w : List Word) : State :=
  if s.hub.open_ then { s with hub := { s.hub with packets := s.hub.packets ++ [⟨firstN (w ++ [0, 0, 0, 0, 0, 0, 0, 0]) 8, true⟩] } } else s

/-- An uncorrectable error in a DRAM word (R80). -/
def State.errDram (s : State) (a : Nat) : State := if isDram a then { s with poisons := Map.set s.poisons false (a / 8) true } else s
/-- An uncorrectable error in a word of an L2 line that a slice holds. -/
def State.errL2 (s : State) (die slice line word : Nat) : State :=
  let sk := die * Config.slices + slice
  let x := s.slice sk
  match Map.find x.lines line with
  | some l => s.setSlice sk { x with lines := Map.put x.lines line { l with poison := setWords l.poison [word % 16] true } }
  | none => s
/-- An uncorrectable error in a word of a line that a core holds (R80). -/
def Core.errAt (c : Core) (w : Place) (word : Nat) : Core :=
  match c.lineAt w with
  | some l => c.setLine w (some { l with poison := setWords l.poison [word % 16] true })
  | none => c
/-- An uncorrectable error in a word of an L1 line that a core holds. -/
def State.errL1 (s : State) (p line word : Nat) : State := s.modCore p fun c => c.errAt (.l1 line) word
/-- An uncorrectable error in a word of a stash line that a core holds. -/
def State.errStash (s : State) (p block line word : Nat) : State := s.modCore p fun c => c.errAt (.stash block line) word

/-- The choices that the spec leaves open are made from n on (log 24, log 25). -/
def State.choose (s : State) (p n : Nat) : State := { s with choice := n }.modCore p fun c => { c with alloc := n }

end Sys2Proof.Machine
end

