-- ==== Sys2Proof/Machine/Fetch.lean ====
section
/-!
DEFINITION. Which instruction or firing comes next at a scalar core (R154, R157, R339) and at an element (R183), and placing a word where the next step
fetches it.
-/
namespace Sys2Proof.Machine

open Sys2Proof

/-! ## Scalar cores -/

/-- What a scalar core does next: nothing, an instruction in a state, or the instruction-address fault of a fetch. -/
inductive Next where
  | idle
  | run (s : State) (i : Instr)
  | badFetch (s : State)
  deriving DecidableEq, Repr

/-- The state with the agent set to a scalar core. -/
def State.atScalar (s : State) (p : Nat) (k : Kind) : State := { s with cur := { s.cur with p := p, k := k } }

/-- The instruction at pc of the executing scalar core: the word of its store that holds the address (R154, log 19, DEDUCED), decoded; an unassigned one is an
illegal instruction (R22). -/
def State.fetched (s : State) : Next :=
  let x := s.me
  if outside s.cur.k x.pc then .badFetch s
  else
    let w := x.storeWord x.pc.toNat
    .run s ((decodeScalar w).getD (.illegalInstruction w))

/-- One cycle counted at the issue of an instruction (R339, log 4). -/
def State.counted (s : State) : State := s.modMe fun x => { x with spcount := satAdd64 x.spcount 1 }

/-- What scalar core k of position p does next (R130, R179, R339, R345): an instruction in progress goes on; a stopped, frozen or idle core and one that
waits for a reply does nothing; the safe-point distance fault comes before the next instruction. -/
def State.scalarNext (s : State) (p : Nat) (k : Kind) : Next :=
  let s := s.atScalar p k
  let x := s.me
  let late := x.counting && s.mine.spmax.toNat < x.spcount.toNat
  match x.wait with
  | some .busy => s.fetched
  | some (.engine ..) => if late then .run s (.safePointDistanceFault p k) else s.fetched
  | some _ => if late then .run s (.safePointDistanceFault p k) else .idle
  | none =>
    if !x.counting then .idle
    else if late then .run s (.safePointDistanceFault p k)
    else s.counted.fetched

/-- A step of a scalar core. -/
def State.scalarStep (s : State) (p : Nat) (k : Kind) : Ans :=
  if Config.cores ≤ p then .fault .noSuchPart
  else
    match s.scalarNext p k with
    | .idle => go s
    | .run s i => exec i s
    | .badFetch s => faults 0x02 s.me.pc s

/-! ## Elements (R183) -/

/-- A firing that an element may make: its key, the instruction, the slot, and the match named. -/
structure Firing where
  key : Nat
  instr : Instr
  slot : Nat
  pick : Option Nat
  deriving DecidableEq, Repr

/-- A firing in its place by key, behind those of the same key. -/
def insertFiring (l : List Firing) (x : Firing) : List Firing :=
  match l with
  | [] => [x]
  | y :: r => if x.key < y.key then x :: y :: r else y :: insertFiring r x

/-- The instruction of an active slot. -/
def Elem.instr (x : Elem) (slot : Nat) : Option Instr := (x.word slot).bind decodeElem

/-- A probe of this slot still has pairs to emit (R272). -/
def Elem.pairsOf (x : Elem) (slot : Nat) : Option (Token × Token) :=
  match Map.find x.nodes slot with
  | some (.pairs (q :: _)) => some q
  | _ => none

/-- The firings of formed matches. -/
def Elem.matchFirings (x : Elem) : List Firing :=
  (x.keyed.map fun (m : Nat × Nat × Match) =>
    match x.instr m.2.2.slot, x.pairsOf m.2.2.slot with
    | some i, none => [Firing.mk m.1 i m.2.2.slot (some m.2.1)]
    | _, _ => []).flatten

/-- The firing of a slot that takes no match: a counter's or repeat node's emission, a probe's next pair, an `emit` that has not fired (R254 to R257, R272). -/
def Elem.freeFiring (x : Elem) (p e slot : Nat) : List Firing :=
  match x.pairsOf slot, x.instr slot with
  | some q, some i => [⟨fireKey q.1.time slot, i, slot, none⟩]
  | none, some i =>
    match x.counterFires p e slot with
    | q :: _ => [⟨q.key, .counterIndexEmit p e slot, slot, none⟩]
    | [] =>
      match x.rptFire p e slot with
      | some q => [⟨q.key, i, slot, none⟩]
      | none =>
        if x.op slot = 0x103 && (Map.find x.nodes slot).isNone then
          let t := match x.word slot with
            | some w => (Fx.source0 ⟨p, e, slot, x, ewOf w, ⟨slot, none, none⟩, []⟩).time
            | none => 0
          [⟨fireKey t slot, i, slot, none⟩]
        else []
  | _, none => []

/-- Every firing that may come, in the order of R183. -/
def Elem.firings (x : Elem) (p e : Nat) : List Firing :=
  each (x.matchFirings ++ ((range 0 32).map fun i => x.freeFiring p e i).flatten) (fun f l => insertFiring l f) []

/-- The first firing of a list that its operation can make now: it has changed its element. -/
def State.fireOf (s : State) (p e : Nat) (l : List Firing) : State :=
  match l with
  | [] => s
  | f :: r =>
    match exec f.instr { s with cur := { s.cur with p := p, e := e, slot := f.slot, pick := f.pick } } with
    | .next t => if t.elem p e = s.elem p e then State.fireOf s p e r else { t with cur := s.cur }
    | _ => State.fireOf s p e r

/-- A step of an element. -/
def State.elemStep (s : State) (p e : Nat) : Ans :=
  if Config.cores ≤ p || 64 ≤ e then .fault .noSuchPart else go (s.fireOf p e ((s.elem p e).firings p e))

/-! ## The tape (log 3) -/

/-- An entry of the table that is an event: not an encoded instruction, nor what only a scalar core's or element's own step brings about. -/
def Instr.isEvent (i : Instr) : Bool :=
  match i with
  | .illegalInstruction _ => false
  | .counterIndexEmit .. => false
  | .rptCopyEmit .. => false
  | _ => (encode i).isNone

/-- What one entry of the tape does. -/
def State.act (s : State) (a : Sched) : Ans :=
  match a with
  | .event i => if Instr.isEvent i then exec i s else go s
  | .scalar p k => s.scalarStep p k
  | .elem p e => s.elemStep p e
  | .clock n => go (s.passes n)
  | .due p e => go (s.flushDue p e)
  | .stream p row => go (s.issueStreams p (row * 8))
  | .leave n => go (s.leaves n)
  | .evictL1 p line => go (s.evictLine p line)
  | .evictL2 die slice line => go (s.evictHome die slice line)
  | .dropTlb p v => go (s.dropTranslation p v)
  | .dropLeaf leaf v => go (s.dropLeaf leaf v)
  | .leaveReq n => go (s.leavesReq n)
  | .engRead p eng u => go (s.engReads p eng u)
  | .engWrite p eng u => go (s.engWrites p eng u)
  | .gateway w => go (s.gatewayPacket w)
  | .softDram a => go (s.errDram a)
  | .softL2 die slice line word => go (s.errL2 die slice line word)
  | .softL1 p line word => go (s.errL1 p line word)
  | .softStash p block line word => go (s.errStash p block line word)
  | .opens n => go (s.openMoves n)
  | .work n => go (s.resendWork n)
  | .softFixed => go (s.report .corrected)
  | .choose p n => go (s.choose p n)

/-- The next entry of the tape; with none left, the scalar core that moved last issues its next instruction (log 3, DESIGN CHOICE). -/
def State.advance (s : State) : Ans :=
  match s.tape with
  | a :: r => State.act { s with tape := r } a
  | [] => s.scalarStep s.cur.p s.cur.k

/-! ## Placing a word (log 13) -/

/-- A scalar word at pc of the scalar core that moves next, with a launch firing in RUN (log 13, DEDUCED). -/
def State.withScalarWord (s : State) (w : BitVec 32) : State :=
  { s with tape := [] }.modMe fun x => { x with
    store := Map.put x.store (x.pc.toNat / 4) w, run := some .launch, stop := none, wait := none, sp := none, spcount := 0 }

/-- An element word in slot 0 of the element that the tape names next, with a token of value 0 and time 0 at each port it consumes; `rpt`, which
absorbs its tokens (R256), has taken its stream and count. -/
def State.withElemWord (s : State) (w : Word) : State :=
  let g : EImage := {
    ctx := 0, mx := matSlot (opOf w).toNat, slotv := 1, slots := [(0, w)], k := [], rbid := 0, cbid := 0, min := 0, tin := 0, back := 0, ents := []
    live := none, hasSpt := false }
  let k := Token.blank 0
  let m : Match := ⟨0, if takesPort w 0 then some k else none, if takesPort w 1 then some k else none⟩
  let x : Elem := { Elem.reset with
    act := some g, mx := true, granted := true, vgrant := true
    matches_ := if opOf w != 0x102 && (m.a.isSome || m.b.isSome) then [m] else []
    nodes := if opOf w = 0x102 then [(0, .rpt [{ k with l := true }] true (some (1, 0, 0)) [])] else [] }
  ({ s with tape := [.elem s.cur.p s.cur.e] }).setElem s.cur.p s.cur.e x

end Sys2Proof.Machine
end

