-- ==== Sys2Proof/Machine/Step.lean ====
section
/-!
DEFINITION. One step of the machine (log 3), and the host's way to place an instruction where the next step runs it (log 13).
-/
namespace Sys2Proof.Machine

open Sys2Proof

/-- One step: the next entry of the schedule tape takes place. -/
def step (s : State) : Host.Outcome State Fault Refusal := s.advance

/-- s with the instruction of a word placed where step fetches its next instruction: a scalar word of 32 bits, an element word of 64 (log 13, DEDUCED). -/
def State.withFetchWord (s : State) (nbits w : Nat) : State :=
  if nbits ≤ 32 then s.withScalarWord (BitVec.ofNat 32 w) else s.withElemWord (BitVec.ofNat 64 w)

end Sys2Proof.Machine
end

