-- ==== Sys2Proof/Safety.lean ====
section
/-!
DEFINITION. The terms in which claims about the machine are made: what a step leaves as it was, the bytes of every memory level, the results an
instruction writes, and the invariant of the memories.
-/
namespace Sys2Proof

open Sys2Proof Sys2Proof.Machine

/-! ## Bytes of memory -/

/-- The byte of DRAM at a DRAM byte number (R35, R37). -/
def dramAt (s : State) (k : Nat) : Byte := dramByte s.dram k
/-- Byte j of a line that a home slice holds (R45); none where it holds no such line. -/
def homeByte (s : State) (slice key j : Nat) : Option Byte := (Map.find (s.slice slice).lines key).map fun l => l.data.extractLsb' (8 * j) 8
/-- Byte j of a cached line, where the line holds it (R53). -/
def heldByte (l : Line) (j : Nat) : Option Byte := if l.present.getLsbD j then some (l.data.extractLsb' (8 * j) 8) else none
/-- Byte j of a line that a core holds in L1 or the stash (R53, R58). -/
def cachedByte (s : State) (p : Nat) (w : Place) (j : Nat) : Option Byte := ((s.core p).lineAt w).bind fun l => heldByte l j
/-- The byte of host memory at an address (R368, R373). -/
def hostByte (s : State) (a : Nat) : Byte := dramByte s.hub.hostMem a
/-- The byte of the checkpoint store at an address (R377). -/
def storeByte (s : State) (a : Nat) : Byte := dramByte s.hub.nvm a

/-- DRAM, the home slices, host memory and the checkpoint store read as before, byte by byte. -/
def SameBelow (s t : State) : Prop :=
  (∀ k, dramAt t k = dramAt s k) ∧ (∀ n key j, homeByte t n key j = homeByte s n key j) ∧ (∀ a, hostByte t a = hostByte s a) ∧
    ∀ a, storeByte t a = storeByte s a

/-- Every byte of every memory level reads as before. -/
def SameBytes (s t : State) : Prop := SameBelow s t ∧ ∀ p w j, cachedByte t p w j = cachedByte s p w j

/-- The module's DRAM, the host's memory and the checkpoint store are in their one form. -/
def MemoryForm (s : State) : Prop := Memory.wf s.dram = true ∧ Memory.wf s.hub.hostMem = true ∧ Memory.wf s.hub.nvm = true

/-! ## What a step leaves as it was -/

/-- t is s but for the core at position p. -/
def OnlyCore (s t : State) (p : Nat) : Prop := t = { s with cores := t.cores } ∧ ∀ q, q ≠ p → t.core q = s.core q
/-- t is s but for one scalar core. -/
def OnlyScalar (s t : State) (p : Nat) (k : Kind) : Prop := OnlyCore s t p ∧ t.core p = (s.core p).setScal k (t.scal p k)
/-- t is s but for one element, and tokens of its core in the overflow area. -/
def OnlyElems (s t : State) (p : Nat) : Prop :=
  OnlyCore s t p ∧ t.core p = { s.core p with elems := (t.core p).elems, overflow := (t.core p).overflow }

/-! ## Results of scalar instructions -/

/-- The instruction completes and writes v to g[d] and nothing else: every other register, flag and special register of its scalar core, every
other scalar core and every byte of memory stay, and a write to g0 is discarded (R9). -/
def WritesG (i : Instr) (s : State) (d : BitVec 5) (v : Word) : Prop :=
  ∃ t, exec i s = .next t ∧ OnlyScalar s t s.cur.p s.cur.k ∧ t.me = { s.me.advance with g := t.me.g } ∧
    (∀ r, t.gr r = if r = d ∧ d ≠ 0 then v else s.gr r) ∧ SameBytes s t

/-- The instruction completes and writes v to t[d] and nothing else. -/
def WritesT (i : Instr) (s : State) (d : BitVec 3) (v : Word) : Prop :=
  ∃ t, exec i s = .next t ∧ OnlyScalar s t s.cur.p s.cur.k ∧ t.me = { s.me.advance with t := t.me.t } ∧
    (∀ r, t.me.tr r = if r = d then v else s.me.tr r) ∧ SameBytes s t

/-- The instruction completes and nothing changes but the pc and the loop state of its scalar core (R158). -/
def OnlyAdvances (i : Instr) (s : State) : Prop :=
  ∃ t, exec i s = .next t ∧ OnlyScalar s t s.cur.p s.cur.k ∧ t.me = s.me.advance ∧ SameBytes s t

/-- The instruction waits: it is executed again in the same state (R130, R179). -/
def Waits (i : Instr) (s : State) : Prop := exec i s = .next s

/-- The instruction takes the trap of a cause, with EADDR a and EPC e (R334, R336). -/
def Traps (i : Instr) (s : State) (cause : Nat) (e a : Word) : Prop := exec i s = .next (s.trap s.cur.p s.cur.k cause e a)

/-! ## Memory accesses -/

/-- The number of the home slice of a checked access (R47). -/
def homeSlice (s : State) (a : Acc) : Nat := sliceKey a.pa (homeOf (s.accDomain a) (a.pa / 128))
/-- The number of its line at that slice. -/
def homeLine (s : State) (a : Acc) : Nat := lineKey a (domVer (s.accDomain a))
/-- The home slice holds the line of an access, with no request for a line of it queued or under a lock. -/
def HomeHolds (s : State) (a : Acc) (l : L2Line) : Prop :=
  (s.slice (homeSlice s a)).locks = [] ∧ (s.slice (homeSlice s a)).conflict = [] ∧ Map.find (s.slice (homeSlice s a)).lines (homeLine s a) = some l
/-- Request n of the machine is r, may reach its home now (R44, R50) and is served there at once: the home slice holds its line, unlocked. -/
def Served (s : State) (n : Nat) (r : MemReq) (l : L2Line) : Prop :=
  nth s.reqs n = some r ∧ winClass r.acc.win ≠ 2 ∧ r.stage ≠ .conflict ∧ s.reqReady n r = true ∧ r.ver = domVer (s.accDomain r.acc) ∧ HomeHolds s r.acc l
/-- The state after a request is performed at its home: the line and HTS that it leaves there, and its answer (R43). -/
def performed (s : State) (r : MemReq) (l : L2Line) (hts : Word) (reply : Reply) : State :=
  let n := homeSlice s r.acc
  (s.setSlice n { s.slice n with hts := hts, lines := Map.put (s.slice n).lines (homeLine s r.acc) l }).answerReq r reply
/-- A load of one part hits in L1 or the stash of core p, on unmarked words (R51, R53, R80). -/
def Hits (s : State) (p : Nat) (a : Acc) : Prop :=
  winClass a.win = 0 ∧ ∃ x, (s.core p).lineAt ((s.core p).place a) = some x ∧ x.hits (a.pa % 128) a.n (s.core p).ph = true ∧
    wordsPoisoned x.poison (a.pa % 128) a.n = false
/-- Core p has place for the line of a phased access: it holds the line, the page is mapped to the stash, or L1 is not full (R2, R56, R58). -/
def HasPlace (s : State) (p : Nat) (a : Acc) : Prop :=
  ∀ key, (s.core p).place a = .l1 key → (Map.find (s.core p).l1 key).isSome = true ∨ (s.core p).l1.length < Config.l1Lines
/-- The place of byte va of memory within an access that starts at ea: addresses wrap at 2^64 (R109). -/
def offsetOf (ea va : Nat) : Nat := (va + 2 ^ 64 - ea) % 2 ^ 64

/-- The steps of a list taken one after the other, where each gives a next state. -/
def runs (l : List Instr) (s : State) : Option State :=
  match l with
  | [] => some s
  | i :: r =>
    match exec i s with
    | .next t => runs r t
    | _ => none

/-- t is s but for its home slices, the core at p and the number that the next request takes. -/
def OnlyHome (s t : State) (p : Nat) : Prop :=
  t = { s with cores := t.cores, slices := t.slices, nextReq := s.nextReq + 1 } ∧ ∀ q, q ≠ p → t.core q = s.core q
/-- Of the home slices' bytes only the bytes off to off + n - 1 of one line differ, and they hold x. -/
def HomeBytes (s t : State) (slice key off n : Nat) (x : Nat) : Prop :=
  ∀ m q j, j < 128 → homeByte t m q j =
    if m = slice ∧ q = key ∧ off ≤ j ∧ j < off + n then some (BitVec.ofNat 8 (x / 2 ^ (8 * (j - off)))) else homeByte s m q j
/-- The cached bytes of every core are those of before. -/
def SameCached (s t : State) : Prop := ∀ p w j, cachedByte t p w j = cachedByte s p w j

/-! ## Messages -/

/-- A counted message of core p to VCN v is accepted at once (R82, R95): the VCN is held by a core of this module that no exchange has frozen,
fewer than 511 messages to it are unacknowledged, and no O message is. -/
def Accepts (s : State) (p v : Nat) : Prop :=
  let e := Map.get s.reloc 0 v
  let o := (s.core p).outOf v
  relocV e = true ∧ relocRmt e = false ∧ relocFwd e = false ∧ o.una < 511 ∧ o.oWait = false
/-- A counted message of core p to VCN v waits at its source (R95). -/
def HeldBack (s : State) (p v : Nat) : Prop :=
  let e := Map.get s.reloc 0 v
  let o := (s.core p).outOf v
  relocV e = true ∧ relocRmt e = false ∧ (511 ≤ o.una ∨ o.oWait = true)
/-- t is s with the counted message m of core p in the network and in the core's counts (R95, R97, R352). -/
def SentCounted (s t : State) (p : Nat) (m : Msg) : Prop :=
  let v := m.dst.toNat
  let o := (s.core p).outOf v
  t = { s with cores := t.cores, net := s.net ++ [⟨{ m with seq := o.snt }, false, false, none, none, []⟩] } ∧
    (∀ q, q ≠ p → t.core q = s.core q) ∧
    t.core p = { s.core p with out := Map.put (s.core p).out v ⟨if m.o then 0 else o.snt + 1, o.una + 1, m.o⟩
                               plane := Map.put (s.core p).plane m.plane.toNat (Map.get (s.core p).plane 0 m.plane.toNat + 1)
                               sw := (s.core p).sw.count p (relocNum (Map.get s.reloc 0 v)) }
/-- t is s with the uncounted message m of core p on C13 in the network (R85, R304). -/
def SentUncounted (s t : State) (p : Nat) (issuer : Option Kind) (m : Msg) : Prop :=
  t = { s with cores := t.cores, net := s.net ++ [⟨m, false, false, issuer, none, []⟩] } ∧
    (∀ q, q ≠ p → t.core q = s.core q) ∧ t.core p = { s.core p with sw := (t.core p).sw }
/-- No spawn of scalar core k of p to VCN v waits to be taken, and no enqueue of it to v waits at the interface (R296, R304). -/
def Clear (s : State) (p : Nat) (k : Kind) (v : Nat) : Prop :=
  (∀ r ∈ (s.core p).retry, ¬ (r.issuer = some k ∧ partsDst r.parts = v)) ∧ ∀ b ∈ (s.core p).behind, ¬ (b.1 = k ∧ partsDst b.2 = v)
/-- t is s with an enqueue of scalar core k of p to a VCN v of this module sent, its parts l on C13, a spawn's kept until it is taken; or with the
parts waiting at the interface in their order (R86, R296, R304). -/
def Enqueued (s t : State) (p : Nat) (k : Kind) (v : Nat) (l : List Msg) : Prop :=
  (Clear s p k v → t = { s with cores := t.cores, net := s.net ++ l.map fun m => ⟨m, false, false, some k, none, []⟩ } ∧
    (∀ q, q ≠ p → t.core q = s.core q) ∧ t.core p = { s.core p with
      sw := (t.core p).sw, retry := (s.core p).retry ++ if anyOf l fun m => m.opc == 5 then [⟨0, some k, l, false⟩] else [] }) ∧
  (¬ Clear s p k v → t = s.modCore p fun c => { c with behind := c.behind ++ [(k, l)] })
/-- t is s with a counter operation of scalar core k of p enqueued (R298, R304): applied at once on its own core, else one CNTOP; to a VCN that no
message of R86 reaches, the record of R83 stands in its place. -/
def Counted (s t : State) (p : Nat) (k : Kind) (op : Nat) (r v : Word) : Prop :=
  let own := (s.core p).vcnNum
  (refVcn r = own → t = s.counterOp p op r v own k.code) ∧
  (refVcn r ≠ own → s.local (refVcn r) = true → ∃ m : Msg, Enqueued s t p k (refVcn r) [m] ∧ m.dst.toNat = refVcn r ∧ m.cls = 13 ∧ m.opc = 7 ∧
    m.plane = 0 ∧ m.value = r ∧ m.time = v ∧ m.cont = BitVec.ofNat 12 (op + 4 * k.code) ∧ m.src.toNat = own % 1024) ∧
  (refVcn r ≠ own → s.local (refVcn r) = false → Clear s p k (refVcn r) → t = s.netErr p 1 13 (BitVec.ofNat 64 (refVcn r)) 0)

/-! ## Firings of elements -/

/-- Match n of the executing element, which holds m, is the first in key order of the executing slot, and the slot may fire (R180, R183). -/
def Fireable (s : State) (n : Nat) (m : Match) : Prop :=
  s.mayFire s.cur.p s.cur.e = true ∧ (s.elem s.cur.p s.cur.e).slotMay s.cur.slot = true ∧ ∃ key rest, s.slotMatches = (key, n, m) :: rest
/-- Every valid target of the emissions has room for all of them (R186). -/
def HasRoom (s : State) (w : EW) (l : List (Nat × Token)) : Prop := (s.core s.cur.p).fits (l.map fun o => target w o.1) = true
/-- The state after a firing: the element's registers as regs leaves them, match n gone with spilled tokens moved back, and the emissions in
their targets' buffers (R180, R186, R190). -/
def fired (s : State) (w : EW) (n : Nat) (l : List (Nat × Token)) (regs : Elem → Elem) : State :=
  ((s.modElem s.cur.p s.cur.e regs).consume n).emitAll s.cur.p s.cur.e s.cur.slot w l
/-- Poison of a failed firing with a cause, on targets (R34, R222). -/
def poisonOuts (s : State) (w : EW) (m : Match) (c : Nat) (targets : List Nat) : List (Nat × Token) :=
  targets.map fun j => (j, { (s.fx w m).token (poisonValue c s.cur.p s.cur.e s.cur.slot) with p := true })
/-- The firing of match n emits the tokens l, the tag operation applied to those that go to a valid target, and changes the element as regs does. A tag
operation that fails makes it emit poison with the lowest of its causes on both targets instead and write no register; the LFSR takes its advance
all the same (R184, R214, log 42). -/
def FiresTo (i : Instr) (s : State) (w : EW) (n : Nat) (m : Match) (l : List (Nat × Token)) (regs : Elem → Elem) : Prop :=
  (∀ l', (s.fx w m).tagAll l = .ok l' → HasRoom s w l' → exec i s = .next (fired s w n l' regs)) ∧
  ∀ c, (s.fx w m).tagAll l = .error c → HasRoom s w (poisonOuts s w m c [0, 1]) →
    exec i s = .next (fired s w n (poisonOuts s w m c [0, 1]) fun z => { z with lfsr := (regs z).lfsr })
/-- The firing of match n fails in its own operation: poison with the lower of the cause and the tag operation's, on the targets named, and no
register is written (R222); `took` is what the LFSR takes all the same (R214, log 42). -/
def FailsTo (i : Instr) (s : State) (w : EW) (n : Nat) (m : Match) (cause : Nat) (targets : List Nat) (took : Elem → Elem) : Prop :=
  let f := s.fx w m
  let c := match tagOp f.w.tg f.rawB m.tag.time m.tag.path with | .error d => min cause d | .ok _ => cause
  HasRoom s w (poisonOuts s w m c targets) → exec i s = .next (fired s w n (poisonOuts s w m c targets) took)
/-- A firing that takes no match (R254 to R257) emits the tokens l, of which k gives the tag operation its tag and b the VALUE of operand B where that
was a port token, and leaves a node state at its slot; u is the state with that slot as the agent. Where the tag operation fails it emits poison with
its cause on both targets (R184). -/
def FreeTo (i : Instr) (s u : State) (w : EW) (k : Token) (b : Option Word) (l : List (Nat × Token)) (node : Option Node) : Prop :=
  let f := u.fx w ⟨u.cur.slot, some k, b.map fun v => { Token.blank 0 with value := v }⟩
  let emits := fun (l : List (Nat × Token)) => HasRoom u w l →
    exec i s = .next ((u.modElem u.cur.p u.cur.e fun x => { x.setNode u.cur.slot node with fired := true }).emitAll u.cur.p u.cur.e u.cur.slot w l)
  u.mayFire u.cur.p u.cur.e = true → (u.elem u.cur.p u.cur.e).slotMay u.cur.slot = true →
    (∀ l', f.tagAll l = .ok l' → emits l') ∧
    ∀ c, f.tagAll l = .error c →
      emits ([0, 1].map fun j => (j, { k with value := poisonValue c u.cur.p u.cur.e u.cur.slot, p := true }))
/-- Token t is the first in key order of a list of waiting poison, and rest is what remains (R183, R255). -/
def FirstBad (slot : Nat) (l : List Token) (t : Token) (rest : List Token) : Prop :=
  ∃ a b, l = a ++ t :: b ∧ rest = a ++ b ∧ (∀ u ∈ a, fireKey t.time slot < fireKey u.time slot) ∧ ∀ u ∈ b, fireKey t.time slot ≤ fireKey u.time slot
/-- The head of a port's buffer has been taken into its node, which now holds a state (R181). -/
def absorbed (s : State) (p e slot port : Nat) (node : Node) : State :=
  (s.popHead p e slot port).modElem p e fun x => x.setNode slot (some node)
/-- Lane l of a vector holds value j of a type (R212, R229). -/
def LaneIs (v : Vec) (ty l j x : Nat) : Prop := laneValue ty (laneOf v l) j = x

/-- The system numbers of R10's table. -/
def sysNumbers : List Nat :=
  [0x000, 0x001, 0x002, 0x003, 0x004, 0x005, 0x006, 0x008, 0x009, 0x00A] ++ (List.range 9).map (0x010 + ·) ++ (List.range 8).map (0x020 + ·) ++
    ((List.range 8).map fun n => (List.range 5).map fun w => 0x040 + 8 * n + w).flatten

end Sys2Proof
end

