-- ==== Sys2Proof/Certificates/Slice0/Obligations.lean ====
section
/-!
DEFINITION. Statements about the machine for the provers, each from the rules that its docstring cites.
-/

open Sys2Proof Sys2Proof.Machine

/-- Every register-form integer instruction completes, writes its exact result to g[d] and changes nothing else; shifts use g[b][5:0]; division has
fixed results at its borders and never traps; in the one-operand forms a nonzero b is no instruction. (R163, R164) -/
def Obligations.RegisterArithmetic : Prop :=
  (∀ (s : State) (d a b : BitVec 5),
    let x := s.gr a
    let y := s.gr b
    let n := y.toNat % 64
    let overflow := x = 0x8000000000000000 ∧ y = BitVec.allOnes 64
    WritesG (.add d a b) s d (BitVec.ofNat 64 (x.toNat + y.toNat)) ∧
    WritesG (.sub d a b) s d (BitVec.ofInt 64 (x.toInt - y.toInt)) ∧
    WritesG (.and d a b) s d (x &&& y) ∧
    WritesG (.or d a b) s d (x ||| y) ∧
    WritesG (.xor d a b) s d (x ^^^ y) ∧
    WritesG (.sll d a b) s d (x <<< n) ∧
    WritesG (.srl d a b) s d (x >>> n) ∧
    WritesG (.sra d a b) s d (x.sshiftRight n) ∧
    WritesG (.mul d a b) s d (BitVec.ofNat 64 (x.toNat * y.toNat)) ∧
    WritesG (.mulh d a b) s d (BitVec.ofInt 64 (x.toInt * y.toInt / 2 ^ 64)) ∧
    WritesG (.mulhn d a b) s d (BitVec.ofNat 64 (x.toNat * y.toNat / 2 ^ 64)) ∧
    WritesG (.div d a b) s d (if y = 0 then BitVec.allOnes 64 else if overflow then x else BitVec.ofInt 64 (x.toInt.tdiv y.toInt)) ∧
    WritesG (.divn d a b) s d (if y = 0 then BitVec.allOnes 64 else BitVec.ofNat 64 (x.toNat / y.toNat)) ∧
    WritesG (.rem d a b) s d (if y = 0 then x else if overflow then 0 else BitVec.ofInt 64 (x.toInt - y.toInt * x.toInt.tdiv y.toInt)) ∧
    WritesG (.remn d a b) s d (if y = 0 then x else BitVec.ofNat 64 (x.toNat - y.toNat * (x.toNat / y.toNat))) ∧
    WritesG (.min d a b) s d (BitVec.ofInt 64 (min x.toInt y.toInt)) ∧
    WritesG (.max d a b) s d (BitVec.ofInt 64 (max x.toInt y.toInt)) ∧
    WritesG (.minn d a b) s d (BitVec.ofNat 64 (min x.toNat y.toNat)) ∧
    WritesG (.maxn d a b) s d (BitVec.ofNat 64 (max x.toNat y.toNat)) ∧
    WritesG (.sext8 d a) s d (BitVec.ofInt 64 (Int.bmod x.toNat (2 ^ 8))) ∧
    WritesG (.sext16 d a) s d (BitVec.ofInt 64 (Int.bmod x.toNat (2 ^ 16))) ∧
    WritesG (.sext32 d a) s d (BitVec.ofInt 64 (Int.bmod x.toNat (2 ^ 32))) ∧
    WritesG (.zext8 d a) s d (BitVec.ofNat 64 (x.toNat % 2 ^ 8)) ∧
    WritesG (.zext16 d a) s d (BitVec.ofNat 64 (x.toNat % 2 ^ 16)) ∧
    WritesG (.zext32 d a) s d (BitVec.ofNat 64 (x.toNat % 2 ^ 32)) ∧
    WritesG (.slt d a b) s d (if x.toInt < y.toInt then 1 else 0) ∧
    WritesG (.sltn d a b) s d (if x.toNat < y.toNat then 1 else 0) ∧
    (∃ v, v ≤ 64 ∧ x.toNat < 2 ^ (64 - v) ∧ (v < 64 → 2 ^ (63 - v) ≤ x.toNat) ∧ WritesG (.clz d a) s d (BitVec.ofNat 64 v)) ∧
    WritesG (.popc d a) s d (BitVec.ofNat 64 ((List.range 64).filter fun i => x.getLsbD i).length)) ∧
  ∀ (d a b : BitVec 5) (fn : BitVec 11), b ≠ 0 →
    fn ∈ [0x020, 0x021, 0x024, 0x025, 0x026, 0x028, 0x029, 0x02A] → decodeScalar (srWord 0x00 d a b fn) = none

/-- Every immediate-form integer instruction completes, writes its result to g[d] and changes nothing else; a shift with imm16[15:6] set, and lui
with a set, are no instructions. (R165) -/
def Obligations.ImmediateArithmetic : Prop :=
  (∀ (s : State) (d a : BitVec 5) (imm : BitVec 16) (n : BitVec 6),
    let x := s.gr a
    WritesG (.addi d a imm) s d (BitVec.ofInt 64 (x.toInt + imm.toInt)) ∧
    WritesG (.andi d a imm) s d (x &&& BitVec.ofNat 64 imm.toNat) ∧
    WritesG (.ori d a imm) s d (x ||| BitVec.ofNat 64 imm.toNat) ∧
    WritesG (.xori d a imm) s d (x ^^^ BitVec.ofNat 64 imm.toNat) ∧
    WritesG (.slli d a n) s d (x <<< n.toNat) ∧
    WritesG (.srli d a n) s d (x >>> n.toNat) ∧
    WritesG (.srai d a n) s d (x.sshiftRight n.toNat) ∧
    WritesG (.slti d a imm) s d (if x.toInt < imm.toInt then 1 else 0) ∧
    WritesG (.lui d imm) s d (BitVec.ofInt 64 (imm.toInt * 2 ^ 16))) ∧
  (∀ (d a : BitVec 5) (imm : BitVec 16) (major : BitVec 6), major ∈ [0x05, 0x06, 0x07] → 64 ≤ imm.toNat → decodeScalar (siWord major d a imm) = none) ∧
  ∀ (d a : BitVec 5) (imm : BitVec 16), a ≠ 0 → decodeScalar (siWord 0x09 d a imm) = none

/-- When an instruction that does not transfer control (here add, and a branch not taken) completes at LPE with LPA = 1 and HND = 0, LPC at least 2
is decremented and the pc returns to LPS; otherwise LPC and LPA become 0 and the pc goes on behind LPE. Without the three conditions nothing of
the loop changes. A taken transfer at LPE leaves LPC and LPA, and a trap there makes no check. (R158) -/
def Obligations.BackEdge : Prop :=
  (∀ (s : State) (i : Instr),
    let x := s.me
    (∃ d a b, i = .add d a b) ∨ (∃ a b off, i = .beq a b off ∧ s.gr a ≠ s.gr b) →
    ∃ t, exec i s = .next t ∧
      (if x.lpa = true ∧ x.hnd = false ∧ x.pc = x.lpe then
        (if 2 ≤ x.lpc.toNat then t.me.lpc.toNat = x.lpc.toNat - 1 ∧ t.me.lpa = true ∧ t.me.pc = x.lps
          else t.me.lpc = 0 ∧ t.me.lpa = false ∧ t.me.pc = x.lpe + 4)
      else t.me.lpc = x.lpc ∧ t.me.lpa = x.lpa ∧ t.me.pc = x.pc + 4)) ∧
  (∀ (s t : State) (off : BitVec 16), exec (.beq 0 0 off) s = .next t →
    outside s.cur.k (s.me.pc + 4 * off.signExtend 64) = false → s.me.pc.toNat % 4 = 0 →
    t.me.lpc = s.me.lpc ∧ t.me.lpa = s.me.lpa ∧ t.me.pc = s.me.pc + 4 * off.signExtend 64) ∧
  ∀ (s t : State) (w : BitVec 32), exec (.illegalInstruction w) s = .next t → t.me.lpc = s.me.lpc ∧ t.me.lpa = s.me.lpa

/-- Each branch goes to pc + 4 × sext(off16, 16) when its condition holds and that word lies in the store, and changes nothing else; it takes the
instruction-address fault at the branch when the condition holds and the target lies outside the store; and it goes on at the next word, with no
fault, when the condition does not hold. (R166) -/
def Obligations.Branches : Prop :=
  ∀ (s : State) (a b : BitVec 5) (off : BitVec 16) (i : Instr) (c : Prop),
    let x := s.gr a
    let y := s.gr b
    let t := s.me.pc + 4 * off.signExtend 64
    (i = .beq a b off ∧ (c ↔ x = y)) ∨ (i = .bne a b off ∧ (c ↔ x ≠ y)) ∨ (i = .blt a b off ∧ (c ↔ x.toInt < y.toInt)) ∨
      (i = .bge a b off ∧ (c ↔ y.toInt ≤ x.toInt)) ∨ (i = .bltn a b off ∧ (c ↔ x.toNat < y.toNat)) ∨
      (i = .bgen a b off ∧ (c ↔ y.toNat ≤ x.toNat)) →
    (c → t.toNat < Config.storeBytes s.cur.k → t.toNat % 4 = 0 → exec i s = .next (s.modMe fun z => { z with pc := t })) ∧
    (c → Config.storeBytes s.cur.k ≤ t.toNat → Traps i s 0x02 s.me.pc t) ∧
    (¬ c → OnlyAdvances i s)

/-- j and jal go to pc + 4 × sext(off26, 26), jr and jalr to g[a] as it was; jal writes pc + 4 to g31 and jalr to g[d]; a target outside the store or
misaligned is the instruction-address fault with EPC naming the jump and no register written. (R167) -/
def Obligations.Jumps : Prop :=
  ∀ (s : State) (d a : BitVec 5) (off : BitVec 26),
    let near := s.me.pc + 4 * off.signExtend 64
    let far := s.gr a
    let good := fun (t : Word) => t.toNat < Config.storeBytes s.cur.k ∧ t.toNat % 4 = 0
    (good near → exec (.j off) s = .next (s.modMe fun x => { x with pc := near }) ∧
      exec (.jal off) s = .next (s.modMe fun x => { x.setG 31 (x.pc + 4) with pc := near })) ∧
    (good far → exec (.jr a) s = .next (s.modMe fun x => { x with pc := far }) ∧
      exec (.jalr d a) s = .next (s.modMe fun x => { x.setG d (x.pc + 4) with pc := far })) ∧
    (¬ good near → Traps (.j off) s 0x02 s.me.pc near ∧ Traps (.jal off) s 0x02 s.me.pc near) ∧
    (¬ good far → Traps (.jr a) s 0x02 s.me.pc far ∧ Traps (.jalr d a) s 0x02 s.me.pc far)

/-- With HND = 0, loop writes LPS, LPE and their shadows and LPC, loop.s takes LPS and LPE from the shadows, and g[a] = 0 skips the body while any
other count enters it; whatever loop was active is replaced. A loop that ends outside the store is the instruction-address fault, a bad shadow
pair traps with cause 0x17, and neither writes anything else. An imm16 with bit 15 set, or d set, is no instruction, and imm16 = 0 is loop.s.
(R157) -/
def Obligations.LoopEntry : Prop :=
  (∀ (s : State) (a : BitVec 5) (imm : BitVec 15),
    let x := s.me
    let c := s.gr a
    let st := x.pc + 4
    let en := x.pc + 4 * imm.setWidth 64
    let enter := fun (y : Scalar) => if c = 0 then { y with lpc := 0, lpa := false, pc := y.lpe + 4 } else { y with lpc := c, lpa := true, pc := x.pc + 4 }
    let bad := x.slpe.toNat < x.slps.toNat ∨ x.slps.toNat % 4 ≠ 0 ∨ x.slpe.toNat % 4 ≠ 0 ∨ Config.storeBytes s.cur.k ≤ x.slpe.toNat
    x.hnd = false →
      (en.toNat < Config.storeBytes s.cur.k →
        exec (.loop a imm) s = .next (s.modMe fun y => enter { y with lps := st, lpe := en, slps := st, slpe := en })) ∧
      (Config.storeBytes s.cur.k ≤ en.toNat → Traps (.loop a imm) s 0x02 x.pc en) ∧
      (¬ bad → exec (.loopS a) s = .next (s.modMe fun y => enter { y with lps := y.slps, lpe := y.slpe })) ∧
      (bad → Traps (.loopS a) s 0x17 x.pc 0)) ∧
  (∀ (a : BitVec 5) (imm : BitVec 16), 32768 ≤ imm.toNat → decodeScalar (siWord 0x12 0 a imm) = none) ∧
  (∀ (d a : BitVec 5) (imm : BitVec 16), d ≠ 0 → decodeScalar (siWord 0x12 d a imm) = none) ∧
  ∀ a : BitVec 5, decodeScalar (siWord 0x12 0 a 0) = some (.loopS a)

/-- sysrd writes g[d] with the register that sys names and changes nothing else: every register of R10, SR by its fields, a frontier register's words
with the words at and above CNT reading 0; the mailboxes are readable by the control core only, and an absent number is an illegal instruction.
(R10, R11, R12, R13, R14, R168) -/
def Obligations.SystemRegisterReads : Prop :=
  ∀ (s : State) (d : BitVec 5),
    let x := s.me
    let c := s.mine
    let reads := fun (n : BitVec 10) (v : Word) => WritesG (.sysrd d n) s d v
    let refused := fun (n : BitVec 10) => Traps (.sysrd d n) s 0x01 x.pc (eaddrWord (.sysrd d n))
    (∃ v, reads 0x000 v ∧ v.extractLsb' 12 52 = 0 ∧ (v.extractLsb' 10 2).toNat = s.cur.k.code ∧ v.getLsbD 9 = x.spp ∧ v.getLsbD 8 = x.lpa ∧
      v.extractLsb' 6 2 = x.prio ∧ v.getLsbD 5 = x.hnd ∧ v.extractLsb' 1 4 = 0 ∧ v.getLsbD 0 = x.dbe) ∧
    reads 0x001 x.ssr ∧ reads 0x002 x.epc ∧ reads 0x003 x.ecause ∧ reads 0x004 x.eaddr ∧ reads 0x005 x.tvec ∧ reads 0x006 x.spcount ∧
    reads 0x008 x.lpc ∧ reads 0x009 x.lps ∧ reads 0x00A x.lpe ∧
    reads 0x010 c.ph ∧ reads 0x011 c.lease ∧ reads 0x012 c.spmax ∧ reads 0x013 (BitVec.ofNat 64 c.dth) ∧ reads 0x014 c.tq ∧ reads 0x015 c.age ∧
    reads 0x016 (BitVec.ofNat 64 (c.spillBlocks % 1024 * 512 + c.spillFirst % 512)) ∧
    (∀ n, c.vcn = some n → n < 1024 → reads 0x017 (BitVec.ofNat 64 n)) ∧ (s.cur.p < 1024 → reads 0x018 (BitVec.ofNat 64 s.cur.p)) ∧
    reads 0x020 c.feat ∧ reads 0x021 0 ∧ reads 0x022 0 ∧ reads 0x023 0 ∧
    (∀ i : Nat, i < 4 → (s.cur.k = .control → reads (BitVec.ofNat 10 (0x024 + i)) (Map.get c.mb 0 i)) ∧
      (s.cur.k ≠ .control → refused (BitVec.ofNat 10 (0x024 + i)))) ∧
    (∀ n i : Nat, n < 8 → i < 4 → reads (BitVec.ofNat 10 (0x040 + 8 * n + i)) ((nth (c.frontier n).times i).getD 0)) ∧
    (∀ n : Nat, n < 8 → (c.frontier n).times.length ≤ 4 →
      reads (BitVec.ofNat 10 (0x044 + 8 * n)) (BitVec.ofNat 29 0 ++ BitVec.ofNat 3 (c.frontier n).times.length ++ (c.frontier n).ver)) ∧
    ∀ n : BitVec 10, n.toNat ∉ sysNumbers → refused n

/-- syswr writes the register that sys names with g[a], as its row of R10 lets it: SR takes DBE alone, TVEC loses bits [1:0], DTH stops at 256, LPS
and LPE reach the shadows and the live registers only outside a loop, SPILLBASE takes its fields, and an area it leaves stays an earlier one
while a token lies in it; a read-only register ignores the write; a core register from the loader or the storer, and an absent number, are
illegal instructions. (R10, R11, R12, R159, R160, R168, R189) -/
def Obligations.SystemRegisterWrites : Prop :=
  ∀ (s : State) (a : BitVec 5),
    let v := s.gr a
    let scalar := fun (n : BitVec 10) (f : Scalar → Scalar) => exec (.syswr a n) s = .next ((s.modMe f).modMe Scalar.advance)
    let core := fun (n : BitVec 10) (f : Core → Core) => (s.cur.k = .control → exec (.syswr a n) s = .next ((s.modMine f).modMe Scalar.advance)) ∧
      (s.cur.k ≠ .control → Traps (.syswr a n) s 0x01 s.me.pc (eaddrWord (.syswr a n)))
    scalar 0x000 (fun x => { x with dbe := v.getLsbD 0 }) ∧ scalar 0x001 (fun x => { x with ssr := v }) ∧
    scalar 0x002 (fun x => { x with epc := v }) ∧ scalar 0x005 (fun x => { x with tvec := v &&& ~~~3#64 }) ∧
    scalar 0x008 (fun x => { x with lpc := v }) ∧
    scalar 0x009 (fun x => if x.lpa then { x with slps := v } else { x with slps := v, lps := v }) ∧
    scalar 0x00A (fun x => if x.lpa then { x with slpe := v } else { x with slpe := v, lpe := v }) ∧
    (∀ n ∈ [0x003, 0x004, 0x006], scalar n fun x => x) ∧
    core 0x011 (fun c => { c with lease := v }) ∧ core 0x012 (fun c => { c with spmax := v }) ∧
    core 0x013 (fun c => { c with dth := if 256 < v.toNat then 256 else v.toNat }) ∧ core 0x014 (fun c => { c with tq := v }) ∧
    core 0x015 (fun c => { c with age := v }) ∧
    core 0x016 (fun c => 
      let first := (v.extractLsb' 0 9).toNat
      let blocks := min (v.extractLsb' 9 10).toNat (512 - first)
      { c with spillFirst := first, spillBlocks := blocks
               oldAreas := if first = c.spillFirst ∧ blocks = c.spillBlocks then c.oldAreas
                 else ((c.spillFirst, c.spillBlocks) :: c.oldAreas).filter fun r => decide (∃ x ∈ c.overflow, r.1 ≤ x.block ∧ x.block < r.1 + r.2) }) ∧
    (∀ i : Nat, i < 4 → core (BitVec.ofNat 10 (0x024 + i)) fun c => { c with mb := Map.put c.mb i v }) ∧
    (∀ n ∈ [0x010, 0x017, 0x018, 0x020, 0x021, 0x022, 0x023], core n fun c => c) ∧
    (∀ n i : Nat, n < 8 → i < 5 → core (BitVec.ofNat 10 (0x040 + 8 * n + i)) fun c => c) ∧
    ∀ n : BitVec 10, n.toNat ∉ sysNumbers → Traps (.syswr a n) s 0x01 s.me.pc (eaddrWord (.syswr a n))

/-- Outside a handler an undecodable word, trap, brk with DBE = 0 and the safe-point distance fault complete by entering the trap handler: SSR
receives SR, EPC, ECAUSE and EADDR the values of the cause, HND becomes 1, SPCOUNT is cleared by cause 0x04 only, and the pc becomes TVEC; the g,
t and loop registers, the rest of the state and every byte of memory stay. (R17, R22, R334, R337, R339) -/
def Obligations.TrapEntry : Prop :=
  ∀ s : State, s.me.hnd = false →
    let x := s.me
    let enters := fun (i : Instr) (cause : Word) (e a sp : Word) => ∃ t, exec i s = .next t ∧ OnlyScalar s t s.cur.p s.cur.k ∧ SameBytes s t ∧
      t.me = { x with ssr := x.sr s.cur.k, epc := e, ecause := cause, eaddr := a, hnd := true, spcount := sp, pc := x.tvec, wait := none }
    (∀ w : BitVec 32, enters (.illegalInstruction w) 0x01 x.pc (w.setWidth 64) x.spcount) ∧
    (∀ imm : BitVec 16, enters (.trap imm) 0x08 (x.pc + 4) (imm.setWidth 64) x.spcount) ∧
    (x.dbe = false → enters .brk 0x05 (x.pc + 4) 0 x.spcount) ∧
    (x.run.isSome = true → x.stop = none → x.sp = none → x.wait = none → s.mine.spmax.toNat < x.spcount.toNat →
      enters (.safePointDistanceFault s.cur.p s.cur.k) 0x04 x.pc x.spcount 0)

/-- While HND = 1 every trap is a double trap: no register of the scalar core is written, it stops, and Zusil receives the cause, the EADDR value,
the EPC value and the pc; a tret that finds an SSR it does not accept is one too, with cause 0x03. (R178, R334, R335, R336, R337) -/
def Obligations.DoubleTrap : Prop :=
  ∀ s : State, s.me.hnd = true →
    let x := s.me
    let doubles := fun (i : Instr) (cause : Nat) (e a : Word) => exec i s =
      .next ((s.modMe fun y => { y with stop := some .double, wait := none }).report (.doubleTrap s.mine.vcnNum s.cur.k cause a e x.pc))
    (∀ w : BitVec 32, doubles (.illegalInstruction w) 0x01 x.pc (w.setWidth 64)) ∧
    (∀ imm : BitVec 16, doubles (.trap imm) 0x08 (x.pc + 4) (imm.setWidth 64)) ∧
    (x.dbe = false → doubles .brk 0x05 (x.pc + 4) 0) ∧
    (x.ssr.extractLsb' 12 52 ≠ 0 ∨ x.ssr.getLsbD 5 = true ∨ x.ssr.extractLsb' 1 4 ≠ 0 ∨ (x.ssr.extractLsb' 10 2).toNat ≠ s.cur.k.code →
      doubles .tret 0x03 x.pc x.ssr) ∧
    ∀ (i : Instr) (cause : Nat) (e a : Word), Traps i s cause e a → doubles i cause e a

/-- With HND = 1 and an SSR that passes the checks, tret takes DBE and PRIO from SSR, clears HND and goes to EPC, changing nothing else; with HND = 0
it is an illegal-instruction trap; a refused SSR is the status-format fault, a double trap that writes no register. (R335) -/
def Obligations.TrapReturn : Prop :=
  ∀ s : State,
    let x := s.me
    let bad := x.ssr.extractLsb' 12 52 ≠ 0 ∨ x.ssr.getLsbD 5 = true ∨ x.ssr.extractLsb' 1 4 ≠ 0 ∨ (x.ssr.extractLsb' 10 2).toNat ≠ s.cur.k.code
    (x.hnd = true → ¬ bad → exec .tret s = .next (s.modMe fun y =>
      { y with dbe := x.ssr.getLsbD 0, prio := x.ssr.extractLsb' 6 2, hnd := false, pc := x.epc })) ∧
    (x.hnd = true → bad → exec .tret s = .next ((s.modMe fun y => { y with stop := some .double, wait := none }).report
      (.doubleTrap s.mine.vcnNum s.cur.k 0x03 x.ssr x.pc x.pc))) ∧
    (x.hnd = false → Traps .tret s 0x01 x.pc (eaddrWord .tret))

/-- halt stops its scalar core after it completes, with the pc behind it; brk with DBE = 1 stops it likewise and Zusil receives the notice; with DBE
= 0 it raises cause 0x05, which is a double trap when HND = 1; trap raises cause 0x08 with EADDR zext(imm16, 16) and EPC the next instruction.
(R337) -/
def Obligations.StopsAndBreakpoints : Prop :=
  ∀ s : State,
    exec .halt s = .next (s.modMe fun x => { x.advance with stop := some .halt }) ∧
    (s.me.dbe = true → exec .brk s = .next ((s.modMe fun x => { x.advance with stop := some .brk }).report (.breakStop s.mine.vcnNum s.cur.k))) ∧
    (s.me.dbe = false → Traps .brk s 0x05 (s.me.pc + 4) 0) ∧
    (s.me.dbe = false → s.me.hnd = true → exec .brk s = .next ((s.modMe fun y => { y with stop := some .double, wait := none }).report
      (.doubleTrap s.mine.vcnNum s.cur.k 0x05 0 (s.me.pc + 4) s.me.pc))) ∧
    ∀ imm : BitVec 16, Traps (.trap imm) s 0x08 (s.me.pc + 4) (imm.setWidth 64)

/-- spt n with n below NSP clears SPCOUNT and goes on as any instruction; with SPP = 1 the scalar core stops at safe point n and RESUME is the pc
that execution takes next, behind the back-edge check; any other n traps with cause 0x17. (R340) -/
def Obligations.SafePoints : Prop :=
  ∀ (s : State) (n : BitVec 16),
    (n.toNat < s.me.nsp → s.me.spp = false → exec (.spt n) s = .next (s.modMe fun x => { x with spcount := 0 }.advance)) ∧
    (n.toNat < s.me.nsp → s.me.spp = true → exec (.spt n) s = .next (s.modMe fun x =>
      { ({ x with spcount := 0 }.advance) with sp := some (n.toNat, x.advance.pc) })) ∧
    (s.me.nsp ≤ n.toNat → Traps (.spt n) s 0x17 s.me.pc 0)

/-- tjoin and tmeet take maxima and minima field by field, tle compares times of one depth, tadv joins t[a] with each time of the frontier and meets
the results, tinc adds 1 to one counter; each writes its one register and nothing else. A scope above 7 traps with 0x17, an overflowing counter
with 0x20, a counter beyond the depth with 0x21. (R326) -/
def Obligations.TimeOperations : Prop :=
  ∀ (s : State) (d a b : BitVec 3) (g h : BitVec 5),
    let t := s.me.tr a
    let u := s.me.tr b
    (∃ v, WritesT (.tjoin d a b) s d v ∧ epochOf v = max (epochOf t) (epochOf u) ∧ depthOf v = max (depthOf t) (depthOf u) ∧
      ∀ i, 1 ≤ i → i ≤ 3 → ctrOf v i = max (ctrOf t i) (ctrOf u i)) ∧
    (∃ v, WritesT (.tmeet d a b) s d v ∧ epochOf v = min (epochOf t) (epochOf u) ∧ depthOf v = min (depthOf t) (depthOf u) ∧
      ∀ i, 1 ≤ i → i ≤ 3 → ctrOf v i = min (ctrOf t i) (ctrOf u i)) ∧
    (∃ v, WritesG (.tle g a b) s g v ∧ (v = 0 ∨ v = 1) ∧
      (v = 1 ↔ depthOf t = depthOf u ∧ epochOf t ≤ epochOf u ∧ ∀ i, 1 ≤ i → i ≤ 3 → ctrOf t i ≤ ctrOf u i)) ∧
    (∀ n, (s.gr h).toNat = n → n ≤ 7 →
      ((s.mine.frontier n).times = [] → WritesT (.tadv d a h) s d t) ∧
      ∀ f r, (s.mine.frontier n).times = f :: r → WritesT (.tadv d a h) s d (r.foldl (fun v w => tMeet v (tJoin t w)) (tJoin t f))) ∧
    (7 < (s.gr h).toNat → Traps (.tadv d a h) s 0x17 s.me.pc 0) ∧
    ∀ (i : Instr) (n : Nat), (i = .tincE d a ∧ n = 0) ∨ (i = .tinc1 d a ∧ n = 1) ∨ (i = .tinc2 d a ∧ n = 2) ∨ (i = .tinc3 d a ∧ n = 3) →
      let c := if n = 0 then epochOf t else ctrOf t n
      let top := if n = 0 then 0xFFFFFFFF else 1023
      (depthOf t < n → Traps i s 0x21 s.me.pc 0) ∧
      (n ≤ depthOf t → c = top → Traps i s 0x20 s.me.pc 0) ∧
      (n ≤ depthOf t → c < top → ∃ v, WritesT i s d v ∧ depthOf v = depthOf t ∧ epochOf v = epochOf t + (if n = 0 then 1 else 0) ∧
        ∀ j, 1 ≤ j → j ≤ 3 → ctrOf v j = ctrOf t j + (if j = n then 1 else 0))

/-- tmk writes g[a] to t[d] when every counter beyond its depth is zero and traps with 0x22 otherwise; tfld writes the selected field, zero-extended;
selectors 6 to 63 are no instruction. (R327) -/
def Obligations.TimeWords : Prop :=
  ∀ (s : State) (d a : BitVec 3) (g : BitVec 5),
    let w := s.gr g
    let t := s.me.tr a
    let bad := ∃ i, 1 ≤ i ∧ i ≤ 3 ∧ (w.extractLsb' 0 2).toNat < i ∧ w.extractLsb' (32 - 10 * i) 10 ≠ 0
    (¬ bad → WritesT (.tmk d g) s d w) ∧ (bad → Traps (.tmk d g) s 0x22 s.me.pc 0) ∧
    WritesG (.tfld g a 0) s g ((t.extractLsb' 32 32).setWidth 64) ∧ WritesG (.tfld g a 1) s g ((t.extractLsb' 22 10).setWidth 64) ∧
    WritesG (.tfld g a 2) s g ((t.extractLsb' 12 10).setWidth 64) ∧ WritesG (.tfld g a 3) s g ((t.extractLsb' 2 10).setWidth 64) ∧
    WritesG (.tfld g a 4) s g ((t.extractLsb' 0 2).setWidth 64) ∧ WritesG (.tfld g a 5) s g t ∧
    ∀ sel : BitVec 6, 6 ≤ sel.toNat → Traps (.tfld g a sel) s 0x01 s.me.pc (eaddrWord (.tfld g a sel)) ∧
      decodeScalar (srWord 0x24 g (a.setWidth 5) 0 (sel ++ 0x09#5)) = none

/-- fget writes word w of the frontier register, 0 at and above CNT; fwait writes VER as soon as no time of the frontier is at or below t[a], which
holds at once when CNT = 0 or the depths differ, and otherwise waits, with nothing changed. (R328) -/
def Obligations.FrontierReads : Prop :=
  ∀ (s : State) (d a n : BitVec 3) (w : BitVec 2) (g : BitVec 5),
    let f := s.mine.frontier n.toNat
    let below := ∃ u ∈ f.times, tLe u (s.me.tr a) = true
    WritesT (.fget d n w) s d ((nth f.times w.toNat).getD 0) ∧
    (¬ below → WritesG (.fwait g a n) s g (f.ver.setWidth 64)) ∧
    (below → Waits (.fwait g a n) s) ∧
    (f.times = [] ∨ (∀ u ∈ f.times, depthOf u ≠ depthOf (s.me.tr a)) → ¬ below)

/-- A load whose parts all hit completes: g[d] receives its bytes, little-endian, as L1 or the stash holds them, sign- or zero-extended, and nothing
else changes. On the first part that misses, a renewal goes to the home (phased) or a read (immediate and host-shared), and the load waits for
it; a hit on a marked word traps with 0x16; a check that fails traps with its cause and the address of the failing part. (R51, R52, R53, R58,
R80, R109, R110, R111) -/
def Obligations.ScalarLoads : Prop :=
  ∀ (s : State) (d a : BitVec 5) (imm : BitVec 16) (i : Instr) (n : Nat) (sg : Bool),
    (i, n, sg) ∈ [(Instr.ldI8 d a imm, 1, true), (.ldI16 d a imm, 2, true), (.ldI32 d a imm, 4, true), (.ldI64 d a imm, 8, true),
      (.ldN8 d a imm, 1, false), (.ldN16 d a imm, 2, false), (.ldN32 d a imm, 4, false)] →
    let p := s.cur.p
    let ea := (s.gr a + imm.signExtend 64).toNat
    let waits := fun (u : State) (op : MemOp) (x : Acc) (l : List Acc) =>
      exec i s = .next ((u.request p s.cur.k op x false 0).1.modMe fun y => { y with wait := some (.load d n sg l 0 0) })
    (∀ l, s.checkSpan p ea n .load 1 anyClass = (s, .ok l) → (∀ x ∈ l, Hits s p x) → s.me.wait = none →
      ∃ v : BitVec (8 * n), WritesG i s d (if sg then v.signExtend 64 else v.setWidth 64) ∧
        ∀ x ∈ l, ∀ j, j < x.n → cachedByte s p (s.mine.place x) (x.pa % 128 + j) = some (v.extractLsb' (8 * (offsetOf ea x.va + j)) 8)) ∧
    (∀ u x r, s.checkSpan p ea n .load 1 anyClass = (u, .ok (x :: r)) → winClass x.win = 0 →
      (((u.core p).lineAt ((u.core p).place x)).getD (Line.absent x)).hits (x.pa % 128) x.n (u.core p).ph = false →
      waits u (.renew (u.core p).ph (u.core p).lease) x (x :: r)) ∧
    (∀ u x r, s.checkSpan p ea n .load 1 anyClass = (u, .ok (x :: r)) → winClass x.win ≠ 0 → waits u (.read x.n) x (x :: r)) ∧
    (∀ x r h, s.checkSpan p ea n .load 1 anyClass = (s, .ok (x :: r)) → winClass x.win = 0 → s.mine.lineAt (s.mine.place x) = some h →
      h.hits (x.pa % 128) x.n s.mine.ph = true → wordsPoisoned h.poison (x.pa % 128) x.n = true → Traps i s 0x16 s.me.pc (BitVec.ofNat 64 x.va)) ∧
    ∀ u c va h, s.checkSpan p ea n .load 1 anyClass = (u, .bad c va h) →
      exec i s = .next (u.trap s.cur.p s.cur.k c s.me.pc (BitVec.ofNat 64 va))

/-- A store to phased windows completes in L1 or the stash: exactly its bytes of the lines its parts name are written, little-endian, from g[d];
every other cached byte, every byte below and every register but the pc stay where the core has place for the line. A full L1 evicts a line
first, the one that log 81 (DESIGN CHOICE) names. A part in an immediate or host-shared window is handed to the network as a posted write of its
bytes. A check that fails traps before anything is written. (R2, R53, R56, R58, R80, R109, R110, R111) -/
def Obligations.ScalarStores : Prop :=
  ∀ (s : State) (d a : BitVec 5) (imm : BitVec 16) (i : Instr) (n : Nat),
    (i, n) ∈ [(Instr.st8 d a imm, 1), (.st16 d a imm, 2), (.st32 d a imm, 4), (.st64 d a imm, 8)] →
    let p := s.cur.p
    let k := s.cur.k
    let ea := (s.gr a + imm.signExtend 64).toNat
    let v := (s.gr d).toNat
    let word := wordOf i
    (∀ x, s.checkSpan p ea n .store 1 anyClass = (s, .ok [x]) → winClass x.win = 0 → HasPlace s p x →
      ∃ t, exec i s = .next t ∧ OnlyCore s t p ∧ SameBelow s t ∧ t.me = s.me.advance ∧
        (∀ q w j, j < 128 → cachedByte t q w j =
          if q = p ∧ w = s.mine.place x ∧ x.pa % 128 ≤ j ∧ j < x.pa % 128 + n then some (BitVec.ofNat 8 (v / 2 ^ (8 * (j - x.pa % 128))))
          else cachedByte s q w j) ∧
        t.core p = { s.core p with l1 := (t.core p).l1, stash := (t.core p).stash, ctl := (t.core p).ctl, ldr := (t.core p).ldr, sto := (t.core p).sto } ∧
        ∀ k', k' ≠ k → t.scal p k' = s.scal p k') ∧
    (∀ x y, s.checkSpan p ea n .store 1 anyClass = (s, .ok [x, y]) → winClass x.win = 0 → winClass y.win = 0 →
      exec i s = .next (((s.putPhased p x (v % 2 ^ (8 * x.n))).putPhased p y (v / 2 ^ (8 * x.n) % 2 ^ (8 * y.n))).modMe Scalar.advance)) ∧
    (∀ x key line, s.checkSpan p ea n .store 1 anyClass = (s, .ok [x]) → winClass x.win = 0 → ¬ HasPlace s p x →
      (s.core p).l1[(s.core p).alloc % (s.core p).l1.length]? = some (key, line) →
      exec i s = .next (((s.evictLine p key).modCore p fun c => c.storePhased x (v % 2 ^ (8 * x.n))).modMe Scalar.advance)) ∧
    (∀ x, s.checkSpan p ea n .store 1 anyClass = (s, .ok [x]) → winClass x.win ≠ 0 →
      exec i s = .next ((s.request p k (.write x.n (v % 2 ^ (8 * x.n))) x true word).1.modMe Scalar.advance)) ∧
    (∀ x y, s.checkSpan p ea n .store 1 anyClass = (s, .ok [x, y]) → winClass x.win ≠ 0 → winClass y.win ≠ 0 →
      exec i s = .next ((((s.request p k (.write x.n (v % 2 ^ (8 * x.n))) x true word).1).request p k
        (.write y.n (v / 2 ^ (8 * x.n) % 2 ^ (8 * y.n))) y true word).1.modMe Scalar.advance)) ∧
    ∀ u c va h, s.checkSpan p ea n .store 1 anyClass = (u, .bad c va h) →
      exec i s = .next (u.trap s.cur.p s.cur.k c s.me.pc (BitVec.ofNat 64 va))

/-- An address that no TLB holds is walked from the job's root table: the index is VA[55:39], then VA[38:30], VA[29:21] and VA[20:12], each at 8
bytes an entry from the table that the entry above names by PA[47:12]. An entry with V = 0 gives no translation, whose record goes to the host
only from a level-1 entry that names a window with FDST = 1; a malformed entry gives cause 0x11; a leaf of level 1, 2 or 3 gives the page of 4
KiB, 2 MiB or 1 GiB with its window and permissions; a table read that fails gives its cause (a window that is not valid gives no translation,
log 32, DEDUCED). For an ldim.64 (and with the same conditions an atomic add) the first failing check decides the trap: non-canonical 0x14,
misaligned 0x13, translation not present 0x10 or a denied or malformed table read with its cause, page permission 0x11, an invalid descriptor
0x10, a class that is not permitted 0x15, a retired domain 0x15, the access table 0x12; EADDR is the address, and nothing is requested. (R61,
R62, R63, R64, R65, R66, R67, R70, R73, R76, R78, R79) -/
def Obligations.AccessChecks : Prop :=
  ∀ (s : State) (d a b : BitVec 5) (acq : BitVec 1) (i : Instr) (k : AK), (i, k) ∈ [(Instr.ldim64 d a, AK.load), (.amoAdd d a b acq 1, .atomic)] →
    let p := s.cur.p
    let va := (s.gr a).toNat
    let traps := fun (u : State) (c : Nat) => exec i s = .next (u.trap s.cur.p s.cur.k c s.me.pc (s.gr a))
    (canonical va = false → traps s 0x14) ∧
    (canonical va = true → va % 8 ≠ 0 → traps s 0x13) ∧
    (canonical va = true → va % 8 = 0 →
      (∀ u h, s.translate p va = (u, .absent h) → traps u 0x10) ∧
      (∀ u c, s.translate p va = (u, .bad c) → traps u c) ∧
      ∀ u e, s.translate p va = (u, .ok e) →
        let x : Acc := ⟨va, e.ppage * 4096 + va % 4096, 8, u.win e.win.toNat⟩
        let retired := isDram x.pa = true ∧ domValid (u.accDomain x) = false
        (permitted k e = false → traps u 0x11) ∧
        (permitted k e = true → winValid x.win = false → traps u 0x10) ∧
        (permitted k e = true → winValid x.win = true → winClass x.win ≠ 1 → traps u 0x15) ∧
        (permitted k e = true → winValid x.win = true → winClass x.win = 1 → retired → traps u 0x15) ∧
        (permitted k e = true → winValid x.win = true → winClass x.win = 1 → ¬ retired → isDram x.pa = true → u.admits p x.pa k.perm = false →
          exec i s = .next ((u.report (.denied (targetOf u x) p x.pa)).trap s.cur.p s.cur.k 0x12 s.me.pc (s.gr a))) ∧
        (permitted k e = true → winValid x.win = true → winClass x.win = 1 → isDram x.pa = false → isWindowPa x.pa = false → traps u 0x12) ∧
        (permitted k e = true → winValid x.win = true → winClass x.win = 1 → ¬ retired → isDram x.pa = true → u.admits p x.pa k.perm = true →
          ∃ t r, exec i s = .next t ∧ t.reqs = u.reqs ++ [r] ∧ r.acc = x)) ∧
    ((∀ e ∈ s.mine.tlb ++ Map.get s.leafTlb [] (p / 4), e.vpage ≠ va / 4096) → ∀ j u w, s.job = some j → s.walk p va j.root [39, 30, 21, 12] = (u, w) →
      (∀ e, w = .ok e → (s.translate p va).2 = .ok e ∧ e.vpage = va / 4096) ∧ ((∀ e, w ≠ .ok e) → s.translate p va = (u, w))) ∧
    ∀ (base sh : Nat) (rest : List Nat) (u : State), (sh, rest) ∈ [(39, [30, 21, 12]), (30, [21, 12]), (21, [12]), (12, [])] →
      let at_ := base + 8 * (va / 2 ^ sh % if sh = 39 then 131072 else 512)
      let w := s.walk p va base (sh :: rest)
      (s.tableRead p at_ = (u, .bad 0x10) → w = (u, .absent false)) ∧
      (∀ c, c ≠ 0x10 → s.tableRead p at_ = (u, .bad c) → w = (u, .bad c)) ∧
      ∀ e : Word, s.tableRead p at_ = (u, .word e) →
        let ppn := e.toNat / 2 ^ 12 % 2 ^ 36
        let leaf := e.getLsbD 1 = true
        let win := e.extractLsb' 6 6
        let bad := e.toNat / 2 ^ 48 ≠ 0 ∨ e.getLsbD 5 = true ∨ (leaf ∧ sh = 39) ∨ (¬ leaf ∧ sh = 12) ∨ (¬ leaf ∧ (win ≠ 0 ∨ e.extractLsb' 2 3 ≠ 0)) ∨
          (e.getLsbD 3 = true ∧ e.getLsbD 2 = false) ∨ (leaf ∧ ppn % 2 ^ (sh - 12) ≠ 0)
        (e.getLsbD 0 = false → w = (u, .absent (decide (sh = 12) && winValid (u.win win.toNat) && (u.win win.toNat).getLsbD 10))) ∧
        (e.getLsbD 0 = true → bad → w = (u, .bad 0x11)) ∧
        (e.getLsbD 0 = true → ¬ bad → leaf → w = (u, .ok ⟨va / 4096, ppn + va / 4096 % 2 ^ (sh - 12), win, e.getLsbD 4, e.getLsbD 3, e.getLsbD 2⟩)) ∧
        (e.getLsbD 0 = true → ¬ bad → ¬ leaf → w = u.walk p va (ppn * 4096) rest)

/-- With its checks passed, its home line present and no other request open, ldim completes once its read has been performed at the home and the
reply has come: g[d] receives the word's value, sign-extended from 32 bits or whole, and no byte changes; stim completes at issue, and once
performed exactly its bytes of the home line hold g[d]. (R44, R78, R80, R98, R112, R282) -/
def Obligations.ImmediateAccesses : Prop :=
  ∀ (s : State) (d a : BitVec 5) (x : Acc) (l : L2Line),
    s.reqs = [] → s.replies = [] → HomeHolds s x l →
    let p := s.cur.p
    let va := (s.gr a).toNat
    let off := x.pa % 128
    (∀ i n, (i, n) ∈ [(Instr.ldim32 d a, 4), (.ldim64 d a, 8)] → s.checkSpan p va n .load n immOnly = (s, .ok [x]) →
      wordsPoisoned l.poison off n = false →
      ∃ (t : State) (v : BitVec (8 * n)), runs [i, .l2ImmediateAccess 0, .memoryReply 0] s = some t ∧ OnlyHome s t p ∧ SameBytes s t ∧
        (∀ j, j < n → v.extractLsb' (8 * j) 8 = l.data.extractLsb' (8 * (off + j)) 8) ∧
        t.core p = (s.core p).setScal s.cur.k (({ s.me with wait := none }).setG d (v.signExtend 64)).advance) ∧
    ∀ i n, (i, n) ∈ [(Instr.stim32 d a, 4), (.stim64 d a, 8)] → s.checkSpan p va n .stim n immOnly = (s, .ok [x]) →
      wordsPoisoned l.poison off n = false →
      exec i s = .next ((s.request p s.cur.k (.write n ((s.gr d).toNat % 2 ^ (8 * n))) x true (wordOf i)).1.modMe Scalar.advance) ∧
      ∃ t, runs [i, .l2ImmediateAccess 0] s = some t ∧ OnlyHome s t p ∧ SameCached s t ∧
        HomeBytes s t (homeSlice s x) (homeLine s x) off n ((s.gr d).toNat % 2 ^ (8 * n)) ∧ t.me = s.me.advance

/-- With its checks passed, its home line present and unmarked and no other request open, an atomic performed at its home leaves the operation's
value in exactly its bytes and raises the line's stamp to PH; with d = 0 and ACQ = 0 it is posted and completes at issue, and otherwise with its
reply: g[d] receives the old value, sign-extended (zero-extended for amo.fadd), and ACQ = 1 raises PH to the returned stamp. (R20, R44, R78, R80,
R113, R114) -/
def Obligations.Atomics : Prop :=
  ∀ (s : State) (d a b : BitVec 5) (acq w : BitVec 1) (x : Acc) (l : L2Line) (n : Nat),
    s.reqs = [] → s.replies = [] → HomeHolds s x l → n = (if w = 0 then 32 else 64) →
    let p := s.cur.p
    let off := x.pa % 128
    s.checkSpan p (s.gr a).toNat (n / 8) .atomic (n / 8) immOnly = (s, .ok [x]) → wordsPoisoned l.poison off (n / 8) = false →
    let old : BitVec n := BitVec.ofNat n (lineBytes l.data off (n / 8))
    let y : BitVec n := (s.gr b).setWidth n
    ∀ (i : Instr) (new : BitVec n), (i, new) ∈ [(Instr.amoAdd d a b acq w, old + y), (.amoMin d a b acq w, if old.toInt ≤ y.toInt then old else y),
        (.amoMax d a b acq w, if old.toInt ≤ y.toInt then y else old), (.amoAnd d a b acq w, old &&& y), (.amoOr d a b acq w, old ||| y),
        (.amoXor d a b acq w, old ^^^ y), (.amoSwap d a b acq w, y), (.amoCas d a b acq w, if old = (s.gr d).setWidth n then y else old)] ∨
      (n = 32 ∧ i = .amoFadd d a b acq ∧ new = BitVec.ofNat n (fmtF32.add 0 0 old.toNat y.toNat)) →
    let posted := d = 0 ∧ acq = 0
    let sp := if l.sp.toNat < s.mine.ph.toNat then s.mine.ph else l.sp
    let v := if i = .amoFadd d a b acq then old.setWidth 64 else old.signExtend 64
    ∃ t, runs ([i, .l2Atomic 0] ++ if posted then [] else [.memoryReply 0]) s = some t ∧ OnlyHome s t p ∧ SameCached s t ∧
      HomeBytes s t (homeSlice s x) (homeLine s x) off (n / 8) new.toNat ∧
      (Map.find (t.slice (homeSlice s x)).lines (homeLine s x)).map L2Line.sp = some sp ∧
      t.me = (if posted then s.me.advance else ({ s.me with wait := none }.setG d v).advance) ∧
      t.mine.ph = (if acq = 1 ∧ s.mine.ph.toNat < sp.toNat then sp else s.mine.ph)

/-- A renewal raises RTS to q + LEASE and HTS with it and returns the line; a publication merges exactly the bytes of its mask, sets WTS and RTS to
the larger of q + 1 and RTS + 1, raises HTS, fills the F bits of the words it writes, leaves each written word the sender's mark (a word written
in part keeps its own mark as well) and returns WTS; an immediate read returns the bytes and changes nothing; an immediate write writes its
bytes, fills the F bits of their words and clears their marks; marked words refuse with 0x16. At a channel a read returns DRAM's bytes and a
write changes exactly its own. In each case the request is then answered. A queued request leaves a bank's conflict queue when its line is free,
the oldest first. (R43, R44, R45, R51, R54, R80, R112, R115, R120, R282, R283) -/
def Obligations.HomeEvents : Prop :=
  ∀ (s : State) (n : Nat) (r : MemReq) (l : L2Line),
    let x := s.slice (homeSlice s r.acc)
    let off := r.acc.pa % 128
    let larger := fun (a b : Word) => if a.toNat < b.toNat then b else a
    (Served s n r l →
      (∀ q lease, r.op = .renew q lease →
        let l' := { l with rts := larger l.rts (q + lease) }
        exec (.l2Renewal n) s = .next (performed s r l' (larger x.hts l'.rts) (.line l'))) ∧
      (∀ mask data poison q, r.op = .publish mask data poison q → ∃ l',
        let w := larger (q + 1) (l.rts + 1)
        exec (.l2Publication n) s = .next (performed s r l' (larger x.hts w) (.wts w)) ∧ l'.wts = w ∧ l'.rts = w ∧ l'.sp = l.sp ∧ l'.dirty = true ∧
          (∀ j, j < 128 → l'.data.extractLsb' (8 * j) 8 = if mask.getLsbD j then data.extractLsb' (8 * j) 8 else l.data.extractLsb' (8 * j) 8) ∧
          ∀ v, v < 16 →
            let touched := ∃ j, j < 8 ∧ mask.getLsbD (8 * v + j) = true
            let whole := ∀ j, j < 8 → mask.getLsbD (8 * v + j) = true
            (touched → l'.full.getLsbD v = true) ∧ (¬ touched → l'.full.getLsbD v = l.full.getLsbD v ∧ l'.poison.getLsbD v = l.poison.getLsbD v) ∧
            (whole → l'.poison.getLsbD v = poison.getLsbD v) ∧ (touched → ¬ whole → l'.poison.getLsbD v = (l.poison.getLsbD v || poison.getLsbD v))) ∧
      (∀ m, r.op = .read m → exec (.l2ImmediateAccess n) s = .next (performed s r l x.hts
        (if wordsPoisoned l.poison off m then .error 0x16 else .value (BitVec.ofNat 64 (lineBytes l.data off m)) l.sp))) ∧
      (∀ m v, r.op = .write m v → off + m ≤ 128 →
        (∃ w ∈ wordsOf off m, l.poison.getLsbD w = true ∧ coversWord off m w = false) → exec (.l2ImmediateAccess n) s = .next (performed s r l x.hts (.error 0x16))) ∧
      ∀ m v, r.op = .write m v → off + m ≤ 128 → (∀ w ∈ wordsOf off m, l.poison.getLsbD w = true → coversWord off m w = true) →
        ∃ l', exec (.l2ImmediateAccess n) s = .next (performed s r l' x.hts .done) ∧ l'.sp = l.sp ∧ l'.wts = l.wts ∧ l'.rts = l.rts ∧ l'.dirty = true ∧
          (∀ j, j < 128 → l'.data.extractLsb' (8 * j) 8 =
            if off ≤ j ∧ j < off + m then BitVec.ofNat 8 (v / 2 ^ (8 * (j - off))) else l.data.extractLsb' (8 * j) 8) ∧
          ∀ u, u < 16 → (u ∈ wordsOf off m → l'.full.getLsbD u = true ∧ l'.poison.getLsbD u = false) ∧
            (u ∉ wordsOf off m → l'.full.getLsbD u = l.full.getLsbD u ∧ l'.poison.getLsbD u = l.poison.getLsbD u)) ∧
    (nth s.reqs n = some r → winClass r.acc.win = 2 → s.reqReady n r = true →
      let k := dramKey (winSprd r.acc.win) r.acc.pa
      (∀ m, r.op = .read m → exec (.dramChannelAccess n) s = .next (s.answerReq r
        (match s.dramGet k m with | some v => .value (BitVec.ofNat 64 v) 0 | none => .error 0x16))) ∧
      (∀ m v, r.op = .write m v → s.dramPut k m v = none → exec (.dramChannelAccess n) s = .next (s.answerReq r (.error 0x16))) ∧
      ∀ m v u, r.op = .write m v → s.dramPut k m v = some u → exec (.dramChannelAccess n) s = .next (u.answerReq r .done) ∧
        ∀ q, dramAt u q = if k ≤ q ∧ q < k + m then BitVec.ofNat 8 (v / 2 ^ (8 * (q - k))) else dramAt s q) ∧
    ∀ (die slice bank id : Nat) (before after : List Nat), (s.slice (die * 21 + slice)).conflict = before ++ id :: after →
      (firstOf s.reqs fun q => q.id == id) = some r → bankOf (r.acc.pa / 128) = bank →
      (s.slice (die * 21 + slice)).locked (lineKey r.acc (domVer (s.accDomain r.acc))) = false →
      (∀ i ∈ before, ∀ q, (firstOf s.reqs fun q => q.id == i) = some q → bankOf (q.acc.pa / 128) = bank →
        (s.slice (die * 21 + slice)).locked (lineKey q.acc (domVer (s.accDomain q.acc))) = true) →
      exec (.bankConflictRelease die slice bank) s = .next (s.serve { r with stage := .flight } true)

/-- A returned line is merged under the core's own dirty and unanswered bytes, the lease jump raises PH to its WTS, and a load that waited for its
last part completes with the line's bytes (a full L1 evicts a line first: log 81, DESIGN CHOICE); a returned WTS makes the published line clean
with that WTS and RTS, its bytes staying present, unless a later publication of it is unanswered, and raises the core's largest WTS; the value of
a read completes the load that waited for it; an error completes it with the trap 0x16. (R51, R52, R54, R80, R98, R109, R112, R279) -/
def Obligations.MemoryReplies : Prop :=
  ∀ (s : State) (n : Nat) (y : MemReply), nth s.replies n = some y →
    (∀ q ∈ s.reqs, ¬ (q.p = y.req.p ∧ q.acc.copy = y.req.acc.copy ∧ q.id < y.req.id)) →
    (∀ z ∈ s.replies, ¬ (z.req.p = y.req.p ∧ z.req.acc.copy = y.req.acc.copy ∧ z.req.id < y.req.id)) →
    let p := y.req.p
    let k := y.req.k
    let a := y.req.acc
    let u : State := { s with replies := dropNth s.replies n }
    let ends := fun (u : State) (d : BitVec 5) (v : Word) => exec (.memoryReply n) s = .next (u.modScal p k fun x => ({ x with wait := none }.setG d v).advance)
    (∀ h d m sg acc got, y.reply = .line h → (s.scal p k).wait = some (.load d m sg [a] acc got) →
      let v := u.fillLine p a h
      let c := v.core p
      let l := (((s.core p).lineAt ((s.core p).place a)).getD (Line.absent a)).fill h
      (c.lineAt ((s.core p).place a) = some l) ∧ l.wts = h.wts ∧ l.rts = h.rts ∧
      c.ph = (if (s.core p).ph.toNat < h.wts.toNat then h.wts else (s.core p).ph) ∧
      (∀ j, j < 128 → heldByte l j = some (if l.own.getLsbD j then (((s.core p).lineAt ((s.core p).place a)).getD (Line.absent a)).data.extractLsb' (8 * j) 8
        else h.data.extractLsb' (8 * j) 8)) ∧
      (wordsPoisoned l.poison (a.pa % 128) a.n = false →
        ends v d (loadValue m sg (acc + lineBytes l.data (a.pa % 128) a.n * 2 ^ (8 * got)))) ∧
      (wordsPoisoned l.poison (a.pa % 128) a.n = true → exec (.memoryReply n) s =
        .next (v.trap p k 0x16 (s.scal p k).pc (BitVec.ofNat 64 a.va)))) ∧
    (∀ v sp d m sg acc got, y.reply = .value v sp → (s.scal p k).wait = some (.load d m sg [a] acc got) →
      ends u d (loadValue m sg (acc + v.toNat % 2 ^ (8 * a.n) * 2 ^ (8 * got)))) ∧
    (∀ d m sg acc got, y.reply = .error 0x16 → (s.scal p k).wait = some (.load d m sg [a] acc got) →
      exec (.memoryReply n) s = .next (u.trap p k 0x16 (s.scal p k).pc (BitVec.ofNat 64 a.va))) ∧
    ∀ w l, y.reply = .wts w → a.va = 1 → (s.core p).lineAt (.l1 a.copy) = some l → l.pend ≠ 0 → (∀ k' z, (s.scal p k').wait ≠ some (.pubs z)) →
      let later := (∃ q ∈ s.reqs, q.p = p ∧ q.op.publishes = true ∧ q.acc.copy = a.copy) ∨
        ∃ z ∈ u.replies, z.req.p = p ∧ z.req.op.publishes = true ∧ z.req.acc.copy = a.copy
      ∃ t, exec (.memoryReply n) s = .next t ∧ OnlyCore u t p ∧
        (¬ later → (t.core p).lineAt (.l1 a.copy) = some { l with pend := 0, wts := w, rts := w }) ∧ (later → (t.core p).lineAt (.l1 a.copy) = some l) ∧
        (t.core p).pubMax = if (s.core p).pubMax.toNat < w.toNat then w else (s.core p).pubMax

/-- futget on a full word returns it, raises PH to the line's stamp and frees its node; it needs the control core, FEAT0.FUT and a continuation of
the right form, and waits for a free node; with no node area and an empty word it traps with 0x17 and changes nothing. On an empty word with a
node area the word receives the node's address, the node the list's old head with the continuation, and the firing ends (that both are written in
one step, and that a node at an address whose check fails traps with its cause and changes nothing, is log 39, DESIGN CHOICE). futset on an empty
word writes g[b], makes the word full, raises the stamp and returns 0, and on a full word raises the stamp alone and returns 1. With readers it
dispatches the list from its head: a node of the setter's own core makes its continuation READY and becomes FREE at once, any other leaves as
FDSP on C13 with the value, the word's address and the continuation (log 26, DEDUCED). futclr is posted: a full word becomes 0 and empty, an
empty one stays. (R14, R78, R114, R115, R116, R117, R118, R119) -/
def Obligations.Futures : Prop :=
  ∀ (s : State) (d a b : BitVec 5) (x : Acc) (l : L2Line),
    let p := s.cur.p
    let off := x.pa % 128
    let word : Word := BitVec.ofNat 64 (lineBytes l.data off 8)
    let full := l.full.getLsbD (off / 8)
    let badCont := (s.gr b).extractLsb' 0 2 ≠ 0 ∨ (s.gr b).extractLsb' 18 14 ≠ 0
    let ready := s.feat 6 = true ∧ s.checkSpan p (s.gr a).toNat 8 .atomic 8 immOnly = (s, .ok [x])
    let lone := s.reqs = [] ∧ s.replies = [] ∧ HomeHolds s x l ∧ wordsPoisoned l.poison off 8 = false
    (s.cur.k ≠ .control → Traps (.futget d a b) s 0x01 s.me.pc (eaddrWord (.futget d a b))) ∧
    (s.cur.k = .control → s.feat 6 = false → Traps (.futget d a b) s 0x01 s.me.pc (eaddrWord (.futget d a b))) ∧
    (s.feat 6 = false → Traps (.futset d a b) s 0x01 s.me.pc (eaddrWord (.futset d a b)) ∧ Traps (.futclr a) s 0x01 s.me.pc (eaddrWord (.futclr a))) ∧
    (s.cur.k = .control → s.feat 6 = true → badCont → Traps (.futget d a b) s 0x17 s.me.pc 0) ∧
    (s.cur.k = .control → ready → ¬ badCont → s.futb ≠ 0 → s.mine.freeNode = none → Waits (.futget d a b) s) ∧
    (s.cur.k = .control → ready → ¬ badCont → lone → full = true → (s.futb = 0 ∨ ∃ n, s.mine.freeNode = some n) →
      ∃ t, runs [.futget d a b, .l2FutureOperation 0, .memoryReply 0] s = some t ∧ OnlyHome s t p ∧ SameBytes s t ∧
        t.me = ({ s.me with wait := none }.setG d word).advance ∧ t.mine.ph = (if s.mine.ph.toNat < l.sp.toNat then l.sp else s.mine.ph) ∧
        (s.futb ≠ 0 → ∀ n, s.mine.freeNode = some n → Map.get t.mine.futs .free n = .free)) ∧
    (s.cur.k = .control → ready → ¬ badCont → lone → full = false → s.futb = 0 → s.me.hnd = false →
      ∃ t, runs [.futget d a b, .l2FutureOperation 0, .memoryReply 0] s = some t ∧ OnlyHome s t p ∧ SameBytes s t ∧
        t.me = Scalar.enterTrap s.cur.k 0x17 s.me.pc 0 { s.me with wait := none }) ∧
    (ready → lone → (full = false → word = 0) →
      let sp := if l.sp.toNat < s.mine.ph.toNat then s.mine.ph else l.sp
      ∃ t, runs ([.futset d a b, .l2FutureOperation 0] ++ if d = 0 then [] else [.memoryReply 0]) s = some t ∧ OnlyHome s t p ∧ SameCached s t ∧
        t.me = (if d = 0 then s.me.advance else ({ s.me with wait := none }.setG d (if full then 1 else 0)).advance) ∧
        (full = true → SameBytes s t ∧
          ∃ l', Map.find (t.slice (homeSlice s x)).lines (homeLine s x) = some l' ∧ l'.sp = sp ∧ l'.full = l.full) ∧
        (full = false → HomeBytes s t (homeSlice s x) (homeLine s x) off 8 (s.gr b).toNat ∧
          ∃ l', Map.find (t.slice (homeSlice s x)).lines (homeLine s x) = some l' ∧ l'.sp = sp ∧ l'.full = l.full ||| (1#16 <<< (off / 8)))) ∧
    (s.cur.k = .control → ready → ¬ badCont → lone → full = false → s.futb ≠ 0 → s.me.hnd = false → ∀ n, s.mine.freeNode = some n →
      let node := s.futb.toNat + s.mine.vcnNum * 2048 + n * 32
      (∀ c h, node < 2 ^ 64 → s.check p node 32 .store 1 immOnly = (s, .bad c h) → c < 0x17 →
        ∃ t, runs [.futget d a b, .l2FutureOperation 0, .memoryReply 0] s = some t ∧ SameBytes s t ∧
          t.me = Scalar.enterTrap s.cur.k c s.me.pc (BitVec.ofNat 64 node) { s.me with wait := none } ∧ Map.get t.mine.futs .free n = .free) ∧
      ∀ y m, node < 2 ^ 64 → s.check p node 32 .store 1 immOnly = (s, .ok y) → y.pa % 128 + 32 ≤ 128 → HomeHolds s y m → m.poison = 0 →
        (homeSlice s y, homeLine s y) ≠ (homeSlice s x, homeLine s x) →
        let image := word.toNat + (s.mine.vcnNum % 2 ^ 10 + (s.gr b).toNat / 2 ^ 16 % 2 ^ 2 * 2 ^ 10 + (s.gr b).toNat % 2 ^ 16 * 2 ^ 12) * 2 ^ 64 +
          (s.gr b).toNat / 2 ^ 32 * 2 ^ 128
        ∃ v, OnlyHome s v p ∧ SameCached s v ∧
          (∀ i q j, j < 128 → homeByte v i q j =
            if i = homeSlice s x ∧ q = homeLine s x ∧ off ≤ j ∧ j < off + 8 then some (BitVec.ofNat 8 (node / 2 ^ (8 * (j - off))))
            else if i = homeSlice s y ∧ q = homeLine s y ∧ y.pa % 128 ≤ j ∧ j < y.pa % 128 + 32 then some (BitVec.ofNat 8 (image / 2 ^ (8 * (j - y.pa % 128))))
            else homeByte s i q j) ∧
          Map.get v.mine.futs .free n = .linked (BitVec.ofNat 64 x.va) word ((s.gr b).extractLsb' 0 16) ((s.gr b).extractLsb' 16 2) ((s.gr b).extractLsb' 32 32) ∧
          (v.endWaits p s.cur.k = false → runs [.futget d a b, .l2FutureOperation 0, .memoryReply 0] s = some (v.endFiring p s.cur.k))) ∧
    (ready → lone → full = false → word ≠ 0 →
      ∃ v, OnlyHome s v p ∧ SameCached s v ∧ v.me = s.me.advance ∧ HomeBytes s v (homeSlice s x) (homeLine s x) off 8 (s.gr b).toNat ∧
        runs [.futset 0 a b, .l2FutureOperation 0] s = some (v.dispatchList 65536 p (s.mine.ph.extractLsb' 0 24) word (s.gr b))) ∧
    (∀ (fuel : Nat) (phase : BitVec 24) (head value va next : Word) (entry : BitVec 16) (prio : BitVec 2) (arg : BitVec 32),
      let n := (head.toNat - s.futb.toNat) / 2048
      let i := (head.toNat - s.futb.toNat) % 2048 / 32
      let q := s.posOf n
      head ≠ 0 → Map.get (s.core q).futs .free i = .linked va next entry prio arg →
      let u := s.modCore q fun c => { c with futs := Map.put c.futs i (.sent va entry prio arg) }
      (n = s.mine.vcnNum → s.dispatchList (fuel + 1) p phase head value =
        (u.modCore p fun c => c.dispatch ⟨va, value, entry, prio, arg, phase⟩).dispatchList fuel p phase next value) ∧
      (n ≠ s.mine.vcnNum → s.local n = true → n < 1024 → ∃ (v : State) (m : Msg), SentUncounted u v p none m ∧ m.cls = 13 ∧ m.opc = 4 ∧ m.dst.toNat = n ∧ m.value = value ∧
        m.time = va ∧ m.diff = arg ∧ m.phase = phase ∧ m.path.extractLsb' 0 2 ++ m.cont ++ 0#2 = entry &&& ~~~3#16 ∧ m.path.extractLsb' 2 2 = prio ∧
        s.dispatchList (fuel + 1) p phase head value = v.dispatchList fuel p phase next value)) ∧
    (ready → lone →
      ∃ t, runs [.futclr a, .l2FutureOperation 0] s = some t ∧ OnlyHome s t p ∧ SameCached s t ∧ t.me = s.me.advance ∧
        (full = false → SameBytes s t) ∧
        (full = true → HomeBytes s t (homeSlice s x) (homeLine s x) off 8 0 ∧
          ∃ l', Map.find (t.slice (homeSlice s x)).lines (homeLine s x) = some l' ∧ l'.full = l.full &&& ~~~(1#16 <<< (off / 8))))

/-- phadv with nothing dirty and no publication of its core unanswered completes with PH = max(PH + 1, the largest WTS returned); a dirty line is
published with its mask and the current PH, its bytes waiting for the answer, and the last returned WTS completes the instruction. smap traps
with 0x17 in each of its six cases, the last for every block of an earlier overflow area in which a spilled token still lies, and with the cause
of a failed check; it discards the page's L1 lines and enters the mapping with every line invalid, PH unchanged. sunmap removes the block's
mapping and lines; sflush keeps them; on an unmapped block neither has an effect, and a block above 511 traps with 0x17. (R54, R55, R121, R122,
R126, R189, R279) -/
def Obligations.StashControl : Prop :=
  ∀ (s : State) (a b : BitVec 5),
    let p := s.cur.p
    let k := s.cur.k
    let c := s.mine
    let larger := fun (x y : Word) => if x.toNat < y.toNat then y else x
    let own := fun (r : MemReq) => r.p = p ∧ ∃ m x z q, r.op = .publish m x z q
    let quiet := (∀ r ∈ s.reqs, ¬ own r) ∧ ∀ y ∈ s.replies, ¬ own y.req
    let ends := fun (u : State) (f : Core → Core) => (.next (u.modMine fun c => (f c).modScal k fun x => { x with wait := none }.advance) : Ans)
    let va := (s.gr a).toNat
    let blk := (s.gr b).toNat
    let num := (s.gr a).toNat
    let inArea := c.spillFirst ≤ blk ∧ blk < c.spillFirst + c.spillBlocks
    let refused := va % 4096 ≠ 0 ∨ 511 < blk ∨ (∃ x, Map.find c.stash blk = some x) ∨ (∃ m, c.blockOf (va / 4096) = some m) ∨
      (inArea ∧ ∃ e ∈ c.elems, e.2.act ≠ none) ∨ ∃ r ∈ c.oldAreas, r.1 ≤ blk ∧ blk < r.1 + r.2 ∧ ∃ x ∈ c.overflow, r.1 ≤ x.block ∧ x.block < r.1 + r.2
    (quiet → (∀ w l, c.lineAt w = some l → l.dirty = 0) → exec .phadv s = ends s fun c => { c with ph := larger (c.ph + 1) c.pubMax }) ∧
    (∀ key l, c.dirtyPlaces = [.l1 key] → c.lineAt (.l1 key) = some l → l.dirty ≠ 0 → ∃ t r, exec .phadv s = .next t ∧ t.reqs = s.reqs ++ [r] ∧
      r.op = .publish l.dirty l.data l.poison c.ph ∧ r.acc.pa = key / 128 * 128 ∧ r.posted = false ∧
      t.mine.lineAt (.l1 key) = some { l with dirty := 0, pend := l.pend ||| l.dirty } ∧ t.mine.ph = c.ph ∧
      t.me = { s.me with wait := some (.pubs .phadv) }) ∧
    (∀ y w, s.replies = [y] → s.reqs = [] → y.req.p = p → y.req.k = k → y.reply = .wts w → s.me.wait = some (.pubs .phadv) →
      (∀ k' z, k' ≠ k → (s.scal p k').wait ≠ some (.pubs z)) →
      ∃ t, exec (.memoryReply 0) s = .next t ∧ t.mine.ph = larger (c.ph + 1) (larger c.pubMax w) ∧ t.me = { s.me with wait := none }.advance) ∧
    (refused → Traps (.smap a b) s 0x17 s.me.pc 0) ∧
    (∀ u cause at_ h, ¬ refused → s.checkSpan p va 1 .load 1 phasedOnly = (u, .bad cause at_ h) →
      exec (.smap a b) s = .next (u.trap p k cause s.me.pc (BitVec.ofNat 64 at_))) ∧
    (∀ u x, ¬ refused → s.checkSpan p va 1 .load 1 phasedOnly = (u, .ok [x]) → quiet →
      (∀ key l, key / 4096 = x.pa / 4096 → c.lineAt (.l1 key) = some l → l.dirty = 0) →
      exec (.smap a b) s = ends u fun c =>
        { c with l1 := c.l1.filter fun e => e.1 / 4096 ≠ x.pa / 4096, stash := Map.put c.stash blk ⟨va / 4096, x.pa / 4096, []⟩ }) ∧
    (511 < num → Traps (.sunmap a) s 0x17 s.me.pc 0 ∧ Traps (.sflush a) s 0x17 s.me.pc 0) ∧
    (num ≤ 511 → Map.find c.stash num = none → OnlyAdvances (.sunmap a) s ∧ OnlyAdvances (.sflush a) s) ∧
    (num ≤ 511 → (∃ x, Map.find c.stash num = some x) → quiet → (∀ n l, c.lineAt (.stash num n) = some l → l.dirty = 0) →
      exec (.sunmap a) s = ends s (fun c => { c with stash := Map.del c.stash num }) ∧ exec (.sflush a) s = ends s fun c => c)

/-- linv discards every clean line of L1 and the stash, or those that cover a byte of the range in a page with a valid translation, and never faults.
wbr traps with 0x17 when the range wraps, has no effect on an empty range, publishes this core's dirty lines of a page and waits for them, then
writes the home slices' dirty lines of the page to DRAM and keeps them clean; a page that fails its checks, which are those of a load (log 27,
DEDUCED), faults at that page. dswitch is the control core's, checks its operands, waits while requests of the version before are in flight, and
otherwise writes the entry with VER incremented and raises MTS of the new slices to the old slices' HTS. (R46, R50, R123, R124, R125) -/
def Obligations.WriteBacksAndSwitches : Prop :=
  ∀ (s : State) (a b : BitVec 5),
    let p := s.cur.p
    let k := s.cur.k
    let lo := (s.gr a).toNat
    let n := (s.gr b).toNat
    let without := fun (c : Core) (f : Nat → Prop) (_ : DecidablePred f) =>
      { c with l1 := c.l1.filter fun e => ¬ (e.2.dirty ||| e.2.pend = 0 ∧ f (e.1 / 128))
               stash := c.stash.map fun x => (x.1, { x.2 with lines := x.2.lines.filter fun e => ¬ (e.2.dirty ||| e.2.pend = 0 ∧ f (x.2.ppage * 32 + e.1)) }) }
    (n = 0 → exec (.linv a b) s = .next ((s.modMine fun c => without c (fun _ => True) inferInstance).modMe Scalar.advance)) ∧
    (∀ u l, n ≠ 0 → s.validPages (n / 4096 + 2) p lo (lo + n) = (u, some l) → exec (.linv a b) s = .next ((u.modMine fun c => without c (fun line =>
      ∃ e ∈ l, e.2 = line / 32 ∧ lo ≤ e.1 * 4096 + line % 32 * 128 + 127 ∧ e.1 * 4096 + line % 32 * 128 < lo + n) (fun _ => inferInstance)).modMe Scalar.advance)) ∧
    (n ≠ 0 → lo % 4096 + n ≤ 4096 → (canonical lo = false → s.validPages (n / 4096 + 2) p lo (lo + n) = (s, some [])) ∧
      (canonical lo = true → (∀ u e, s.translate p lo = (u, .ok e) → s.validPages (n / 4096 + 2) p lo (lo + n) = (u, some [(lo / 4096, e.ppage)])) ∧
        (∀ u h, s.translate p lo = (u, .absent h) → s.validPages (n / 4096 + 2) p lo (lo + n) = (u, some [])) ∧
        ∀ u cause, s.translate p lo = (u, .bad cause) → s.validPages (n / 4096 + 2) p lo (lo + n) = (u, some []))) ∧
    (2 ^ 64 < lo + n → Traps (.wbr a b) s 0x17 s.me.pc 0) ∧
    (n = 0 → OnlyAdvances (.wbr a b) s) ∧
    (0 < n → lo + n ≤ 2 ^ 64 → lo % 4096 + n ≤ 4096 →
      (∀ u cause h, s.check p lo 1 .load 1 anyClass = (u, .bad cause h) → exec (.wbr a b) s = .next (u.trap p k cause s.me.pc (s.gr a))) ∧
      ∀ u x, s.check p lo 1 .load 1 anyClass = (u, .ok x) →
        (winClass x.win = 2 → exec (.wbr a b) s = .next (u.modMe fun y => { y with wait := none }.advance)) ∧
        (winClass x.win = 0 → u.mine.dirtyOf (lo / 4096) (x.pa / 4096) ≠ [] →
          exec (.wbr a b) s = .next ((u.publishAll p k (u.mine.dirtyOf (lo / 4096) (x.pa / 4096))).modMe fun y => { y with wait := some .busy })) ∧
        ((winClass x.win = 1 ∨ (winClass x.win = 0 ∧ u.mine.dirtyOf (lo / 4096) (x.pa / 4096) = [])) →
          (∀ r ∈ u.reqs, ¬ (r.p = p ∧ r.acc.pa / 4096 = x.pa / 4096)) →
          exec (.wbr a b) s = .next ((each (u.pageLines x) (fun e v => v.cleanL2 e.1 e.2) u).modMe fun y => { y with wait := none }.advance))) ∧
    (∀ sk lk l, Map.find (s.slice sk).lines lk = some l → Map.find ((s.cleanL2 sk lk).slice sk).lines lk = some { l with dirty := false } ∧
      ∀ j, j < 128 → dramAt (s.cleanL2 sk lk) (dramKey l.sprd (lk / 2048 * 128) + j) = l.data.extractLsb' (8 * j) 8) ∧
    (k ≠ .control → Traps (.dswitch a b) s 0x01 s.me.pc (eaddrWord (.dswitch a b))) ∧
    (k = .control →
      let e := s.gr b
      let bad := domValid e = true ∧ (domAccepted e = false ∨ e.extractLsb' 42 22 ≠ 0)
      let die := p / 64
      let m := die * 16 + lo
      let old := Map.get s.domains 0 m
      (15 < lo → Traps (.dswitch a b) s 0x17 s.me.pc 0) ∧
      (lo ≤ 15 → bad → Traps (.dswitch a b) s 0x19 s.me.pc 0) ∧
      (lo ≤ 15 → ¬ bad → s.oldInFlight die lo = true → Waits (.dswitch a b) s) ∧
      (lo ≤ 15 → ¬ bad → s.oldInFlight die lo = false → ∃ t, exec (.dswitch a b) s = .next t ∧ t.me = s.me.advance ∧
        (∀ i, Map.get t.domains 0 i = if i = m then (e &&& 0xFFFFFE1FFFFFFFFF) ||| ((domVer old + 1).setWidth 64 <<< 37) else Map.get s.domains 0 i) ∧
        ∀ i, i < 21 → t.slice (die * 21 + i) =
          if i ∈ domSlices e then { s.slice (die * 21 + i) with mts := maxW (s.slice (die * 21 + i)).mts (s.maxHts die (domSlices old)) }
          else s.slice (die * 21 + i)))

/-- rst checks its destination word (0x17), then canonical form (0x14) and alignment (0x13); it waits while 511 messages to the VCN are
unacknowledged or an O message is; otherwise the RST message leaves with VALUE g[b], TIME g[a], the phase and O for rst.o, counted, and the
instruction completes; a VCN with V = 0 draws the NETERR record. Each fence completes when its condition holds and otherwise waits with nothing
changed. (R83, R85, R95, R97, R127, R129, R304) -/
def Obligations.RemoteStoresAndFences : Prop :=
  ∀ (s : State) (d a b : BitVec 5),
    let p := s.cur.p
    let k := s.cur.k
    let c := s.mine
    let w := s.gr d
    let va := s.gr a
    let v := (w.extractLsb' 0 10).toNat
    let entry := Map.get s.reloc 0 v
    let good := w.toNat < 2 ^ 13 ∧ canonical va.toNat = true ∧ va.toNat % 8 = 0
    (∀ i o, (i, o) ∈ [(Instr.rst d a b, false), (.rstO d a b, true)] →
      (2 ^ 13 ≤ w.toNat → Traps i s 0x17 s.me.pc 0) ∧
      (w.toNat < 2 ^ 13 → canonical va.toNat = false → Traps i s 0x14 s.me.pc va) ∧
      (w.toNat < 2 ^ 13 → canonical va.toNat = true → va.toNat % 8 ≠ 0 → Traps i s 0x13 s.me.pc va) ∧
      (good → HeldBack s p v → Waits i s) ∧
      (good → Accepts s p v → ∃ u m, exec i s = .next (u.modMe Scalar.advance) ∧ SentCounted s u p m ∧ m.dst.toNat = v ∧
          m.cls = (w.extractLsb' 10 3).setWidth 4 ∧ m.opc = 1 ∧ m.o = o ∧ m.value = s.gr b ∧ m.time = va ∧
          m.phase = c.ph.extractLsb' 0 24 ∧ m.src.toNat = c.vcnNum % 1024) ∧
      (good → relocV entry = false → c.eq.length < 256 → c.eqHeld = [] →
        ∃ t r, exec i s = .next t ∧ t.net = s.net ∧ t.me = s.me.advance ∧ t.mine.eq = c.eq ++ [r] ∧ r.kind = 8 ∧ r.w1 = BitVec.ofNat 64 v ∧
          t.zusil = s.zusil ++ [.copy c.vcnNum r])) ∧
    (let engines := ∀ e ∈ c.engines, (∀ q ∈ e.2.queue, q.k ≠ k) ∧ ∀ r ∈ e.2.runs, r.cmd.k = k → r.fin = true
     let acks := ∀ i, i < 4 → Map.get c.plane 0 i = 0
     let queued := s.enqueuesQuiet = true
     let posted := ∀ r ∈ s.reqs, r.p = p → r.k = k → winClass r.acc.win = 0
     ∀ i cond, (i = .fenceE ∧ (cond ↔ engines)) ∨ (i = .fenceA ∧ (cond ↔ acks)) ∨ (i = .fenceQ ∧ (cond ↔ queued)) ∨ (i = .fenceS ∧ (cond ↔ posted)) ∨
       (i = .fenceAll ∧ (cond ↔ engines ∧ acks ∧ queued ∧ posted)) → (cond → OnlyAdvances i s) ∧ (¬ cond → Waits i s)) ∧
    (s.net = [] → c.retry = [] → c.behind = [] → s.opens = [] → s.enqueuesQuiet = true)

/-- The checks of an engine command come in order: coll needs FEAT0.COLL and hprobe and hins FEAT0.HASH (trap 0x01); reserved bits of the command
word, or BIND naming a context with no configuration, trap with 0x17; a misaligned descriptor with 0x18; a load of the descriptor that fails with
its cause; a field beyond its command's limits or an overlap with 0x18. Then the command, with its descriptor copied, enters its engine's queue
behind the others; with eight commands there it waits, and what has been loaded and checked enters as it is once a place is free. The run table
of mrg and the member list of coll are read at issue as loads (log 56, DEDUCED). (R14, R131, R132, R133, R138, R139, R140, R142, R144, R147) -/
def Obligations.EngineIssue : Prop :=
  ∀ (s : State) (a b : BitVec 5),
    let p := s.cur.p
    let w := s.gr b
    let va := s.gr a
    let badWord := 2 ^ 22 ≤ w.toNat ∨ (w.getLsbD 16 = true ∧ s.mine.ctxKnown (w.extractLsb' 17 4).toNat = false)
    let enters := fun (u : State) (eng : Nat) (c : Cmd) (r : Ans) =>
      let g := Map.get u.mine.engines Engine.reset eng
      (8 ≤ g.queue.length + g.runs.length → r = .next (u.modMe fun y => { y with wait := some (.engine eng c) })) ∧
      (g.queue.length + g.runs.length < 8 →
        r = .next ((u.modMine fun x => { x with engines := Map.put x.engines eng { g with queue := g.queue ++ [c] } }).modMe fun y => { y with wait := none }.advance))
    let overlap := fun (x n y m : Nat) => 0 < n ∧ 0 < m ∧ x < y + m ∧ y < x + n
    let trap18 := fun (u : State) => (.next (u.trap u.cur.p u.cur.k 0x18 u.me.pc 0) : Ans)
    let fresh := ∀ eng c, s.me.wait ≠ some (.engine eng c)
    let first := fun (i : Instr) => fresh →
      (badWord → Traps i s 0x17 s.me.pc 0) ∧
      (¬ badWord → va.toNat % 8 ≠ 0 → Traps i s 0x18 s.me.pc 0) ∧
      ∀ u cause x, ¬ badWord → va.toNat % 8 = 0 → s.items p s.cur.k va.toNat 8 8 .load = (u, .bad cause x) →
        exec i s = .next (u.trap u.cur.p u.cur.k cause u.me.pc (BitVec.ofNat 64 x))
    (s.feat 4 = false → ∀ vt zd, Traps (.coll a b vt zd) s 0x01 s.me.pc (eaddrWord (.coll a b vt zd))) ∧
    (s.feat 5 = false → Traps (.hprobe a b) s 0x01 s.me.pc (eaddrWord (.hprobe a b)) ∧ Traps (.hins a b) s 0x01 s.me.pc (eaddrWord (.hins a b))) ∧
    first (.cpy a b) ∧ first (.gath a b) ∧ first (.scat a b) ∧ first (.mrg a b) ∧ (s.feat 5 = true → first (.hprobe a b) ∧ first (.hins a b)) ∧
    (s.feat 4 = true → ∀ vt zd, first (.coll a b vt zd)) ∧
    (∀ eng c, s.me.wait = some (.engine eng c) → enters s eng c (exec (.cpy a b) s) ∧ enters s eng c (exec (.gath a b) s) ∧ enters s eng c (exec (.scat a b) s) ∧
      enters s eng c (exec (.mrg a b) s) ∧ (s.feat 5 = true → enters s eng c (exec (.hprobe a b) s) ∧ enters s eng c (exec (.hins a b) s)) ∧
      (s.feat 4 = true → ∀ vt zd, enters s eng c (exec (.coll a b vt zd) s))) ∧
    ∀ u l, fresh → ¬ badWord → va.toNat % 8 = 0 → s.items p s.cur.k va.toNat 8 8 .load = (u, .ok l) →
      let n := fun i => ((nth l i).getD 0).toNat
      let c := fun op => (⟨op, s.cur.k, va, w, l, [], []⟩ : Cmd)
      let zeroFrom := fun i => ∀ x ∈ l.drop i, x = 0
      let row := n 3 / 2 ^ 32 % 2 ^ 16
      let count := n 3 % 2 ^ 32
      let rop := n 3 / 2 ^ 49 % 8
      let ix := if n 3 / 2 ^ 48 % 2 = 1 then 8 else 4
      let rows := n 3 < 2 ^ 52 ∧ zeroFrom 6 ∧ row ≠ 0 ∧ ¬ overlap (n 2) (count * row) (n 1) (count * ix) ∧ ¬ overlap (n 2) (count * row) (n 0) (n 5 * n 4)
      let cpyFits := n 2 < 2 ^ 32 ∧ zeroFrom 3 ∧ ¬ overlap (n 0) (n 2) (n 1) (n 2)
      let scatFits := rows ∧ ((rop = 0) ∨ (rop = 1 ∧ row % 4 = 0) ∨ (rop = 2 ∧ row % 2 = 0) ∨ (rop = 3 ∧ row % 2 = 0) ∨ (rop = 4 ∧ row % 4 = 0) ∨ (rop = 5 ∧ row % 8 = 0))
      let hash := n 1 < 2 ^ 16 ∧ n 1 / 2 ^ 5 % 8 = 0 ∧ 4 ≤ n 1 % 32 ∧ n 1 % 32 ≤ 28 ∧ n 0 % 16 = 0 ∧ zeroFrom 6
      let mrgFits := n 1 < 16 ∧ n 2 % 8 = 0 ∧ n 5 < 16 ∧ zeroFrom 6
      let runs := n 1 % 32 + 1
      let collFits := n 2 < 2 ^ 59 ∧ n 2 / 2 ^ 37 % 8 = 0 ∧ n 4 < 2 ^ 10 ∧ zeroFrom 5 ∧ 1 ≤ n 4 ∧ n 4 ≤ 576
      (∀ i op eng fits, (i = .cpy a b ∧ op = 0 ∧ eng = 0 ∧ (fits ↔ cpyFits)) ∨ (i = .gath a b ∧ op = 1 ∧ eng = 1 ∧ (fits ↔ rows ∧ rop = 0)) ∨
          (i = .scat a b ∧ op = 2 ∧ eng = 1 ∧ (fits ↔ scatFits)) ∨ (i = .hprobe a b ∧ op = 0x11 ∧ eng = 1 ∧ s.feat 5 = true ∧ (fits ↔ hash)) ∨
          (i = .hins a b ∧ op = 0x12 ∧ eng = 1 ∧ s.feat 5 = true ∧ (fits ↔ hash ∧ n 5 < 2)) →
        (¬ fits → exec i s = trap18 u) ∧ (fits → enters u eng (c op) (exec i s))) ∧
      (¬ mrgFits → exec (.mrg a b) s = trap18 u) ∧
      (∀ v m, mrgFits → u.items u.cur.p u.cur.k (n 0) 8 (2 * runs) .load = (v, .ok m) →
        let at_ := fun i => ((nth m i).getD 0).toNat
        let dir := if n 4 = 0 then 0 else 16 * n 3
        let clear := ¬ overlap (n 2) (32 * n 3) (n 4) dir ∧ ∀ i, i < runs → at_ (2 * i) % 8 = 0 ∧
          ¬ overlap (n 2) (32 * n 3) (at_ (2 * i)) (32 * at_ (2 * i + 1)) ∧ ¬ overlap (n 4) dir (at_ (2 * i)) (32 * at_ (2 * i + 1))
        (¬ clear → exec (.mrg a b) s = trap18 v) ∧
        (clear → enters v 2 { c 3 with extra := m.map BitVec.toNat
                                       front := if n 5 % 2 = 1 then (v.mine.frontier (n 5 / 2 % 8)).times else [] } (exec (.mrg a b) s))) ∧
      ∀ vt zd, s.feat 4 = true →
        (¬ collFits → exec (.coll a b vt zd) s = trap18 u) ∧
        ∀ v m, collFits → u.items u.cur.p u.cur.k (n 3) 2 (n 4) .load = (v, .ok m) →
          let held := fun x => relocV (Map.get v.reloc 0 x) = true ∧ relocRmt (Map.get v.reloc 0 x) = false
          let good := held (n 2 / 2 ^ 48 % 2 ^ 10) ∧ (∀ x ∈ m, held x.toNat) ∧ (n 2 / 2 ^ 58 % 2 = 1 ∨ ∃ x ∈ m, x.toNat = v.mine.vcnNum)
          (¬ good → exec (.coll a b vt zd) s = trap18 v) ∧
          (good → enters v 3 { c (8 + vt.toNat * 2 + zd.toNat) with extra := m.map BitVec.toNat } (exec (.coll a b vt zd) s))

/-- cfg, teard and kset are the control core's, inj the loader's and drn the storer's; elsewhere they trap with 0x01. cfg checks alignment, then the
header and every page of the image as configuration fetches, then the header's format, waits while four images are queued, and queues the image.
teard starts teardown of one context or of every context: one teardown token enters behind every token at each entry point, and a context that is
not active or already in teardown is left alone. kset gives a pending constant to the active elements it names. inj puts one token with value
g[d] and time t[a] behind the others at its port; drn takes the oldest one, with its VALUE, its low word and its TIME; both wait or trap with
0x17 as stated. Port a of mdrn takes no token from inj (log 83, DEDUCED); the trap of drn at a slot that does not drain comes before the wait for
a token (log 20, DEDUCED), and a token of another context or a teardown token is left to the element (log 52, DEDUCED); teardown enters its token
also behind a full buffer (log 41, DEDUCED). (R153, R169, R170, R171, R172, R173, R188, R201) -/
def Obligations.FabricCommands : Prop :=
  (∀ (s : State) (a : BitVec 5),
    let p := s.cur.p
    let k := s.cur.k
    let va := (s.gr a).toNat
    let trapped := fun (u : State) (cause x : Nat) => (.next (u.trap u.cur.p u.cur.k cause u.me.pc (BitVec.ofNat 64 x)) : Ans)
    (k ≠ .control → Traps (.cfg a) s 0x01 s.me.pc (eaddrWord (.cfg a)) ∧ Traps (.teard a) s 0x01 s.me.pc (eaddrWord (.teard a)) ∧
      ∀ d e, Traps (.kset d a e) s 0x01 s.me.pc (eaddrWord (.kset d a e)) ∧ Traps (.ksetAll d a) s 0x01 s.me.pc (eaddrWord (.ksetAll d a))) ∧
    (k = .control →
      (va % 32 ≠ 0 → Traps (.cfg a) s 0x17 s.me.pc 0) ∧
      (∀ u cause x, va % 32 = 0 → s.items p k va 8 4 .fetch = (u, .bad cause x) → exec (.cfg a) s = trapped u cause x) ∧
      (∀ u h, va % 32 = 0 → s.items p k va 8 4 .fetch = (u, .ok h) →
        (∀ v cause x r, u.checkSpan u.cur.p va (imgLen h) .fetch 1 anyClass = (v, .bad cause x r) → exec (.cfg a) s = trapped v cause x) ∧
        ∀ v l, u.checkSpan u.cur.p va (imgLen h) .fetch 1 anyClass = (v, .ok l) →
          (headerOk h = false → exec (.cfg a) s = trapped v 0x17 0) ∧
          (headerOk h = true → 4 ≤ v.mine.cfgq.length → exec (.cfg a) s = .next v) ∧
          (headerOk h = true → v.mine.cfgq.length < 4 →
            exec (.cfg a) s = .next ((v.modMine fun c => { c with cfgq := c.cfgq ++ [⟨va, h⟩] }).modMe Scalar.advance))) ∧
      (a ≠ 0 → 16 ≤ va → Traps (.teard a) s 0x17 s.me.pc 0) ∧
      (a ≠ 0 → va < 16 → exec (.teard a) s = .next ((s.teardown p va).modMe Scalar.advance)) ∧
      (exec (.teard 0) s = .next ((each (range 0 16) (fun n u => u.teardown p n) s).modMe Scalar.advance)) ∧
      (∀ (d : BitVec 3) (e : BitVec 6), ∃ u, exec (.kset d a e) s = .next (u.modMe Scalar.advance) ∧ OnlyElems s u p ∧ ∀ n, u.elem p n =
        if n = e.toNat ∧ (s.elem p n).act ≠ none then { s.elem p n with pendK := Map.put (s.elem p n).pendK d.toNat (s.gr a) } else s.elem p n) ∧
      ∀ d : BitVec 3, ∃ u, exec (.ksetAll d a) s = .next (u.modMe Scalar.advance) ∧ OnlyElems s u p ∧ ∀ n, u.elem p n =
        if n < 64 ∧ (s.elem p n).act ≠ none then { s.elem p n with pendK := Map.put (s.elem p n).pendK d.toNat (s.gr a) } else s.elem p n)) ∧
  (∀ (s : State) (p ctx : Nat),
    let inside := fun n => ∃ g, (s.elem p n).act = some g ∧ g.ctx.toNat = ctx
    ((∀ n, n < 64 → ¬ inside n) ∨ (∃ m ∈ (s.core p).tearing, m / 64 = ctx) → s.teardown p ctx = s) ∧
    (ctx < 16 → (∃ n, n < 64 ∧ inside n) → (∀ m ∈ (s.core p).tearing, m / 64 ≠ ctx) →
      OnlyCore s (s.teardown p ctx) p ∧ (∀ n, n < 64 → inside n → ctx * 64 + n ∈ ((s.teardown p ctx).core p).tearing) ∧
      ∀ n port, Map.get ((s.teardown p ctx).elem p n).bufs [] port = match (s.elem p n).act with
        | some g => if n < 64 ∧ g.ctx.toNat = ctx then Map.get (s.elem p n).bufs [] port ++
            (g.ents.filter fun q => q = port).map fun _ => { Token.blank g.ctx with m := true, l := true } else Map.get (s.elem p n).bufs [] port
        | none => Map.get (s.elem p n).bufs [] port)) ∧
  (∀ (s : State) (d : BitVec 5) (a row : BitVec 3) (slot : BitVec 5) (port : BitVec 1),
    let p := s.cur.p
    let i := Instr.inj d a row slot port
    let e := row.toNat * 8
    let b := slot.toNat * 2 + port.toNat
    let t : BitVec 13 := 1#1 ++ (row ++ 0#3) ++ slot ++ port
    let takes := fun (g : EImage) => ∃ w, g.word slot.toNat = some w ∧ takesPort w port.toNat = true ∧ ¬ (port = 0 ∧ 0x148 ≤ (opOf w).toNat ∧ (opOf w).toNat < 0x14C)
    (s.cur.k ≠ .loader → Traps i s 0x01 s.me.pc (eaddrWord i)) ∧
    (s.cur.k = .loader → (s.elem p e).act = none → Waits i s) ∧
    ∀ g, s.cur.k = .loader → (s.elem p e).act = some g →
      (¬ takes g → Traps i s 0x17 s.me.pc 0) ∧ (takes g → s.mine.free t = 0 → Waits i s) ∧
      (takes g → 0 < s.mine.free t →
        let k : Token := { value := s.gr d, time := s.me.tr a, diff := 1, path := 0, p := false, m := false, l := false, c := false, ctx := g.ctx }
        exec i s = .next ((s.modElem p e fun x => { x with
          bufs := Map.put x.bufs b (Map.get x.bufs [] b ++ [k]), arrived := x.arrived ++ [(b, k)] }).modMe Scalar.advance))) ∧
  ∀ (s : State) (d : BitVec 5) (a : BitVec 3) (elem : BitVec 6) (slot : BitVec 5) (port : BitVec 1),
    let p := s.cur.p
    let i := Instr.drn d a elem slot port
    let x := s.elem p elem.toNat
    let b := slot.toNat * 2 + port.toNat
    let sink := fun (g : EImage) => ∃ w, g.word slot.toNat = some w ∧ drains w = true
    (s.cur.k ≠ .storer → Traps i s 0x01 s.me.pc (eaddrWord i)) ∧
    (s.cur.k = .storer → x.act = none → Waits i s) ∧
    ∀ g, s.cur.k = .storer → x.act = some g →
      (¬ sink g → Traps i s 0x17 s.me.pc 0) ∧
      (sink g → Map.get x.bufs [] b = [] → Waits i s) ∧
      ∀ k r, sink g → Map.get x.bufs [] b = k :: r → ¬ (k.m = true ∧ k.l = true) → k.ctx = g.ctx →
        exec i s = .next ((s.modElem p elem.toNat fun y => { y with bufs := Map.put y.bufs b r }).modMe fun y =>
          (((y.setG d k.value).setG (d + 1) (k.low slot.toNat port.toNat)).setT a k.time).advance)

/-- snd traps with 0x17 on a reserved bit, waits under the source's limits, and otherwise sends a MSG with CONT, DIFF (1 when DX = 0), VALUE g[b],
TIME t[d], the phase and O for snd.o. clsm clears EN of its class and changes nothing else; clsu sets it, and a class that waits with a good
message in its queue enqueues its one firing (one whose messages all stand in a ring enqueues it as they are read out, log 64, DEDUCED); both
trap with 0x01 off the control core. qspill refuses a bad ring with 0x17, waits while both rings hold entries, and gives the class the new ring
behind the entries of the old one. wfe waits until the event queue holds a record; evget removes the oldest record into g[d] to g[d+3], or writes
four zeros. (R90, R99, R151, R152, R153, R174, R175, R176, R177) -/
def Obligations.MessageCommands : Prop :=
  (∀ (s : State) (d : BitVec 3) (a b : BitVec 5) (cls : BitVec 3) (i : Instr) (o : Bool), (i, o) ∈ [(Instr.snd d a b cls, false), (.sndO d a b cls, true)] →
    let p := s.cur.p
    let w := s.gr a
    let v := (w.extractLsb' 0 10).toNat
    (w.extractLsb' 22 9 ≠ 0 → Traps i s 0x17 s.me.pc 0) ∧
    (w.extractLsb' 22 9 = 0 → HeldBack s p v → Waits i s) ∧
    (w.extractLsb' 22 9 = 0 → Accepts s p v → ∃ u m, exec i s = .next (u.modMe Scalar.advance) ∧ SentCounted s u p m ∧ m.dst.toNat = v ∧
      m.cls = cls.setWidth 4 ∧ m.opc = 0 ∧ m.o = o ∧ m.p = false ∧ m.m = false ∧ m.l = false ∧ m.path = 0 ∧ m.cont = w.extractLsb' 10 12 ∧
      m.diff = (if w.getLsbD 31 then w.extractLsb' 32 32 else 1) ∧ m.value = s.gr b ∧ m.time = s.me.tr d ∧ m.phase = s.mine.ph.extractLsb' 0 24 ∧
      m.src.toNat = s.mine.vcnNum % 1024)) ∧
  (∀ (s : State) (cls : BitVec 4),
    let n := cls.toNat
    let h := s.mine.handler n
    let x := s.mine.inbound n
    let named := n < 8 ∨ n = 13
    let waiting := x.pend = true ∧ h.mode = false ∧ h.busy = false
    (s.cur.k ≠ .control ∨ ¬ named → Traps (.clsm cls) s 0x01 s.me.pc (eaddrWord (.clsm cls)) ∧ Traps (.clsu cls) s 0x01 s.me.pc (eaddrWord (.clsu cls))) ∧
    (s.cur.k = .control → named →
      exec (.clsm cls) s = .next ((s.modMine fun c => { c with handlers := Map.put c.handlers n { h with en := false } }).modMe Scalar.advance) ∧
      (¬ waiting → exec (.clsu cls) s = .next ((s.modMine fun c => { c with handlers := Map.put c.handlers n { h with en := true } }).modMe Scalar.advance)) ∧
      (waiting → x.q = [] → exec (.clsu cls) s = .next ((s.modMine fun c => { c with handlers := Map.put c.handlers n { h with en := true } }).modMe Scalar.advance)) ∧
      (∀ m r, waiting → x.q = m :: r → m.p = false → exec (.clsu cls) s = .next ((s.modMine fun c =>
        { c with handlers := Map.put c.handlers n { h with en := true, busy := true }
                 ctl := c.ctl.enqueue h.prio.toNat (.handler n none) }).modMe Scalar.advance)))) ∧
  (∀ (s : State) (a b : BitVec 5) (cls : BitVec 3),
    let n := cls.toNat
    let base := s.gr a
    let size := (s.gr b).toNat
    let x := s.mine.inbound n
    let refused := base.toNat % 32 ≠ 0 ∨ size = 0 ∨ 2 ^ 20 < size ∨ 2 ^ 64 < base.toNat + 32 * size
    let new : Inbound := { x with old := if 0 < ringCount x.cur then x.cur else x.old, cur := some ⟨base, size, 0, 0⟩ }
    (s.cur.k ≠ .control → Traps (.qspill a b cls) s 0x01 s.me.pc (eaddrWord (.qspill a b cls))) ∧
    (s.cur.k = .control → refused → Traps (.qspill a b cls) s 0x17 s.me.pc 0) ∧
    (s.cur.k = .control → ¬ refused → 0 < ringCount x.old → 0 < ringCount x.cur → Waits (.qspill a b cls) s) ∧
    (s.cur.k = .control → ¬ refused → (ringCount x.old = 0 ∨ ringCount x.cur = 0) →
      (x.st = .queue ∨ (x.st = .spill ∧ x.heldMsg = none) → exec (.qspill a b cls) s = .next ((s.modMine fun c => { c with inb := Map.put c.inb n new }).modMe Scalar.advance)) ∧
      (x.st = .held → exec (.qspill a b cls) s =
        .next (((s.modMine fun c => { c with inb := Map.put c.inb n { new with st := .spill } }).writeHeld s.cur.p n).modMe Scalar.advance)))) ∧
  ∀ (s : State) (d : BitVec 5),
    let q := s.mine.eq
    let four := fun (u : State) (r : Rec) => (.next (u.modMe fun x =>
      ((((x.setG d r.w0).setG (d + 1) r.w1).setG (d + 2) r.w2).setG (d + 3) r.w3).advance) : Ans)
    let idle := ∀ n, n ∈ [0, 1, 2, 3, 4, 5, 6, 7, 13] →
      ¬ ((s.mine.handler n).en = true ∧ (s.mine.inbound n).pend = true ∧ (s.mine.handler n).mode = false ∧ (s.mine.handler n).busy = false)
    (s.cur.k ≠ .control → Traps .wfe s 0x01 s.me.pc (eaddrWord .wfe)) ∧
    (s.cur.k = .control → q = [] → Waits .wfe s) ∧ (s.cur.k = .control → q ≠ [] → OnlyAdvances .wfe s) ∧
    (s.cur.k ≠ .control ∨ d = 0 ∨ 28 < d.toNat → Traps (.evget d) s 0x01 s.me.pc (eaddrWord (.evget d))) ∧
    (s.cur.k = .control → d ≠ 0 → d.toNat ≤ 28 →
      (q = [] → exec (.evget d) s = four s ⟨0, 0, 0, 0⟩) ∧
      (∀ r l, q = r :: l → s.mine.eqHeld = [] → s.mine.naks = [] → idle → exec (.evget d) s = four (s.modMine fun c => { c with eq := l }) r) ∧
      ∀ r l h g, q = r :: l → l.length < 256 → s.mine.eqHeld = h :: g → s.mine.naks = [] → idle →
        exec (.evget d) s = four (s.modMine fun c => { c with eq := l ++ [h], eqHeld := g }) r)

/-- dcnt and dset trap with 0x17 on a reserved bit or a VCN that no core here holds; otherwise they complete, applied at once on their own core and
sent as one CNTOP elsewhere. spawn and rng check alignment, the eight words as loads, and the descriptor's limits; spawn takes an entry of its
own core at once or sends the four parts of a SPWN, rng reserves an entry and asks the keeper. rng.c asks for indices of the running firing's
piece. cjoin and cleave change CMASK and tell the keeper. cbar sets AMASK, keeps the continuation, tells the keeper and ends the firing; it waits
where that end needs room for the record of a message that cannot be sent. On the keeper's own core the keeper acts at once; elsewhere one
message goes to VCN 0, with the subop in header bits [105:102] and the part in [107:106]. An enqueue waits at the interface behind a spawn of its
scalar core to the same VCN that has not been taken; enqueues take plane 0 (log 82, DESIGN CHOICE). (R86, R293, R294, R295, R296, R298, R304,
R306, R307, R309, R310, R313) -/
def Obligations.Spawning : Prop :=
  ∀ (s : State) (a b d : BitVec 5),
    let p := s.cur.p
    let k := s.cur.k
    let w := s.gr a
    let n := w.toNat % 64
    let trapped := fun (u : State) (cause x : Nat) => (.next (u.trap u.cur.p u.cur.k cause u.me.pc (BitVec.ofNat 64 x)) : Ans)
    let word := fun (l : List Word) (i : Nat) => ((nth l i).getD 0).toNat
    let asks := fun (u t : State) (sub : Nat) (value : Word) => ∃ m : Msg,
      (if sub < 4 then Enqueued u t p k 0 [m] else SentUncounted u t p (some k) m) ∧ m.dst = 0 ∧ m.cls = 13 ∧ m.opc = 8 ∧ m.plane = 0 ∧
      m.value = value ∧ m.time = 0 ∧ m.cont = BitVec.ofNat 12 sub ∧ m.src.toNat = s.mine.vcnNum % 1024 ∧ m.phase = s.mine.ph.extractLsb' 0 24
    let first := fun (i : Instr) =>
      (w.toNat % 8 ≠ 0 → Traps i s 0x18 s.me.pc 0) ∧
      ∀ u cause x, w.toNat % 8 = 0 → s.items p k w.toNat 8 8 .load = (u, .bad cause x) → exec i s = trapped u cause x
    let codeFits := fun (kind entry : Nat) => kind ≠ 3 ∧ entry < Config.storeBytes (Kind.ofCode kind) ∧ entry % 4 = 0
    (∀ i op v, (i = .dcnt a ∧ op = 0 ∧ v = 0) ∨ (i = .dset a b ∧ op = 1 ∧ v = s.gr b) →
      let good := w.toNat < 2 ^ 27 ∧ s.local (refVcn w) = true
      (¬ good → Traps i s 0x17 s.me.pc 0) ∧
      (good → ∃ t : State, exec i s = .next (t.modMe Scalar.advance) ∧ Counted s t p k op w v)) ∧
    (first (.spawn d a) ∧ ∀ u l, w.toNat % 8 = 0 → s.items p k w.toNat 8 8 .load = (u, .ok l) →
      let x := word l
      let v := x 0 / 2 ^ 32 % 2 ^ 10
      let rate := fun i => x i / 2 ^ 48
      let output := fun i => x i / 2 ^ 27 % 2 ^ 21 = 0 ∧ (rate i = 0 ∨ (1 ≤ x i / 2 ^ 24 % 8 ∧ x i / 2 ^ 24 % 8 ≤ 4))
      let fits := x 0 < 2 ^ 42 ∧ x 0 / 2 ^ 21 % 2 ^ 11 = 0 ∧ codeFits (x 0 / 2 ^ 18 % 4) (x 0 % 2 ^ 16) ∧ x 1 < 2 ^ 16 ∧ x 3 / 2 ^ 27 % 2 ^ 36 = 0 ∧
        x 7 = 0 ∧ (x 0 / 2 ^ 20 % 2 = 1 → x 3 = 0 ∧ x 4 ≠ 0 ∧ output 5 ∧ output 6) ∧ (x 0 / 2 ^ 20 % 2 = 0 → x 4 = 0 ∧ x 5 = 0 ∧ x 6 = 0)
      (¬ fits → exec (.spawn d a) s = trapped u 0x18 0) ∧
      (fits → u.local v = false → exec (.spawn d a) s = trapped u 0x17 0) ∧
      (fits → u.local v = true → v = u.mine.vcnNum → u.mine.takeSpawn l = none → exec (.spawn d a) s = .next u) ∧
      (∀ c e, fits → u.local v = true → v = u.mine.vcnNum → u.mine.takeSpawn l = some (c, e) → exec (.spawn d a) s =
        .next ((u.setCore u.cur.p c).modMe fun y => (if d = 0 then y else y.setG d (c.refTo e)).advance)) ∧
      (fits → u.local v = true → v ≠ u.mine.vcnNum → ∃ (t : State) (m : Msg), exec (.spawn d a) s = .next (t.modMe fun y =>
          if d = 0 then y.advance else { y with wait := some (.spawnRef d) }) ∧ m.dst.toNat = v ∧ m.cls = 13 ∧ m.opc = 5 ∧ m.plane = 0 ∧
        Enqueued u t u.cur.p u.cur.k v ([0, 1, 2, 3].map fun i => { m with
          value := (nth l (2 * i)).getD 0, time := (nth l (2 * i + 1)).getD 0, cont := BitVec.ofNat 12 (i + if d = 0 then 0 else 4) }))) ∧
    (first (.rng a) ∧ ∀ u l, w.toNat % 8 = 0 → s.items p k w.toNat 8 8 .load = (u, .ok l) →
      let x := word l
      let h := x 2 / 2 ^ 20 % 64
      let fits := x 0 ≤ x 1 ∧ x 1 - x 0 < 2 ^ 48 ∧ x 2 / 2 ^ 32 ≠ 0 ∧ x 2 / 2 ^ 26 % 64 = 0 ∧ codeFits (x 2 / 2 ^ 18 % 4) (x 2 % 2 ^ 16) ∧
        x 4 / 2 ^ 27 % 2 ^ 36 = 0 ∧ x 5 = 0 ∧ x 6 = 0 ∧ x 7 = 0
      (¬ fits → exec (.rng a) s = trapped u 0x18 0) ∧
      (fits → u.mine.cmask.getLsbD h = false → exec (.rng a) s = trapped u 0x17 0) ∧
      (fits → u.mine.cmask.getLsbD h = true → u.mine.freeEntry = none → exec (.rng a) s = .next u) ∧
      ∀ e, fits → u.mine.cmask.getLsbD h = true → u.mine.freeEntry = some e →
        let y := (u.modMine fun c => c.setTask e { Task.reset with
          gen := (c.task e).gen, kind := Kind.ofCode (x 2 / 2 ^ 18 % 4), prio := BitVec.ofNat 2 (x 2 / 2 ^ 16), entry := BitVec.ofNat 16 (x 2)
          arg := (nth l 3).getD 0, range := some (0, h), reserved := true }).modMe fun z => { z with wait := some (.rngOpen e) }
        (u.isKeeper p = true → 4 ≤ (u.rangesOf h).length → exec (.rng a) s = .next u) ∧
        (u.isKeeper p = true → (u.rangesOf h).length < 4 → ∃ t, y.keeperOpen u.mine.vcnNum k l = some t ∧ exec (.rng a) s = .next t) ∧
        (u.isKeeper p = false → u.local 0 = true → ∃ (t : State) (m : Msg), exec (.rng a) s = .next t ∧
          m.dst = 0 ∧ m.cls = 13 ∧ m.opc = 8 ∧ m.plane = 0 ∧ Enqueued y t p k 0 ([0, 1, 2, 3].map fun i => { m with
            value := (nth l (2 * i)).getD 0, time := (nth l (2 * i + 1)).getD 0, cont := BitVec.ofNat 12 (3 + 16 * i) }))) ∧
    (s.me.hnd = true → Traps (.rngC d) s 0x01 s.me.pc (eaddrWord (.rngC d))) ∧
    (s.me.hnd = false → (∀ e r, ¬ (s.me.run = some (.task e) ∧ (s.mine.task e).range = some r)) → Traps (.rngC d) s 0x17 s.me.pc 0) ∧
    (∀ e q h, s.me.hnd = false → s.me.run = some (.task e) → (s.mine.task e).range = some (q, h) →
      let y := s.modMe fun z => { z with wait := some (.rngClaim d) }
      (s.isKeeper p = true → exec (.rngC d) s = .next (y.keeperClaim s.mine.vcnNum k q)) ∧
      (s.isKeeper p = false → s.local 0 = true → ∃ t, exec (.rngC d) s = .next t ∧ asks y t 4 (q.setWidth 64))) ∧
    (2 ^ 6 ≤ w.toNat → Traps (.cjoin a) s 0x17 s.me.pc 0 ∧ Traps (.cleave a) s 0x17 s.me.pc 0) ∧
    (w.toNat < 2 ^ 6 →
      let join := s.modMine fun c => { c with cmask := c.cmask ||| (1#64 <<< n) }
      let leave := s.modMine fun c => { c with cmask := c.cmask &&& ~~~(1#64 <<< n) }
      (s.isKeeper p = true → exec (.cjoin a) s = .next ((join.keeperJoin s.mine.vcnNum n).modMe Scalar.advance) ∧
        exec (.cleave a) s = .next ((leave.keeperLeave s.mine.vcnNum n).modMe Scalar.advance)) ∧
      (s.isKeeper p = false → s.local 0 = true → (∃ t : State, exec (.cjoin a) s = .next (t.modMe Scalar.advance) ∧ asks join t 0 w) ∧
        ∃ t : State, exec (.cleave a) s = .next (t.modMe Scalar.advance) ∧ asks leave t 1 w)) ∧
    (s.me.hnd = true → Traps (.cbar a b) s 0x01 s.me.pc (eaddrWord (.cbar a b))) ∧
    (s.me.hnd = false →
      let y := s.gr b
      let good := w.toNat < 2 ^ 6 ∧ s.mine.cmask.getLsbD n = true ∧ s.mine.amask.getLsbD n = false ∧ y.toNat % 4 = 0 ∧ y.toNat / 2 ^ 18 % 2 ^ 14 = 0
      let arrived := s.modMine fun c => { c with
        amask := c.amask ||| (1#64 <<< n), bars := Map.put c.bars n ⟨k, y.extractLsb' 0 16, y.extractLsb' 16 2, y.extractLsb' 32 32, 0⟩ }
      (¬ good → Traps (.cbar a b) s 0x17 s.me.pc 0) ∧
      (good → s.isKeeper p = true →
        let u := arrived.keeperArrive s.mine.vcnNum n (s.mine.ph.extractLsb' 0 24)
        (u.endWaits p k = false → exec (.cbar a b) s = .next (u.endFiring p k)) ∧ (u.endWaits p k = true → Waits (.cbar a b) s)) ∧
      (good → s.isKeeper p = false → s.local 0 = true → s.endWaits p k = true → Waits (.cbar a b) s) ∧
      (good → s.isKeeper p = false → s.local 0 = true → s.endWaits p k = false →
        ∃ t : State, exec (.cbar a b) s = .next (t.endFiring p k) ∧ asks arrived t 2 w))

/-- fin ends the running firing: LPA and LPC are cleared and the scalar core is free; a one-shot task's entry becomes FREE with GEN + 1 and its DONE
is decremented, a range firing's too with its piece released, an actor's goes to IDLE or WAIT at its own level or the one prio has set, adds each
output's rate to the input count that its reference names, and is evaluated, a launch, future or barrier firing only ends. yield puts it at the
tail of level SR.PRIO. Both trap while HND = 1. prio sets SR.PRIO or traps with 0x17. tmigr needs FEAT0.TOURB and sets PIN and the request, or
traps with 0x17. ctxsv writes the record of the issuing scalar core, all pages checked first, and g[d] gets its bytes; ctxld checks a record
whole, with 0x06, and restores tvec, the trap registers, the live registers in order, PRIO, DBE, LPA and the pc from it. The entry of the safe-
point table is read as a load (log 30, DEDUCED), a firing that yields keeps its identity (log 40, DEDUCED), and fin waits only where R83 makes
it. (R160, R295, R300, R303, R312, R313, R348, R349, R350, R359) -/
def Obligations.FiringEnds : Prop :=
  ∀ (s : State) (a b d : BitVec 5),
    let p := s.cur.p
    let k := s.cur.k
    let x := s.me
    let ended := fun (y : Scalar) => { y with run := none, lpa := false, lpc := 0, wait := none }
    let free := s.modMe ended
    let freed := fun (e : Nat) => free.modMine fun c => c.setTask e { Task.reset with gen := (c.task e).gen + 1 }
    let trapped := fun (u : State) (cause y : Nat) => (.next (u.trap u.cur.p u.cur.k cause u.me.pc (BitVec.ofNat 64 y)) : Ans)
    let level := fun (own : BitVec 2) => if x.prioSet then x.prio else own
    let unheard := ((s.endRefs p k).filter fun r => !s.local (refVcn r)).length
    let room := unheard = 0 ∨ (s.mine.eqHeld = [] ∧ s.mine.eq.length + unheard ≤ 256)
    let produced := fun (u v : State) (w : Word) =>
      (w.toNat < 2 ^ 48 → v = u) ∧ (2 ^ 48 ≤ w.toNat → Counted u v p k 2 ((w.extractLsb' 0 27).setWidth 64) ((w.extractLsb' 48 16).setWidth 64))
    (x.hnd = true → Traps .fin s 0x01 x.pc (eaddrWord .fin) ∧ Traps .yield s 0x01 x.pc (eaddrWord .yield)) ∧
    (x.hnd = false → ¬ room → Waits .fin s) ∧
    (x.hnd = false →
      (x.run = none ∨ x.run = some .launch ∨ (∃ f, x.run = some (.future f)) ∨ (∃ n g, x.run = some (.barrier n g)) → exec .fin s = .next free) ∧
      (∀ e, x.run = some (.task e) →
        let t := s.mine.task e
        (t.range = none → t.actor = false → t.done = none → exec .fin s = .next (freed e)) ∧
        (∀ r, t.range = none → t.actor = false → t.done = some r → room → ∃ u, exec .fin s = .next u ∧ Counted (freed e) u p k 0 (r.setWidth 64) 0) ∧
        (∀ q n, t.range = some (q, n) → s.isKeeper p = true → exec .fin s = .next ((freed e).keeperRelease q)) ∧
        (∀ q n, t.range = some (q, n) → s.isKeeper p = false → s.local 0 = true → ∃ (u : State) (m : Msg), exec .fin s = .next u ∧
          SentUncounted (freed e) u p (some k) m ∧ m.dst = 0 ∧ m.cls = 13 ∧ m.opc = 8 ∧ m.plane = 0 ∧ m.cont = 6 ∧ m.value = q.setWidth 64) ∧
        (t.range = none → t.actor = true → room → ∃ u v : State, exec .fin s = .next (v.modMine fun c => c.evaluate e) ∧
          produced (free.modMine fun c => c.setTask e { t with st := if t.cnt = 0 then .idle else .wait, prio := level t.prio }) u t.out0 ∧ produced u v t.out1)) ∧
      (∀ cls m, x.run = some (.handler cls m) →
        exec .fin s = .next ((free.modMine fun c => c.setHandler cls { c.handler cls with busy := false }).kick 17 p cls)) ∧
      (∀ e, x.run = some (.task e) → exec .yield s = .next (free.modMine fun c => (c.setTask e { c.task e with
        st := .ready, prio := if (c.task e).actor then level (c.task e).prio else (c.task e).prio }).enqueue k x.prio.toNat (.task e))) ∧
      (∀ id, x.run = some id → (∀ e, id ≠ .task e) → exec .yield s = .next (free.modMine fun c => c.enqueue k x.prio.toNat id))) ∧
    (4 ≤ (s.gr a).toNat → Traps (.prio a) s 0x17 x.pc 0) ∧
    ((s.gr a).toNat < 4 → exec (.prio a) s = .next (s.modMe fun y => { y with prio := (s.gr a).extractLsb' 0 2, prioSet := true }.advance)) ∧
    (s.feat 7 = false → Traps (.tmigr a) s 0x01 x.pc (eaddrWord (.tmigr a))) ∧
    (s.feat 7 = true →
      let w := (s.gr a).toNat
      let v := w % 2 ^ 10
      let pin := w / 2 ^ 10 % 2
      let good := w < 2 ^ 12 ∧ (w / 2 ^ 11 = 0 → v = 0) ∧
        (w / 2 ^ 11 = 1 → pin = 0 ∧ v ≠ s.mine.vcnNum ∧ s.local v = true ∧ s.posOf v / 64 = p / 64)
      (¬ good → Traps (.tmigr a) s 0x17 x.pc 0) ∧
      (good → exec (.tmigr a) s = .next ((s.modMine fun c => { c with sw := { c.sw with
        pin := decide (pin = 1), req := if w / 2 ^ 11 = 1 then some (v, 0) else none } }).modMe Scalar.advance))) ∧
    (let va := (s.gr a).toNat
     let n := (s.gr b).toNat
     (va % 8 ≠ 0 ∨ x.nsp ≤ n → Traps (.ctxsv d a b) s 0x17 x.pc 0) ∧
     (∀ u cause y, va % 8 = 0 → n < x.nsp → s.items p k (x.sptab.toNat + 16 * n) 8 1 .load = (u, .bad cause y) →
       exec (.ctxsv d a b) s = trapped u cause y) ∧
     ∀ u live, va % 8 = 0 → n < x.nsp → s.items p k (x.sptab.toNat + 16 * n) 8 1 .load = (u, .ok [live]) →
       let on := fun i => live.getLsbD i
       let c0 : Word := 0x5C#8 ++ BitVec.ofNat 8 (3 + 4 * bit x.hnd + popcount (live.toNat / 2) 42 + 2 * bit (on 43)) ++ BitVec.ofNat 2 u.cur.k.code ++
         BitVec.ofBool x.hnd ++ BitVec.ofBool x.lpa ++ x.prio ++ BitVec.ofBool x.dbe ++ 0#9 ++ BitVec.ofNat 16 n ++ (x.pc + 4).setWidth 16
       let l := [c0, live, x.tvec] ++ (if x.hnd then [x.epc, x.ecause, x.eaddr, x.ssr] else []) ++
         (((List.range 31).filter fun i => on (i + 1)).map fun i => Map.get x.g 0 (i + 1)) ++
         (((List.range 8).filter fun i => on (32 + i)).map fun i => Map.get x.t 0 i) ++
         (if on 40 then [x.lpc] else []) ++ (if on 41 then [x.lps] else []) ++ (if on 42 then [x.lpe] else []) ++ (if on 43 then [x.slps, x.slpe] else [])
       (d ≠ 0 → on d.toNat = true → exec (.ctxsv d a b) s = trapped u 0x17 0) ∧
       (d = 0 ∨ on d.toNat = false →
         (∀ v cause y r, u.checkSpan u.cur.p va (8 * l.length) .store 1 anyClass = (v, .bad cause y r) → exec (.ctxsv d a b) s = trapped v cause y) ∧
         ∀ v parts, u.checkSpan u.cur.p va (8 * l.length) .store 1 anyClass = (v, .ok parts) → exec (.ctxsv d a b) s =
           .next ((v.storeOn v.cur.p v.cur.k parts (packWords l) (wordOf (.ctxsv d a b))).modMe fun y =>
             (y.setG d (BitVec.ofNat 64 (8 * l.length))).advance))) ∧
    (x.hnd = true → Traps (.ctxld a) s 0x01 x.pc (eaddrWord (.ctxld a))) ∧
    (x.hnd = false →
      let va := (s.gr a).toNat
      (∀ u cause y, s.items p k va 8 2 .load = (u, .bad cause y) → exec (.ctxld a) s = trapped u cause y) ∧
      ∀ u c0 c1, s.items p k va 8 2 .load = (u, .ok [c0, c1]) →
        let nw := 3 + 4 * bit (c0.getLsbD 45) + popcount (c1.toNat / 2) 42 + 2 * bit (c1.getLsbD 43)
        let good := va % 8 = 0 ∧ c0.extractLsb' 56 8 = 0x5C ∧ (c0.extractLsb' 46 2).toNat = u.cur.k.code ∧ c0.extractLsb' 32 9 = 0 ∧ c1.getLsbD 0 = false ∧
          c1.extractLsb' 44 20 = 0 ∧ (c0.extractLsb' 48 8).toNat = nw ∧ c0.toNat % 2 ^ 16 < Config.storeBytes u.cur.k ∧ c0.toNat % 4 = 0
        (¬ good → exec (.ctxld a) s = trapped u 0x06 va) ∧
        (∀ v cause y, good → u.items u.cur.p u.cur.k va 8 nw .load = (v, .bad cause y) → exec (.ctxld a) s = trapped v cause y) ∧
        ∀ v l, good → u.items u.cur.p u.cur.k va 8 nw .load = (v, .ok l) →
          let live := l.drop (if c0.getLsbD 45 then 7 else 3)
          let times := (live.drop (popcount (c1.toNat / 2) 31)).take (popcount (c1.toNat / 2 ^ 32) 8)
          ((∃ t ∈ times, timeOk t = false) → exec (.ctxld a) s = trapped v 0x06 va) ∧
          ((∀ t ∈ times, timeOk t = true) →
            let y := v.me
            let at_ := fun i => (nth l i).getD 0
            let w := fun i => (nth live i).getD 0
            let on := fun i => c1.getLsbD i
            let h := c0.getLsbD 45
            let before := fun n => popcount (c1.toNat / 2) n
            ∃ z : Scalar, exec (.ctxld a) s =
                .next ((if v.cur.k = .control then v.modMine fun c => { c with resumeWait := false } else v).modMe fun _ => z) ∧
              z = { y with
                g := z.g, t := z.t, tvec := at_ 2 &&& ~~~3#64, hnd := h || y.hnd, epc := if h then at_ 3 else y.epc
                ecause := if h then at_ 4 &&& 0xFF else y.ecause, eaddr := if h then at_ 5 else y.eaddr, ssr := if h then at_ 6 else y.ssr
                lpc := if on 40 then w (before 39) else y.lpc, lps := if on 41 then w (before 40) else y.lps
                lpe := if on 42 then w (before 41) else y.lpe, slps := if on 43 then w (before 42) else y.slps
                slpe := if on 43 then w (before 42 + 1) else y.slpe, lpa := on 40 && c0.getLsbD 44, prio := c0.extractLsb' 42 2
                dbe := c0.getLsbD 41, spcount := 0, pc := (c0.extractLsb' 0 16).setWidth 64 } ∧
              (∀ r : BitVec 5, z.gr r = if r ≠ 0 ∧ on r.toNat = true then w (before (r.toNat - 1)) else y.gr r) ∧
              ∀ i : BitVec 3, z.tr i = if on (32 + i.toNat) = true then w (before 31 + popcount (c1.toNat / 2 ^ 32) i.toNat) else y.tr i))

/-- A change traps with 0x17, with nothing entered, when the frontier is empty, a time has another depth than frontier word 0, t[a] is complete, an
EPOCH is 2^14 or more above the frontier's smallest, or the instruction's own check fails. Otherwise it enters the scope's progress buffer in one
step and completes, or waits from when it finds 64 other entries until the buffer has been sent; a stkdn of one time enters nothing. Nothing else
changes. (R316, R329) -/
def Obligations.Stakes : Prop :=
  ∀ (s : State) (a b scope : BitVec 3) (g : BitVec 5),
    let n := scope.toNat
    let ta := s.me.tr a
    let tb := s.me.tr b
    let f := (s.mine.frontier n).times
    let refused := fun (ts : List Word) => f = [] ∨ (∃ t ∈ ts, depthOf t ≠ depthOf (f.headD 0) ∨ minEpoch f + 2 ^ 14 ≤ epochOf t) ∨ ∀ x ∈ f, tLe x ta = false
    let w := s.gr g
    let md : Word := (w.extractLsb' 32 32).signExtend 64
    let sc : Word := (w.extractLsb' 0 32).setWidth 64
    let buf := s.mine.progress n
    let stopped := n ∈ s.mine.progStop
    let enters := fun (i : Instr) (full : Prop) (l : List PEnt) (sat : Nat) =>
      (stopped ∨ full → exec i s = .next (s.modMine fun c => { c with progStop := insertNat c.progStop n })) ∧
      (¬ stopped → ¬ full → exec i s = .next ((s.modMine fun c => { c with prog := Map.put c.prog n ⟨l, sat⟩ }).modMe Scalar.advance))
    let plus := fun (x y : Nat) => min (x + y) 0xFFFFFFFF
    let one := fun (i : Instr) (x : List PEnt × Nat) => enters i (64 < x.1.length) x.1 (plus buf.sat x.2)
    (refused [ta] ∨ w = 0 → Traps (.stkget a g scope) s 0x17 s.me.pc 0 ∧ Traps (.stkdrop a g scope) s 0x17 s.me.pc 0) ∧
    (¬ refused [ta] → w ≠ 0 → one (.stkget a g scope) (addChange buf.ents ta sc md) ∧ one (.stkdrop a g scope) (addChange buf.ents ta (0 - sc) md)) ∧
    (refused [ta, tb] ∨ tLe ta tb = false → Traps (.stkdn a b scope) s 0x17 s.me.pc 0) ∧
    (¬ refused [ta, tb] → tLe ta tb = true → ta = tb → OnlyAdvances (.stkdn a b scope) s) ∧
    (¬ refused [ta, tb] → tLe ta tb = true → ta ≠ tb →
      let x := addChange buf.ents ta (BitVec.allOnes 64) 0
      let y := addChange x.1 tb 1 0
      enters (.stkdn a b scope) (64 < x.1.length ∨ 64 < y.1.length) y.1 (plus (plus buf.sat x.2) y.2))

/-- For the first match in key order of a slot that may fire, with no poison in it and room on its targets, each scalar operation fires: it emits its
result with the match's tag, DIFF, L and C on T0 and T1 (cvt on T0 only; cvts also A unchanged on T1 when the conversion overflows), the tag
operation applied on valid targets; where that fails it emits poison and writes no register. i32, n32 and i64 arithmetic wraps; floating results
are the exact result rounded once under rm. add to xor, shl to ext, pack and mov write e[AI] when SA selects it; mad writes e7; the flushing ones
clear it after a match with L = 1; one take of the LFSR goes to each operation in mode SR, a failing one too (log 42, DEDUCED). (R184, R207,
R211, R212, R213, R219, R220, R223, R225, R226, R227, R228) -/
def Obligations.ElementScalarOps : Prop :=
  ∀ (s : State) (w : EW) (n : Nat) (m : Match) (rm : BitVec 3), Fireable s n m → m.poison = none →
    let f := s.fx w m
    let ty := w.ty.toNat
    let x := f.rawA.setWidth 32
    let y := f.rawB.setWidth 32
    let X := f.rawA
    let Y := f.rawB
    let F := fmtOf ty
    let a := X.toNat % 2 ^ widthOf ty
    let b := Y.toNat % 2 ^ widthOf ty
    let take := f.x.lfsr.toNat
    let isL := m.flag Token.l
    let took := fun (sr : Bool) (z : Elem) => if sr then { z with lfsr := lfsrNext z.lfsr } else z
    let ints := fun (u : BitVec 32) (v : Word) => if ty = 0 then u.signExtend 64 else if ty = 1 then u.setWidth 64 else v
    let flt := fun (v : FVal) => BitVec.ofNat 64 (F.rnd rm.toNat take v % 2 ^ widthOf ty)
    let emits := fun (i : Instr) (v : Word) (regs : Elem → Elem) => FiresTo i s w n m [(0, f.token v), (1, f.token v)] regs
    let plain := fun (i : Instr) (v : Word) => emits i v id
    let back := fun (flush sr : Bool) (i : Instr) (v : Word) => emits i v fun z =>
      took sr (if w.sa = 1 then { z with e := Map.put z.e w.ai.toNat (if flush && isL then 0 else v) } else z)
    let mad := fun (v : Word) => emits (.eMad rm w) v fun z => took (rm = 4) { z with e := Map.put z.e 7 (if isL then 0 else v) }
    let less := fun (p q : BitVec 32) (P Q : Word) => if ty = 0 then p.slt q else if ty = 1 then p.ult q else P.slt Q
    let srcTy := (w.imm.extractLsb' 0 3).toNat
    let conv := fun (r t v : Nat) => convert srcTy ty r t (v % 2 ^ widthOf srcTy)
    let typed := fun (v : Nat) => if ty = 0 then (BitVec.ofNat 32 v).signExtend 64 else BitVec.ofNat 64 (v % 2 ^ widthOf ty)
    (ty < 3 →
      back true (rm = 4) (.eAdd rm w) (ints (x + y) (X + Y)) ∧ back true (rm = 4) (.eSub rm w) (ints (x - y) (X - Y)) ∧
      back true (rm = 4) (.eMul rm w) (ints (x * y) (X * Y)) ∧
      mad (ints (x * y + (f.x.ereg 7).setWidth 32) (X * Y + f.x.ereg 7)) ∧
      back true false (.eMin w) (if less y x Y X then ints y Y else ints x X) ∧ back true false (.eMax w) (if less y x Y X then ints x X else ints y Y) ∧
      plain (.eAbs w) (if ty ≠ 1 ∧ less x 0 X 0 = true then ints (-x) (-X) else ints x X) ∧ plain (.eNeg w) (ints (-x) (-X)) ∧
      back true false (.eAnd w) (ints (x &&& y) (X &&& Y)) ∧ back true false (.eOr w) (ints (x ||| y) (X ||| Y)) ∧
      back true false (.eXor w) (ints (x ^^^ y) (X ^^^ Y)) ∧
      back false false (.eShl w) (ints (x <<< (Y.toNat % 32)) (X <<< (Y.toNat % 64))) ∧
      back false false (.eShr w) (ints (x >>> (Y.toNat % 32)) (X >>> (Y.toNat % 64))) ∧
      back false false (.eSar w) (ints (x.sshiftRight (Y.toNat % 32)) (X.sshiftRight (Y.toNat % 64))) ∧
      (∃ z, plain (.eClz w) (BitVec.ofNat 64 z) ∧ z ≤ widthOf ty ∧ a < 2 ^ (widthOf ty - z) ∧ (z < widthOf ty → 2 ^ (widthOf ty - z - 1) ≤ a)) ∧
      (let wd := if Y.toNat / 2 ^ 6 % 2 ^ 6 = 0 then 64 else Y.toNat / 2 ^ 6 % 2 ^ 6
       let fld := BitVec.ofNat wd (a / 2 ^ (Y.toNat % 64))
       back false false (.eExt w) (if ty = 1 then BitVec.ofNat 64 fld.toNat else if ty = 0 then ((fld.signExtend 64).setWidth 32).signExtend 64 else fld.signExtend 64)) ∧
      plain (.eCeq w) (if a = b then 1 else 0) ∧ plain (.eCne w) (if a = b then 0 else 1) ∧ plain (.eClt w) (if less x y X Y then 1 else 0) ∧
      plain (.eCle w) (if less y x Y X then 0 else 1)) ∧
    (3 ≤ ty →
      let va := F.read a
      let vb := F.read b
      back true (rm = 4) (.eAdd rm w) (flt (va.add rm.toNat vb)) ∧ back true (rm = 4) (.eSub rm w) (flt (va.add rm.toNat vb.neg)) ∧
      back true (rm = 4) (.eMul rm w) (flt (va.mul vb)) ∧ mad (flt ((va.mul vb).add rm.toNat (F.read ((f.x.ereg 7).toNat % 2 ^ widthOf ty)))) ∧
      back true false (.eMin w) (typed (F.min a b)) ∧ back true false (.eMax w) (typed (F.max a b)) ∧
      plain (.eAbs w) (typed (if va = .nan then F.nan else a % F.signBit)) ∧
      plain (.eNeg w) (typed (if va = .nan then F.nan else if a.testBit (F.eb + F.mb) then a % F.signBit else a % F.signBit + F.signBit)) ∧
      plain (.eCeq w) (if va.eq vb then 1 else 0) ∧ plain (.eCne w) (if va.eq vb then 0 else 1) ∧ plain (.eClt w) (if va.lt vb then 1 else 0) ∧
      plain (.eCle w) (if va.eq vb || va.lt vb then 1 else 0)) ∧
    plain (.eSel w) (if Y ≠ 0 then typed a else 0) ∧ back false false (.eMov w) (typed (if w.sb = 7 then a else b)) ∧
    FiresTo (.eCvt rm w) s w n m [(0, f.token (typed (conv rm.toNat take X.toNat).1))] (took (rm = 4)) ∧
    (let r := conv rm.toNat take X.toNat
     FiresTo (.eCvts rm w) s w n m (if r.2 then [(0, f.token (typed r.1)), (1, f.token X)] else [(0, f.token (typed r.1))]) (took (rm = 4))) ∧
    back true (rm = 4) (.ePack rm w) ((BitVec.ofNat 64 (conv rm.toNat take Y.toNat).1 <<< (64 - widthOf ty)) ||| (X >>> widthOf ty)) ∧
    plain (.eUnpack w) (typed (conv 0 0 (X.toNat / 2 ^ (widthOf srcTy * (Y.toNat % (64 / widthOf srcTy))))).1)

/-- Operand A names the destination register, directly or by a port token's reference; a reference with a code that is none, or an acc register
outside f32, fails with cause 0x25, poison on every target and nothing written but the takes of the LFSR in mode SR (log 42, DEDUCED). Otherwise
every value of every lane of the destination is the operation's, on the values that the lanes held before: sums, differences, products, fused
products with v7, minima, maxima, conversions with zeros above the source's count, a scalar or one lane in every lane (vbc), or one lane replaced
(vins). vadd to vmax flush the register after a match with L = 1. Each emits the register's code; vred emits the sum of R218 over the 32 or 64
values in pairs, pairs of pairs and so on, each node rounded with the take of the lane where its right half begins; vext emits one lane; neither
writes a register. (R34, R207, R212, R213, R214, R218, R220, R222, R223, R229, R230, R231) -/
def Obligations.ElementVectorOps : Prop :=
  ∀ (s : State) (w : EW) (n : Nat) (m : Match) (rm : BitVec 3), Fireable s n m → m.poison = none →
    let f := s.fx w m
    let ty := w.ty.toNat
    let srcTy := (w.imm.extractLsb' 0 3).toNat
    let F := fmtOf ty
    let per := fun (t : Nat) => 32 / min 32 (widthOf t)
    let isL := m.flag Token.l
    let took := fun (sr : Bool) (z : Elem) => if sr then { z with lfsr := (lfsrTakes 32 z.lfsr).2 } else z
    let take := fun (l : Nat) => (nth (lfsrTakes 32 f.x.lfsr).1 l).getD 0
    let ok := fun (code : Nat) => code < 8 ∨ (code < 12 ∧ ty = 3)
    let names := fun (sel idx : BitVec 3) (tok : Option Token) (code : Nat) => (sel = 4 ∧ code = idx.toNat) ∨ (sel = 5 ∧ code = 8 + idx.toNat ∧ ok code) ∨
      (sel = 0 ∧ ∃ t, tok = some t ∧ code = t.value.toNat ∧ ok code)
    let bad := fun (sel idx : BitVec 3) (tok : Option Token) => (sel = 5 ∧ ¬ ok (8 + idx.toNat)) ∨ (sel = 0 ∧ ∃ t, tok = some t ∧ ¬ ok t.value.toNat)
    let reg := fun (t code l j : Nat) => laneValue t (laneOf (f.x.vreg code) l) j
    let operandB := fun (t : Nat) (g : Nat → Nat → Nat) => (∃ c, names w.sb w.bi m.b c ∧ ∀ l j, g l j = reg t c l j) ∨
      (w.sb ≠ 0 ∧ w.sb ≠ 4 ∧ w.sb ≠ 5 ∧ ∀ l j, g l j = (f.source t w.sb w.bi m.b).toNat % 2 ^ widthOf t)
    let writes := fun (i : Instr) (flush sr : Bool) (code : Nat) (g : Nat → Nat → Nat) => ∃ v : Vec,
      FiresTo i s w n m [(0, f.token (BitVec.ofNat 64 code)), (1, f.token (BitVec.ofNat 64 code))]
        (fun z => took sr (z.setVreg code (if flush && isL then 0 else v))) ∧
      ∀ l j, l < 32 → j < per ty → LaneIs v ty l j (g l j % 2 ^ widthOf ty)
    let word := fun (v : Nat) => if ty = 0 then (BitVec.ofNat 32 v).signExtend 64 else BitVec.ofNat 64 (v % 2 ^ widthOf ty)
    let fails := fun (sr : Bool) (i : Instr) => FailsTo i s w n m 0x25 [0, 1] (took sr)
    (bad w.sa w.ai m.a ∨ bad w.sb w.bi m.b →
      (∀ i ∈ [Instr.eVadd rm w, .eVsub rm w, .eVmul rm w, .eVfma rm w, .eVcvt rm w], fails (rm = 4) i) ∧ fails false (.eVmin w) ∧ fails false (.eVmax w)) ∧
    (bad w.sa w.ai m.a → fails (rm = 4) (.eVred rm w) ∧ fails false (.eVext w) ∧ fails false (.eVins w) ∧ fails false (.eVbc w)) ∧
    (w.sb = 5 → ¬ ok (8 + w.bi.toNat) → fails false (.eVbc w)) ∧
    (∀ code, names w.sa w.ai m.a code →
      (∀ g, operandB ty g →
        let a := reg ty code
        (ty = 0 →
          let u := fun (x : Nat) => BitVec.ofNat 32 x
          writes (.eVadd rm w) true (rm = 4) code (fun l j => (u (a l j) + u (g l j)).toNat) ∧
          writes (.eVsub rm w) true (rm = 4) code (fun l j => (u (a l j) - u (g l j)).toNat) ∧
          writes (.eVmul rm w) true (rm = 4) code (fun l j => (u (a l j) * u (g l j)).toNat) ∧
          writes (.eVfma rm w) true (rm = 4) code (fun l j => (u (a l j) + u (g l j) * u (reg ty 7 l j)).toNat) ∧
          writes (.eVmin w) true false code (fun l j => if (u (g l j)).slt (u (a l j)) then g l j else a l j) ∧
          writes (.eVmax w) true false code (fun l j => if (u (g l j)).slt (u (a l j)) then a l j else g l j)) ∧
        (3 ≤ ty →
          let x := fun l j => F.read (a l j)
          let y := fun l j => F.read (g l j)
          writes (.eVadd rm w) true (rm = 4) code (fun l j => F.rnd rm.toNat (take l) ((x l j).add rm.toNat (y l j))) ∧
          writes (.eVsub rm w) true (rm = 4) code (fun l j => F.rnd rm.toNat (take l) ((x l j).add rm.toNat (y l j).neg)) ∧
          writes (.eVmul rm w) true (rm = 4) code (fun l j => F.rnd rm.toNat (take l) ((x l j).mul (y l j))) ∧
          writes (.eVfma rm w) true (rm = 4) code (fun l j =>
            F.rnd rm.toNat (take l) (((y l j).mul (F.read (reg ty 7 l j))).add rm.toNat (x l j))) ∧
          writes (.eVmin w) true false code (fun l j => F.min (a l j) (g l j)) ∧ writes (.eVmax w) true false code (fun l j => F.max (a l j) (g l j)))) ∧
      (∀ g, ty ≠ 2 → srcTy ≠ 2 → operandB srcTy g → writes (.eVcvt rm w) false (rm = 4) code (fun l j =>
        if j < per srcTy then (convert srcTy ty rm.toNat (take l) (g l j)).1 else 0)) ∧
      (widthOf ty = 32 →
        let lane := (w.imm.extractLsb' 0 5).toNat
        let b := f.rawB.toNat % 2 ^ 32
        (w.sb ≠ 4 → w.sb ≠ 5 → writes (.eVbc w) false false code (fun _ _ => b)) ∧
        (∀ c, w.sb = 4 ∨ w.sb = 5 → names w.sb w.bi m.b c → writes (.eVbc w) false false code (fun _ _ => laneOf (f.x.vreg c) lane)) ∧
        writes (.eVins w) false false code (fun l _ => if l = lane then b else laneOf (f.x.vreg code) l) ∧
        FiresTo (.eVext w) s w n m [(0, f.token (word (laneOf (f.x.vreg code) ((lane + if w.sb = 7 then 0 else f.rawB.toNat % 32) % 32)))),
          (1, f.token (word (laneOf (f.x.vreg code) ((lane + if w.sb = 7 then 0 else f.rawB.toNat % 32) % 32))))] id) ∧
      ∀ sum : Nat → Nat → Nat,
        (∀ i, sum 0 i = reg ty code (i / per ty) (i % per ty)) →
        (∀ d i, sum (d + 1) i =
          let x := sum d (2 * i)
          let y := sum d (2 * i + 1)
          let right := (2 * i + 1) * 2 ^ d / per ty
          if ty = 0 then (BitVec.ofNat 32 x + BitVec.ofNat 32 y).toNat
          else F.rnd rm.toNat (take right) ((F.read x).add rm.toNat (F.read y))) →
        per ty ≤ 2 → ty = 0 ∨ 3 ≤ ty →
        let v := word (sum (if per ty = 1 then 5 else 6) 0)
        FiresTo (.eVred rm w) s w n m [(0, f.token v), (1, f.token v)] (took (rm = 4)))

/-- steer puts A, at the bits of its type, on T0 with bit 1 pushed when B is not 0, else on T1 with bit 0, and fails with cause 0x23 on that target
at LEN = 7. merge pops the path of a token whose top bit belongs to its port and emits it on T0, else fails with 0x24. gate puts A so on T0 or
T1. tjn joins the tag time with B and multiplies the DIFFs, with the overflow token on T1 when the product saturates. tle, tgt, tadv and tst
compute on times and frontiers; a malformed time fails with 0x22 and a selector out of range with 0x26, the lower of the two when both hold.
(R34, R184, R220, R222, R224, R232, R233, R234, R235, R236, R237) -/
def Obligations.ElementSteering : Prop :=
  ∀ (s : State) (w : EW) (n : Nat) (m : Match), Fireable s n m → m.poison = none →
    let f := s.fx w m
    let A := f.rawA
    let B := f.rawB
    let tag := m.tag
    let len := (tag.path.extractLsb' 8 3).toNat
    let emits := fun (i : Instr) (l : List (Nat × Token)) => FiresTo i s w n m l id
    let both := fun (i : Instr) (v : Word) => emits i [(0, f.token v), (1, f.token v)]
    let fails := fun (i : Instr) (c : Nat) (l : List Nat) => FailsTo i s w n m c l id
    let a := writeTy w.ty.toNat (readTy w.ty.toNat A.toNat)
    let arm := if B = 0 then 1 else 0
    let F := fun (k : Nat) => (Map.get f.fnt ⟨[], 0⟩ k).times
    (len = 7 → fails (.eSteer w) 0x23 [arm]) ∧
    (len ≠ 7 → emits (.eSteer w) [(arm, { f.token a with path := BitVec.ofNat 3 (len + 1) ++
      (if B = 0 then tag.path.extractLsb' 0 8 else tag.path.extractLsb' 0 8 ||| 1#8 <<< len) })]) ∧
    (∀ k port, (port = true ∧ m.a = some k) ∨ (port = false ∧ m.a = none ∧ m.b = some k) →
      let top := k.path.getLsbD ((k.path.extractLsb' 8 3).toNat - 1)
      let klen := (k.path.extractLsb' 8 3).toNat
      (klen = 0 ∨ top ≠ port → fails (.eMerge w) 0x24 [0, 1]) ∧
      (klen ≠ 0 → top = port → emits (.eMerge w) [(0, { f.token k.value with path := pathPop k.path })])) ∧
    emits (.eGate w) [(arm, f.token a)] ∧
    (timeOk B = false → fails (.eTjn w) 0x22 [0, 1]) ∧
    (timeOk B = true →
      let p := f.diffA * f.diffB
      let t := tJoin tag.time B
      (p = satInt p 32 → emits (.eTjn w) [(0, { f.token A with time := t, diff := BitVec.ofInt 32 p })]) ∧
      (p ≠ satInt p 32 → emits (.eTjn w) [(0, { f.token A with time := t, diff := BitVec.ofInt 32 (satInt p 32) }),
        (1, { f.token (BitVec.ofInt 64 p) with time := t, diff := 0 })])) ∧
    (timeOk A = false ∨ timeOk B = false → fails (.eTle w) 0x22 [0, 1]) ∧
    (timeOk A = true → timeOk B = true → both (.eTle w) (if tLe A B then 1 else 0)) ∧
    (timeOk A = false → fails (.eTgt w) 0x22 [0, 1] ∧ fails (.eTadv w) 0x22 [0, 1]) ∧
    (timeOk A = true →
      (5 < B.toNat → fails (.eTgt w) 0x26 [0, 1]) ∧ (7 < B.toNat → fails (.eTadv w) 0x26 [0, 1]) ∧
      (B = 0 → both (.eTgt w) (BitVec.ofNat 64 (epochOf A))) ∧ (∀ j, 1 ≤ j → j ≤ 3 → B = BitVec.ofNat 64 j → both (.eTgt w) (BitVec.ofNat 64 (ctrOf A j))) ∧
      (B = 4 → both (.eTgt w) (BitVec.ofNat 64 (depthOf A))) ∧ (B = 5 → both (.eTgt w) A) ∧
      (B.toNat ≤ 7 → both (.eTadv w) (tAdv A (F B.toNat)))) ∧
    (7 < B.toNat → fails (.eTst w) 0x26 [0, 1]) ∧
    (B.toNat ≤ 7 → emits (.eTst w) [(if ∀ x ∈ F B.toNat, tLe x tag.time = false then 0 else 1, f.token A)])

/-- A firing that consumes poison performs no operation, writes no register and takes nothing from the LFSR: it emits poison with the VALUE of port
a's token if that is poison, otherwise port b's, at the match's tag, on every target, or on T0 for cvt, cvts and gate. The poison of steer goes
to T0 with bit 1 pushed where the predicate is poison, else follows the predicate, its path kept at LEN = 7; that of merge goes to T0 with its
path popped where LEN is at least 1. The tag operation is applied on valid targets where it does not fail. A firing whose tag operation fails on
a valid target emits poison with the tag operation's cause on every target and writes no register, but the LFSR takes its advance (log 42,
DEDUCED; the targets of pack, unpack, vred, vbc, vins and vext: log 85, DESIGN CHOICE). (R184, R188, R214, R220, R221, R222, R227, R232, R233,
R234, R338) -/
def Obligations.PoisonFirings : Prop :=
  (∀ (s : State) (w : EW) (n : Nat) (m : Match) (v : Word) (i : Instr), Fireable s n m → m.poison = some v →
    let f := s.fx w m
    let k := { f.token v with p := true }
    let leaves := fun (l : List (Nat × BitVec 11)) =>
      let out := l.map fun o => (o.1, match tagOp w.tg f.rawB m.tag.time o.2 with
        | .ok (t, q) => if tgtV (target w o.1) then { k with time := t, path := q } else { k with path := o.2 }
        | .error _ => { k with path := o.2 })
      HasRoom s w out → exec i s = .next (fired s w n out id)
    let q := m.tag.path
    let len := (q.extractLsb' 8 3).toNat
    let pushed := fun (one : Bool) => if len = 7 then q else
      BitVec.ofNat 3 (len + 1) ++ (if one then q.extractLsb' 0 8 ||| 1#8 <<< len else q.extractLsb' 0 8)
    let badB := ∃ b, m.b = some b ∧ b.p = true
    ((∃ rm, i ∈ [Instr.eAdd rm w, .eSub rm w, .eMul rm w, .eMad rm w, .ePack rm w, .eVadd rm w, .eVsub rm w, .eVmul rm w, .eVfma rm w, .eVcvt rm w, .eVred rm w]) ∨
      i ∈ [Instr.eMin w, .eMax w, .eAbs w, .eNeg w, .eAnd w, .eOr w, .eXor w, .eShl w, .eShr w, .eSar w, .eClz w, .eExt w, .eCeq w, .eCne w, .eClt w, .eCle w,
        .eSel w, .eMov w, .eUnpack w, .eVmin w, .eVmax w, .eVbc w, .eVins w, .eVext w, .eTjn w, .eTle w, .eTgt w, .eTadv w, .eTst w] → leaves [(0, q), (1, q)]) ∧
    ((∃ rm, i ∈ [Instr.eCvt rm w, .eCvts rm w]) ∨ i = .eGate w → leaves [(0, q)]) ∧
    (i = .eSteer w → (badB → leaves [(0, pushed true)]) ∧ (¬ badB → f.rawB ≠ 0 → leaves [(0, pushed true)]) ∧ (¬ badB → f.rawB = 0 → leaves [(1, pushed false)])) ∧
    (i = .eMerge w → leaves [(0, if len = 0 then q else pathPop q)])) ∧
  (∀ (m : Match) (a b : Token),
    (m.a = some a → a.p = true → m.poison = some a.value) ∧
    (m.b = some b → b.p = true → (m.a = none ∨ (m.a = some a ∧ a.p = false)) → m.poison = some b.value)) ∧
  ∀ (s : State) (w : EW) (n : Nat) (m : Match) (rm : BitVec 3) (c : Nat), Fireable s n m → m.poison = none →
    tagOp w.tg (s.fx w m).rawB m.tag.time m.tag.path = .error c →
    let f := s.fx w m
    let l := poisonOuts s w m c [0, 1]
    let fails := fun (sr : Bool) (i : Instr) => HasRoom s w l → exec i s = .next (fired s w n l fun z => if sr then { z with lfsr := lfsrNext z.lfsr } else z)
    (tgtV (target w 0) = true ∨ tgtV (target w 1) = true →
      (∀ i ∈ [Instr.eAdd rm w, .eSub rm w, .eMul rm w, .eMad rm w, .ePack rm w], fails (rm = 4) i) ∧
      ∀ i ∈ [Instr.eMin w, .eMax w, .eAbs w, .eNeg w, .eAnd w, .eOr w, .eXor w, .eShl w, .eShr w, .eSar w, .eClz w, .eExt w, .eCeq w, .eCne w, .eClt w, .eCle w,
        .eSel w, .eMov w, .eUnpack w], fails false i) ∧
    (tgtV (target w 0) = true → ∀ i ∈ [Instr.eCvt rm w, .eCvts rm w], fails (rm = 4) i) ∧
    (tgtV (target w (if f.rawB = 0 then 1 else 0)) = true → fails false (.eGate w))

/-- A ctr or ctrb node with no run takes a start that is not poison and whose tag can enter a loop (and for ctr whose count is 0 to 1024): its match
goes and its run stands at index 0. Each later firing emits one index on T0 at its own time, with L = 1 on the last, and the run's end gives n on
T1 at the last index's time; ctrb tests BND before each. A failing start emits poison on both targets, of cause 0x27 for the count before 0x21
for the depth and without the tag operation's cause (log 22, DEDUCED); the base token of a run is log 49, DEDUCED. A bound sets BND, and a poison
bound, of which at most two wait (log 84, DESIGN CHOICE), leaves on T1 at its own tag in its place in key order. The count, or BND, is the VALUE
of operand B for the tag operation (log 85, DESIGN CHOICE). (R181, R183, R184, R186, R222, R254, R255) -/
def Obligations.Counters : Prop :=
  ∀ (s : State) (w : EW),
    (∀ n m, Fireable s n m →
      let p := s.cur.p
      let e := s.cur.e
      let slot := s.cur.slot
      let x := s.elem p e
      let f := s.fx w m
      let base := { f.token 0 with time := enterLoop m.tag.time 0, l := false }
      let took := fun (node : Node) => .next ((s.consume n).modElem p e fun z => z.setNode slot (some node))
      let poisons := fun (i : Instr) (l : List (Nat × Token)) => HasRoom s w l → exec i s = .next ((s.consume n).emitAll p e slot w l)
      (Map.find x.nodes slot = none →
        (∀ v, m.poison = some v → poisons (.eCtr w) (f.resolvePoison [(0, { f.token v with p := true }), (1, { f.token v with p := true })])) ∧
        (m.poison = none → depthOf m.tag.time = 3 → 0 ≤ f.rawB.toInt → f.rawB.toInt ≤ 1024 →
          poisons (.eCtr w) ([0, 1].map fun j => (j, { f.token (poisonValue 0x21 p e slot) with p := true }))) ∧
        (m.poison = none → (f.rawB.toInt < 0 ∨ 1024 < f.rawB.toInt) →
          poisons (.eCtr w) ([0, 1].map fun j => (j, { f.token (poisonValue 0x27 p e slot) with p := true }))) ∧
        (m.poison = none → depthOf m.tag.time ≠ 3 → 0 ≤ f.rawB.toInt → f.rawB.toInt ≤ 1024 → exec (.eCtr w) s = took (.ctr ⟨base, 0, f.rawB.toInt⟩))) ∧
      (∀ b bad, Map.find x.nodes slot = some (.ctrb b none bad) ∨ (Map.find x.nodes slot = none ∧ b = 0 ∧ bad = []) →
        (m.poison = none → depthOf m.tag.time = 3 →
          poisons (.eCtrb w) ([0, 1].map fun j => (j, { f.token (poisonValue 0x21 p e slot) with p := true }))) ∧
        (m.poison = none → depthOf m.tag.time ≠ 3 → exec (.eCtrb w) s = took (.ctrb b (some ⟨base, 0, 0⟩) bad)))) ∧
    ∀ (p e slot : Nat),
      let x := s.elem p e
      let u := s.atSlot p e slot
      let v := s.slotWord p e slot
      let emits := fun (k : Token) (b : Word) => FreeTo (.counterIndexEmit p e slot) s u v k (some b)
      (∀ base (i : Nat) n,
        let at_ := fun (i : Nat) (y : Word) (l : Bool) => { base with value := y, time := setCtr base.time (depthOf base.time) i, l := l }
        (Map.find x.nodes slot = some (.ctr ⟨base, i, n⟩) →
          ((i : Int) < n → let k := at_ i (BitVec.ofNat 64 i) (decide ((i : Int) + 1 = n))
            emits k (BitVec.ofInt 64 n) [(0, k)] (some (.ctr ⟨base, i + 1, n⟩))) ∧
          (n ≤ i → let k := at_ (i - 1) (BitVec.ofInt 64 n) true
            emits k (BitVec.ofInt 64 n) [(1, k)] none)) ∧
        ∀ b bad, Map.find x.nodes slot = some (.ctrb b (some ⟨base, i, n⟩) bad) →
          let next := fun (k : Token) (j : Nat) (run : Option CtrRun) =>
            ((∀ t ∈ bad, fireKey k.time slot < fireKey t.time slot) → emits k b [(j, k)] (some (.ctrb b run bad))) ∧
            ∀ t rest, FirstBad slot bad t rest → fireKey t.time slot ≤ fireKey k.time slot → emits t b [(1, t)] (some (.ctrb b (some ⟨base, i, n⟩) rest))
          (b.toInt < 0 ∨ 1024 < b.toInt →
            next { base with time := setDepth base.time (depthOf base.time - 1), value := poisonValue 0x27 p e slot, p := true } 1 none) ∧
          (0 ≤ b.toInt → b.toInt ≤ 1024 → b.toInt ≤ i → next (at_ (i - 1) (BitVec.ofNat 64 i) true) 1 none) ∧
          (b.toInt ≤ 1024 → (i : Int) < b.toInt → next (at_ i (BitVec.ofNat 64 i) (decide ((i : Int) + 1 = b.toInt))) 0 (some ⟨base, i + 1, n⟩))) ∧
      (∀ b bad k rest, Map.find x.nodes slot = some (.ctrb b none bad) → FirstBad slot bad k rest → emits k b [(1, k)] (some (.ctrb b none rest))) ∧
      (∀ k b run bad, s.headOf p e slot 1 = some k → x.op slot = 0x101 → k.m = false → k.ctx = x.ctx →
        Map.find x.nodes slot = some (.ctrb b run bad) ∨ (Map.find x.nodes slot = none ∧ b = 0 ∧ run = none ∧ bad = []) →
        (k.p = false → exec (.ctrbBoundAbsorb p e slot) s = .next (absorbed s p e slot 1 (.ctrb k.value run bad))) ∧
        (k.p = true → bad.length < 2 → exec (.ctrbBoundAbsorb p e slot) s = .next (absorbed s p e slot 1 (.ctrb b run (bad ++ [k])))))

/-- A stream token joins the buffer while it holds fewer than 32 and no L token; a 33rd empties it and owes poison of cause 0x29 on T0. Once the
stream is complete the next token at port b is the count: poison, or a count outside 0 to 1024, empties the stream and owes its own poison or
cause 0x27 at the count's tag; count 0 empties it; any other starts the copies. Each copy is the buffered token with one loop level entered, the
repetition as its counter, in buffer order; at depth 3 it is poison of cause 0x21. After the last copy the node is empty. The count is read at
the bits of an integer TY; the poison of a failed stream or count leaves at its token's own tag with no tag operation (log 43, DEDUCED). (R181,
R183, R186, R222, R256) -/
def Obligations.RepeatNodes : Prop :=
  ∀ (s : State) (p e slot port : Nat) (k : Token) (buf : List Token) (full : Bool) (run : Option (Nat × Nat × Nat)) (bad : List Token),
    let x := s.elem p e
    let v := s.slotWord p e slot
    let i := Instr.rptTokenAbsorb p e slot port
    let empty := absorbed s p e slot port (.rpt [] false none [])
    let fails := fun (y : Word) => exec i s = .next (empty.owe p e slot v [(0, { k with value := y, p := true })])
    let copy := fun (r : Nat) (k : Token) => if depthOf k.time = 3 then (if k.p then k else { k with value := poisonValue 0x21 p e slot, p := true })
      else { k with time := enterLoop k.time r }
    Map.find x.nodes slot = some (.rpt buf full run bad) ∨ (Map.find x.nodes slot = none ∧ buf = [] ∧ full = false ∧ run = none) →
      (s.headOf p e slot port = some k → x.op slot = 0x102 → k.m = false → k.ctx = x.ctx → run = none →
        (port = 0 → full = false → buf.length < 32 → exec i s = .next (absorbed s p e slot port (.rpt (buf ++ [k]) k.l none []))) ∧
        (port = 0 → full = false → 32 ≤ buf.length → fails (poisonValue 0x29 p e slot)) ∧
        (port ≠ 0 → full = true → k.p = true → fails k.value) ∧
        ∀ count : Int, (v.ty = 0 ∧ count = (k.value.setWidth 32).toInt) ∨ (v.ty = 1 ∧ count = (k.value.setWidth 32).toNat) ∨ (v.ty = 2 ∧ count = k.value.toInt) →
          (port ≠ 0 → full = true → k.p = false → (count < 0 ∨ 1024 < count) → fails (poisonValue 0x27 p e slot)) ∧
          (port ≠ 0 → full = true → k.p = false → count = 0 → exec i s = .next empty) ∧
          (port ≠ 0 → full = true → k.p = false → 0 < count → count ≤ 1024 →
            exec i s = .next (absorbed s p e slot port (.rpt buf true (some (count.toNat, 0, 0)) [])))) ∧
      ∀ c r j y, full = true → run = some (c, r, j) → nth buf j = some y →
        let after := if j + 1 < buf.length then some (Node.rpt buf true (some (c, r, j + 1)) [])
          else if r + 1 < c then some (.rpt buf true (some (c, r + 1, 0)) []) else some (.rpt [] false none [])
        let u := s.atSlot p e slot
        FreeTo (.rptCopyEmit p e slot) s u v (copy r y) (some (BitVec.ofNat 64 c)) [(0, copy r y)] after ∧
        ∀ w, p = s.cur.p → e = s.cur.e → slot = s.cur.slot → FreeTo (.eRpt w) s u w (copy r y) (some (BitVec.ofNat 64 c)) [(0, copy r y)] after

/-- emit fires once after a flip: A at time B, or at time 0, on both targets, and poison of cause 0x22 for a malformed time. mark puts the token on
T0 and, when B is not 0, a marker with its TIME and PATH on each target that is no back-edge. sink, tdn and cmpl take their token: sink drops it,
tdn starts teardown of the element's context, cmpl writes a CMPL record with DIFF, VALUE and TIME while the queue has room; poison at these three
stops with its POISON record. (R32, R150, R170, R182, R194, R200, R220, R222, R257, R258, R259, R260) -/
def Obligations.RecordNodes : Prop :=
  ∀ (s : State) (w : EW),
    let p := s.cur.p
    let e := s.cur.e
    let slot := s.cur.slot
    let x := s.elem p e
    (Map.find x.nodes slot = none →
      let f := s.fx w ⟨slot, none, none⟩
      let t := if w.sb = 7 then 0 else f.rawB
      let k : Token := ⟨f.rawA, t, 1, 0, false, false, false, false, x.ctx⟩
      (timeOk t = true → FreeTo (.eEmit w) s s w k none [(0, k), (1, k)] (some .emitted)) ∧
      (timeOk t = false → s.mayFire p e = true → x.slotMay slot = true →
        let c := match tagOp w.tg f.rawB 0 0 with | .error d => min 0x22 d | .ok _ => 0x22
        let q := { k with value := poisonValue c p e slot, time := 0, p := true }
        HasRoom s w [(0, q), (1, q)] → exec (.eEmit w) s = .next ((s.modElem p e fun z => z.setNode slot (some .emitted)).emitAll p e slot w [(0, q), (1, q)]))) ∧
    ∀ n m, Fireable s n m →
      let f := s.fx w m
      let k := m.tag
      let room := (s.core p).eqRoom
      let gone := s.consume n
      (m.poison = none →
        let back := match x.act with | some g => g.back | none => 0
        let mk := { f.token 0 with m := true, l := false, c := false, diff := 1 }
        let marks := if f.rawB = 0 then [] else (if back.getLsbD (2 * slot) then [] else [(0, mk)]) ++ (if back.getLsbD (2 * slot + 1) then [] else [(1, mk)])
        ∀ l, f.tagAll ((0, f.token f.rawA) :: marks) = .ok l → HasRoom s w l → exec (.eMark w) s = .next (gone.emitAll p e slot w l)) ∧
      (m.poison = none → tgtV (target w 0) = true → ∀ c, tagOp w.tg f.rawB k.time k.path = .error c → let l := poisonOuts s w m c [0, 1]
        HasRoom s w l → exec (.eMark w) s = .next (gone.emitAll p e slot w l)) ∧
      (∀ v, m.poison = some v → let l := f.resolvePoison [(0, { f.token v with p := true })]
        HasRoom s w l → exec (.eMark w) s = .next (gone.emitAll p e slot w l)) ∧
      (m.poison = none → exec (.eSink w) s = .next gone ∧ exec (.eTdn w) s = .next (gone.teardown p x.ctx.toNat) ∧
        (room = true → exec (.eCmpl w) s = .next (gone.putRec p
          ⟨recW0 5 0 0 e slot 0 k.ctx.toNat 0 0 (s.core p).vcnNum, k.diff.signExtend 64, k.value, k.time⟩))) ∧
      (∀ v, m.poison = some v → room = true → ∀ i ∈ [Instr.eSink w, .eTdn w, .eCmpl w],
        exec i s = .next (gone.stopPoison p e slot m.poisonTok.1 m.poisonTok.2)) ∧
      (room = false → exec (.eCmpl w) s = .next s)

/-- A memory-port node whose port has room takes its first match. Poison stops there with its record. Otherwise the access at its VALUE's address is
checked whole: loads and stores at any alignment, updates as read and write, amo nodes naturally aligned and in an immediate window. When the
checks pass, the port holds the access with the match's tag and operands; a missing translation holds the port and writes a PORTHOLD record; any
other cause is owed as poison on both targets, the lower of it and the tag operation's. A vst reference outside codes 0 to 11 fails with 0x25.
ldst takes its start as a counter does, a failing one without the tag operation's cause (log 22, DEDUCED), and goes on reading. An update needs
both page permissions (log 45, DEDUCED); a record whose window names the host joins its list (log 38, DESIGN CHOICE). (R69, R70, R76, R110, R184,
R262, R264, R265, R266, R267, R268, R338) -/
def Obligations.MemoryPortNodes : Prop :=
  ∀ (s : State) (w : EW) (n : Nat) (m : Match), Fireable s n m →
    let p := s.cur.p
    let e := s.cur.e
    let slot := s.cur.slot
    let x := s.elem p e
    let f := s.fx w m
    let ty := w.ty.toNat
    let A := f.rawA
    let B := f.rawB
    let a := readTy ty A.toNat
    let bytes := widthOf ty / 8
    let v := match f.vecReg with | .reg c => (x.vreg c).toNat | .scalar y => y.toNat | .bad => 0
    let upd := fun (i : Instr) (op : Nat) => (i, op, AK.update, B, a, 0, bytes)
    let amo := fun (i : Instr) (op : Nat) => (i, op, AK.atomic, B, a, 0, bytes)
    let nodes : List (Instr × Nat × AK × Word × Nat × Nat × Nat) :=
      [(.eLdr w, 0x111, .load, A, 0, 0, bytes), (.eStr w, 0x112, .store, B, a, 0, bytes), (.eVld w, 0x113, .load, A, 0, 0, 128),
       (.eVst w, 0x114, .store, A, v, 0, 128),
       upd (.eUpdAdd w) 0x118, upd (.eUpdMin w) 0x119, upd (.eUpdMax w) 0x11A, upd (.eUpdOr w) 0x11B, upd (.eUpdSwap w) 0x11C,
       amo (.eAmoAdd w) 0x120, amo (.eAmoMin w) 0x121, amo (.eAmoMax w) 0x122, amo (.eAmoAnd w) 0x123, amo (.eAmoOr w) 0x124,
       amo (.eAmoXor w) 0x125, amo (.eAmoSwap w) 0x126, amo (.eAmoFadd w) 0x128,
       (.eAmoCas w, 0x127, .atomic, B, a, readTy ty (x.ereg 6).toNat, bytes)]
    let tagged := tagOp w.tg B m.tag.time m.tag.path
    let poisons := fun (u : State) (c : Nat) => let k := { f.token 0 with value := poisonValue (match tagged with | .error d => min c d | .ok _ => c) p e slot, p := true }
      u.owe p e slot w [(0, k), (1, k)]
    (∀ i op ak va data cmp size, (i, op, ak, va, data, cmp, size) ∈ nodes → x.op slot = op →
      let acc : PortAcc := ⟨slot, 0, va.toNat, size, [], data, cmp, (s.core p).ph, f.token 0, match tagged with | .ok r => r.1 | .error _ => 0,
        match tagged with | .ok r => r.2 | .error _ => 0, match tagged with | .ok _ => none | .error c => some c⟩
      let checks := s.checkSpan p va.toNat size ak (if ak = .atomic then size else 1) (if ak = .atomic then immOnly else anyClass)
      (m.poison.isSome = true → (s.core p).eqRoom = true → exec i s = .next ((s.consume n).stopPoison p e slot m.poisonTok.1 m.poisonTok.2)) ∧
      (m.poison = none → s.portRoom p e = true → (op = 0x114 → f.vecReg ≠ .bad) →
        (∀ u l, checks = (u, .ok l) → exec i s = .next ((u.consume n).modPort p (e / 8) fun q => { q with accs := q.accs ++ [{ acc with parts := l }] })) ∧
        (∀ u y h, checks = (u, .bad 0x10 y h) →
          let t := (u.consume n).modPort p (e / 8) fun q => { q with held := some acc, hport := if m.a.isSome then 0 else 1, fva := y, woken := false }
          let r : Rec := ⟨recW0 4 0x10 0 e slot (if m.a.isSome then 0 else 1) x.ctx.toNat 0 0 (u.core p).vcnNum, BitVec.ofNat 64 y, 0, m.tag.time⟩
          exec i s = .next (if h then { t with hub := { t.hub with hostRecs := t.hub.hostRecs ++ [r] } } else t.putRec p r)) ∧
        (∀ u c y h, c ≠ 0x10 → checks = (u, .bad c y h) → exec i s = .next (poisons (u.consume n) c)))) ∧
    (m.poison = none → s.portRoom p e = true → f.vecReg = .bad → exec (.eVst w) s = .next (poisons (s.consume n) 0x25)) ∧
    (m.poison = none → s.portRoom p e = true → Map.find x.nodes slot = none →
      let fails := fun (c : Nat) => let l := [0, 1].map fun j => (j, { f.token (poisonValue c p e slot) with p := true })
        HasRoom s w l → exec (.eLdst w) s = .next ((s.consume n).emitAll p e slot w l)
      ((B.toInt < 0 ∨ 1024 < B.toInt) → fails 0x27) ∧
      (depthOf m.tag.time = 3 → 0 ≤ B.toInt → B.toInt ≤ 1024 → fails 0x21) ∧
      (depthOf m.tag.time ≠ 3 → 0 ≤ B.toInt → B.toInt ≤ 1024 →
        let start := { f.token 0 with time := enterLoop m.tag.time 0, l := false }
        exec (.eLdst w) s = .next ((((s.consume n).modElem p e fun z => z.setNode slot (some (.ldst start A B.toNat [] 0))).drainStream 1026 p e slot).issueStream 65 p e slot)))

/-- An access of a port is performed once no earlier access of the port overlaps it in virtual or physical bytes or meets it at one home or channel.
Then it leaves the port and its tokens are owed at the time and path of its tag operation: ldr the value and a completion token with the address,
str and vst the address, vld the register's code after the register is written, upd the old value after the new one is stored, amo the old value
of the atomic performed at the home; completion tokens have C = 1. A failing tag operation gives poison with its cause, the access done. An
access that a wake token let through leaves with what its token held back; an amo carries the phase that its core had at issue. Poison read or
written partly gives poison of cause 0x16 on both targets with no part of a store kept. (R34, R184, R212, R222, R225, R262, R263, R264, R265,
R266, R267, R268) -/
def Obligations.MemoryPortAccesses : Prop :=
  ∀ (s : State) (p row n : Nat) (a : PortAcc),
    let e := row * 8
    let port := (s.core p).port row
    let x := s.elem p e
    let w := s.slotWord p e a.slot
    let ty := w.ty.toNat
    let op := x.op a.slot
    let i := Instr.memportAccessPerformed p row n
    let earlier := fun (b : PortAcc) => (b.va < a.va + a.n ∧ a.va < b.va + b.n) ∨
      (∃ x ∈ a.parts, ∃ y ∈ b.parts, x.pa < y.pa + y.n ∧ y.pa < x.pa + x.n) ∨ s.sameHome a b = true
    let addr := BitVec.ofNat 64 a.va
    let tok := fun (v : Word) (c : Bool) => { a.tag with value := v, time := a.time, path := a.path, c := a.tag.c || c }
    let gone := fun (u : State) => u.modPort p row fun q =>
      if q.woken = true ∧ n + 1 = q.accs.length then ⟨dropNth q.accs n, none, 0, 0, false⟩ else { q with accs := dropNth q.accs n }
    let with16 := match a.tgBad with | some d => min 0x16 d | none => 0x16
    let gives := fun (u : State) (l : List (Nat × Token)) => exec i s = .next (((gone u).owe p e a.slot w l).issueStreams p e)
    let fails := fun (u : State) (c : Nat) => gives u ([0, 1].map fun j => (j, { a.tag with value := poisonValue c p e a.slot, p := true }))
    let new := fun (old : Nat) => if op = 0x118 then (if ty < 3 then wrapInt ty (intOf ty old + intOf ty a.data) else (fmtOf ty).add 0 0 old a.data)
      else if op = 0x119 then minTy ty old a.data else if op = 0x11A then maxTy ty old a.data else if op = 0x11B then old ||| a.data else a.data
    nth port.accs n = some a →
      ((∃ b ∈ firstN port.accs n, earlier b) → exec i s = .next s) ∧
      ((∀ b ∈ firstN port.accs n, ¬ earlier b) →
        (∀ t v, s.loadParts p a.parts = (t, .ok v) →
          (op = 0x111 → a.tgBad = none → gives t [(0, tok (writeTy ty v) false), (1, tok addr true)]) ∧
          (op = 0x113 → a.tgBad = none →
            let code := if w.sb = 5 then 8 + w.bi.toNat else w.bi.toNat
            exec i s = .next ((((gone t).modElem p e fun z => z.setVreg code (BitVec.ofNat 1024 v)).owe p e a.slot w
              [(0, tok (BitVec.ofNat 64 code) true)]).issueStreams p e)) ∧
          (op = 0x110 → exec i s = .next (((gone t).streamRead p e a.slot a.idx v false).issueStreams p e)) ∧
          (∀ u, 0x118 ≤ op → op ≤ 0x11C → t.storeParts p a.parts (new v) = (u, .ok 0) →
            (a.tgBad = none → gives u [(0, tok (writeTy ty v) true)]) ∧ ∀ c, a.tgBad = some c → fails u c) ∧
          ((op = 0x111 ∨ op = 0x113) → ∀ c, a.tgBad = some c → fails t c)) ∧
        (∀ t, s.storeParts p a.parts a.data = (t, .ok 0) → op = 0x112 ∨ op = 0x114 →
          (a.tgBad = none → gives t [(0, tok addr true)]) ∧ ∀ c, a.tgBad = some c → fails t c) ∧
        (∀ acc t r v sp, a.parts = [acc] → 0x120 ≤ op → op ≤ 0x128 →
          s.atHome p acc (.amo (if op = 0x128 then 0 else BitVec.ofNat 3 (op - 0x120)) (decide (op = 0x128)) a.n (BitVec.ofNat 64 a.data) (BitVec.ofNat 64 a.cmp)
            a.ph) = some (t, r) → r.reply = .value v sp → (a.tgBad = none → gives t [(0, tok (writeTy ty v.toNat) true)]) ∧ ∀ c, a.tgBad = some c → fails t c) ∧
        (∀ acc t r, a.parts = [acc] → 0x120 ≤ op → op ≤ 0x128 →
          s.atHome p acc (.amo (if op = 0x128 then 0 else BitVec.ofNat 3 (op - 0x120)) (decide (op = 0x128)) a.n (BitVec.ofNat 64 a.data) (BitVec.ofNat 64 a.cmp)
            a.ph) = some (t, r) → r.reply = .error 0x16 → fails s with16) ∧
        (∀ t, s.loadParts p a.parts = (t, .poison) →
          (op = 0x111 ∨ op = 0x113 → fails t with16) ∧ (0x118 ≤ op → op ≤ 0x11C → fails s with16) ∧
          (op = 0x110 → exec i s = .next (((gone t).streamRead p e a.slot a.idx 0x16 true).issueStreams p e))) ∧
        (∀ t, s.storeParts p a.parts a.data = (t, .poison) → op = 0x112 ∨ op = 0x114 → fails s with16))

/-- mpre writes its word at WP of every element of its column that has MX = 1 and accepts the label, none being in a segment, clearing the cells of
an EMPTY macro or one of another format, and emits their number with C = 1. mdrn takes the written latch of its token's row, the older first,
writes 32 latch values to each register of its format from the base, leaving those of an absent second row (log 34, DEDUCED), frees the latch,
and emits the registers' codes at the rows' tags; a format that differs, a mismatch mark, or no such latch gives poison of cause 0x28. msca
rounds acc + p x sA x sB once in every lane of the accumulator pair, mband acc x b in every lane. mmode on gives 1 at once with MX = 1 and asks
for the grant otherwise, its tokens waiting in the order of the firings (log 21, DEDUCED); mmode off waits for segments and latches, then clears
MX and the macro and gives 0. mpre with MX = 0 gives poison of cause 0x28. A failing tag operation gives poison with its cause on both targets,
and no register is drained. (R192, R215, R216, R217, R241, R242, R243, R244, R247, R248, R250, R252) -/
def Obligations.MatrixMode : Prop :=
  ∀ (s : State) (w : EW) (n : Nat) (m : Match) (fmt : BitVec 2), Fireable s n m →
    let p := s.cur.p
    let e := s.cur.e
    let slot := s.cur.slot
    let x := s.elem p e
    let f := s.fx w m
    let bad := fun (c : Nat) => poisonOuts s w m c [0, 1]
    let lower := fun (c : Nat) => match tagOp w.tg f.rawB m.tag.time m.tag.path with | .error d => min c d | .ok _ => c
    let leaves := fun (i : Instr) (l : List (Nat × Token)) (k : State → State) => HasRoom s w l → exec i s = .next ((k (s.consume n)).emitAll p e slot w l)
    let emits := fun (i : Instr) (l : List (Nat × Token)) (k : State → State) =>
      (∀ l', f.tagAll l = .ok l' → leaves i l' k) ∧ ∀ c, f.tagAll l = .error c → leaves i (bad c) k
    let lane := fun (code l : Nat) => laneOf (x.vreg code) l
    (m.poison = none →
      let label := w.imm.extractLsb' 0 8
      let rcv := ((List.range 8).map fun r => r * 8 + e % 8).filter fun r =>
        (s.elem p r).mx && match (s.elem p r).act with | some g => label == g.cbid || label == 0xFF | none => false
      let write := fun (c : Cim) => let d := if c.st = 0 ∨ c.fmt ≠ fmt then ⟨c.st, fmt, 0, []⟩ else c
        let wp := if d.st = 2 then 0 else d.wp
        Cim.mk (if m.tag.l then 2 else 1) fmt (if m.tag.l then 0 else wp + 1) (Map.put d.cells wp.toNat m.tag.value)
      (x.mx = true → (∀ r ∈ rcv, (s.core p).inSegment r = false) → emits (.eMpre fmt w) [(0, { f.token (BitVec.ofNat 64 rcv.length) with c := true })] fun u =>
        each rcv (fun r u => u.modElem p r fun y => { y with cim := write y.cim }) u) ∧
      (x.mx = true → (∃ r ∈ rcv, (s.core p).inSegment r = true) → s.slotMatches.length = 1 → exec (.eMpre fmt w) s = .next s) ∧
      (x.mx = false → leaves (.eMpre fmt w) (bad (lower 0x28)) id) ∧
      (w.imm.getLsbD 0 = true → x.mx = true → emits (.eMmode w) [(0, f.token 1)] id) ∧
      (w.imm.getLsbD 0 = true → x.mx = false → ∀ l, f.tagAll [(0, f.token 1)] = .ok l ∨ (∃ c, f.tagAll [(0, f.token 1)] = .error c ∧ l = bad c) →
        exec (.eMmode w) s = .next ((s.consume n).modElem p e fun y => { y with asked := true, moff := false, mwaits := y.mwaits ++ [(slot, l)] })) ∧
      (w.imm.getLsbD 0 = false → ((s.core p).inSegment e = true ∨ x.latch0.busy = true ∨ x.latch1.busy = true) → s.slotMatches.length = 1 →
        exec (.eMmode w) s = .next s) ∧
      (w.imm.getLsbD 0 = false → (s.core p).inSegment e = false → x.latch0.busy = false → x.latch1.busy = false → emits (.eMmode w) [(0, f.token 0)] fun u =>
        u.modElem p e fun y => { y with mx := false, cim := ⟨0, 0, 0, []⟩, granted := false, moff := true }) ∧
      (let ap := (w.imm.extractLsb' 0 1).toNat
       let sbv := (w.imm.extractLsb' 1 3).toNat
       let half := (w.imm.extractLsb' 4 1).toNat
       let pf := (w.imm.extractLsb' 5 2).toNat
       let code := if w.sa = 4 then w.ai.toNat else if w.sa = 5 then 8 + w.ai.toNat else f.rawA.toNat
       (6 < code → FailsTo (.eMsca w) s w n m 0x25 [0, 1] id) ∧
       (code ≤ 6 → ∃ v0 v1, FiresTo (.eMsca w) s w n m [(0, f.token (BitVec.ofNat 64 (8 + 2 * ap)))] (fun z => (z.setVreg (8 + 2 * ap) v0).setVreg (9 + 2 * ap) v1) ∧
        ∀ h l, h < 2 → l < 32 →
          let j := 32 * h + l
          let sB := lane sbv ((64 * half + j) / 4) / 2 ^ (8 * ((64 * half + j) % 4)) % 256
          let q := lane (code + h) l
          let part := if pf = 0 then FVal.fin (decide ((BitVec.ofNat 32 q).toInt < 0)) (BitVec.ofNat 32 q).toInt.natAbs (-2)
            else if pf = 2 then .fin (decide ((BitVec.ofNat 32 q).toInt < 0)) (BitVec.ofNat 32 q).toInt.natAbs 0 else fmtF32.read q
          laneOf (if h = 0 then v0 else v1) l = fmtF32.rnd 0 0 ((fmtF32.read (lane (8 + 2 * ap + h) l)).add 0
            ((part.mul (readE3m5 (f.rawB.toNat % 256))).mul (readE3m5 sB))) % 2 ^ 32) ∧
       (code < 8 ∨ 11 < code → FailsTo (.eMband w) s w n m 0x25 [0, 1] id) ∧
       (8 ≤ code → code ≤ 11 → ∃ v, FiresTo (.eMband w) s w n m [(0, f.token (BitVec.ofNat 64 code))] (fun z => z.setVreg code v) ∧
        ∀ l, l < 32 → laneOf v l = fmtF32.rnd 0 0 ((fmtF32.read (lane code l)).mul (fmtBf16.read (f.rawB.toNat % 2 ^ 16))) % 2 ^ 32))) ∧
    let mine := fun (l : Latch) => l.busy = true ∧ l.written = true ∧ ∃ a b, l.rows = a :: b ∧ a.time = m.tag.time ∧ a.path = m.tag.path
    (¬ mine x.latch0 → ¬ mine x.latch1 → leaves (.eMdrn fmt w) (bad (lower 0x28)) id) ∧
    ∀ r0 rest (first : Bool),
      (first = true ∧ mine x.latch0) ∨ (first = false ∧ ¬ mine x.latch0 ∧ mine x.latch1) →
      let latch := if first then x.latch0 else x.latch1
      let b := (w.imm.extractLsb' 0 3).toNat
      let freed := fun (u : State) => u.modElem p e fun y => if first then { y with latch0 := y.latch1, latch1 := ⟨false, 0, none, [], false⟩ } else { y with latch1 := ⟨false, 0, none, [], false⟩ }
      let row := fun (r : ARow) (v : Nat) => { f.token (BitVec.ofNat 64 v) with time := r.time, path := r.path, diff := r.diff, l := r.l }
      let outs := (0, row r0 b) :: (if fmt = 3 then [] else if fmt = 0 then [(1, row r0 (b + 2))] else match rest with | r1 :: _ => [(1, row r1 (b + 2))] | [] => [])
      latch.rows = r0 :: rest →
        (∀ vals, latch.vals = some vals → x.mx = true → latch.fmt = fmt →
          let drained := fun (y : Elem) => each (range 0 (if fmt = 3 then 2 else if fmt = 0 then 4 else 2 * (rest.length + 1))) (fun i (z : Elem) => { z with v := Map.put z.v (b + i) (latchVec vals (32 * i)) }) y
          let out := fun (u : State) (l : List (Nat × Token)) => HasRoom s w l → exec (.eMdrn fmt w) s = .next ((u.consume n).emitAll p e slot w l)
          (∀ l, f.tagAll outs = .ok l → out ((freed s).modElem p e drained) l) ∧ ∀ c, f.tagAll outs = .error c → out (freed s) (bad c)) ∧
        (latch.vals = none ∨ x.mx = false ∨ latch.fmt ≠ fmt →
          HasRoom s w (bad (lower 0x28)) → exec (.eMdrn fmt w) s = .next (((freed s).consume n).emitAll p e slot w (bad (lower 0x28))))

/-- With MX = 1 an mrow node takes its oldest token. The first word of a row is held; the second makes a row whose tag is word 0's, whose DIFF is the
saturated product and whose L is the OR; in e2m1 and f16, and in the 8-bit formats with L = 1 or after a good row, the row or pair is a segment
ready to start. A row with a poison word emits that poison on T0 at the row's tag; with L = 1 a good row 0 held is sent alone. A segment starts
when the row bus is free and every receiver is LOADED with a free latch, the lowest column first. At its end every receiver's latch is written
and the sender owes a token with C = 1 and the number of receivers. The latch value of a column is the exact sum of its block's products, as i32
for e2m1 and i8, rounded once to f32 for e4m3 and f16, an absent second row counting as zeros; a macro of another format leaves a mismatch mark.
A row's tokens, DIFF and C are log 48, DEDUCED. With MX = 0 mrow gives poison of cause 0x28. A grant sets MX and gives the waiting mmode tokens
in order; a clock step shows in MB3 of the die's cores. (R192, R215, R220, R241, R242, R243, R244, R245, R246, R247, R249, R378) -/
def Obligations.MatrixRows : Prop :=
  (∀ (s : State) (w : EW) (n : Nat) (key : Nat) (m : Match) (fmt : BitVec 2) (word : Option Token) (row : Option ARow) (seg : List ARow) (bad : List Token),
    let p := s.cur.p
    let e := s.cur.e
    let slot := s.cur.slot
    let x := s.elem p e
    s.mayFire p e = true → x.slotMay slot = true → x.mx = true → s.cur.pick = none ∨ s.cur.pick = some n →
    (key, n, m) ∈ x.keyed → m.slot = slot → (∀ q ∈ x.keyed, q.2.2.slot = slot → n ≤ q.2.1) →
    (Map.find x.nodes slot = some (.mrow word row seg bad) ∨ (Map.find x.nodes slot = none ∧ word = none ∧ row = none ∧ seg = [])) →
    let k := m.tag
    let holds := fun (word : Option Token) (row : Option ARow) (seg : List ARow) => (s.consume n).modElem p e fun z => z.setNode slot (some (.mrow word row seg []))
    (word = none → exec (.eMrow fmt w) s = .next (holds (some k) row seg)) ∧
    ∀ a, word = some a →
      let d := BitVec.ofInt 32 (satInt (a.diff.toInt * k.diff.toInt) 32)
      let r : ARow := ⟨a.value, k.value, a.time, a.path, d, a.l || k.l⟩
      (a.p = false → k.p = false →
        (∀ q, row = some q → seg = [] → exec (.eMrow fmt w) s = .next (holds none none [q, r])) ∧
        (row = none → (fmt = 1 ∨ fmt = 2) → (a.l || k.l) = false → exec (.eMrow fmt w) s = .next (holds none (some r) seg)) ∧
        (row = none → (fmt = 0 ∨ fmt = 3 ∨ (a.l || k.l) = true) → seg = [] → exec (.eMrow fmt w) s = .next (holds none none [r])) ∧
        ((∃ q, row = some q) ∨ fmt = 0 ∨ fmt = 3 → seg ≠ [] → exec (.eMrow fmt w) s = .next s)) ∧
      (a.p = true ∨ k.p = true →
        let t := { a with value := if a.p then a.value else k.value, p := true, diff := d, l := a.l || k.l, c := a.c || k.c }
        let outs := (s.fx w ⟨slot, some t, none⟩).resolvePoison [(0, t)]
        let gives := fun (row : Option ARow) (seg : List ARow) => exec (.eMrow fmt w) s = .next ((holds none row seg).emitAll p e slot w outs)
        HasRoom s w outs →
          (∀ q, row = some q → (a.l || k.l) = true → seg = [] → gives none [{ q with l := true }]) ∧
          (∀ q, row = some q → (a.l || k.l) = false → gives row seg) ∧
          (row = none → gives none seg))) ∧
  (∀ (s : State) (w : EW) (n : Nat) (m : Match) (fmt : BitVec 2), Fireable s n m → (∀ q ∈ (s.elem s.cur.p s.cur.e).keyed, q.2.2.slot = s.cur.slot → n ≤ q.2.1) →
    (s.elem s.cur.p s.cur.e).mx = false → s.cur.pick = none →
    let l := poisonOuts s w m (match tagOp w.tg (s.fx w m).rawB m.tag.time m.tag.path with | .error d => min 0x28 d | .ok _ => 0x28) [0, 1]
    HasRoom s w l → exec (.eMrow fmt w) s = .next ((s.consume n).emitAll s.cur.p s.cur.e s.cur.slot w l)) ∧
  (∀ (s : State) (p e slot : Nat),
    let c := s.core p
    let x := s.elem p e
    let label := fun (e slot : Nat) => (ewOf (((s.elem p e).word slot).getD 0)).imm.extractLsb' 0 8
    let rcv := fun (e slot : Nat) => (range (e / 8 * 8) 8).filter fun r =>
      (s.elem p r).mx && match (s.elem p r).act with | some g => label e slot == g.rbid || label e slot == 0xFF | none => false
    let ready := fun (e slot : Nat) => 0x144 ≤ (s.elem p e).op slot ∧ (s.elem p e).op slot < 0x148 ∧ ((s.elem p e).mrow slot).2.2 ≠ [] ∧
      c.elemStopped (s.elem p e) = false ∧ Map.find c.bus (e / 8) = none ∧
      ∀ r ∈ rcv e slot, (s.elem p r).cim.st = 2 ∧ ((s.elem p r).latch0.busy = false ∨ (s.elem p r).latch1.busy = false)
    let first := ready e slot ∧ ∀ q i, e / 8 * 8 ≤ q → q < e / 8 * 8 + e % 8 → i < 32 → ¬ ready q i
    (¬ first → exec (.segmentStart p e slot) s = .next s) ∧
    (first → ∀ word row rows bad, Map.find x.nodes slot = some (.mrow word row rows bad) →
      let fmt := BitVec.ofNat 2 (x.op slot)
      let busy : Latch := ⟨true, fmt, none, rows, false⟩
      let held := s.modElem p e fun z => z.setNode slot (some (.mrow word row [] []))
      let taken := each (rcv e slot) (fun r u => u.modElem p r fun y => if y.latch0.busy then { y with latch1 := busy } else { y with latch0 := busy }) held
      exec (.segmentStart p e slot) s = .next (taken.modCore p fun c => { c with bus := Map.put c.bus (e / 8) ⟨e, slot, fmt, rows, rcv e slot⟩ }))) ∧
  (∀ (s : State) (p row : Nat) (g : Seg), Map.find (s.core p).bus row = some g →
    ∀ a rest, g.rows = a :: rest →
      let u := each g.rcv (fun r u => u.segmentAt p g r) (s.modCore p fun c => { c with bus := Map.del c.bus row })
      let d := each rest (fun (r : ARow) (d : BitVec 32) => BitVec.ofInt 32 (satInt (d.toInt * r.diff.toInt) 32)) a.diff
      let k : Token := ⟨BitVec.ofNat 64 g.rcv.length, a.time, d, a.path, false, false, a.l || anyOf rest ARow.l, true, (u.elem p g.e).ctx⟩
      let w := u.slotWord p g.e g.slot
      let tagged := Fx.tagAll ⟨p, g.e, g.slot, u.elem p g.e, w, ⟨g.slot, some k, none⟩, []⟩ [(0, k)]
      (∀ l, tagged = .ok l → exec (.segmentEnd p row) s = .next (u.owe p g.e g.slot w l)) ∧
      ∀ c, tagged = .error c → exec (.segmentEnd p row) s = .next (u.owe p g.e g.slot w ([0, 1].map fun j => (j, { k with value := poisonValue c p g.e g.slot, p := true })))) ∧
  (∀ (s : State) (p r : Nat) (g : Seg) (r0 : ARow) (rest : List ARow), g.rows = r0 :: rest →
    let x := s.elem p r
    let bits := if g.fmt = 0 then 4 else if g.fmt = 3 then 16 else 8
    let half := 64 / bits
    let a := fun (w : ARow) (k : Nat) => (if k < half then w.w0 else w.w1).toNat / 2 ^ (bits * (k % half)) % 2 ^ bits
    let weight := fun (k c : Nat) => (Map.get x.cim.cells 0 (k * bits + c / half)).toNat / 2 ^ (bits * (c % half)) % 2 ^ bits
    let row := fun (h : Nat) => if g.fmt = 0 ∨ h = 0 then r0 else rest.headD ⟨0, 0, 0, 0, 1, false⟩
    let at_ := fun (h k : Nat) => if g.fmt = 0 then 16 * h + k else k
    let n := if g.fmt = 3 then 8 else 16
    let int := fun (v : Nat) => if g.fmt = 0 then e2m1Twice v else (BitVec.ofNat 8 v).toInt
    let product := fun (h k c : Nat) => ((if g.fmt = 1 then fmtE4m3 else fmtF16).read (a (row h) (at_ h k))).mul ((if g.fmt = 1 then fmtE4m3 else fmtF16).read (weight (at_ h k) c))
    let first := x.latch0.busy = true ∧ x.latch0.written = false
    ∃ v, (x.cim.fmt ≠ g.fmt → v = none) ∧
      (x.cim.fmt = g.fmt → ∃ l : List (BitVec 32), v = some l ∧ l.length = 128 ∧ ∀ h c, h < 2 → c < 64 →
        (g.fmt = 0 ∨ g.fmt = 2 → nth l (64 * h + c) = some (BitVec.ofInt 32 ((List.range n).map fun k => int (a (row h) (at_ h k)) * int (weight (at_ h k) c)).sum)) ∧
        (g.fmt = 3 → h = 1 → nth l (64 * h + c) = some 0) ∧
        (g.fmt = 1 ∨ (g.fmt = 3 ∧ h = 0) → ∃ sum : Nat → FVal, sum (n - 1) = product h (n - 1) c ∧
          (∀ k, k + 1 < n → sum k = (product h k c).add 0 (sum (k + 1))) ∧ nth l (64 * h + c) = some (BitVec.ofNat 32 (fmtF32.rnd 0 0 (sum 0))))) ∧
      let y := if first then { x with latch0 := { x.latch0 with written := true, vals := v } } else { x with latch1 := { x.latch1 with written := true, vals := v } }
      let drains := fun (i : Nat) => 0x148 ≤ x.op i ∧ x.op i < 0x14C
      ((∀ i, i < 32 → ¬ drains i) → s.segmentAt p g r =
        s.setElem p r (if y.latch1.busy then { y with latch1 := ⟨false, 0, none, [], false⟩ } else { y with latch0 := ⟨false, 0, none, [], false⟩ })) ∧
      ∀ i, i < 32 → drains i → (∀ j, j < i → ¬ drains j) →
        s.segmentAt p g r = s.setElem p r (y.putBuf (2 * i) ⟨0, r0.time, r0.diff, r0.path, false, false, r0.l, false, x.ctx⟩)) ∧
  (∀ (s : State) (p e : Nat), (s.elem p e).asked = true →
    let u := if (s.elem p e).vasked then s.modElem p e fun z => { z with vgrant := true, vasked := false } else s
    let v := u.modElem p e fun z => { z with mx := true, granted := true, asked := false, moff := false, mwaits := [] }
    exec (.grantArrival p e) s = .next (each (s.elem p e).mwaits (fun q u => u.owe p e q.1 (u.slotWord p e q.1) q.2) v)) ∧
  (∀ (s : State) (p e : Nat), (s.elem p e).asked = false → (s.elem p e).vasked = true →
    exec (.grantArrival p e) s = .next (s.modElem p e fun z => { z with vgrant := true, vasked := false })) ∧
  ∀ (s : State) (die : Nat) (stp : BitVec 2), die < 9 →
    exec (.fuseeClockStep die stp) s = .next (each (range (die * 64) 64) (fun p u => u.modCore p fun c => { c with mb := Map.put c.mb 3 (stp.setWidth 64) })
      { s with clkStep := Map.set s.clkStep 0 die stp })

/-- snd sends an MSG of class IMM[3:0] to the VCN of B with CONT, VALUE A, the tag's TIME and path, DIFF, L and the phase, as poison when A is
poison, and emits the VCN with C = 1; while the source must hold it back nothing happens; to a VCN of no core the record takes its place; a
broken B fails with 0x2A, and poison at B stops with its record. hprobe emits a hit's VALUE on T0 and the key on T1 for a miss and for the empty
key; a B outside its limits fails with 0x2A and an access's cause fails it. aprobe reads the history of its key and then emits each record's pair
in a firing of its own; cons enters its change and emits sat(VALUE x DIFF) with C = 1, failing with 0x26 for a scope above 7 and 0x2B for a
refused time, and waiting, with its scope stopped, while the buffer must be sent first. The completion token leaves with the message (log 54,
DEDUCED); the reads of aprobe are log 53, DEDUCED. (R34, R84, R85, R95, R147, R184, R222, R270, R271, R272, R273, R330) -/
def Obligations.MessageNodes : Prop :=
  ∀ (s : State) (w : EW) (n : Nat) (m : Match),
    let p := s.cur.p
    let e := s.cur.e
    let slot := s.cur.slot
    let f := s.fx w m
    let A := f.rawA
    let B := f.rawB
    let lowest := fun (c : Nat) => match tagOp w.tg B m.tag.time m.tag.path with | .error d => min c d | .ok _ => c
    let tagged := fun (l : List (Nat × Token)) => match f.tagAll l with
      | .ok q => q
      | .error c => [0, 1].map fun j => (j, { f.token (poisonValue c p e slot) with p := true })
    let ends := fun (i : Instr) (u : State) (l : List (Nat × Token)) => HasRoom u w l → exec i s = .next ((u.consume n).emitAll u.cur.p u.cur.e u.cur.slot w l)
    let emits := fun (i : Instr) (u : State) (l : List (Nat × Token)) => ends i u (tagged l)
    let fails := fun (i : Instr) (u : State) (c : Nat) => ends i u ([0, 1].map fun j => (j, { f.token (poisonValue (lowest c) p e slot) with p := true }))
    let done := fun (v : Word) => [(0, { f.token v with c := true })]
    (Fireable s n m →
      (∀ i o, (i, o) ∈ [(Instr.eSnd w, false), (.eSndO w, true)] →
        let v := B.toNat % 2 ^ 10
        let msg := { s.blank p (w.imm.toNat % 16) 0 v with
          value := A, time := m.tag.time, diff := m.diff, path := m.tag.path, l := m.flag Token.l, o := o, cont := B.extractLsb' 10 12, p := m.poison.isSome }
        (∀ k, m.b = some k → k.p = true → (s.core p).eqRoom = true → exec i s = .next ((s.consume n).stopPoison p e slot 1 k)) ∧
        ((∀ k, m.b = some k → k.p = false) →
          (2 ^ 22 ≤ B.toNat → fails i s 0x2A) ∧
          (B.toNat < 2 ^ 22 → HeldBack s p v → s.slotMatches.length = 1 → exec i s = .next s) ∧
          (B.toNat < 2 ^ 22 → relocV (Map.get s.reloc 0 v) = false → (s.core p).eqRoom = true →
            let out := (s.core p).outOf v
            emits i ((s.modCore p fun c => { c with out := Map.put c.out v { out with snt := if o then 0 else out.snt + 1 } }).netErr p 1 (w.imm.toNat % 16)
              (BitVec.ofNat 64 v) 0) (done (BitVec.ofNat 64 v))) ∧
          (B.toNat < 2 ^ 22 → Accepts s p v → ∃ u, SentCounted s u p msg ∧ emits i u (done (BitVec.ofNat 64 v))))) ∧
      (m.poison = none →
        let size := B.toNat % 32
        let key := A.toNat
        (size < 4 ∨ 28 < size → fails (.eHprobe w) s 0x2A) ∧
        (4 ≤ size → size ≤ 28 → A = BitVec.allOnes 64 → emits (.eHprobe w) s [(1, f.token A)]) ∧
        (4 ≤ size → size ≤ 28 → A ≠ BitVec.allOnes 64 →
          let probe := s.probe p (B.toNat / 4096 * 4096) size key .load (B.toNat / 32 % 128 + 1) (hashOf key size)
          (∀ u g v, probe = (u, .found g v) → emits (.eHprobe w) u [(0, f.token (BitVec.ofNat 64 v))]) ∧
          (∀ u c x y, probe = (u, .bad c x y) → fails (.eHprobe w) u c) ∧
          (∀ u g, probe = (u, .empty g) ∨ probe = (u, .full) → emits (.eHprobe w) u [(1, f.token A)])) ∧
        (let md := satInt (A.toInt * m.diff.toInt) 64
         let c := s.core p
         (7 < B.toNat → fails (.eCons w) s 0x26) ∧
         (B.toNat ≤ 7 → md = 0 → emits (.eCons w) s (done 0)) ∧
         (B.toNat ≤ 7 → md ≠ 0 → c.timesRefused B.toNat m.tag.time [] = true → fails (.eCons w) s 0x2B) ∧
         (B.toNat ≤ 7 → md ≠ 0 → c.timesRefused B.toNat m.tag.time [] = false → c.enterChange B.toNat m.tag.time 0 (BitVec.ofInt 64 md) = none →
           HasRoom s w (tagged (done (BitVec.ofInt 64 md))) → exec (.eCons w) s = .next (s.modCore p fun c => { c with progStop := insertNat c.progStop B.toNat })) ∧
         (∀ c', B.toNat ≤ 7 → md ≠ 0 → c.timesRefused B.toNat m.tag.time [] = false → c.enterChange B.toNat m.tag.time 0 (BitVec.ofInt 64 md) = some c' →
           emits (.eCons w) (s.setCore p c') (done (BitVec.ofInt 64 md)))) ∧
        ((∀ l, Map.find (s.elem p e).nodes slot ≠ some (.pairs l)) →
          (∀ u c, s.history p B.toNat A.toNat = (u, .bad c) → fails (.eAprobe w) u c) ∧
          (∀ u l, s.history p B.toNat A.toNat = (u, .ok l) →
            let outs := fun (r : Word × Int) => if timeOk r.1 then
                tagged [(0, { f.token r.1 with diff := BitVec.ofInt 32 (satInt r.2 32) }), (1, { f.token A with diff := BitVec.ofInt 32 f.diffA })]
              else [0, 1].map fun j => (j, { f.token (poisonValue (lowest 0x22) p e slot) with p := true })
            let pair := fun (r : Word × Int) => (((outs r)[0]?.map Prod.snd).getD (f.token 0), ((outs r)[1]?.map Prod.snd).getD (f.token 0))
            exec (.eAprobe w) s = .next ((u.consume n).modElem u.cur.p u.cur.e fun x =>
              x.setNode u.cur.slot (if l = [] then none else some (.pairs (l.map pair))))))) ∧
      (m.poison.isSome = true → (s.core p).eqRoom = true → exec (.eCons w) s = .next ((s.consume n).stopPoison p e slot m.poisonTok.1 m.poisonTok.2)) ∧
      (∀ v, m.poison = some v → ∀ i ∈ [Instr.eHprobe w, .eAprobe w], (∀ l, Map.find (s.elem p e).nodes slot ≠ some (.pairs l)) →
        ends i s (f.resolvePoison [(0, { f.token v with p := true }), (1, { f.token v with p := true })]))) ∧
    ∀ a b rest, Map.find (s.elem p e).nodes slot = some (.pairs ((a, b) :: rest)) → s.mayFire p e = true → (s.elem p e).slotMay slot = true →
      HasRoom s w [(0, a), (1, b)] → exec (.eAprobe w) s = .next ((s.modElem p e fun x =>
        { x.setNode slot (if rest = [] then none else some (.pairs rest)) with fired := true }).emitAll p e slot w [(0, a), (1, b)])

/-- A token taken from a buffer leaves it: a token of a context that is neither active nor in the shadow bank, or for a slot that is not active or
does not consume the port, is discarded, poison with its record; a teardown token is counted and stalls its port, and so does a marker; a data
token of a slot with one port is a match, of a slot with both ports a match with its oldest waiting partner, and with no partner it waits in the
store, or in the overflow area when the store is full, or at the head when that is full too. A token of the shadow context stays. At MIN markers
the constants take effect and one marker goes on each edge. At TIN teardown tokens one leaves on each edge. A flip activates the shadow image
with its constants and LFSR, empties the store, matches and nodes, keeps the buffered tokens of other contexts and those that the new image
consumes, and the last flip of a context writes its TDN record. A good image at the head of the queue is written into the shadow banks; an
element whose distance exceeds SPMAX writes its record with cause 0x2C, naming the lowest consumed port without the marker, or that of its oldest
held token. A token that its node takes itself stays at the head, and so does one of a memory-port slot with a formed match (log 86, DESIGN
CHOICE). What uses the store is log 8, what a block holds log 79, the record of the distance log 44 and the flip without a teardown log 46, all
DEDUCED. (R181, R182, R188, R190, R199, R200, R202, R203, R344) -/
def Obligations.FabricEvents : Prop :=
  (∀ (s : State) (p e slot port : Nat) (g : EImage) (k : Token), (s.elem p e).act = some g → s.headOf p e slot port = some k →
    let x := s.elem p e
    let c := s.core p
    let key := portKey slot port
    let i := Instr.tokenTaken p e slot port
    let popped := { x with bufs := Map.put x.bufs key ((Map.get x.bufs [] key).drop 1) }
    let leaves := fun (y : Elem) => exec i s = .next (s.setElem p e y)
    let dropped := exec i s = .next (if k.p = true ∧ k.m = false then (s.setElem p e popped).poisonRec p e slot port g.ctx.toNat 0 k.value k.time else s.setElem p e popped)
    let spare := match x.sh with | some h => h.ctx == k.ctx | none => false
    (k.ctx ≠ g.ctx → spare = false → dropped) ∧
    (k.ctx ≠ g.ctx → spare = true → exec i s = .next s) ∧
    (k.ctx = g.ctx → g.word slot = none → dropped) ∧
    ∀ w, k.ctx = g.ctx → g.word slot = some w →
      let drain := (opOf w).toNat = 0x104 ∧ (ewOf w).sb = 3 ∧ port = 0
      let both := (ewOf w).sa = 0 ∧ (ewOf w).sb = 0 ∧ (opOf w).toNat ≠ 0x0B1
      let mine := fun (q : Waiting) => q.slot = slot ∧ q.port ≠ port ∧ q.tok.time = k.time ∧ q.tok.path = k.path ∧ q.tok.ctx = k.ctx
      let pair := fun (q : Token) => if port = 0 then Match.mk slot (some k) (some q) else ⟨slot, some q, some k⟩
      (k.m = true → k.l = true → leaves { popped with tdowns := x.tdowns + 1, tstall := insertNat x.tstall key }) ∧
      (k.m = true → k.l = false → ¬ drain → leaves { popped with markers := x.markers + 1, mlast := some k, mstall := insertNat x.mstall key }) ∧
      (¬ (k.m = true ∧ k.l = true) → drain → exec i s = .next s) ∧
      (k.m = false → ¬ drain → takesPort w port = false → dropped) ∧
      let memory := 0x110 ≤ (opOf w).toNat ∧ (opOf w).toNat ≤ 0x128
      let formed := ∃ q ∈ x.matches_, q.slot = slot
      let full := 64 ≤ x.storeUsed ∧ ∃ q ∈ x.matches_, q.slot = slot ∧ (if port = 0 then q.a.isSome else q.b.isSome) = true
      (k.m = false → ¬ drain → takesPort w port = true → memory → formed → exec i s = .next s) ∧
      (k.m = false → ¬ drain → takesPort w port = true → (opOf w).toNat ≠ 0x101 → (opOf w).toNat ≠ 0x102 → ¬ (memory ∧ formed) →
        (¬ both → ¬ full → leaves { popped with matches_ := x.matches_ ++ [if port = 0 then ⟨slot, some k, none⟩ else ⟨slot, none, some k⟩] }) ∧
        (¬ both → full → exec i s = .next s) ∧
        (both → (∀ n q, x.store[n]? = some q → mine q → (∀ r ∈ x.store.take n, ¬ mine r) → 
          exec i s = .next (((s.setElem p e { x with store := dropNth x.store n, matches_ := x.matches_ ++ [pair q.tok] }).modCore p fun c => c.refill 64 e).popHead p e slot port)) ∧
          ((∀ q ∈ x.store, ¬ mine q) → 
            (∀ n o, c.overflow[n]? = some o → o.e = e → mine o.w → (∀ r ∈ c.overflow.take n, ¬ (r.e = e ∧ mine r.w)) →
              exec i s = .next ((s.setElem p e { popped with matches_ := x.matches_ ++ [pair o.w.tok] }).modCore p fun c => { c with overflow := dropNth c.overflow n })) ∧
            ((∀ o ∈ c.overflow, ¬ (o.e = e ∧ mine o.w)) →
              (x.storeUsed < 64 → leaves { popped with store := x.store ++ [⟨slot, port, k⟩] }) ∧
              (64 ≤ x.storeUsed → ∀ b, c.freeSpill = some b →
                exec i s = .next ((s.setElem p e popped).modCore p fun c => { c with overflow := c.overflow ++ [⟨e, b, ⟨slot, port, k⟩⟩] })) ∧
              (64 ≤ x.storeUsed → c.freeSpill = none → exec i s = .next s)))))) ∧
  (∀ (s : State) (p e : Nat) (g : EImage), (s.elem p e).act = some g →
    let x := s.elem p e
    let c := s.core p
    let edge := fun (q : Nat × BitVec 13) => q.1 < 32 ∧ ∃ w j, g.word q.1 = some w ∧ j < 2 ∧ q.2 = target (ewOf w) j ∧ tgtV q.2 = true ∧ g.back.getLsbD (2 * q.1 + j) = false
    (∀ q ∈ g.edges, edge q) ∧ (∀ q, edge q → q.2 ∈ g.edges.map Prod.snd) ∧ (g.edges.map Prod.snd).Nodup ∧
    (∀ k, x.mlast = some k → 0 < x.markers → g.min ≤ x.markers → x.leaving = false → c.elemStopped x = false →
      (∀ q ∈ g.edges, 1 ≤ c.free q.2 ∧ ∀ d ∈ x.due, d.slot ≠ q.1) →
      exec (.markerPass p e) s = .next (each g.edges (fun q u => u.place p q.2 ⟨0, k.time, 1, k.path, false, true, false, false, g.ctx⟩)
        (s.setElem p e { x with
          k := each x.pendK (fun r m => Map.put m r.1 r.2) x.k, pendK := [], lfsr := match Map.find x.pendK 7 with | some v => lfsrLoad v | none => x.lfsr,
          markers := 0, mstall := [], ec := 0, fired := false, atCut := x.atCut || (c.freeze.isSome && g.covered) }))) ∧
    (x.markers < g.min → exec (.markerPass p e) s = .next s) ∧
    (x.tdowns < g.tin → exec (.teardownTokenLeave p e) s = .next s) ∧
    (s.mayLeave p e = true → ∃ t, exec (.teardownTokenLeave p e) s = .next t ∧ (t.elem p e).leaving = true ∧
      ((∀ q ∈ g.edges, 1 ≤ c.free q.2) → t = each g.edges (fun q u => u.place p q.2 ⟨0, 0, 1, 0, false, true, true, false, g.ctx⟩) (s.setElem p e { x with leaving := true }))) ∧
    (∀ n, n < 64 → let open_ := fun (n : Nat) => hasNat x.mstall n = false ∧ ∃ w, g.word (n / 2) = some w ∧ takesPort w (n % 2) = true
      open_ n → (∀ i, i < n → ¬ open_ i) → x.missing = some n) ∧
    (∀ a q b, x.arrived = a ++ q :: b → (∀ r ∈ a, r ∉ c.heldTokens e) → q ∈ c.heldTokens e → q ∉ b → c.oldest e = q.1) ∧
    (g.min ≠ 0 → c.spmax.toNat < x.ec.toNat →
      let port := if 0 < x.markers then (x.missing.getD 0) else c.oldest e
      let v := poisonValue 0x2C p e (port / 2)
      exec (.elementDistanceFault p e) s = .next ((s.setElem p e { x with ec := 0 }).putBoth p
        ⟨recW0 9 0x2C 0 e (port / 2) (port % 2) g.ctx.toNat 0 0 c.vcnNum, v &&& 0x3FFFFFF, v, 0⟩)) ∧
    (g.min = 0 ∨ x.ec.toNat ≤ c.spmax.toNat → exec (.elementDistanceFault p e) s = .next s)) ∧
  (∀ (s : State) (p e : Nat), (s.elem p e).leaving = true →
    let x := s.elem p e
    let c := s.core p
    (x.due ≠ [] → exec (.elementFlip p e) s = .next s) ∧
    (x.due = [] → ∃ t, exec (.elementFlip p e) s = .next t ∧
      let y := t.elem p e
      (∀ f, f ≠ e → t.elem p f = s.elem p f) ∧ (∀ o ∈ (t.core p).overflow, o.e ≠ e ∧ o ∈ c.overflow) ∧
      y.act = x.sh ∧ y.sh = none ∧ y.store = [] ∧ y.matches_ = [] ∧ y.nodes = [] ∧ y.leaving = false ∧ y.tdowns = 0 ∧ y.markers = 0 ∧
      (∀ n k, let stays := ¬ (0x148 ≤ x.op (n / 2) ∧ x.op (n / 2) < 0x14C ∧ n % 2 = 0 ∧ k.ctx = x.ctx) ∧
          ∀ h, x.sh = some h → k.ctx = h.ctx → ∃ w, h.word (n / 2) = some w ∧ takesPort w (n % 2) = true ∧ ¬ (n % 2 = 0 ∧ 0x148 ≤ (opOf w).toNat ∧ (opOf w).toNat < 0x14C)
        (∃ l, (n, l) ∈ y.bufs ∧ k ∈ l) ↔ stays ∧ ∃ l, (n, l) ∈ x.bufs ∧ k ∈ l) ∧
      (∀ h, x.sh = some h → y.k = h.k ∧ y.lfsr = lfsrLoad (Map.get h.k 0 7))) ∧
    (x.due = [] → x.sh = none → x.bufs = [] → x.store = [] → x.matches_ = [] → x.nodes = [] → c.overflow = [] → ∀ ctx, ctx < 16 → c.tearing = [ctx * 64 + e] → e < 64 →
      exec (.elementFlip p e) s = .next (((s.setElem p e { Elem.reset with arrived := x.arrived }).modCore p fun c => { c with tearing := [] }).putRec p ⟨recW0 6 0 0 e 0 0 ctx 0 0 c.vcnNum, 0, 0, 0⟩))) ∧
  ∀ (s : State) (p : Nat) (q : CfgReq) (rest : List CfgReq) (u : State) (x : Nat),
    (s.core p).cfgq = q :: rest → s.imageBytes p q.va (imgLen q.hdr) = (u, .ok x) → (s.core p).stalled (fun r => r.unit == 6) = false →
    let els := (imgElems x q.hdr).1
    ((∃ r ∈ els, (Map.get (s.core p).elems Elem.reset r.1).sh ≠ none) → exec (.configImageLoad p) s = .next s) ∧
    ((∀ r ∈ els, (Map.get (s.core p).elems Elem.reset r.1).sh = none) →
      ((u.core p).imageFails x q.hdr = [] →
        exec (.configImageLoad p) s = .next (each els (fun r v => if (v.elem p r.1).act = none then v.flip p r.1 else v)
          (each els (fun r v => v.modElem p r.1 fun y => { y with sh := some (bankOfRaw q.hdr (imgSpt x q.hdr els).1 r.1 r.2) })
            (u.modCore p fun c => { c with cfgq := rest })))) ∧
      ((u.core p).imageFails x q.hdr ≠ [] →
        exec (.configImageLoad p) s = .next ((each ((u.core p).imageFails x q.hdr) (fun r v =>
          v.putBoth p ⟨recW0 7 r.2.2 0 r.1 r.2.1 0 (imgCtx q.hdr).toNat 6 0 (u.core p).vcnNum, BitVec.ofNat 64 q.va, 0, 0⟩) u).modCore p fun c =>
            { c with cfgq := rest }.unbind (imgCtx q.hdr).toNat)))

/-- An arriving message of an opcode outside its class is discarded with a record to Zusil (log 63). An MSG of C0 to C7 enters its queue while the
class is in QUEUE with room and is then counted as delivered: DLV rises by 1, or becomes 0 for an O message, which raises the phase, and an ACK
is due; a full queue writes it at the ring's tail; a class in HELD refuses it; an O message ahead of its sequence goes to one of 16 holding
entries. An RST makes its 8-byte store in the name of the core, and one whose check fails writes the NETERR record with the cause. A held message
is delivered once DLV equals its sequence. The head of the ring is read into a queue with room. An MSG of C13 is taken at once and counts as the
others do. A MODE 1 class gives its oldest message to an element of column 7 as a token, or removes it with a record where the element does not
take it (logs 64, 65), port a of mdrn with them (log 83, DEDUCED). A handler firing starts with the registers of R90 and takes its message, which
is no poison. (R85, R87, R90, R91, R94, R95, R96, R97, R99, R100, R128, R302) -/
def Obligations.Delivery : Prop :=
  (∀ (s : State) (n : Nat) (e : NetMsg), s.arrivable n = some e →
    let m := e.msg
    let p := s.posOf m.dst.toNat
    let c := s.core p
    let cls := m.cls.toNat
    let x := c.inbound cls
    let src := m.src.toNat
    let out := { s with net := dropNth s.net n }
    let ahead := m.o = true ∧ e.chip = none ∧ Map.get c.dlv 0 src ≠ m.seq
    let open_ := c.withheld cls = false ∧ x.st ≠ .held
    let counts := fun (u : State) => u.delivered p m e.chip
    (m.bad e.chip = true → exec (.msgArrival n) s = .next (out.report (.badMessage m.dst.toNat m.opc))) ∧
    (m.bad e.chip = false → m.opc.toNat = 0 → cls < 8 →
      (¬ open_ → exec (.msgArrival n) s = .next s) ∧
      (open_ → ahead → c.hold.length < 16 → exec (.msgArrival n) s = .next (out.modCore p fun c => { c with hold := c.hold ++ [m] })) ∧
      (open_ → ahead → 16 ≤ c.hold.length → exec (.msgArrival n) s = .next s) ∧
      (open_ → ¬ ahead → x.heldMsg = none → x.q.length < 16 → x.spilled = 0 →
        exec (.msgArrival n) s = .next ((counts (out.modCore p fun c => c.setInbound cls { x with q := x.q ++ [m], st := .queue })).kick 17 p cls)) ∧
      (open_ → ¬ ahead → x.heldMsg = none → 16 ≤ x.q.length ∨ x.spilled ≠ 0 →
        (∀ u, out.spillMsg p cls m = some (u, true) → exec (.msgArrival n) s = .next ((counts u).kick 17 p cls)) ∧
        (out.spillMsg p cls m = none → exec (.msgArrival n) s = .next s))) ∧
    (m.bad e.chip = false → m.opc.toNat = 0 → cls = 13 →
      exec (.msgArrival n) s = .next ((counts (out.modCore p fun c => c.setInbound 13 { x with q := x.q ++ [m] })).kick 17 p 13)) ∧
    (m.bad e.chip = false → m.opc.toNat = 1 → cls < 8 → open_ → ¬ ahead →
      (∀ u v, (counts out).rstStore p m.time.toNat m.value.toNat = (u, .ok v) → exec (.rstDelivery n) s = .next u) ∧
      (∀ u k a h, (counts out).rstStore p m.time.toNat m.value.toNat = (u, .bad k a h) → exec (.rstDelivery n) s = .next (u.netErr p 4 cls m.time (BitVec.ofNat 64 k))) ∧
      (∀ u, (counts out).rstStore p m.time.toNat m.value.toNat = (u, .stall) → exec (.rstDelivery n) s = .next s)) ∧
    (∀ u : State, let t := counts u
      (∀ q, q ≠ p → t.core q = u.core q) ∧ t.net = u.net ∧ t.core p = { u.core p with ph := (t.core p).ph, dlv := (t.core p).dlv, toAck := (u.core p).toAck ++ [(src, m.plane.toNat, m.o, e.chip)] } ∧
      (m.o = false → (t.core p).ph = (u.core p).ph) ∧ (e.chip ≠ none → (t.core p).dlv = (u.core p).dlv) ∧
      (e.chip = none → Map.get (t.core p).dlv 0 src = (if m.o then 0 else Map.get (u.core p).dlv 0 src + 1) ∧ ∀ w, w ≠ src → Map.get (t.core p).dlv 0 w = Map.get (u.core p).dlv 0 w))) ∧
  (∀ (s : State) (p i : Nat) (m : Msg), (s.core p).hold[i]? = some m →
    let c := s.core p
    let cls := m.cls.toNat
    let x := c.inbound cls
    let out := s.modCore p fun c => { c with hold := c.hold.take i ++ c.hold.drop (i + 1) }
    (m.o = true → Map.get c.dlv 0 m.src.toNat ≠ m.seq → exec (.orderedHoldRelease p i) s = .next s) ∧
    (m.o = false ∨ Map.get c.dlv 0 m.src.toNat = m.seq → c.withheld cls = false → x.st ≠ .held →
      (m.opc ≠ 1 → cls < 8 → x.heldMsg = none → x.q.length < 16 → x.spilled = 0 →
        exec (.orderedHoldRelease p i) s = .next (((out.modCore p fun c => c.setInbound cls { x with q := x.q ++ [m], st := .queue }).delivered p m none).kick 17 p cls)) ∧
      (m.opc = 1 → ∀ u v, (out.delivered p m none).rstStore p m.time.toNat m.value.toNat = (u, .ok v) → exec (.orderedHoldRelease p i) s = .next u))) ∧
  (∀ (s : State) (p cls : Nat), cls < 8 →
    let x := (s.core p).inbound cls
    x.heldMsg = none → x.q.length < 16 → ∀ (old : Bool) (r : Ring), (old = true ∧ 0 < ringCount x.old ∧ x.old = some r) ∨ (old = false ∧ ringCount x.old = 0 ∧ 0 < ringCount x.cur ∧ x.cur = some r) →
      (∀ u v, s.ringAccess p (r.va r.head) none = (u, .ok v) →
        let r' := some { r with head := (r.head + 1) % r.size, count := r.count - 1 }
        let y := (u.core p).inbound cls
        let z := { y with q := y.q ++ [Msg.ofImage v], cur := if old then y.cur else r', old := if old then r' else y.old }
        let w := if z.spilled = 0 ∧ z.st = .spill ∧ z.heldMsg = none then { z with st := .queue } else z
        exec (.inboundQueueRefill p cls) s = .next ((u.modCore p fun c => c.setInbound cls w).kick 17 p cls)) ∧
      (∀ u k, s.ringAccess p (r.va r.head) none = (u, .bad k) → (s.core p).eqRoom = true → exec (.inboundQueueRefill p cls) s = .next (u.enterHeld p cls k none))) ∧
  (∀ (s : State) (p cls : Nat) (m : Msg) (rest : List Msg), ((s.core p).inbound cls).q = m :: rest →
    let c := s.core p
    let h := c.handler cls
    let e := (m.cont.extractLsb' 6 6).toNat
    let slot := (m.cont.extractLsb' 1 5).toNat
    let port := bit (m.cont.getLsbD 0)
    let taken := s.modCore p fun c => c.setInbound cls { c.inbound cls with q := rest }
    let drains := fun (w : Word) => port = 0 ∧ 0x148 ≤ (opOf w).toNat ∧ (opOf w).toNat < 0x14C
    h.mode = true → h.en = true → c.withheld cls = false →
    (e % 8 ≠ 7 → exec (.fabricDelivery p cls) s = .next (taken.netErr p 2 cls (m.cont.setWidth 64) 0)) ∧
    (e % 8 = 7 → (s.elem p e).act = none → exec (.fabricDelivery p cls) s = .next s) ∧
    ∀ g, e % 8 = 7 → (s.elem p e).act = some g →
      ((∀ w, g.word slot = some w → takesPort w port = false ∨ drains w) → exec (.fabricDelivery p cls) s = .next (taken.netErr p 2 cls (m.cont.setWidth 64) 0)) ∧
      (∀ w, g.word slot = some w → takesPort w port = true → ¬ drains w →
        (c.free (1#1 ++ m.cont) = 0 → exec (.fabricDelivery p cls) s = .next s) ∧
        (0 < c.free (1#1 ++ m.cont) →
          exec (.fabricDelivery p cls) s = .next (taken.modElem p e fun y => y.putBuf (portKey slot port) ⟨m.value, m.time, m.diff, m.path, m.p, m.m, m.l, false, g.ctx⟩)))) ∧
  ∀ (s : State) (p cls n a : Nat) (m : Msg) (rest : List Msg), (s.core p).ctl.head = some (n, ⟨.handler cls none, a⟩) → ((s.core p).inbound cls).q = m :: rest →
    let x := (s.core p).ctl
    (m.p = true → exec (.handlerFiringStart p cls) s = .next s) ∧
    (m.p = false → x.run = none → x.stop = none → (s.core p).freeze = none → (s.core p).resumeWait = false → n < 4 →
      ∃ t, exec (.handlerFiringStart p cls) s = .next t ∧ ((t.core p).inbound cls).q = rest ∧
        let y := (t.core p).ctl
        y.run = some (.handler cls (some m)) ∧ y.pc = ((s.core p).handler cls).haddr.setWidth 64 ∧ y.spcount = 0 ∧ y.lpa = false ∧ y.prio.toNat = n ∧
        y.gr 1 = m.value ∧ y.gr 2 = m.src.setWidth 64 ∧ y.gr 3 = m.diff.signExtend 64 ∧ y.tr 0 = m.time ∧
        (∀ r, r ≠ 1 → r ≠ 2 → r ≠ 3 → y.gr r = x.gr r) ∧ (∀ r, r ≠ 0 → y.tr r = x.tr r) ∧
        Map.get y.ready [] n = (Map.get x.ready [] n).drop 1 ∧ ∀ l, l ≠ n → Map.get y.ready [] l = Map.get x.ready [] l)

/-- A message arrives when its source does not hold it and no earlier one of its source, destination, plane and class, or for the counted classes of
its module's source and destination, is still in flight. One ACK covers 1 to 511 deliveries of one source on one plane, all from one module and
none of them O, or one O delivery alone; it goes back on C13 and the same plane with their number in DIFF, or as three flits to the other module.
An ACK that arrives lowers UNA of its VCN and the plane's count, ends the wait behind an O message when it is that message's own, or everything
sent to the VCN is then acknowledged, and lowers the count of messages to other modules when it comes from one (log 61, DEDUCED). An ACK to
another module counts as a message off the die. A NAK from another module, which names the two VCNs exchanged (log 62), writes its record while
the event queue has room and only then counts, and waits in its slot without room. (R83, R86, R92, R97, R288, R352, R375, R376) -/
def Obligations.Acknowledging : Prop :=
  (∀ (s : State) (n : Nat) (e : NetMsg), s.net[n]? = some e → e.held = false →
    let before := fun (f : NetMsg) => f.msg.src = e.msg.src ∧ f.msg.dst = e.msg.dst ∧
      ((f.msg.plane = e.msg.plane ∧ f.msg.cls = e.msg.cls) ∨ (e.chip ≠ none ∧ f.chip = e.chip ∧ f.msg.cls.toNat < 8 ∧ e.msg.cls.toNat < 8))
    ((∃ f ∈ s.net.take n, before f) → s.arrivable n = none) ∧ ((∀ f ∈ s.net.take n, ¬ before f) → s.arrivable n = some e)) ∧
  (∀ (s : State) (p src plane count : Nat) (o : Bool) (chip : Option Nat),
    let c := s.core p
    let l := (c.toAck.filter fun e => e.1 == src && e.2.1 == plane).take count
    0 < count → count < 512 → l.length = count → (∀ e ∈ l, e.2.2 = (o, chip)) → (o = true → count = 1) →
      let u := s.setCore p { c with toAck := uncover c.toAck src plane count }
      let m := { u.blank p 13 2 src with plane := BitVec.ofNat 2 plane, diff := BitVec.ofNat 32 count, o := o }
      (uncover c.toAck src plane count).length + count = c.toAck.length ∧
      ((uncover c.toAck src plane count).filter fun e => ¬ (e.1 = src ∧ e.2.1 = plane)) = (c.toAck.filter fun e => ¬ (e.1 = src ∧ e.2.1 = plane)) ∧
      (chip = none → relocRmt (s.relocOf m.dst.toNat) = false → ∃ t, exec (.ackSend p src plane count) s = .next t ∧ SentUncounted u t p none m) ∧
      (∀ ch, chip = some ch → exec (.ackSend p src plane count) s = .next { (u.modCore p fun c => { c with sw := { c.sw with x := inc32 c.sw.x } }) with hub := { s.hub with
        sent := s.hub.sent ++ [((Map.get u.hub.routes none ch).getD 0,
          [m.header.extractLsb' 0 64, m.header.extractLsb' 64 64, m.payload.extractLsb' 0 64, m.payload.extractLsb' 64 64, 0,
            (BitVec.ofNat 12 ch ++ BitVec.ofNat 12 s.hub.chip ++ 0#104 : BitVec 128).extractLsb' 64 64])] } })) ∧
  (∀ (s : State) (n : Nat) (e : NetMsg), s.arrivable n = some e → e.msg.cls = 13 → e.msg.opc.toNat = 2 →
    let p := s.posOf e.msg.dst.toNat
    let v := e.msg.src.toNat
    let k := e.msg.diff.toNat
    let q := e.msg.plane.toNat
    ∃ t, exec (.ackArrival n) s = .next t ∧ t = { s with net := dropNth s.net n, cores := t.cores } ∧ (∀ r, r ≠ p → t.core r = s.core r) ∧
      t.core p = { s.core p with out := (t.core p).out, plane := (t.core p).plane, offUna := if e.chip = none then (s.core p).offUna else (s.core p).offUna - k } ∧
      ((t.core p).outOf v).una = ((s.core p).outOf v).una - k ∧ ((t.core p).outOf v).snt = ((s.core p).outOf v).snt ∧
      (((t.core p).outOf v).oWait = true ↔ ((s.core p).outOf v).oWait = true ∧ e.msg.o = false ∧ ((s.core p).outOf v).una ≠ k) ∧ (∀ w, w ≠ v → (t.core p).outOf w = (s.core p).outOf w) ∧
      Map.get (t.core p).plane 0 q = Map.get (s.core p).plane 0 q - k ∧ ∀ r, r ≠ q → Map.get (t.core p).plane 0 r = Map.get (s.core p).plane 0 r) ∧
  ∀ (s : State) (n : Nat) (e : NetMsg), s.arrivable n = some e → e.msg.cls = 13 → e.msg.opc.toNat = 3 → e.chip ≠ none →
    let p := s.posOf e.msg.dst.toNat
    let v := e.msg.src.toNat
    (s.core p).naks = [] →
    let u := { s with net := dropNth s.net n }
    ((s.core p).eqRoom = false → exec (.nakArrival n) s = .next (u.modCore p fun c => { c with naks := [e.msg] })) ∧
    ((s.core p).eqRoom = true → exec (.nakArrival n) s = .next ((u.netErr p 1 13 (BitVec.ofNat 64 v) 0).modCore p fun c => c.acked v e.msg.plane.toNat 1 e.msg.o true))

/-- A dispatch that arrives makes its continuation READY. A spawn that arrives takes a FREE entry (log 24, DESIGN CHOICE), WAIT while its counter is
above 0, and answers its reference with DIFF 1, or 0 and DIFF 0 when the table is full. A reference completes the spawn that waits for it and
sends the enqueue that waits behind it; a refused spawn is kept and sent again after 256 cycles. A decrement lowers a counter and releases a WAIT
entry at 0; a set writes it; a counter at 0 or a reference to no live counter draws a DEPUNDER record. An actor in IDLE whose counter is 0 and
whose counts reach their rates becomes READY and consumes. An idle scalar core with a cohort asks for work and reserves an entry. A firing that
has waited AGE cycles moves to the tail of the next level. The head of the highest level starts with the registers of its kind. (R86, R118, R294,
R296, R297, R298, R299, R300, R301, R302, R304, R311) -/
def Obligations.EscapementEvents : Prop :=
  (∀ (s : State) (n : Nat) (e : NetMsg), s.arrivable n = some e → e.msg.cls = 13 →
    let m := e.msg
    let p := s.posOf m.dst.toNat
    let c := s.core p
    let out := { s with net := dropNth s.net n }
    (m.opc.toNat = 4 → exec (.fdsp n) s = .next (out.modCore p fun c =>
      c.dispatch ⟨m.time, m.value, (m.path.extractLsb' 0 2 ++ m.cont ++ 0#2 : BitVec 16), m.path.extractLsb' 2 2, m.diff, m.phase⟩)) ∧
    (∀ f : FutSlot, let mine := fun (i : Nat) => Map.get c.futs .free i = .sent f.va f.entry f.prio f.arg
      ((∀ i, i < 64 → ¬ mine i) → c.dispatch f = c.enqueue .control f.prio.toNat (.future f)) ∧
      ∀ i, i < 64 → mine i → (∀ j, j < i → ¬ mine j) →
        c.dispatch f = { c with futs := Map.put c.futs i .free }.enqueue .control f.prio.toNat (.future f)) ∧
    (m.opc.toNat = 5 → m.cont.extractLsb' 0 2 = 0 → s.local m.src.toNat = true → ∀ u l, s.takeParts n 4 e = (u, l) →
      let replies := fun (v : State) (value : Word) (taken : BitVec 32) => ∃ t : State, exec (.spwn n) s = .next t ∧
        t = { v with cores := t.cores, net := v.net ++ [⟨{ v.blank p 13 6 m.src.toNat with value := value, diff := taken }, false, false, e.issuer, none, l⟩] } ∧
        (∀ q, q ≠ p → t.core q = v.core q) ∧ t.core p = { v.core p with sw := (v.core p).sw.count p (s.posOf m.src.toNat) }
      (∀ x i, (u.core p).takeSpawn (wordsOfParts l) = some (x, i) → replies (u.setCore p x) (x.refTo i) 1) ∧
      ((u.core p).takeSpawn (wordsOfParts l) = none → replies u 0 0)) ∧
    (m.opc.toNat = 6 →
      let mine := fun (r : Retry) => r.issuer = e.issuer ∧ r.parts = e.parts ∧ r.refused = false
      ((∀ r ∈ c.retry, ¬ mine r) → exec (.spref n) s = .next out) ∧
      ∀ a r b, c.retry = a ++ r :: b → mine r → (∀ q ∈ a, ¬ mine q) →
        (m.diff = 0 → exec (.spref n) s = .next (out.modCore p fun c => { c with retry := a ++ ⟨0, e.issuer, e.parts, true⟩ :: b })) ∧
        ∀ k, m.diff ≠ 0 → e.issuer = some k →
          let v := m.src.toNat
          let here := fun (q : Kind × List Msg) => q.1 = k ∧ partsDst q.2 = v
          let completes := fun (t : State) =>
            (∀ d x rest, (s.scal p k).wait = some (.spawnRef d) → e.parts = x :: rest → x.cont.getLsbD 2 = true →
              exec (.spref n) s = .next (t.modScal p k fun y => ({ y with wait := none }.setG d m.value).advance)) ∧
            ((∀ d, (s.scal p k).wait ≠ some (.spawnRef d)) → exec (.spref n) s = .next t)
          (((∃ q ∈ a ++ b, q.issuer = some k ∧ partsDst q.parts = v) ∨ ∀ q ∈ c.behind, ¬ here q) → completes (out.modCore p fun c => { c with retry := a ++ b })) ∧
          ∀ a' l b', c.behind = a' ++ (k, l) :: b' → partsDst l = v → (∀ q ∈ a' ++ b', ¬ here q) → s.local v = true → (∀ x ∈ l, x.dst.toNat = v ∧ x.cls = 13) →
            (∀ q ∈ a ++ b, ¬ (q.issuer = some k ∧ partsDst q.parts = v)) →
            ∃ t, Enqueued (out.modCore p fun c => { c with retry := a ++ b, behind := a' ++ b' }) t p k v l ∧ completes t) ∧
    (∀ i op, (i, op) ∈ [(Instr.cntopDecrement n, 0), (.cntopSet n, 1), (.cntopAdd n, 2)] → m.opc.toNat = 7 → (m.cont.extractLsb' 0 2).toNat = op →
      (let r := m.value
        let j := refEntry r
        let t := c.task j
        let sel := refSel r
        let live := r.extractLsb' 18 6 = t.gen ∧ t.st ≠ .free ∧ (sel = 0 ∨ (t.actor = true ∧ sel ≤ 4))
        let becomes := fun (d : Core) => exec i s = .next (out.setCore p d)
        let under := exec i s = .next (out.putRec p ⟨recW0 0x0A 0 0 0 0 0 0 7 0 c.vcnNum, BitVec.ofNat 64 (m.src.toNat % 1024 * 2 ^ 32) ||| (r.extractLsb' 0 27).setWidth 64, 0, 0⟩)
        let count := fun (x : BitVec 16) => c.setTask j { t with cnt := x }
        let input := fun (x : BitVec 16) => (c.setTask j { t with inp := Map.put t.inp (sel - 1) x }).evaluate j
        (¬ live → under) ∧
        (live → sel = 0 →
          (op = 0 → t.cnt = 0 → under) ∧
          (op = 0 → 1 < t.cnt.toNat → becomes (count (t.cnt - 1))) ∧
          (op = 0 → t.cnt = 1 → t.st = .wait → t.actor = false → becomes (((c.setTask j { t with cnt := 0, st := .ready }).enqueue t.kind t.prio.toNat (.task j)))) ∧
          (op = 0 → t.cnt = 1 → t.st = .wait → t.actor = true → becomes ((c.setTask j { t with cnt := 0, st := .idle }).evaluate j)) ∧
          (op = 0 → t.cnt = 1 → t.st ≠ .wait → becomes ((count 0).evaluate j)) ∧
          (op = 2 → becomes ((count (BitVec.ofNat 16 (min 65535 (t.cnt.toNat + m.time.toNat)))).release j)) ∧
          (op = 1 → t.st ≠ .wait → exec i s = .next out) ∧
          (op = 1 → t.st = .wait → m.time.extractLsb' 0 16 ≠ 0 → becomes (count (m.time.extractLsb' 0 16))) ∧
          (op = 1 → t.st = .wait → m.time.extractLsb' 0 16 = 0 → becomes ((count 0).release j))) ∧
        (live → sel ≠ 0 →
          (op = 0 → t.input (sel - 1) = 0 → under) ∧
          (op = 0 → t.input (sel - 1) ≠ 0 → becomes (input (BitVec.ofNat 16 (t.input (sel - 1) - 1)))) ∧
          (op = 1 → becomes (input (m.time.extractLsb' 0 16))) ∧
          (op = 2 → becomes (input (BitVec.ofNat 16 (min 65535 (t.input (sel - 1) + m.time.toNat))))))))) ∧
  (∀ (s : State) (p i : Nat) (r : Retry), (s.core p).retry[i]? = some r →
    (r.age < 256 ∨ r.refused = false → exec (.spawnRetry p i) s = .next s) ∧
    (256 ≤ r.age → r.refused = true → (∀ m ∈ r.parts, s.local m.dst.toNat = true ∧ m.cls = 13) →
      ∃ t : State, exec (.spawnRetry p i) s = .next t ∧ (∀ q, q ≠ p → t.core q = s.core q) ∧
        t = { s with cores := t.cores, net := s.net ++ r.parts.map fun m => ⟨m, false, false, r.issuer, none, []⟩ } ∧
        t.core p = { s.core p with sw := (t.core p).sw, retry := setNth (s.core p).retry i { r with refused := false } })) ∧
  (∀ (c : Core) (j : Nat),
    let t := c.task j
    let fires := t.st = .idle ∧ t.actor = true ∧ t.cnt = 0 ∧ ∀ i, i < 4 → t.rate i ≤ t.input i
    (¬ fires → c.evaluate j = c) ∧
    (fires → ∃ inp, c.evaluate j = (c.setTask j { t with inp := inp, st := .ready }).enqueue t.kind t.prio.toNat (.task j) ∧
      ∀ i, i < 4 → (Map.get inp 0 i).toNat = t.input i - t.rate i)) ∧
  ∀ (s : State) (p : Nat) (k : Kind),
    let c := s.core p
    let x := s.scal p k
    (x.run = none → x.head = none → c.cmask ≠ 0 → x.asking = none → x.askAge = 0 ∨ 1024 < x.askAge → c.freeze = none → ∀ e, c.freeEntry = some e →
      let u := s.setCore p ((c.setTask e { c.task e with reserved := true }).modScal k fun y => { y with asking := some e, askAge := 1 })
      (c.vcn = some 0 → exec (.workRequestTimer p k) s = .next (u.keeperWork 0 k)) ∧
      (c.vcn ≠ some 0 → s.local 0 = true → ∃ t m, exec (.workRequestTimer p k) s = .next t ∧ SentUncounted u t p (some k) m ∧ m.dst = 0 ∧ m.cls = 13 ∧ m.opc = 8 ∧ m.plane = 0 ∧
        m.cont = 5 ∧ m.value = BitVec.ofNat 64 k.code ∧ m.time = 0 ∧ m.phase = c.ph.extractLsb' 0 24)) ∧
    (c.freeEntry = none → exec (.workRequestTimer p k) s = .next s) ∧
    (∀ level i e, (Map.get x.ready [] level)[i]? = some e → c.age.toNat ≤ e.age → (∀ f ∈ (Map.get x.ready [] level).take i, f.age < c.age.toNat) →
      (level < 3 → ∃ t : State, exec (.readyAging p k level) s = .next t ∧ OnlyScalar s t p k ∧ t.scal p k = { x with ready := (t.scal p k).ready } ∧
        Map.get (t.scal p k).ready [] level = dropNth (Map.get x.ready [] level) i ∧
        Map.get (t.scal p k).ready [] (level + 1) = Map.get x.ready [] (level + 1) ++ [⟨e.id, 0⟩] ∧
        ∀ l, l ≠ level → l ≠ level + 1 → Map.get (t.scal p k).ready [] l = Map.get x.ready [] l) ∧
      (3 ≤ level → exec (.readyAging p k level) s = .next s)) ∧
    ∀ n e, x.head = some (n, e) → n < 4 → (∀ cls, e.id ≠ .handler cls none) → x.run = none → x.stop = none → c.freeze = none → c.resumeWait = false →
      ∃ t, exec (.firingStart p k) s = .next t ∧
        let y := t.scal p k
        y.run = some e.id ∧ y.spcount = 0 ∧ y.lpa = false ∧ y.prio.toNat = n ∧ y.prioSet = false ∧ y.wait = none ∧ Map.get y.ready [] n = (Map.get x.ready [] n).drop 1 ∧
        (∀ l, l ≠ n → Map.get y.ready [] l = Map.get x.ready [] l) ∧ (∀ q, q ≠ k → t.scal p q = s.scal p q) ∧
        (e.id = .launch → y.pc = 0 ∧ (∀ r, y.gr r = 0) ∧ ∀ r, y.tr r = 0) ∧
        (e.id ≠ .launch → (∀ r, r ≠ 1 → r ≠ 2 → r ≠ 3 → y.gr r = x.gr r) ∧ ∀ r, r ≠ 0 → y.tr r = x.tr r) ∧
        (∀ j, e.id = .task j → y.pc = ((c.task j).entry.setWidth 64) ∧ y.gr 1 = (c.task j).arg ∧ y.gr 3 = x.gr 3 ∧ ((t.core p).task j).st = .run ∧
          ((c.task j).range = none → y.gr 2 = c.refTo j) ∧ ∀ q h, (c.task j).range = some (q, h) → y.gr 2 = BitVec.ofNat 64 (h % 64)) ∧
        (∀ f, e.id = .future f → y.pc = f.entry.setWidth 64 ∧ y.gr 1 = f.value ∧ y.gr 2 = f.arg.setWidth 64 ∧ y.gr 3 = f.va ∧
          (t.core p).ph = raisePhase c.ph f.phase (Config.freeWord s.free)) ∧
        (∀ h b, e.id = .barrier h b → y.pc = b.entry.setWidth 64 ∧ y.gr 1 = b.arg.setWidth 64 ∧ y.gr 2 = BitVec.ofNat 64 (h % 64) ∧
          (t.core p).ph = raisePhase c.ph b.phase (Config.freeWord s.free))

/-- At the keeper cjoin and cleave change the cohort's members, a barrier arrival enters the arrival set, and a barrier whose members have all
arrived sends its completion to every core in the set and empties it. A range opens with one piece held by its opener; while the cohort has four
the keeper keeps the opening and applies it after a release. A claim advances the piece by the grain, or by what is left, and answers both ends;
a claim of no piece answers two zeros. A request for work is given a free piece, or half of the largest piece that can be split, or none. A
released piece is freed, or removed when it is used up, and the last one decrements DONE. Every reply carries the keeper's phase, but a
completion the barrier's, and its subop and part stand in header bits [105:102] and [107:106]. At a core a completion frees the slot and makes
the continuation READY, the opening of a range places its firing and completes rng, a claim's reply writes the register pair, a granted piece
becomes a firing in the reserved entry, and no work ends the reservation. (R86, R291, R304, R306, R307, R308, R309, R310, R311, R312) -/
def Obligations.KeeperEvents : Prop :=
  (∀ (s : State) (n : Nat) (e : NetMsg), s.arrivable n = some e → e.msg.cls = 13 → e.msg.opc.toNat = 8 →
    let m := e.msg
    let v := m.src.toNat
    let h := m.value.toNat % 64
    let k := e.issuer.getD .control
    let sub := (m.cont.extractLsb' 0 4).toNat
    let out := { s with net := dropNth s.net n }
    let ph := (s.core (s.posOf 0)).ph.extractLsb' 0 24
    let replaced := fun (pid : BitVec 16) (f : Piece → List Piece) =>
      s.ranges.map fun r => { r with pieces := (r.pieces.map fun q => if q.pid = pid then f q else [q]).flatten }
    let gives := fun (v : Nat) (kd : Kind) (r : RangeTask) (lo hi : Word) (pid : BitVec 16) (u : State) => u.keeperAnswer v kd
      (fun c => c.granted kd r.arg r.entry r.prio r.cohort pid) 3 [(lo, hi), (r.arg, BitVec.ofNat 64 (pid.toNat * 2 ^ 32 + r.cohort * 2 ^ 18 + r.prio.toNat * 2 ^ 16 + r.entry.toNat))] ph
    (let q := s.cohort h
      let members := fun (l : List Nat) => ({ out with cohorts := Map.put s.cohorts h { q with members := l } } : State)
      (sub = 0 → exec (.kreqCjoin n) s = .next ((members (insertNat q.members v)).testBarrier h)) ∧
      (sub = 1 → exec (.kreqCleave n) s = .next ((members (eraseNat q.members v)).testBarrier h)) ∧
      (sub = 2 → exec (.kreqCbar n) s = .next (out.keeperArrive v h m.phase)) ∧
      (sub = 2 → q.arrived = [] → exec (.kreqCbar n) s = .next ({ out with cohorts := Map.put s.cohorts h { q with
        arrived := [v], base := BitVec.ofNat 64 (2 ^ 32 + m.phase.toNat), x := BitVec.ofNat 64 (2 ^ 32 + m.phase.toNat) } }.testBarrier h)) ∧
      (sub = 3 → m.cont.extractLsb' 4 2 = 0 → ∀ u l, s.takeParts n 4 e = (u, l) →
        let w := wordsOfParts l
        let f := fun i => (nth w i).getD 0
        let g := ((f 2).extractLsb' 20 6).toNat
        (4 ≤ (u.rangesOf g).length → exec (.kreqRngOpen n) s = .next { u with opens := u.opens ++ [⟨v, k, w⟩] }) ∧
        ((u.rangesOf g).length < 4 → exec (.kreqRngOpen n) s = .next ({ u with
          ranges := u.ranges ++ [({
            cohort := g, kind := Kind.ofCode ((f 2).extractLsb' 18 2).toNat, prio := (f 2).extractLsb' 16 2, entry := (f 2).extractLsb' 0 16, arg := f 3,
            done := (if (f 4).getLsbD 63 then some ((f 4).extractLsb' 0 27) else none), grain := ((f 2).extractLsb' 32 32).setWidth 64, pieces := [⟨u.freshPid, f 0, f 1, some v⟩] } : RangeTask)] }.keeperAnswer v k (fun c => c.rangeOpened k u.freshPid) 1 [(u.freshPid.setWidth 64, 0)] ph))) ∧
      (sub = 4 →
        let pid := m.value.extractLsb' 0 16
        (findPiece s.ranges pid = none → exec (.kreqRngClaim n) s = .next (out.keeperAnswer v k (fun c => c.claimed k 0 0) 2 [(0, 0)] ph)) ∧
        (∀ r p, findPiece s.ranges pid = some (r, p) →
          let x := p.lo + BitVec.ofNat 64 (min r.grain.toNat (p.hi.toNat - p.lo.toNat))
          exec (.kreqRngClaim n) s = .next ({ out with ranges := replaced pid fun p => [{ p with lo := x }] }.keeperAnswer v k (fun c => c.claimed k p.lo x) 2 [(p.lo, x)] ph))) ∧
      (sub = 5 →
        let kd := Kind.ofCode (m.value.extractLsb' 0 2).toNat
        let free := firstOf (s.workPieces v kd) fun x => x.2.holder.isNone
        (∀ r p, free = some (r, p) → exec (.kreqWorkRequest n) s = .next
          (gives v kd r p.lo p.hi p.pid { out with ranges := replaced p.pid fun p => [{ p with holder := some v }] })) ∧
        (∀ r p, free = none → largestPiece (s.workPieces v kd) none = some (r, p) →
          let mid := p.lo + BitVec.ofNat 64 ((p.hi.toNat - p.lo.toNat + 1) / 2)
          exec (.kreqWorkRequest n) s = .next (gives v kd r mid p.hi s.freshPid
            { out with ranges := replaced p.pid fun p => [{ p with hi := mid }, ⟨s.freshPid, mid, p.hi, some v⟩] })) ∧
        (∀ r p, largestPiece (s.workPieces v kd) none = some (r, p) →
          let splits := fun (x : RangeTask × Piece) => x.2.holder ≠ none ∧ 2 * x.1.grain.toNat ≤ x.2.hi.toNat - x.2.lo.toNat
          (r, p) ∈ s.workPieces v kd ∧ splits (r, p) ∧ ∀ x ∈ s.workPieces v kd, splits x → x.2.hi.toNat - x.2.lo.toNat ≤ p.hi.toNat - p.lo.toNat) ∧
        (free = none → largestPiece (s.workPieces v kd) none = none → exec (.kreqWorkRequest n) s = .next (out.keeperAnswer v kd (fun c => c.noWork kd) 4 [(0, 0)] ph))) ∧
      (sub = 6 →
        let l := replaced (m.value.extractLsb' 0 16) fun q => if q.lo = q.hi then [] else [{ q with holder := none }]
        let u := { out with ranges := l.filter fun r => r.pieces ≠ [] }
        ((∀ r ∈ l, r.pieces ≠ []) → s.opens = [] → exec (.kreqPieceRelease n) s = .next u) ∧
        ∀ r, (l.filter fun r => r.pieces = []) = [r] →
          (r.done = none → s.opens = [] → exec (.kreqPieceRelease n) s = .next u) ∧
          (∀ d, r.done = some d → s.opens = [] → ∃ t, exec (.kreqPieceRelease n) s = .next t ∧ Counted u t (s.posOf 0) .control 0 (d.setWidth 64) 0) ∧
          ∀ o, r.done = none → s.opens = [o] →
            (∀ t, { u with opens := [] }.keeperOpen o.vcn o.kind o.words = some t → exec (.kreqPieceRelease n) s = .next t) ∧
            ({ u with opens := [] }.keeperOpen o.vcn o.kind o.words = none → exec (.kreqPieceRelease n) s = .next u)))) ∧
  (∀ (s : State) (v : Nat) (k : Kind) (own : Core → Core) (sub : Nat) (w : List (Word × Word)) (phase : BitVec 24),
    (v = 0 → s.keeperAnswer v k own sub w phase = s.modCore (s.posOf 0) own) ∧
    (v ≠ 0 → v < 1024 → s.local v = true → ∃ (t : State) (m : Msg), s.keeperAnswer v k own sub w phase = t ∧
      m.dst.toNat = v ∧ m.cls = 13 ∧ m.opc = 9 ∧ m.phase = phase ∧ (∀ q, q ≠ s.posOf 0 → t.core q = s.core q) ∧
      t.core (s.posOf 0) = { s.core (s.posOf 0) with sw := (t.core (s.posOf 0)).sw } ∧
      t = { s with cores := t.cores, net := s.net ++ (List.range w.length).map fun i => ⟨{ m with
        value := ((w[i]?).getD (0, 0)).1, time := ((w[i]?).getD (0, 0)).2, cont := BitVec.ofNat 12 (sub % 16 + 16 * (i % 4)) }, false, false, some k, none, []⟩ })) ∧
  (∀ (s : State) (h : Nat),
    let q := s.cohort h
    ((q.arrived = [] ∨ ∃ v ∈ q.members, v ∉ q.arrived) → s.testBarrier h = s) ∧
    (q.arrived ≠ [] → (∀ v ∈ q.members, v ∈ q.arrived) → s.testBarrier h = each q.arrived (fun v u => u.keeperAnswer v .control (fun c => c.barrierDone h (q.x.extractLsb' 0 24)) 0
      [(BitVec.ofNat 64 h, 0)] (q.x.extractLsb' 0 24)) { s with cohorts := Map.put s.cohorts h { q with arrived := [], base := 0, x := 0 } })) ∧
  ∀ (s : State) (n : Nat) (e : NetMsg), s.arrivable n = some e → e.msg.cls = 13 → e.msg.opc.toNat = 9 →
    let m := e.msg
    let p := s.posOf m.dst.toNat
    let c := s.core p
    let k := e.issuer.getD .control
    let sub := (m.cont.extractLsb' 0 4).toNat
    let out := { s with net := dropNth s.net n }
    let becomes := fun (i : Instr) (d : Core) => exec i s = .next (out.setCore p d)
    let h := m.value.toNat % 64
    (∀ b, sub = 0 → Map.find c.bars h = some b → let b' := { b with phase := m.phase }
      becomes (.krepBarrierCompletion n) ({ c with amask := c.amask &&& ~~~(1#64 <<< h), bars := Map.del c.bars h }.enqueue b.kind b.prio.toNat (.barrier h b'))) ∧
    (∀ j, sub = 1 → (c.scal k).wait = some (.rngOpen j) → let t := c.task j
      becomes (.krepRangeOpened n) (((c.setTask j { t with reserved := false, range := t.range.map fun r => (m.value.extractLsb' 0 16, r.2), st := .ready }).enqueue t.kind t.prio.toNat (.task j)).modScal k fun x =>
        { x with wait := none }.advance)) ∧
    (∀ d, sub = 2 → (c.scal k).wait = some (.rngClaim d) → becomes (.krepClaimReply n) (c.modScal k fun x => ({ x with wait := none }.setG d m.value |>.setG (d + 1) m.time).advance)) ∧
    (∀ j u a b, sub = 3 → m.cont.extractLsb' 4 2 = 0 → s.takeParts n 2 e = (u, [a, b]) → ((u.core p).scal k).asking = some j →
      let t := (u.core p).task j
      exec (.krepPieceGranted n) s = .next (u.setCore p ((((u.core p).modScal k fun x => { x with asking := none }).setTask j { t with
        reserved := false, actor := false, kind := k, prio := b.time.extractLsb' 16 2, entry := b.time.extractLsb' 0 16, arg := b.value, done := none
        rates := 0, out0 := 0, out1 := 0, cnt := 0, range := some (b.time.extractLsb' 32 16, (b.time.extractLsb' 18 6).toNat) }).ready j))) ∧
    (∀ j, sub = 4 → (c.scal k).asking = some j → becomes (.krepNoWork n) ((c.modScal k fun x => { x with asking := none }).setTask j { c.task j with reserved := false }))

/-- The oldest queued command of an engine starts when no other is under way; at the collective port several may be, and a send's open leaves for the
switches (log 59). The first open at a switch writes the table, with the DTH that its destination's core holds then; a later one that disagrees
sets ERR, ends its child and goes no further. The oldest started command retires when every access of it has been performed: with an error it
writes a record of kind 2 with the cause and the address, else one of kind 1 unless QUIET = 1, and it keeps its entry without room in the event
queue. A unit of cpy is read at D0 and written at D1, held with a record of kind 3 where V = 0, and a row of scat waits for earlier rows of its
table row (log 55). The oldest packet of a stream goes to the running receive of its core, which takes as many entries as it has capacity for. A
switch whose member children have each brought a packet or are finished merges those of the smallest BASE; the packet keeps class C(8 + stream
mod 4) and plane P(stream / 4) and goes to the parent, behind the opens of its stream, or from the root to the destination, and a stream whose
children are all finished is forgotten. A probe reads and writes the registers of a halted scalar core (general, time, system, shadow, pc), its
instruction store, and MB0, refuses a bad time, an unknown number and an address outside the store, and changes nothing of a running one. A
rewalk takes up every held access: an engine's units go on (log 60); a port's access stays held while its address has no translation, is held
again with a record where another has none, fails, or is accepted. (R9, R71, R98, R104, R105, R131, R135, R139, R141, R145, R146, R382) -/
def Obligations.EngineEvents : Prop :=
  (∀ (s : State) (p eng : Nat) (q : Cmd) (rest : List Cmd),
    let g := (s.core p).engine eng
    g.queue = q :: rest →
      let u := s.modCore p fun c => c.setEngine eng ⟨rest, g.runs ++ [q.start]⟩
      (eng < 3 → g.runs = [] → exec (.engineCommandStart p eng) s = .next u) ∧
      (eng < 3 → g.runs ≠ [] → exec (.engineCommandStart p eng) s = .next s) ∧
      (eng = 3 → exec (.engineCommandStart p eng) s = .next (if q.receives then u else { u with strmOpens := u.strmOpens ++ [⟨p, 1, q⟩] }))) ∧
  (∀ (s : State) (p eng : Nat) (r : EngRun) (rest : List EngRun),
    let c := s.core p
    let g := c.engine eng
    g.runs = r :: rest →
      let retired := (c.setEngine eng ⟨g.queue, rest⟩).notePub r.wts
      let records := fun (q : Rec) => (c.eqRoom = true → exec (.engineCommandComplete p eng) s = .next (s.setCore p (retired.putRec q))) ∧
        (c.eqRoom = false → exec (.engineCommandComplete p eng) s = .next s)
      (r.fin = false → exec (.engineCommandComplete p eng) s = .next s) ∧
      (∀ k va, r.fin = true → r.err = some (k, va) → records ⟨r.w0 2 k eng c.vcnNum, BitVec.ofNat 64 va, BitVec.ofNat 64 r.w2, BitVec.ofNat 64 r.w3⟩) ∧
      (r.fin = true → r.err = none → r.cmd.word.getLsbD 21 = false → records ⟨r.w0 1 0 eng c.vcnNum, r.cmd.desc, BitVec.ofNat 64 r.w2, BitVec.ofNat 64 r.w3⟩) ∧
      (r.fin = true → r.err = none → r.cmd.word.getLsbD 21 = true → exec (.engineCommandComplete p eng) s = .next (s.setCore p retired))) ∧
  (∀ (s : State) (p n i : Nat) (k : Pkt) (r : EngRun),
    let runs := ((s.core p).engine 3).runs
    let mine := fun (q : EngRun) => q.cmd.receives = true ∧ q.cmd.stream = k.stream ∧ q.cmd.dst = k.dst ∧ q.fin = false
    s.pkts[n]? = some k → (∀ e ∈ s.pkts.take n, e.dst ≠ k.dst ∨ e.stream ≠ k.stream) → (s.core p).vcn = some k.dst →
    runs[i]? = some r → mine r → (∀ q ∈ runs.take i, ¬ mine q) → r.buf = [] → r.last = none →
      ∃ t : State, exec (.collPacketArrival p n) s = .next t ∧ t = { s with cores := t.cores, pkts := s.pkts.take n ++ s.pkts.drop (n + 1) } ∧
        (∀ q, q ≠ p → t.core q = s.core q) ∧
        let room := r.cmd.entries - r.next
        ∃ r' : EngRun, ((t.core p).engine 3).runs[i]? = some r' ∧ r'.next = r.next + min room k.ents.length ∧ r'.a = k.sat ∧ r'.b = bit k.ovf + 2 * bit k.err ∧
          r'.err = (if room < k.ents.length then some (0x1B, 0) else r.err) ∧ (r'.last.isSome = true ↔ k.last = true) ∧
          (∀ j e, k.ents[j]? = some e → j < room → Map.find r'.buf (r.next + j) = some (packEntry (k.base + e.1) (packLanes (laneBytes k.vt) e.2)))) ∧
  (∀ (s : State) (sw stream : Nat) (t : Strm), Map.find s.strms (strmKey sw stream) = some t → stream < 256 →
    let free := sw = t.root ∨ ∀ o ∈ s.strmOpens, o.cmd.stream ≠ stream ∨ switchAbove o.pos o.level ≠ (parentOf sw).1 ∨ below sw o.pos = false
    let ready := free ∧ ∀ e ∈ t.kids, e.2.finished = true ∨ e.2.q ≠ []
    (¬ ready → exec (.switchSegmentMerge sw stream) s = .next s) ∧
    (ready → t.nextBase = none → exec (.switchSegmentMerge sw stream) s = .next s) ∧
    (∀ base, ready → t.nextBase = some base →
      let pkt := (t.merge stream (sw == crownId) base).1
      let u := (t.merge stream (sw == crownId) base).2
      let ended := ∀ e ∈ u.kids, e.2.finished = true
      (∀ e ∈ t.kids, e.2.refused = false → ∀ k l, e.2.q = k :: l → base ≤ k.base) ∧ (∃ e ∈ t.kids, e.2.refused = false ∧ ∃ k l, e.2.q = k :: l ∧ k.base = base) ∧
      (∀ k, pkt = some k → k.cls.toNat = 8 + stream % 4 ∧ k.plane.toNat = stream / 4 % 4 ∧ k.stream = stream ∧ k.dst = t.dst ∧ k.base = base ∧ k.vt = t.vt ∧ k.zd = t.zd ∧ k.lanes = t.lanes ∧ (k.last = true ↔ ended)) ∧
      ∀ v : State, (ended → v = { s with strms := Map.del s.strms (strmKey sw stream) }) → (¬ ended → v = s.setStrm sw stream u) →
        (pkt = none → exec (.switchSegmentMerge sw stream) s = .next v) ∧
        (∀ k, pkt = some k → sw = t.root → exec (.switchSegmentMerge sw stream) s = .next { v with pkts := v.pkts ++ [k] }) ∧
        (∀ k, pkt = some k → sw ≠ t.root → exec (.switchSegmentMerge sw stream) s = .next (v.switchTakes (parentOf sw).1 (parentOf sw).2 k)))) ∧
  (∀ (s : State) (p : Nat) (k : Kind) (g : BitVec 5) (b : BitVec 3) (n : BitVec 10) (w : BitVec 2) (e : Bool) (a : Nat) (v : Word) (x : BitVec 32),
    let y := (s.core p).scal k
    let does := fun (o : ProbeOp) (t : State) => exec (.probeMessage p o) s = .next t
    let tells := fun (v : Word) => s.report (.probeValue p v)
    let refuses := s.report (.probeRefused p)
    (does (.writeMb0 v) (s.modCore p fun c => { c with mb := Map.put c.mb 0 v })) ∧
    (timeOk v = false → y.stop ≠ none → does (.writeT k b v) refuses) ∧
    (sysValue s p k n.toNat = none → does (.readSys k n) refuses) ∧
    (n.toNat ∉ [0, 1, 2, 5, 8, 9, 10] → does (.writeSys k n v) refuses) ∧
    (Config.storeBytes k ≤ a ∨ a % 4 ≠ 0 → does (.writeStore k a x) refuses) ∧
    (y.stop ≠ none →
      does (.readG k g) (tells (y.gr g)) ∧ does (.readT k b) (tells (y.tr b)) ∧ (∀ u, sysValue s p k n.toNat = some u → does (.readSys k n) (tells u)) ∧
      does (.readStore k a) (tells ((y.storeWord a).setWidth 64)) ∧ does (.readPc k) (tells y.pc) ∧ does (.readShadow k e) (tells (if e then y.slpe else y.slps)) ∧
      does (.writeShadow k e v) (s.modScal p k fun y => if e then { y with slpe := v } else { y with slps := v }) ∧
      (n.toNat ∈ [0, 1, 2, 5, 8, 9, 10] → ∃ f : Scalar → Scalar, does (.writeSys k n v) (s.modScal p k f) ∧ f y = y.sysWrite n.toNat v) ∧
      does (.writeG k g v) (s.modScal p k fun y => y.setG g v) ∧ (timeOk v = true → does (.writeT k b v) (s.modScal p k fun y => y.setT b v)) ∧
      does (.writePc k v) (s.modScal p k fun y => { y with pc := v }) ∧
      (∃ f : Scalar → Scalar, does (.writeLoop k w v) (s.modScal p k f) ∧ (w = 0 → f y = { y with lpc := v }) ∧ (w = 1 → f y = { y with lps := v }) ∧ (w = 2 → f y = { y with lpe := v })) ∧
      (a < Config.storeBytes k → a % 4 = 0 → does (.writeStore k a x) (s.modScal p k fun y => { y with store := Map.put y.store (a / 4) x }))) ∧
    (y.stop = none → ∀ o ∈ [ProbeOp.readG k g, .readT k b, .readStore k a, .writeG k g v, .writeT k b v, .writePc k v, .writeLoop k w v, .readPc k, .readShadow k e, .writeShadow k e v], does o s)) ∧
  (∀ (s : State) (p : Nat),
    ((s.core p).rewalk = false → exec (.rewalk p) s = .next s) ∧
    ((s.core p).rewalk = true → exec (.rewalk p) s = .next (each (range 0 4) (fun eng u => each (range 0 ((u.core p).engine eng).runs.length) (fun i u => u.wakeRun p eng i) u)
      (each (range 0 8) (fun row u => u.wakePort p row) (s.modCore p fun c => { c with rewalk := false })))) ∧
    (∀ eng i, s.wakeRun p eng i = s.modRun p eng i fun r => { r with held := [] }) ∧
    ∀ row, row < 8 →
      let q := (s.core p).port row
      let later := s.modCore p fun c => { c with rewalk := true }
      let op := fun (a : PortAcc) => (s.elem p (row * 8)).op a.slot
      (q.held = none ∨ q.woken = true → s.wakePort p row = s) ∧
      ∀ a, q.held = some a → q.woken = false →
        ((s.core p).elemStalled (row * 8) = true → s.wakePort p row = later) ∧
        ∀ u g, (s.core p).elemStalled (row * 8) = false → s.check p q.fva 1 (portKind (op a)) 1 anyClass = (u, g) →
          (g = .stall → s.wakePort p row = later) ∧
          (∀ h, g = .bad 0x10 h → s.wakePort p row = u) ∧
          ∀ v r, g ≠ .stall → (∀ h, g ≠ .bad 0x10 h) → u.portCheck p a.va a.n (op a) = (v, r) →
            (r = .stall → s.wakePort p row = later) ∧
            (∀ fva h, r = .bad 0x10 fva h → s.wakePort p row = v.holdPort p (row * 8) a q.hport fva h) ∧
            (∀ c fva h, r = .bad c fva h → c ≠ 0x10 →
              let w := v.modPort p row fun x => ⟨x.accs, none, 0, 0, false⟩
              s.wakePort p row = if op a = 0x110 then (w.streamRead p (row * 8) a.slot a.idx c true).issueStreams p (row * 8)
                else w.owePortFault p (row * 8) (w.slotWord p (row * 8) a.slot) a c) ∧
            ∀ l, r = .ok l → s.wakePort p row = v.modPort p row fun x => { x with accs := x.accs ++ [{ a with parts := l }], woken := true }) ∧
  (∀ (s : State) (n : Nat) (o : StrmOpen), s.strmOpens[n]? = some o →
    let c := o.cmd
    let sw := switchAbove o.pos o.level
    let child := childAbove o.pos o.level
    let u := s.openTable o.pos o.level c
    let moves := fun (t : State) (on : Prop) =>
      (on → s.openMoves n = { t with strmOpens := setNth s.strmOpens n { o with level := o.level + 1 } }) ∧ (¬ on → s.openMoves n = { t with strmOpens := dropNth s.strmOpens n })
    u.dst = c.dst ∧ u.vt = c.vt ∧ u.lanes = c.lanes ∧ u.zd = c.zd ∧ u.dth = (s.core (s.posOf c.dst)).dth ∧ u.err = false ∧
    (Map.find s.strms (strmKey sw c.stream) = none → moves (s.setStrm sw c.stream u) (sw ≠ u.root)) ∧
    ∀ t, Map.find s.strms (strmKey sw c.stream) = some t →
      let same := t.members = u.members ∧ t.root = u.root ∧ t.dst = u.dst ∧ t.vt = u.vt ∧ t.lanes = u.lanes ∧ t.zd = u.zd ∧ Map.find t.kids child ≠ none
      (same → moves s (sw ≠ t.root)) ∧
      (¬ same → moves ((s.setStrm sw c.stream { t.modKid child fun k => { k with refused := true } with err := true }).report (.runPacket c.stream child)) False)) ∧
  (∀ (s t : State) (p u : Nat) (r : EngRun) (rest : List EngRun) (queue : List Cmd),
    (s.core p).engine 0 = ⟨queue, r :: rest⟩ → r.cmd.op = 0 → r.fin = false → r.err = none → r.held = [] →
    let m := cpyUnit (r.cmd.dn 0) (r.cmd.dn 1) (r.cmd.dn 2) u
    let fails := fun (t : State) (c va : Nat) (h : Bool) (v : State) =>
      ∀ r', nth ((t.core p).engine 0).runs 0 = some r' →
        (c = 0x10 → v = (t.modRun p 0 0 fun q => { q with held := q.held ++ [(u, va)] }).faultRec p ⟨r'.w0 3 0x10 0 (t.core p).vcnNum, BitVec.ofNat 64 va, BitVec.ofNat 64 r'.w2, 0⟩ h) ∧
        (c ≠ 0x10 → v = t.modRun p 0 0 fun q => { q with err := some (c, va), buf := [], held := [], fin := true, b := if q.cmd.op = 3 then q.b - (keep q.buf fun e => e.2 / 2 ^ 256 != 0).length else q.b })
    (r.buf.length < 64 → (s.core p).stalled (fun q => q.unit == 1) = false → m ≠ 0 → u ∉ r.done → Map.find r.buf u = none →
      (∀ x, s.engRead p ((r.cmd.dn 0 + u) % 2 ^ 64) m = (t, .ok x) → s.engReads p 0 u = t.modRun p 0 0 fun q => { q with buf := Map.put q.buf u x }) ∧
      (s.engRead p ((r.cmd.dn 0 + u) % 2 ^ 64) m = (t, .stall) → s.engReads p 0 u = s) ∧
      ∀ c va h, s.engRead p ((r.cmd.dn 0 + u) % 2 ^ 64) m = (t, .bad c va h) → fails t c va h (s.engReads p 0 u)) ∧
    (m = 0 ∨ u ∈ r.done → s.engReads p 0 u = s) ∧
    ∀ x, Map.find r.buf u = some x →
      (∀ w, s.engWrite p ((r.cmd.dn 1 + u) % 2 ^ 64) m x = (t, .ok w) → s.engWrites p 0 u = t.modRun p 0 0 fun q =>
        let q := { q with buf := Map.del q.buf u, done := u :: q.done, w2 := q.w2 + m, wts := maxW q.wts (BitVec.ofNat 64 w) }
        { q with fin := q.fin || ((q.w2 == q.cmd.dn 2 || q.err.isSome) && q.buf.isEmpty) }) ∧
      (s.engWrite p ((r.cmd.dn 1 + u) % 2 ^ 64) m x = (t, .stall) → s.engWrites p 0 u = s) ∧
      ∀ c va h, s.engWrite p ((r.cmd.dn 1 + u) % 2 ^ 64) m x = (t, .bad c va h) → fails t c va h (s.engWrites p 0 u)) ∧
  ∀ (s : State) (p u y : Nat) (r : EngRun) (rest : List EngRun) (queue : List Cmd),
    (s.core p).engine 1 = ⟨queue, r :: rest⟩ → r.cmd.op = 2 → r.fin = false → (∀ h ∈ r.held, h.1 ≠ u) → Map.find r.buf u = some y → y % 2 = 0 →
    (¬ (∀ j, j < u → j ∈ r.done ∨ ∃ z, Map.find r.known j = some z ∧ z ≠ y / 2 % 2 ^ 64) → s.engWrites p 1 u = s) ∧
    ((∀ j, j < u → j ∈ r.done ∨ ∃ z, Map.find r.known j = some z ∧ z ≠ y / 2 % 2 ^ 64) → r.cmd.rowOp = 0 → ∀ t w,
      s.engWrite p (r.cmd.tableRow (y / 2 % 2 ^ 64)) r.cmd.row (y / 2 / 2 ^ 64) = (t, .ok w) →
      s.engWrites p 1 u = t.modRun p 1 0 fun q => (q.wrote w).rowDone u false 0)

/-- A core's progress buffer that is not empty is sent as one batch while the C15 link has credit (log 90), and emptied, and a change that waited may
then enter. The batch is run packets of class C15 on plane P(n mod 4) with increasing BASE, sparse, two i64 lanes, ZD = 1, every trailer with SAT
and the last with LAST; a packet's entries are the changes whose 48-bit index lies in its segment, each at its offset, and at the receiver an
index stands for its time with EPOCH[14:0]. A switch folds the oldest batch of a child into its table, after sending a table that could overflow
256 entries; a table that is not empty is sent upward whole; both wait for credit. The crown applies the oldest batch of a die root as a whole,
each change at its recovered time or, with a record, at t_adv of it when it is not at or after any time of the frontier; a batch that would need
more than 4,096 times waits, and with it every batch of that scope from another die root; a saturated one is reported; a candidate that moves the
frontier forward becomes the frontier, VER rises, and it goes to all 576 cores, its times in an order that the model leaves to State.choice (log
25). Its arrival writes FNTn whole and raises VER. (R13, R314, R316, R317, R318, R319, R320, R321, R374) -/
def Obligations.ProgressEvents : Prop :=
  (∀ (s : State) (p scope : Nat), scope < 8 →
    let b := (s.core p).progress scope
    (b.ents = [] ∨ s.credit p scope = false → exec (.progressBatchSend p scope) s = .next s) ∧
    (b.ents ≠ [] → s.credit p scope = true → ∃ t : State, exec (.progressBatchSend p scope) s = .next t ∧ t = { s with cores := t.cores, pq := t.pq } ∧ (∀ q, q ≠ p → t.core q = s.core q) ∧
      t.core p = { s.core p with prog := (t.core p).prog, progStop := (t.core p).progStop } ∧ (t.core p).progress scope = ⟨[], 0⟩ ∧ (∀ n, n ≠ scope → (t.core p).progress n = (s.core p).progress n) ∧
      (t.core p).progStop = eraseNat (s.core p).progStop scope ∧
      t.batches p scope = s.batches p scope ++ [b.packets scope] ∧
      ∀ q n, q * 8 + n ≠ p * 8 + scope → t.batches q n = s.batches q n)) ∧
  (∀ (b : Batch) (n depth : Nat), n < 8 → depth < 4 →
    let l := b.packets n
    (∀ k ∈ l, k.cls = 15 ∧ k.plane.toNat = n % 4 ∧ k.stream = n ∧ k.dense = false ∧ k.vt = 3 ∧ k.zd = true ∧ k.lanes = 2 ∧ k.sat = b.sat ∧ k.base % 256 = 0 ∧ k.ents ≠ [] ∧ ∀ e ∈ k.ents, e.1 < 256 ∧ e.2.length = 2) ∧
    (∀ i k m, l[i]? = some k → l[i + 1]? = some m → k.base < m.base) ∧
    (∀ i k, l[i]? = some k → (k.last = true ↔ i + 1 = l.length)) ∧
    (b.ents ≠ [] → l ≠ []) ∧
    (∀ k ∈ l, ∀ e ∈ k.ents, ∃ x ∈ b.ents, progIndex n x.time = k.base + e.1) ∧
    (∀ x ∈ b.ents, (∀ y ∈ b.ents, progIndex n y.time = progIndex n x.time → y = x) → (b.ents.filter fun y => y == x).length = 1 →
      ∃ k ∈ l, ∃ e ∈ k.ents, progIndex n x.time = k.base + e.1 ∧ e.2 = [x.stake, x.msg]) ∧
    (∀ t : Word, depthOf t = depth →
      let u := indexedTime depth (progIndex n t)
      epochOf u = epochOf t % 2 ^ 15 ∧ depthOf u = depth ∧ ∀ i, 1 ≤ i → i < 4 → ctrOf u i = ctrOf t i) ∧
    ∀ (i : Nat) (x : PEnt), (batchOf depth l).ents[i]? = some x → ∃ k ∈ l, ∃ e ∈ k.ents, x.time = indexedTime depth (k.base + e.1) ∧ [x.stake, x.msg] = e.2) ∧
  (∀ (s : State) (sw scope child : Nat) (k : List Pkt) (rest : List (List Pkt)), s.batches (childOf sw child) scope = k :: rest → scope < 8 → 1000 ≤ sw → child < 4 →
    let b := batchOf (s.scopeDepth scope) k
    let u := { s with pq := Map.put s.pq (childOf sw child * 8 + scope) rest }
    let v := { u with ptab := Map.put s.ptab (sw * 8 + scope) ⟨[], 0⟩, pq := Map.put u.pq (sw * 8 + scope) (u.batches sw scope ++ [(s.pending sw scope).packets scope]) }
    let folds := fun (w : State) (t : Batch) => exec (.switchBatchFold sw scope child) s = .next { w with
      ptab := Map.put w.ptab (sw * 8 + scope) ⟨(foldBatch t.ents b.ents).1, satAdd32 (satAdd32 t.sat b.sat) (foldBatch t.ents b.ents).2⟩ }
    ((s.pending sw scope).ents.length + b.ents.length ≤ 256 → folds u (s.pending sw scope)) ∧
    (256 < (s.pending sw scope).ents.length + b.ents.length → s.credit sw scope = true → folds v ⟨[], 0⟩) ∧
    (256 < (s.pending sw scope).ents.length + b.ents.length → s.credit sw scope = false → exec (.switchBatchFold sw scope child) s = .next s)) ∧
  (∀ (s : State) (sw scope : Nat), scope < 8 → 1000 ≤ sw →
    ((s.pending sw scope).ents = [] ∨ s.credit sw scope = false → exec (.switchTableSend sw scope) s = .next s) ∧
    ((s.pending sw scope).ents ≠ [] → s.credit sw scope = true → exec (.switchTableSend sw scope) s = .next { s with
      ptab := Map.put s.ptab (sw * 8 + scope) ⟨[], 0⟩, pq := Map.put s.pq (sw * 8 + scope) (s.batches sw scope ++ [(s.pending sw scope).packets scope]) })) ∧
  (∀ (s : State) (scope die : Nat) (k : List Pkt) (rest : List (List Pkt)), s.batches (switchId die 20) scope = k :: rest → scope < 8 →
    let b := batchOf (s.scopeDepth scope) k
    let frontier := fun (u : State) => Map.get u.front ⟨[], 0⟩ scope
    let applied := fun (e : PEnt) (u : State) =>
      let f := (frontier u).times
      let t := recoverEpoch e.time (minEpoch f)
      let early := ∃ x ∈ f, tLe x t = true
      (early → u.crownChange scope e = { u with crown := Map.put u.crown scope (addChange (Map.get u.crown [] scope) t e.stake e.msg).1 }) ∧
      (¬ early → u.crownChange scope e = { u.report (.lateChange scope t) with crown := Map.put u.crown scope (addChange (Map.get u.crown [] scope) (tAdv t f) e.stake e.msg).1 })
    (∀ e u, applied e u) ∧
    let u := each b.ents (fun e u => u.crownChange scope e) { s with pq := Map.put s.pq (switchId die 20 * 8 + scope) rest, stuck := Map.del s.stuck scope }
    let mayTake := Map.find s.stuck scope = none ∨ Map.find s.stuck scope = some die
    (¬ mayTake → exec (.crownBatchApply scope die) s = .next s) ∧
    (mayTake → 4096 < (Map.get u.crown [] scope).length → exec (.crownBatchApply scope die) s = .next { s with stuck := Map.put s.stuck scope die }) ∧
    (mayTake → (Map.get u.crown [] scope).length ≤ 4096 →
      let v := if b.sat = 0 then u else u.report (.saturated scope)
      let g := candidate (Map.get u.crown [] scope)
      let f := (frontier u).times
      let forward := g ≠ f ∧ ∀ t ∈ g, ∃ x ∈ f, tLe x t = true
      (¬ forward → exec (.crownBatchApply scope die) s = .next v) ∧
      (forward → ∃ t : State, exec (.crownBatchApply scope die) s = .next t ∧ t = { v with front := t.front, bq := t.bq, hub := t.hub } ∧
        frontier t = ⟨g, (frontier u).ver + 1⟩ ∧ (∀ n, n ≠ scope → Map.get t.front ⟨[], 0⟩ n = Map.get v.front ⟨[], 0⟩ n) ∧
        ∀ p, p < 576 → Map.get t.bq [] (p * 8 + scope) = Map.get v.bq [] (p * 8 + scope) ++ [arranged v.choice g.length g]))) ∧
  ∀ (s : State) (p scope : Nat) (g : List Word) (rest : List (List Word)), Map.get s.bq [] (p * 8 + scope) = g :: rest → scope < 8 →
    ∃ t : State, exec (.frontierBroadcastArrival p scope) s = .next t ∧ t = { s with cores := t.cores, bq := Map.put s.bq (p * 8 + scope) rest } ∧
      (∀ q, q ≠ p → t.core q = s.core q) ∧ t.core p = { s.core p with fnt := (t.core p).fnt } ∧
      (t.core p).frontier scope = ⟨g, ((s.core p).frontier scope).ver + 1⟩ ∧ ∀ n, n ≠ scope → (t.core p).frontier n = (s.core p).frontier n

/-- A freeze is complete when every part has stopped within SPMAX cycles and the dirty lines are published (log 73): for an exchange both VCNs' FWD
are set once both cores are frozen, and a whole job is saved once every core is. A freeze that is not complete after SPMAX cycles is refused: the
core goes on and Zusil hears which request it was and which part had not stopped, the pair is left alone, a pre-emption is rejected with 0x0A and
a checkpoint ends with CKFAIL 0x0A. At a swap instant the picked pairs, which share no core and are all eligible, are asked to freeze, and every
counter is halved. Two frozen cores whose drain flits are in and whose progress changes have passed their common switch (log 91) exchange their
occupants; a position without a VCN is eligible, another after its cooldown, unpinned, with the feature and with no stopped scalar core (log 75).
A checkpoint starts on GO, freezes every core once its frontier is past STEP, and ends with a report and MB2 = STEP, or with CKFAIL 0x0B. A
debugger command stops or restarts the three scalar cores of a VCN. (R323, R345, R346, R353, R354, R355, R356, R358, R373, R377, R381, R382) -/
def Obligations.Freezing : Prop :=
  (∀ (s : State) (p : Nat) (f : Freeze), (s.core p).freeze = some f → f.complete = false →
    let c := s.core p
    ((s.unstopped p ≠ none ∨ c.spmax.toNat < f.elapsed) → exec (.freezeComplete p) s = .next s) ∧
    (∀ u, s.unstopped p = none → f.elapsed ≤ c.spmax.toNat → s.publishCore p = some u →
      let v := u.modCore p fun c => { c with freeze := some { f with complete := true } }
      (∀ q, f.by_ = .swap q → exec (.freezeComplete p) s = .next (if v.frozenFor q p then (v.setFwd p true).setFwd q true else v)) ∧
      (f.by_ = .preempt → (v.hub.preempting = none ∨ v.allFrozen .preempt = false) → exec (.freezeComplete p) s = .next v) ∧
      (f.by_ = .checkpoint → (v.hub.check = none ∨ v.allFrozen .checkpoint = false) → exec (.freezeComplete p) s = .next v) ∧
      (∀ k w, f.by_ = .preempt → v.hub.preempting = some k → v.allFrozen .preempt = true → v.hub.reports.length < 64 → v.saveCores v.occupied = some w →
        let x := w.clearJob
        exec (.freezeComplete p) s = .next { x with hub := { x.hub with preempting := none, reports := x.hub.reports ++ [⟨[reportQ0 3 k.job x.hub.chip 0 0, k.seq, 0, 0, 0, 0, 0]⟩] } }) ∧
      (∀ k w, f.by_ = .checkpoint → v.hub.check = some k → v.allFrozen .checkpoint = true → v.saveCores v.occupied = some w →
        exec (.freezeComplete p) s = .next { w with hub := { w.hub with check := some { k with saved := true } } })) ∧
    (f.elapsed < c.spmax.toNat → exec (.freezeRefusal p) s = .next s) ∧
    (c.spmax.toNat ≤ f.elapsed →
      let t := (s.unfreeze p).report (.freezeRefused f.by_ p ((s.unstopped p).getD 9))
      (∀ q, f.by_ = .swap q → exec (.freezeRefusal p) s = .next ((((t.unfreeze q).notePair p q).rejoin p).rejoin q)) ∧
      (∀ k, f.by_ = .preempt → s.hub.preempting = some k → s.hub.reports.length < 64 →
        let u := t.unfreezeAll .preempt
        exec (.freezeRefusal p) s = .next { u with hub := { u.hub with preempting := none, reports := u.hub.reports ++ [⟨[reportQ0 2 k.job u.hub.chip 10 c.vcnNum, k.seq, 0, 0, 0, 0, 0]⟩] } }) ∧
      (f.by_ = .checkpoint → s.hub.reports.length < 64 →
        let u := t.unfreezeAll .checkpoint
        exec (.freezeRefusal p) s = .next { u with hub := { u.hub with check := none, ckbusy := false, reports := u.hub.reports ++ [⟨[reportQ0 8 s.jobId u.hub.chip 10 c.vcnNum, 0, 0, 0, 0, 0, 0]⟩] } }) ∧
      (f.by_ ≠ .preempt → (∀ q, f.by_ ≠ .swap q) → 64 ≤ s.hub.reports.length → exec (.freezeRefusal p) s = .next s))) ∧
  (∀ (s : State) (die : Nat), die < 9 →
    let tq := (s.core (die * 64)).tq.toNat
    let n := Map.get s.instant 0 die
    let u := ({ s with instant := Map.put s.instant die (n - tq) }).modSwaps die Swap.aged
    (tq = 0 ∨ n < tq → exec (.swapInstant die) s = .next s) ∧
    (0 < tq → tq ≤ n → exec (.swapInstant die) s = .next (each (u.picks die) (fun q v => (v.requestFreeze q.1 (.swap q.2)).requestFreeze q.2 (.swap q.1)) (u.modSwaps die Swap.halved))) ∧
    (∀ x, u.eligible x = true ↔ (u.core x).freeze = none ∧ ((u.core x).vcn = none ∨ ((u.core x).feat.getLsbD 7 = true ∧ (u.core x).sw.pin = false ∧
      (∀ n, (u.core x).sw.since = some n → 4 < n) ∧ ∀ k, ((u.core x).scal k).stop = none))) ∧
    (∀ q ∈ u.picks die, u.pairEligible q.1 q.2 = true ∧ q.1 / 64 = die ∧ q.2 / 64 = die ∧ q.1 < q.2) ∧
    (u.picks die).Pairwise fun a b => a.1 ≠ b.1 ∧ a.1 ≠ b.2 ∧ a.2 ≠ b.1 ∧ a.2 ≠ b.2) ∧
  (∀ (s : State) (p q : Nat),
    let vp := (s.core p).vcn
    let vq := (s.core q).vcn
    let ready := p ≠ q ∧ s.frozenFor p q = true ∧ s.frozenFor q p = true ∧ s.onItsWay vp = false ∧ s.onItsWay vq = false ∧ s.progressQuiet p q = true
    let quiet := fun (n : Nat) => ∀ i, i < 8 → s.batches n i = [] ∧ (s.pending n i).ents = []
    (s.progressQuiet p q = true ↔ ∀ r ∈ [p, q], quiet r ∧ (p / 4 = q / 4 ∨ quiet (switchAbove r 1)) ∧ (p / 16 = q / 16 ∨ quiet (switchAbove r 2))) ∧
    (¬ ready → exec (.exchangeStateTransfer p q) s = .next s) ∧
    (∀ a b d, ready → s.saveCore p false = some a → a.saveCore q false = some b →
      let u := ((((b.placeCore p (b.core q)).placeCore q (b.core p)).moveTo vp q).moveTo vq p).swapBq p q
      let v := { u with
        net := u.net.map fun (e : NetMsg) => if vp = some e.msg.dst.toNat ∨ vq = some e.msg.dst.toNat then { e with held := false } else e
        cores := u.cores.map fun (c : Nat × Core) => (c.1, { c.2 with sw := c.2.sw.afterSwap c.1 p q }) }
      let w := ((v.notePair p q).modCore p fun c => { c with sw := { c.sw with since := some 0 } }).modCore q fun c => { c with sw := { c.sw with since := some 0 } }
      (w.resumeCore p).bind (fun x => x.resumeCore q) = some d → exec (.exchangeStateTransfer p q) s = .next ((d.rejoin p).rejoin q))) ∧
  (∀ (s : State) (x : Word) (v : Nat),
    (s.hub.open_ = false → ∀ i ∈ [Instr.checkpointGo x, .dbgHalt v, .dbgRestart v], exec i s = .next s) ∧
    (s.hub.open_ = true →
      (x.getLsbD 3 = true → s.hub.ckbusy = true → exec (.checkpointGo x) s = .next { s with hub := { s.hub with ckovr := true } }) ∧
      (x.getLsbD 3 = true → s.hub.ckbusy = false → exec (.checkpointGo x) s = .next { s with hub := { s.hub with
        ckreq := x &&& 0xFFFFFFFF00000007, ckbusy := true, check := some ⟨x.extractLsb' 32 32, x.extractLsb' 0 3, false, false⟩ } }) ∧
      (s.local v = false → exec (.dbgHalt v) s = .next s ∧ exec (.dbgRestart v) s = .next s) ∧
      (s.local v = true → let p := s.posOf v
        ∃ t u, exec (.dbgHalt v) s = .next t ∧ exec (.dbgRestart v) s = .next u ∧ OnlyCore s t p ∧ OnlyCore s u p ∧
          ∀ k, t.scal p k = { s.scal p k with stop := some ((s.scal p k).stop.getD .debugger) } ∧ u.scal p k = { s.scal p k with stop := none }))) ∧
  (∀ (s : State) (k : Check), s.hub.check = some k →
    let passed := k.frozen = false ∧ s.job ≠ none ∧ s.hub.preempting = none ∧ ∀ t ∈ (Map.get s.front ⟨[], 0⟩ k.scope.toNat).times, k.step.toNat < epochOf t
    (¬ passed → exec .checkpointFrontierReached s = .next s) ∧
    (passed → exec .checkpointFrontierReached s = .next (each s.occupied (fun p u => if (u.core p).freeze = none then u.requestFreeze p .checkpoint else u)
      { s with hub := { s.hub with check := some { k with frozen := true } } }))) ∧
  ∀ (s : State) (k : Check) (j : Job), s.hub.check = some k → s.job = some j → k.saved = true → s.hub.reports.length < 64 →
    let blocks := (j.extents.map fun e => (range 0 (e.2 / 4096)).map fun i => e.1 + 4096 * i).flatten
    let ends := fun (u : State) (kind reason : Nat) (q2 : Word) => { u with hub := { u.hub with check := none, ckbusy := false, reports := u.hub.reports ++ [⟨[reportQ0 kind u.jobId u.hub.chip reason 0, 0, q2, 0, 0, 0, 0]⟩] } }
    (∀ u v, s.writeBlocks s.hub.cklba.toNat blocks = (u, true) →
      let m := each u.occupied (fun p u => u.modCore p fun c => { c with mb := Map.put c.mb 2 (k.step.setWidth 64) }) u
      m.resumeCores m.occupied = some v → exec (.checkpointWriteDone true) s = .next (ends v 7 0 (BitVec.ofNat 64 (blocks.length * 2 ^ 32)))) ∧
    (∀ u v, s.writeBlocks s.hub.cklba.toNat blocks = (u, false) → u.resumeCores u.occupied = some v → exec (.checkpointWriteDone true) s = .next (ends v 8 11 0)) ∧
    (∀ v, s.resumeCores s.occupied = some v → exec (.checkpointWriteDone false) s = .next (ends v 8 11 0))

/-- The oldest packet waits while a pre-emption is under way or no report can be made (log 71). One for another chip is forwarded on the port of its
route, or rejected with 0x01 where there is none; a reserved bit is rejected with 0x01. START and RESUME are rejected with 0x08 while a job is
resident and with the reason of their block's check; the others with 0x09 unless they name the resident job. START starts the job of its block
and reports STARTED, RESUME restores it and reports RESUMED, and is refused, with a record to Zusil and a reason that the model leaves free (log
12), where a context area's check words do not match; WORK reads a descriptor and spawns it at its VCN (log 72), is rejected with 0x01 when it
breaks a limit, and a refused spawn is sent again after 256 cycles, behind earlier ones to its VCN; PREEMPT freezes every core; END clears the
job, but not the dies' clock steps, which MB3 still shows, and DRAM with SCRUB = 1 (log 16), and reports ENDED; any other TYPE is rejected with
0x01. A write of W7 while BUSY = 1 sets OVR. (R292, R296, R343, R347, R351, R371, R372, R373, R375, R378, R381) -/
def Obligations.Launching : Prop :=
  (∀ (s : State) (k : Packet) (rest : List Packet), s.hub.packets = k :: rest →
    let t := { s with hub := { s.hub with packets := rest, busy := s.hub.busy && k.gateway } }
    let reported := fun (u : State) (kind reason vcn : Nat) => { u with hub := { u.hub with
      reports := u.hub.reports ++ [⟨[reportQ0 kind k.job u.hub.chip reason vcn, k.seq, 0, 0, 0, 0, 0]⟩] } }
    let room := fun (u : State) => u.hub.reports.length < 64
    let packet := fun (n : Nat) (i : Instr) => (n = 1 ∧ i = .delridStart) ∨ (n = 2 ∧ i = .delridWork) ∨ (n = 3 ∧ i = .delridPreempt) ∨ (n = 4 ∧ i = .delridResume) ∨
      (n = 5 ∧ i = .delridEnd) ∨ ((n = 0 ∨ 5 < n) ∧ i = .delridRejected)
    let rejects := fun (i : Instr) (u : State) (reason vcn : Nat) => (room u → exec i s = .next (reported u 2 reason vcn)) ∧ (¬ room u → exec i s = .next s)
    let mine := ∃ j, t.job = some j ∧ j.id.toNat = k.job
    let checking := ∃ c, t.hub.check = some c ∧ c.frozen = true
    (∀ i, packet k.type i →
      (s.hub.preempting ≠ none → exec i s = .next s) ∧
      (s.hub.preempting = none →
        (∀ port, k.dchip ≠ s.hub.chip → Map.get s.hub.routes none k.dchip = some port → exec i s = .next { t with hub := { t.hub with sent := t.hub.sent ++ [(port, k.w)] } }) ∧
        (k.dchip ≠ s.hub.chip → Map.get s.hub.routes none k.dchip = none → rejects i t 1 0) ∧
        (k.dchip = s.hub.chip → k.plain = false → rejects i t 1 0))) ∧
    (s.hub.preempting = none → k.dchip = s.hub.chip → k.plain = true →
      (k.type = 1 →
        (t.job ≠ none → rejects .delridStart t 8 0) ∧
        (t.job = none → let r := (t.readBlock k.addr (BitVec.ofNat 16 k.job) k.seq true).then t.startJob
          (∀ u, r = .ok u → (room t → exec .delridStart s = .next (reported u 1 0 0)) ∧ (¬ room t → exec .delridStart s = .next s)) ∧
          (∀ reason vcn z, r = .bad reason vcn z → rejects .delridStart { t with zusil := z.getD t.zusil } reason vcn))) ∧
      (k.type = 2 →
        (¬ mine → rejects .delridWork t 9 0) ∧
        (mine → t.physWords k.addr 8 = none → rejects .delridWork t 1 k.vcn) ∧
        (∀ w, mine → t.physWords k.addr 8 = some w →
          let good := k.addr % 8 = 0 ∧ spawnOk w = true ∧ t.local k.vcn = true
          (¬ good → rejects .delridWork t 1 k.vcn) ∧
          let kept := { t with hub := { t.hub with works := t.hub.works ++ [⟨0, k.vcn, w⟩] } }
          (good → (∃ x ∈ t.hub.works, x.vcn = k.vcn) → exec .delridWork s = .next kept) ∧
          (good → (t.core (t.posOf k.vcn)).takeSpawn w = none → exec .delridWork s = .next kept) ∧
          (∀ c e, good → (∀ x ∈ t.hub.works, x.vcn ≠ k.vcn) → (t.core (t.posOf k.vcn)).takeSpawn w = some (c, e) → exec .delridWork s = .next (t.setCore (t.posOf k.vcn) c)))) ∧
      (k.type = 3 →
        (¬ mine → rejects .delridPreempt t 9 0) ∧
        (mine → checking → exec .delridPreempt s = .next s) ∧
        (mine → ¬ checking → exec .delridPreempt s = .next (each t.occupied (fun p u => if (u.core p).freeze = none then u.requestFreeze p .preempt else u)
          { t with hub := { t.hub with preempting := some k } }))) ∧
      (k.type = 4 →
        (t.job ≠ none → rejects .delridResume t 8 0) ∧
        (t.job = none →
          let v := { t with free := t.free + 1 }
          let r := (t.readBlock k.addr (BitVec.ofNat 16 k.job) k.seq false).then t.resumeJob
          (∀ reason vcn z, r = .bad reason vcn z → rejects .delridResume { v with zusil := z.getD t.zusil } reason vcn) ∧
          ∀ u, r = .ok u → (room t → exec .delridResume s = .next (reported u 4 0 0)) ∧ (¬ room t → exec .delridResume s = .next s))) ∧
      (k.type = 5 →
        (¬ mine → rejects .delridEnd t 9 0) ∧
        (mine → checking ∨ ¬ room t → exec .delridEnd s = .next s) ∧
        (mine → ¬ checking → room t → let u := t.clearJob
          exec .delridEnd s = .next (reported (if k.scrub then { u with dram := [], empties := [], poisons := [] } else u) 5 0 0) ∧
          u.job = none ∧ u.net = [] ∧ u.reqs = [] ∧ u.crown = [] ∧ u.clkStep = t.clkStep ∧ u.hub.works = [] ∧
            ∀ p, p < 576 → (u.core p).vcn = none ∧ ∀ n, Map.find t.clkStep (p / 64) = some n → Map.get (u.core p).mb 0 3 = n.setWidth 64)) ∧
      (k.type = 0 ∨ 5 < k.type → rejects .delridRejected t 1 0))) ∧
  (∀ (s : State) (n : Nat) (r : WorkReq), s.hub.works[n]? = some r →
    let early := r.age < 256 ∨ ∃ x ∈ s.hub.works.take n, x.vcn = r.vcn
    (early → s.resendWork n = s) ∧
    (¬ early → (s.core (s.posOf r.vcn)).takeSpawn r.words = none → s.resendWork n = { s with hub := { s.hub with works := setNth s.hub.works n { r with age := 0 } } }) ∧
    ∀ c e, ¬ early → (s.core (s.posOf r.vcn)).takeSpawn r.words = some (c, e) →
      s.resendWork n = ({ s with hub := { s.hub with works := dropNth s.hub.works n } }).setCore (s.posOf r.vcn) c) ∧
  (∀ (s : State) (b : JobBlock),
    let refused := fun (u : State) (v : Nat) (w : Word) => (Checked.bad (w.toNat % 256) v (some (u.report (.badContext v)).zusil) : Checked State)
    let t := { s with free := s.free + 1 }
    (∀ (u w : State) (p v : Nat) (x : Saved), u.context p v = (w, some x) → x ∈ u.saved ∧ ∃ m,
      u.items p .control (u.contextOf v) 8 2 .load = (m, .ok [x.coreWord, Config.checkWord [x.coreWord]]) ∧ m.items p .control (u.contextOf v + 0x50000) 8 x.fabricSection.length .load = (w, .ok x.fabricSection) ∧
      x.fabricSection = x.fabricSection.dropLast ++ [Config.checkWord x.fabricSection.dropLast]) ∧
    (t.jobContext b = none → s.resumeJob b = refused t 0 (Config.freeWord s.free)) ∧
    (∀ j, t.jobContext b = some j → s.resumeJob b = ((t.withTables b j.domains).withJobSaved j).restoreAll b.vcns (Config.freeWord s.free)) ∧
    ∀ (u : State) (v : Nat) (l : List Nat) (w : Word), let p := u.posOf v
      u.restoreAll [] w = .ok u ∧
      (∀ y, u.context p v = (y, none) → u.restoreAll (v :: l) w = refused y v w) ∧
      ∀ y x, u.context p v = (y, some x) →
        let z := ((y.placeCore p { x.core with vcn := some v }).showStep p).resumeCore p
        (z = none → u.restoreAll (v :: l) w = .bad 6 v none) ∧ (∀ z', z = some z' → u.restoreAll (v :: l) w = z'.restoreAll l w)) ∧
  ∀ (s : State) (x : Word),
    (s.hub.open_ = true → s.hub.busy = true → exec (.launchW7Dropped x) s = .next { s with hub := { s.hub with ovr := true } }) ∧
    (s.hub.open_ = false ∨ s.hub.busy = false → exec (.launchW7Dropped x) s = .next s)

/-- The oldest report is written at RRBASE + 64 x RRTAIL with the count of dropped ones in its eighth word while the ring has room, RRTAIL moves on
and an interrupt is raised. FEATA takes the offered bits while no job is resident. A retry doorbell makes a rewalk due at its VCN's core, and HMB
writes MB1 there. A closed window ignores every write. A device register takes what its offset's row says. A request or message from outside of 1
to 64 bytes of one line is performed at DRAM when its master may access it; it answers with the value, with poison, or that it is done; one that
is denied or outside DRAM (log 14) is not performed, Zusil hears of a denied one, and it answers a peer port with a denial status, the host with
poison or as done (log 77). A message from another module goes to the core that holds its VCN, or an MSG or RST is answered with a NAK (logs 62,
63). Boot with good firmware, links and memories opens the window with the fuses and routes it found (log 78); a bad one offers no features. An
SPDM request is answered with the certificate, signed, or with the digests of ROM, firmware image, fuse state and FEATA set and a signature over
them (log 10). (R71, R74, R368, R369, R370, R373, R374, R375, R376, R379, R380, R382) -/
def Obligations.HubEvents : Prop :=
  (∀ (s : State) (r : Report) (rest : List Report), s.hub.reports = r :: rest →
    let h := s.hub
    let size := 2 ^ h.rrsize
    ((h.rrtail + 1) % size = h.rrhead % size → exec .reportWrite s = .next s) ∧
    ((h.rrtail + 1) % size ≠ h.rrhead % size → ∃ t, exec .reportWrite s = .next t ∧
      t = { s with hub := { h with hostMem := t.hub.hostMem, rrtail := (h.rrtail + 1) % size, reports := rest, dropped := 0, msix := h.msix + 1 } } ∧
      let a := (h.rrbase.toNat + 64 * h.rrtail) % 2 ^ 64
      ∀ i, hostByte t i = if a ≤ i ∧ i < a + 64 then BitVec.ofNat 8 (packWords ((r.q ++ [0, 0, 0, 0, 0, 0, 0]).take 7 ++ [BitVec.ofNat 64 (min h.dropped 0xFFFFFFFF)]) / 2 ^ (8 * (i - a)))
        else hostByte s i)) ∧
  (∀ (s : State) (n v off : Nat) (x : Word),
    (s.hub.open_ = false → ∀ i ∈ [Instr.feataWrite n x, .retryDoorbell v, .hmbWrite v x, .deviceRegisterWrite off x], exec i s = .next s) ∧
    (s.hub.open_ = true →
      let h := s.hub
      let hub := fun (i : Instr) (g : Hub) => exec i s = .next { s with hub := g }
      let write := Instr.deviceRegisterWrite off x
      let same := fun (i : Instr) => exec write s = exec i s
      let p := s.posOf v
      (s.job = none → n < 4 → hub (.feataWrite n x) { h with feata := Map.put h.feata n (if n = 0 then x &&& h.feato else 0) }) ∧
      (s.job ≠ none ∨ 4 ≤ n → exec (.feataWrite n x) s = .next s) ∧
      (s.local v = false → exec (.retryDoorbell v) s = .next s ∧ exec (.hmbWrite v x) s = .next s) ∧
      (s.local v = true → exec (.retryDoorbell v) s = .next (s.modCore p fun c => { c with rewalk := true }) ∧
        exec (.hmbWrite v x) s = .next (s.modCore p fun c => { c with mb := Map.put c.mb 1 x })) ∧
      (off % 8 ≠ 0 → exec write s = .next s) ∧
      (off = 0x40 → hub write { h with ovr := h.ovr && !x.getLsbD 1 }) ∧
      (off = 0x48 → hub write { h with rrbase := x &&& ~~~63#64 }) ∧
      (off = 0x50 → hub write { h with rrsize := if 4 ≤ x.toNat % 32 ∧ x.toNat % 32 ≤ 16 then x.toNat % 32 else 4 }) ∧
      (off = 0x60 → hub write { h with rrhead := x.toNat }) ∧
      (off = 0x80 → x.getLsbD 3 = false → hub write { h with ckreq := x &&& 0xFFFFFFFF00000007 }) ∧
      (off = 0x80 → x.getLsbD 3 = true → same (.checkpointGo x)) ∧
      (off = 0x88 → hub write { h with cklba := x }) ∧
      (off = 0x90 → hub write { h with ckovr := h.ckovr && !x.getLsbD 1 }) ∧
      (off = 0xD0 → x.toNat / 2 ^ 10 % 4 = 1 → same (.dbgHalt (x.toNat % 2 ^ 10))) ∧
      (off = 0xD0 → x.toNat / 2 ^ 10 % 4 = 2 → same (.dbgRestart (x.toNat % 2 ^ 10))) ∧
      (∀ i, i < 4 → off = 0x20 + 8 * i → same (.feataWrite i x)) ∧
      (∀ i, i < 7 → off = 0x1000 + 8 * i → hub write { h with launch := Map.put h.launch i x }) ∧
      (off = 0x1038 → h.busy = true → hub write { h with ovr := true }) ∧
      (off = 0x1038 → h.busy = false → hub write { h with
        busy := true, packets := h.packets ++ [⟨[Map.get h.launch 0 0, Map.get h.launch 0 1, Map.get h.launch 0 2, Map.get h.launch 0 3, Map.get h.launch 0 4, Map.get h.launch 0 5,
          Map.get h.launch 0 6, x], false⟩] }) ∧
      (∀ i, i < 1024 → off = 0x2000 + 8 * i → same (.retryDoorbell i)) ∧
      (∀ i, i < 1024 → off = 0x4000 + 8 * i → same (.hmbWrite i x)))) ∧
  (∀ (s : State) (eth : Bool) (port pa n x : Nat), 0 < n → pa % 64 + n ≤ 64 →
    ∀ m i, (m = 0x1000 ∧ i = Instr.cxlMemRequest) ∨ (m = (if eth then 0x4000 else 0x3000) + port ∧ port < (if eth then 4 else 8) ∧ i = Instr.peerMemoryAccess eth port) →
      let may := fun (perm : Nat) => s.admits m pa perm = true ∧ s.admits m (pa + n - 1) perm = true
      let denied := s.report (.denied (1000 + stackOf pa * 64 + channelOf false pa) m pa)
      let answers := fun (u : State) (a : MemAnswer) => { u with hub := { u.hub with answers := u.hub.answers ++ [a] } }
      let peer := m ≠ 0x1000
      let refused := fun (wr : Bool) (a : MemAnswer) => (peer → a = .denied) ∧ (¬ peer → wr = true → a = .done) ∧ (¬ peer → wr = false → a = .poison)
      (Config.dramBytes < pa + n → ∀ wr a, refused wr a → exec (i wr pa n x) s = .next (answers s a)) ∧
      (pa + n ≤ Config.dramBytes →
        (∀ a, ¬ may AK.store.perm → refused true a → exec (i true pa n x) s = .next (answers denied a)) ∧
        (∀ a, ¬ may AK.load.perm → refused false a → exec (i false pa n x) s = .next (answers denied a)) ∧
        (∀ t, may AK.store.perm → s.dramPut pa n x = some t → exec (i true pa n x) s = .next (answers t .done)) ∧
        (may AK.store.perm → s.dramPut pa n x = none → ∃ a, (peer → a = .poison) ∧ (¬ peer → a = .done) ∧ exec (i true pa n x) s = .next (answers s a)) ∧
        (∀ v, may AK.load.perm → s.dramGet pa n = some v → exec (i false pa n x) s = .next (answers s (.value v))) ∧
        (may AK.load.perm → s.dramGet pa n = none → exec (i false pa n x) s = .next (answers s .poison)))) ∧
  (∀ (s : State) (chip : Nat) (a b : BitVec 128),
    let m := Msg.ofFlits a b
    (s.local m.dst.toNat = true → exec (.peerMessageArrival chip a b) s = .next { s with
      net := s.net ++ [⟨m, true, relocFwd (s.relocOf m.dst.toNat) && decide (m.cls.toNat < 8), none, some chip, []⟩] }) ∧
    (s.local m.dst.toNat = false → m.opc = 0 ∨ m.opc = 1 → exec (.peerMessageArrival chip a b) s = .next (s.hubSends chip
      (⟨13, m.src, 0, 3, m.o, false, false, false, m.plane, m.dst, 0, 0, 1, 0, 0, 0⟩ : Msg))) ∧
    (s.local m.dst.toNat = false → m.opc ≠ 0 → m.opc ≠ 1 → exec (.peerMessageArrival chip a b) s = .next s)) ∧
  (∀ (s : State) (b : BootInput), s.hub.open_ = false →
    let good := b.sigOk = true ∧ s.hub.rollback ≤ b.version ∧ b.linksOk = true ∧ b.memOk = true
    (¬ good → exec (.zusilBoot b) s = .next { s with hub := { s.hub with feato := 0 } }) ∧
    (good → ∃ t, exec (.zusilBoot b) s = .next t ∧ t = { s with
        fuses := t.fuses, access := [(30, zusilEntry), (31, hostEntry)]
        hub := { s.hub with open_ := true, fwVersion := b.version, firmware := b.image, chip := b.chip % 4096, routes := t.hub.routes } } ∧
      (∀ k v, (b.fuses.map Prod.fst).Nodup → (k, v) ∈ b.fuses → Map.get t.fuses 0 k = v) ∧
      (∀ k v, (b.routes.map Prod.fst).Nodup → (k, v) ∈ b.routes → Map.get t.hub.routes none k = some v) ∧
      (∀ k, k ∉ b.routes.map Prod.fst → Map.get t.hub.routes none k = none))) ∧
  (∀ (s : State) (b : BootInput), s.hub.open_ = true → exec (.zusilBoot b) s = .next s) ∧
  ∀ (s : State),
    exec .spdmGetCertificate s = .next { s with hub := { s.hub with doe := s.hub.doe ++ [.certificate Config.certificate (Config.signature Config.certificate)] } } ∧
    (let feata := fun (i : Nat) => if s.hub.open_ then Map.get s.hub.feata (if i = 0 then 0xFF else 0) i else 0
     let words := fun (d : BitVec 384) => [d.extractLsb' 0 64, d.extractLsb' 64 64, d.extractLsb' 128 64, d.extractLsb' 192 64, d.extractLsb' 256 64, d.extractLsb' 320 64]
     let rom := Config.digest Config.rom
     let fw := Config.digest s.hub.firmware
     let fuse := Config.digest (s.fuses.map fun f => [BitVec.ofNat 64 f.1, BitVec.ofNat 64 f.2]).flatten
     let feat := Config.digest [feata 0, feata 1, feata 2, feata 3]
     exec .spdmGetMeasurements s = .next { s with hub := { s.hub with doe := s.hub.doe ++ [.measurements rom fw fuse feat (Config.signature (words rom ++ words fw ++ words fuse ++ words feat))] } })

/-- With nothing on the schedule tape a step issues the next instruction of the scalar core that moved last: when it has a firing in RUN, is not
stopped, frozen or waiting, and SPCOUNT is at most SPMAX, one cycle is counted and the step is exec of the instruction decoded from the word at
pc, or of the illegal instruction when the word decodes to none; a pc outside the store takes cause 0x02. An instruction in progress is executed
again without a count; SPCOUNT above SPMAX takes the distance fault first; an idle core does nothing. An event on the tape is exec of that event,
and a tape entry for a scalar core or an element is that core's or element's next. The tape is the model's choice of order (log 3), and one count
per issue too (log 4). (R3, R22, R130, R154, R157, R179, R336, R339) -/
def Obligations.StepRunsDecoded : Prop :=
  ∀ (s : State),
    let counts := fun (s : State) => s.me.run ≠ none ∧ s.me.stop = none ∧ s.me.sp = none
    let counted := fun (s : State) => s.modMe fun x => { x with spcount := BitVec.ofNat 64 (min (x.spcount.toNat + 1) (2 ^ 64 - 1)) }
    let issues := fun (s u : State) (r : Host.Outcome State Fault Refusal) =>
      let x := s.me
      let word := x.storeWord x.pc.toNat
      (outside s.cur.k x.pc = true → r = .next (u.trap u.cur.p u.cur.k 0x02 u.me.pc u.me.pc)) ∧
      (∀ i, outside s.cur.k x.pc = false → decodeScalar word = some i → r = exec i u) ∧
      (outside s.cur.k x.pc = false → decodeScalar word = none → r = exec (.illegalInstruction word) u)
    let scalar := fun (s idle : State) (r : Host.Outcome State Fault Refusal) =>
      let late := s.mine.spmax.toNat < s.me.spcount.toNat
      (s.cur.p < 576 → s.me.wait = none → counts s → ¬ late → issues s (counted s) r) ∧
      (s.cur.p < 576 → s.me.wait = some .busy → issues s s r) ∧
      (s.cur.p < 576 → s.me.wait ≠ some .busy → counts s → late → r = exec (.safePointDistanceFault s.cur.p s.cur.k) s) ∧
      (s.cur.p < 576 → s.me.wait ≠ some .busy → ¬ counts s → r = .next idle) ∧
      (s.cur.p < 576 → s.me.wait ≠ none → s.me.wait ≠ some .busy → ¬ late → r = .next idle) ∧
      (576 ≤ s.cur.p → r = .fault .noSuchPart)
    (s.tape = [] → scalar s s (step s)) ∧
    ∀ rest,
      let u := { s with tape := rest }
      (∀ i, s.tape = .event i :: rest → Instr.isEvent i = true → step s = exec i u) ∧
      (∀ p k, s.tape = .scalar p k :: rest → let v := { u with cur := { u.cur with p := p, k := k } }
        scalar v u (step s)) ∧
      (∀ p e f t l, s.tape = .elem p e :: rest → p < 576 → e < 64 → (s.elem p e).firings p e = f :: l →
        exec f.instr { u with cur := { u.cur with p := p, e := e, slot := f.slot, pick := f.pick } } = .next t → t.elem p e ≠ s.elem p e →
        step s = .next { t with cur := s.cur }) ∧
      (∀ p e, s.tape = .elem p e :: rest → p < 576 → e < 64 → (s.elem p e).firings p e = [] → step s = .next u)

/-- Words written out field by field from the encodings decode to the instructions they stand for: at least one for each scalar format and each group
of both opcode maps. A word with an unassigned major opcode, function or selector, with a reserved bit set, or with a register code its field
cannot hold, decodes to none. (R15, R16, R17, R18, R19, R20, R21, R22, R24, R29) -/
def Obligations.DecodeWords : Prop :=
  let elem := fun (op : Nat) => decodeTableWord 64 (op * 2 ^ 55 + 0b011_000_001_000_101_1000000000010_0000000000011_0010_0000000100)
  let f : EW := { ty := 3, sa := 0, sb := 1, ai := 0, bi := 5, t0 := 0x1002, t1 := 3, tg := 2, imm := 4 }
  (decodeTableWord 32 0b000000_00001_00010_00011_00000000000 = some (.add 1 2 3) ∧
    decodeTableWord 32 0b000000_00001_00010_00011_00000000001 = some (.sub 1 2 3) ∧
    decodeTableWord 32 0b000000_00000_11111_00000_00000111000 = some (.jr 31) ∧
    decodeTableWord 32 0b000001_00101_00110_1111111111111111 = some (.addi 5 6 0xFFFF) ∧
    decodeTableWord 32 0b000111_00101_00110_0000000000_111111 = some (.srai 5 6 63) ∧
    decodeTableWord 32 0b001010_00101_00110_1000000000000000 = some (.beq 5 6 0x8000) ∧
    decodeTableWord 32 0b010001_10000000000000000000000001 = some (.jal 0x2000001) ∧
    decodeTableWord 32 0b010010_00000_00110_0000000000001010 = some (.loop 6 10)) ∧
  (decodeTableWord 32 0b010111_00101_00110_0000000000001000 = some (.ldI64 5 6 8) ∧
    decodeTableWord 32 0b011111_00101_00110_0000000000001000 = some (.st64 5 6 8) ∧
    decodeTableWord 32 0b100000_00101_00110_00000_00000000001 = some (.ldim64 5 6) ∧
    decodeTableWord 32 0b100000_00000_00101_00110_00000010000 = some (.smap 5 6) ∧
    decodeTableWord 32 0b100001_00001_00010_00011_00000011111 = some (.amoCas 1 2 3 1 1) ∧
    decodeTableWord 32 0b100001_00001_00010_00011_00000100000 = some (.amoFadd 1 2 3 0) ∧
    decodeTableWord 32 0b100010_00000_00101_00110_00000001011 = some (.coll 5 6 1 1) ∧
    decodeTableWord 32 0b100100_00111_00001_00010_00000000000 = some (.tjoin 7 1 2) ∧
    decodeTableWord 32 0b100100_00101_00001_00000_000101_01001 = some (.tfld 5 1 5) ∧
    decodeTableWord 32 0b100100_00101_00000_00000_010110_01010 = some (.fget 5 5 2)) ∧
  (decodeTableWord 32 0b101000_00101_00110_00000_00000000000 = some (.spawn 5 6) ∧
    decodeTableWord 32 0b101100_00101_00110_00111_00000000001 = some (.ctxsv 5 6 7) ∧
    decodeTableWord 32 0b101101_00000_00000_0000000000000011 = some (.spt 3) ∧
    decodeTableWord 32 0b101110_00000_00000_0000000000000011 = some (.trap 3) ∧
    decodeTableWord 32 0b110000_00100_00101_00110_000101_00011 = some (.sndO 4 5 6 5) ∧
    decodeTableWord 32 0b110001_00101_00110_0000_110_000_01010_1 = some (.inj 5 6 6 10 1) ∧
    decodeTableWord 32 0b110010_00101_00110_0000_110000_01010_1 = some (.drn 5 6 48 10 1) ∧
    decodeTableWord 32 0b110011_00101_00110_0000_111111_000000 = some (.kset 5 6 63) ∧
    decodeTableWord 32 0b110100_00101_00000_0000001010_000000 = some (.sysrd 5 10) ∧
    decodeTableWord 32 0b110100_00000_00110_0000001010_000001 = some (.syswr 6 10)) ∧
  (elem 0x000 = some (.eAdd 0 f) ∧ elem 0x01C = some (.eMad 4 f) ∧ elem 0x031 = some (.eVmul 1 f) ∧ elem 0x062 = some (.ePack 2 f) ∧
    elem 0x087 = some (.eShl f) ∧ elem 0x095 = some (.eMov f) ∧ elem 0x0A4 = some (.eVext f) ∧ elem 0x0B0 = some (.eSteer f) ∧
    elem 0x102 = some (.eRpt f) ∧ elem 0x107 = some (.eCmpl f) ∧ elem 0x112 = some (.eStr f) ∧ elem 0x114 = some (.eVst f) ∧
    elem 0x11C = some (.eUpdSwap f) ∧ elem 0x128 = some (.eAmoFadd f) ∧ elem 0x141 = some (.eMpre 1 f) ∧ elem 0x14E = some (.eMmode f) ∧
    elem 0x164 = some (.eCons f)) ∧
  (decodeTableWord 32 0b000000_00001_00010_00011_00000000111 = none ∧ decodeTableWord 32 0b111111_00001_00010_00011_00000000000 = none ∧
    decodeTableWord 32 0b000000_00001_00010_00001_00000100000 = none ∧ decodeTableWord 32 0b000111_00101_00110_0000000001_000000 = none ∧
    decodeTableWord 32 0b100100_01000_00001_00010_00000000000 = none ∧ decodeTableWord 32 0b100100_00101_00001_00000_000110_01001 = none ∧
    decodeTableWord 32 0b110000_00100_00101_00110_001101_00011 = none ∧ decodeTableWord 32 0b100001_00001_00010_00011_00000100001 = none ∧ decodeTableWord 32 0b010010_00001_00110_0000000000001010 = none ∧
    elem 0x005 = none ∧ elem 0x068 = none ∧ elem 0x1FF = none)

/-- For every instruction that has an encoding, with every operand value the encoding admits, the word is 32 or 64 bits wide and decodes to that
instruction; so two well-formed instructions never share a word of one width. Events have no encoding. (R15, R16, R17, R18, R19, R20, R21, R24,
R25, R26, R28, R29) -/
def Obligations.RoundTrip : Prop :=
  (∀ i : Instr, i.wellFormed = true → ∀ n w, encode i = some (n, w) → (n = 32 ∨ n = 64) ∧ w < 2 ^ n ∧ decodeTableWord n w = some i) ∧
  (∀ i j : Instr, i.wellFormed = true → j.wellFormed = true → encode i ≠ none → encode i = encode j → i = j) ∧
  ∀ i : Instr, Instr.isEvent i = true → encode i = none

/-- After reset the module's DRAM, host memory and the checkpoint store are in canonical form: addresses strictly rising and no entry equal to what
an unlisted address reads as, which is the model's choice of 0 (log 2). (R35, R368, R377) -/
def Obligations.ResetMemoryForm : Prop :=
  MemoryForm State.reset

/-- From every state whose DRAM, host memory and checkpoint store are in canonical form, a step that answers a next state leaves them in canonical
form, so that equal memories stay equal data (the form is the model's, log 2). (R35, R37, R45, R371, R373, R377) -/
def Obligations.MemoryFormKept : Prop :=
  ∀ (s t : State), MemoryForm s → step s = .next t → MemoryForm t
end

