-- ==== Sys2Proof/Laws/Encoding.lean ====
section
/-!
SUPPORT. Reading back the fields of the words that the formats of R15 and R24 build.
-/
namespace Sys2Proof.Laws

open Sys2Proof

/-- A field in the upper part of a concatenation. -/
theorem extract_upper {n m : Nat} (x : BitVec n) (y : BitVec m) (k l : Nat) (h : m ≤ k) :
    (x ++ y).extractLsb' k l = x.extractLsb' (k - m) l := BitVec.extractLsb'_append_eq_of_le h

/-- A field in the lower part of a concatenation. -/
theorem extract_lower {n m : Nat} (x : BitVec n) (y : BitVec m) (k l : Nat) (h : k + l ≤ m) :
    (x ++ y).extractLsb' k l = y.extractLsb' k l := BitVec.extractLsb'_append_eq_of_add_le h

/-- The whole of a value is its own field. -/
theorem extract_whole {n : Nat} (x : BitVec n) : x.extractLsb' 0 n = x := BitVec.extractLsb'_eq_self

theorem sr_major (m : BitVec 6) (d a b : BitVec 5) (f : BitVec 11) : majorOf (srWord m d a b f) = m := by
  unfold majorOf srWord
  rw [extract_upper _ _ _ _ (by decide), extract_upper _ _ _ _ (by decide), extract_upper _ _ _ _ (by decide), extract_upper _ _ _ _ (by decide)]
  exact extract_whole m

theorem sr_d (m : BitVec 6) (d a b : BitVec 5) (f : BitVec 11) : dOf (srWord m d a b f) = d := by
  unfold dOf srWord
  rw [extract_upper _ _ _ _ (by decide), extract_upper _ _ _ _ (by decide), extract_upper _ _ _ _ (by decide), extract_lower _ _ _ _ (by decide)]
  exact extract_whole d

theorem sr_a (m : BitVec 6) (d a b : BitVec 5) (f : BitVec 11) : aOf (srWord m d a b f) = a := by
  unfold aOf srWord
  rw [extract_upper _ _ _ _ (by decide), extract_upper _ _ _ _ (by decide), extract_lower _ _ _ _ (by decide)]
  exact extract_whole a

theorem sr_b (m : BitVec 6) (d a b : BitVec 5) (f : BitVec 11) : bOf (srWord m d a b f) = b := by
  unfold bOf srWord
  rw [extract_upper _ _ _ _ (by decide), extract_lower _ _ _ _ (by decide)]
  exact extract_whole b

/-- A field of fn. -/
theorem sr_low (m : BitVec 6) (d a b : BitVec 5) (f : BitVec 11) (k l : Nat) (h : k + l ≤ 11) :
    (srWord m d a b f).extractLsb' k l = f.extractLsb' k l := by
  unfold srWord
  exact extract_lower _ _ _ _ h

theorem sr_fn (m : BitVec 6) (d a b : BitVec 5) (f : BitVec 11) : fnOf (srWord m d a b f) = f := by
  unfold fnOf
  rw [sr_low _ _ _ _ _ _ _ (by decide)]
  exact extract_whole f

theorem si_major (m : BitVec 6) (d a : BitVec 5) (f : BitVec 16) : majorOf (siWord m d a f) = m := by
  unfold majorOf siWord
  rw [extract_upper _ _ _ _ (by decide), extract_upper _ _ _ _ (by decide), extract_upper _ _ _ _ (by decide)]
  exact extract_whole m

theorem si_d (m : BitVec 6) (d a : BitVec 5) (f : BitVec 16) : dOf (siWord m d a f) = d := by
  unfold dOf siWord
  rw [extract_upper _ _ _ _ (by decide), extract_upper _ _ _ _ (by decide), extract_lower _ _ _ _ (by decide)]
  exact extract_whole d

theorem si_a (m : BitVec 6) (d a : BitVec 5) (f : BitVec 16) : aOf (siWord m d a f) = a := by
  unfold aOf siWord
  rw [extract_upper _ _ _ _ (by decide), extract_lower _ _ _ _ (by decide)]
  exact extract_whole a

/-- A field of imm16. -/
theorem si_low (m : BitVec 6) (d a : BitVec 5) (f : BitVec 16) (k l : Nat) (h : k + l ≤ 16) :
    (siWord m d a f).extractLsb' k l = f.extractLsb' k l := by
  unfold siWord
  exact extract_lower _ _ _ _ h

theorem si_imm (m : BitVec 6) (d a : BitVec 5) (f : BitVec 16) : immOf (siWord m d a f) = f := by
  unfold immOf
  rw [si_low _ _ _ _ _ _ (by decide)]
  exact extract_whole f

theorem sj_major (m : BitVec 6) (f : BitVec 26) : majorOf (sjWord m f) = m := by
  unfold majorOf sjWord
  rw [extract_upper _ _ _ _ (by decide)]
  exact extract_whole m

theorem sj_off (m : BitVec 6) (f : BitVec 26) : offOf (sjWord m f) = f := by
  unfold offOf sjWord
  rw [extract_lower _ _ _ _ (by decide)]
  exact extract_whole f

theorem sx_major (m : BitVec 6) (d a : BitVec 5) (y : BitVec 10) (f : BitVec 6) : majorOf (sxWord m d a y f) = m := by
  unfold majorOf sxWord
  rw [extract_upper _ _ _ _ (by decide), extract_upper _ _ _ _ (by decide), extract_upper _ _ _ _ (by decide), extract_upper _ _ _ _ (by decide)]
  exact extract_whole m

theorem sx_d (m : BitVec 6) (d a : BitVec 5) (y : BitVec 10) (f : BitVec 6) : dOf (sxWord m d a y f) = d := by
  unfold dOf sxWord
  rw [extract_upper _ _ _ _ (by decide), extract_upper _ _ _ _ (by decide), extract_upper _ _ _ _ (by decide), extract_lower _ _ _ _ (by decide)]
  exact extract_whole d

theorem sx_a (m : BitVec 6) (d a : BitVec 5) (y : BitVec 10) (f : BitVec 6) : aOf (sxWord m d a y f) = a := by
  unfold aOf sxWord
  rw [extract_upper _ _ _ _ (by decide), extract_upper _ _ _ _ (by decide), extract_lower _ _ _ _ (by decide)]
  exact extract_whole a

/-- A field of sys. -/
theorem sx_mid (m : BitVec 6) (d a : BitVec 5) (y : BitVec 10) (f : BitVec 6) (k l : Nat) (h : 6 ≤ k) (h' : k - 6 + l ≤ 10) :
    (sxWord m d a y f).extractLsb' k l = y.extractLsb' (k - 6) l := by
  unfold sxWord
  rw [extract_upper _ _ _ _ h, extract_lower _ _ _ _ h']

theorem sx_sys (m : BitVec 6) (d a : BitVec 5) (y : BitVec 10) (f : BitVec 6) : sysOf (sxWord m d a y f) = y := by
  unfold sysOf
  rw [sx_mid _ _ _ _ _ _ _ (by decide) (by decide)]
  exact extract_whole y

theorem sx_fn (m : BitVec 6) (d a : BitVec 5) (y : BitVec 10) (f : BitVec 6) : fn6Of (sxWord m d a y f) = f := by
  unfold fn6Of sxWord
  rw [extract_lower _ _ _ _ (by decide)]
  exact extract_whole f

/-- A field whose two upper bits are 0 names a time register (R16). -/
theorem tOf_reg (d : BitVec 3) : tOf (0#2 ++ d) = some d := by
  revert d; decide

/-- OP of an element word. -/
theorem elem_op (op : BitVec 9) (w : EW) : opOf (elemBits op w) = op := by
  unfold opOf elemBits
  rw [extract_upper _ _ _ _ (by decide), extract_upper _ _ _ _ (by decide), extract_upper _ _ _ _ (by decide), extract_upper _ _ _ _ (by decide),
    extract_upper _ _ _ _ (by decide), extract_upper _ _ _ _ (by decide), extract_upper _ _ _ _ (by decide), extract_upper _ _ _ _ (by decide),
    extract_upper _ _ _ _ (by decide)]
  exact extract_whole op

/-- The fields of an element word. -/
theorem elem_fields (op : BitVec 9) (w : EW) : ewOf (elemBits op w) = w := by
  obtain ⟨ty, sa, sb, ai, bi, t0, t1, tg, imm⟩ := w
  unfold ewOf elemBits
  rw [EW.mk.injEq]
  refine ⟨?_, ?_, ?_, ?_, ?_, ?_, ?_, ?_, ?_⟩
  · rw [extract_upper _ _ _ _ (by decide), extract_upper _ _ _ _ (by decide), extract_upper _ _ _ _ (by decide), extract_upper _ _ _ _ (by decide),
      extract_upper _ _ _ _ (by decide), extract_upper _ _ _ _ (by decide), extract_upper _ _ _ _ (by decide), extract_upper _ _ _ _ (by decide),
      extract_lower _ _ _ _ (by decide)]
    exact extract_whole ty
  · rw [extract_upper _ _ _ _ (by decide), extract_upper _ _ _ _ (by decide), extract_upper _ _ _ _ (by decide), extract_upper _ _ _ _ (by decide),
      extract_upper _ _ _ _ (by decide), extract_upper _ _ _ _ (by decide), extract_upper _ _ _ _ (by decide), extract_lower _ _ _ _ (by decide)]
    exact extract_whole sa
  · rw [extract_upper _ _ _ _ (by decide), extract_upper _ _ _ _ (by decide), extract_upper _ _ _ _ (by decide), extract_upper _ _ _ _ (by decide),
      extract_upper _ _ _ _ (by decide), extract_upper _ _ _ _ (by decide), extract_lower _ _ _ _ (by decide)]
    exact extract_whole sb
  · rw [extract_upper _ _ _ _ (by decide), extract_upper _ _ _ _ (by decide), extract_upper _ _ _ _ (by decide), extract_upper _ _ _ _ (by decide),
      extract_upper _ _ _ _ (by decide), extract_lower _ _ _ _ (by decide)]
    exact extract_whole ai
  · rw [extract_upper _ _ _ _ (by decide), extract_upper _ _ _ _ (by decide), extract_upper _ _ _ _ (by decide), extract_upper _ _ _ _ (by decide),
      extract_lower _ _ _ _ (by decide)]
    exact extract_whole bi
  · rw [extract_upper _ _ _ _ (by decide), extract_upper _ _ _ _ (by decide), extract_upper _ _ _ _ (by decide), extract_lower _ _ _ _ (by decide)]
    exact extract_whole t0
  · rw [extract_upper _ _ _ _ (by decide), extract_upper _ _ _ _ (by decide), extract_lower _ _ _ _ (by decide)]
    exact extract_whole t1
  · rw [extract_upper _ _ _ _ (by decide), extract_lower _ _ _ _ (by decide)]
    exact extract_whole tg
  · rw [extract_lower _ _ _ _ (by decide)]
    exact extract_whole imm

/-- A rounding mode of an encoded rounding group, below OP 0x068 (R29). -/
theorem rounding_op (g : BitVec 6) (rm : BitVec 3) :
    (g ++ rm : BitVec 9).toNat = g.toNat * 8 + rm.toNat := by
  revert g rm; decide +kernel

end Sys2Proof.Laws
end

