-- ==== Sys2Proof/Laws/Maps.lean ====
section
/-!
SUPPORT. What the finite maps and list helpers of the state do: reading after writing, and the canonical form that memory keeps.
-/
namespace Sys2Proof.Laws

open Sys2Proof Sys2Proof.Machine

variable {V : Type}

/-! ## Reading after writing -/

@[simp] theorem get_put_same (m : Map V) (d : V) (k : Nat) (v : V) : Map.get (Map.put m k v) d k = v := by
  induction m with
  | nil => simp [Map.put, Map.get]
  | cons e r ih =>
    obtain ⟨a, x⟩ := e
    by_cases h : a = k
    · simp [Map.put, Map.get, h]
    · by_cases h' : k < a
      · simp [Map.put, Map.get, h, h']
      · simp [Map.put, Map.get, h, h', ih]

/-- The later of two writes at one key stands. -/
@[simp] theorem put_put (m : Map V) (k : Nat) (v w : V) : Map.put (Map.put m k v) k w = Map.put m k w := by
  induction m with
  | nil => simp [Map.put]
  | cons e r ih =>
    obtain ⟨a, x⟩ := e
    by_cases h1 : a = k
    · simp [Map.put, h1]
    · by_cases h2 : k < a
      · simp [Map.put, h1, h2]
      · simp [Map.put, h1, h2, ih]

theorem get_put_other (m : Map V) (d : V) {k q : Nat} (v : V) (h : q ≠ k) : Map.get (Map.put m k v) d q = Map.get m d q := by
  induction m with
  | nil => simp [Map.put, Map.get, Ne.symm h]
  | cons e r ih =>
    obtain ⟨a, x⟩ := e
    by_cases hk : a = k
    · subst hk
      simp [Map.put, Map.get, Ne.symm h]
    · by_cases h' : k < a
      · simp [Map.put, Map.get, hk, h', Ne.symm h]
      · by_cases hq : a = q
        · subst hq
          simp [Map.put, Map.get, hk, h']
        · simp [Map.put, Map.get, hk, h', hq, ih]

@[simp] theorem find_put_same (m : Map V) (k : Nat) (v : V) : Map.find (Map.put m k v) k = some v := by
  induction m with
  | nil => simp [Map.put, Map.find]
  | cons e r ih =>
    obtain ⟨a, x⟩ := e
    by_cases h : a = k
    · simp [Map.put, Map.find, h]
    · by_cases h' : k < a
      · simp [Map.put, Map.find, h, h']
      · simp [Map.put, Map.find, h, h', ih]

theorem find_put_other (m : Map V) {k q : Nat} (v : V) (h : q ≠ k) : Map.find (Map.put m k v) q = Map.find m q := by
  induction m with
  | nil => simp [Map.put, Map.find, Ne.symm h]
  | cons e r ih =>
    obtain ⟨a, x⟩ := e
    by_cases hk : a = k
    · subst hk
      simp [Map.put, Map.find, Ne.symm h]
    · by_cases h' : k < a
      · simp [Map.put, Map.find, hk, h', Ne.symm h]
      · by_cases hq : a = q
        · subst hq
          simp [Map.put, Map.find, hk, h']
        · simp [Map.put, Map.find, hk, h', hq, ih]

@[simp] theorem get_del_same (m : Map V) (d : V) (k : Nat) : Map.get (Map.del m k) d k = d := by
  induction m with
  | nil => rfl
  | cons e r ih =>
    obtain ⟨a, x⟩ := e
    by_cases h : a = k <;> simp [Map.del, Map.get, h, ih]

theorem get_del_other (m : Map V) (d : V) {k q : Nat} (h : q ≠ k) : Map.get (Map.del m k) d q = Map.get m d q := by
  induction m with
  | nil => rfl
  | cons e r ih =>
    obtain ⟨a, x⟩ := e
    by_cases hk : a = k
    · subst hk
      simp [Map.del, Map.get, Ne.symm h, ih]
    · by_cases hq : a = q
      · subst hq
        simp [Map.del, Map.get, hk]
      · simp [Map.del, Map.get, hk, hq, ih]

@[simp] theorem find_del_same (m : Map V) (k : Nat) : Map.find (Map.del m k) k = none := by
  induction m with
  | nil => rfl
  | cons e r ih =>
    obtain ⟨a, x⟩ := e
    by_cases h : a = k <;> simp [Map.del, Map.find, h, ih]

theorem find_del_other (m : Map V) {k q : Nat} (h : q ≠ k) : Map.find (Map.del m k) q = Map.find m q := by
  induction m with
  | nil => rfl
  | cons e r ih =>
    obtain ⟨a, x⟩ := e
    by_cases hk : a = k
    · subst hk
      simp [Map.del, Map.find, Ne.symm h, ih]
    · by_cases hq : a = q
      · subst hq
        simp [Map.del, Map.find, hk]
      · simp [Map.del, Map.find, hk, hq, ih]

/-- Reading a key just written in canonical form gives the value written. -/
@[simp] theorem get_set_same [DecidableEq V] (m : Map V) (d : V) (k : Nat) (v : V) : Map.get (Map.set m d k v) d k = v := by
  unfold Map.set
  split
  · next h => rw [get_del_same, h]
  · exact get_put_same ..

/-- A write in canonical form leaves every other key as it was. -/
theorem get_set_other [DecidableEq V] (m : Map V) (d : V) {k q : Nat} (v : V) (h : q ≠ k) : Map.get (Map.set m d k v) d q = Map.get m d q := by
  unfold Map.set
  split
  · exact get_del_other m d h
  · rw [get_put_other _ _ _ h, get_del_other m d h]

/-! ## The canonical form -/

/-- A key below every key of a map. -/
def Below (a : Nat) (m : Map V) : Prop := ∀ e ∈ m, a < e.1

theorem rising_cons (e : Nat × V) (m : Map V) : Map.rising (e :: m) = true ↔ Below e.1 m ∧ Map.rising m = true := by
  induction m generalizing e with
  | nil => simp [Map.rising, Below]
  | cons f r ih =>
    rw [Map.rising, Bool.and_eq_true, ih f]
    simp only [decide_eq_true_eq]
    constructor
    · rintro ⟨h, hb, hr⟩
      refine ⟨?_, hb, hr⟩
      intro g hg
      rcases List.mem_cons.1 hg with rfl | hg
      · exact h
      · exact Nat.lt_trans h (hb g hg)
    · rintro ⟨h, hb, hr⟩
      exact ⟨h f (List.mem_cons_self ..), hb, hr⟩

theorem mem_del {m : Map V} {k : Nat} {e : Nat × V} (h : e ∈ Map.del m k) : e ∈ m ∧ e.1 ≠ k := by
  induction m with
  | nil => cases h
  | cons f r ih =>
    obtain ⟨a, x⟩ := f
    by_cases ha : a = k
    · simp only [Map.del, ha, if_true] at h
      exact ⟨List.mem_cons_of_mem _ (ih h).1, (ih h).2⟩
    · simp only [Map.del, ha, if_false, List.mem_cons] at h
      rcases h with rfl | h
      · exact ⟨List.mem_cons_self .., ha⟩
      · exact ⟨List.mem_cons_of_mem _ (ih h).1, (ih h).2⟩

theorem mem_put {m : Map V} {k : Nat} {v : V} {e : Nat × V} (h : e ∈ Map.put m k v) : e ∈ m ∨ e = (k, v) := by
  induction m with
  | nil => simp [Map.put] at h; exact .inr h
  | cons f r ih =>
    obtain ⟨a, x⟩ := f
    by_cases ha : a = k
    · simp only [Map.put, ha, if_true, List.mem_cons] at h
      rcases h with h | h
      · exact .inr h
      · exact .inl (List.mem_cons_of_mem _ h)
    · by_cases hk : k < a
      · simp only [Map.put, ha, if_false, hk, if_true, List.mem_cons] at h ⊢
        rcases h with h | h | h
        · exact .inr h
        · exact .inl (.inl h)
        · exact .inl (.inr h)
      · simp only [Map.put, ha, if_false, hk, List.mem_cons] at h ⊢
        rcases h with h | h
        · exact .inl (.inl h)
        · rcases ih h with h | h
          · exact .inl (.inr h)
          · exact .inr h

theorem rising_del {m : Map V} (k : Nat) (h : Map.rising m = true) : Map.rising (Map.del m k) = true := by
  induction m with
  | nil => rfl
  | cons f r ih =>
    obtain ⟨a, x⟩ := f
    obtain ⟨hb, hr⟩ := (rising_cons _ _).1 h
    by_cases ha : a = k
    · simpa [Map.del, ha] using ih hr
    · simp only [Map.del, ha, if_false]
      exact (rising_cons _ _).2 ⟨fun e he => hb e (mem_del he).1, ih hr⟩

theorem rising_put {m : Map V} (k : Nat) (v : V) (h : Map.rising m = true) : Map.rising (Map.put m k v) = true := by
  induction m with
  | nil => rfl
  | cons f r ih =>
    obtain ⟨a, x⟩ := f
    obtain ⟨hb, hr⟩ := (rising_cons _ _).1 h
    by_cases ha : a = k
    · subst ha
      simp only [Map.put, if_true]
      exact (rising_cons _ _).2 ⟨hb, hr⟩
    · by_cases hk : k < a
      · simp only [Map.put, ha, if_false, hk, if_true]
        refine (rising_cons _ _).2 ⟨fun e he => ?_, h⟩
        rcases List.mem_cons.1 he with rfl | he
        · exact hk
        · exact Nat.lt_trans hk (hb e he)
      · simp only [Map.put, ha, if_false, hk]
        refine (rising_cons _ _).2 ⟨fun e he => ?_, ih hr⟩
        rcases mem_put he with he | rfl
        · exact hb e he
        · show a < k
          omega

theorem canonical_iff [DecidableEq V] (m : Map V) (d : V) : Map.canonical m d = true ↔ Map.rising m = true ∧ ∀ e ∈ m, e.2 ≠ d := by
  simp [Map.canonical, Bool.and_eq_true, List.all_eq_true]

/-- A map with no entry is in canonical form. -/
@[simp] theorem canonical_nil [DecidableEq V] (d : V) : Map.canonical ([] : Map V) d = true := rfl

/-- A write in canonical form keeps the canonical form. -/
theorem canonical_set [DecidableEq V] {m : Map V} {d : V} (k : Nat) (v : V) (h : Map.canonical m d = true) :
    Map.canonical (Map.set m d k v) d = true := by
  obtain ⟨hr, hd⟩ := (canonical_iff m d).1 h
  refine (canonical_iff _ d).2 ?_
  unfold Map.set
  split
  · exact ⟨rising_del k hr, fun e he => hd e (mem_del he).1⟩
  · next hv =>
    refine ⟨rising_put k v (rising_del k hr), fun e he => ?_⟩
    rcases mem_put he with he | rfl
    · exact hd e (mem_del he).1
    · exact hv

/-! ## Changes made one after another -/

theorem each_append {α σ : Type} (l m : List α) (f : α → σ → σ) (s : σ) : each (l ++ m) f s = each m f (each l f s) := by
  induction l generalizing s with
  | nil => rfl
  | cons x r ih => exact ih (f x s)

/-- What every change of a list keeps, all of them together keep. -/
theorem each_keeps {α σ : Type} (P : σ → Prop) (l : List α) (f : α → σ → σ) (s : σ) (h : P s) (hf : ∀ x s, P s → P (f x s)) : P (each l f s) := by
  induction l generalizing s with
  | nil => exact h
  | cons x r ih => exact ih (f x s) (hf x s h)

theorem nth_append_length {α : Type} (l : List α) (x : α) (r : List α) : nth (l ++ x :: r) l.length = some x := by
  induction l with
  | nil => rfl
  | cons _ _ ih => exact ih

theorem anyOf_iff {α : Type} (l : List α) (p : α → Bool) : anyOf l p = true ↔ ∃ x ∈ l, p x = true := by
  induction l with
  | nil => simp [anyOf]
  | cons y r ih => simp [anyOf, ih]

theorem allOf_iff {α : Type} (l : List α) (p : α → Bool) : allOf l p = true ↔ ∀ x ∈ l, p x = true := by
  induction l with
  | nil => simp [allOf]
  | cons y r ih => simp [allOf, ih]

theorem keep_eq_filter {α : Type} (l : List α) (p : α → Bool) : keep l p = l.filter p := by
  induction l with
  | nil => rfl
  | cons y r ih => by_cases h : p y = true <;> simp [keep, h, ih]

end Sys2Proof.Laws
end

