-- ==== Sys2Proof/Laws/Lists.lean ====
section
/-!
SUPPORT. The list helpers, as the library has them.
-/
namespace Sys2Proof.Laws

open Sys2Proof Sys2Proof.Machine

theorem firstN_eq {α : Type} (l : List α) (n : Nat) : firstN l n = l.take n := by
  induction l generalizing n with
  | nil => cases n <;> rfl
  | cons a r ih => cases n <;> simp [firstN, ih]

theorem dropNth_eq {α : Type} (l : List α) (i : Nat) : dropNth l i = l.take i ++ l.drop (i + 1) := by
  induction l generalizing i with
  | nil => simp [dropNth]
  | cons a r ih => cases i <;> simp [dropNth, ih]

theorem nth_eq {α : Type} (l : List α) (n : Nat) : nth l n = l[n]? := by
  induction l generalizing n with
  | nil => simp [nth]
  | cons a r ih => cases n <;> simp [nth, ih]

theorem indexOf_none {α : Type} (l : List α) (f : α → Bool) : indexOf l f = none ↔ ∀ x ∈ l, f x = false := by
  induction l with
  | nil => simp [indexOf]
  | cons a r ih => unfold indexOf; by_cases h : f a = true <;> simp [h, ih]

theorem indexOf_at {α : Type} (f : α → Bool) : ∀ (l : List α) (n : Nat) (x : α), l[n]? = some x → f x = true → (∀ y ∈ l.take n, f y = false) → indexOf l f = some n := by
  intro l
  induction l with
  | nil => intro n x h; simp at h
  | cons a r ih =>
    intro n x h1 h2 h3
    cases n with
    | zero => simp at h1; subst h1; simp [indexOf, h2]
    | succ n =>
      have ha : f a = false := h3 a (by simp)
      have := ih n x (by simpa using h1) h2 (fun y hy => h3 y (by simp [hy]))
      simp [indexOf, ha, this]

theorem firstOf_some {α : Type} (f : α → Bool) (y : α) : ∀ l : List α, y ∈ l → f y = true → (∀ z ∈ l, f z = true → z = y) → firstOf l f = some y := by
  intro l
  induction l with
  | nil => intro h; simp at h
  | cons a r ih =>
    intro h1 h2 h3
    show (if f a then some a else firstOf r f) = _
    by_cases h : f a = true
    · rw [if_pos h, h3 a (by simp) h]
    · rw [if_neg h]
      have : y ∈ r := by
        rcases List.mem_cons.1 h1 with e | e
        · subst e; exact absurd h2 h
        · exact e
      exact ih this h2 (fun z hz => h3 z (List.mem_cons_of_mem _ hz))

theorem mem_range (a n i : Nat) : i ∈ range a n ↔ a ≤ i ∧ i < a + n := by
  induction n generalizing a with
  | zero => simp [range]; first | done | omega
  | succ n ih => simp only [range, List.mem_cons, ih]; first | done | omega

theorem keep_nil {α : Type} {l : List α} {p : α → Bool} (h : ∀ x ∈ l, p x = false) : keep l p = [] := by
  rw [keep_eq_filter, List.filter_eq_nil_iff]; intro x hx; simp [h x hx]

theorem keep_filter {α : Type} (f : α → Bool) : ∀ l : List α, keep l f = l.filter f := by
  intro l
  induction l with
  | nil => rfl
  | cons a r ih =>
    show (if f a then a :: keep r f else keep r f) = _
    rw [List.filter_cons, ih]

theorem range_eq (a n : Nat) : range a n = (List.range n).map (· + a) := by
  induction n generalizing a with
  | zero => rfl
  | succ n ih =>
    unfold range
    rw [ih, List.range_succ_eq_map]
    simp [Nat.add_comm, Nat.add_left_comm]

theorem range_get (n : Nat) (a i : Nat) (h : i < n) : (range a n)[i]? = some (a + i) := by
  rw [range_eq]; simp [h]; omega

theorem range_len (a n : Nat) : (range a n).length = n := by rw [range_eq]; simp

theorem firstOf_split {α : Type} {f : α → Bool} {a : α} : ∀ {before after : List α}, (∀ x ∈ before, f x = false) → f a = true → firstOf (before ++ a :: after) f = some a := by
  intro before
  induction before with
  | nil => intro after _ h; simp [firstOf, h]
  | cons b r ih =>
    intro after h1 h2
    rw [List.cons_append]
    unfold firstOf
    rw [if_neg (by rw [h1 b (by simp)]; decide)]
    exact ih (fun x hx => h1 x (by simp [hx])) h2

theorem each_same {α σ τ : Type} (g : σ → τ) (l : List α) (f : α → σ → σ) (h : ∀ x s, g (f x s) = g s) (s : σ) : g (each l f s) = g s :=
  each_keeps (fun t => g t = g s) l f s rfl fun x t ht => (h x t).trans ht

theorem nodup_range : ∀ (n a : Nat), (range a n).Nodup ∧ ∀ x ∈ range a n, a ≤ x := by
  intro n
  induction n with
  | zero => intro a; simp [range]
  | succ n ih =>
    intro a
    unfold range
    refine ⟨List.nodup_cons.2 ⟨fun h => ?_, (ih (a + 1)).1⟩, ?_⟩
    · have := (ih (a + 1)).2 a h; omega
    · intro x hx
      rcases List.mem_cons.1 hx with e | e
      · omega
      · have := (ih (a + 1)).2 x e; omega

end Sys2Proof.Laws
end

