-- ==== Sys2Proof/Laws/State.lean ====
section
/-!
SUPPORT. What each update of the state does to each field.
-/
namespace Sys2Proof.Laws

open Sys2Proof Sys2Proof.Machine

/-! ## The machine -/

@[simp] theorem setCore_slices (s : State) (p : Nat) (c : Core) : (s.setCore p c).slices = s.slices := rfl
@[simp] theorem setCore_domains (s : State) (p : Nat) (c : Core) : (s.setCore p c).domains = s.domains := rfl
@[simp] theorem setCore_clkStep (s : State) (p : Nat) (c : Core) : (s.setCore p c).clkStep = s.clkStep := rfl
@[simp] theorem setCore_fuses (s : State) (p : Nat) (c : Core) : (s.setCore p c).fuses = s.fuses := rfl
@[simp] theorem setCore_instant (s : State) (p : Nat) (c : Core) : (s.setCore p c).instant = s.instant := rfl
@[simp] theorem setCore_dram (s : State) (p : Nat) (c : Core) : (s.setCore p c).dram = s.dram := rfl
@[simp] theorem setCore_empties (s : State) (p : Nat) (c : Core) : (s.setCore p c).empties = s.empties := rfl
@[simp] theorem setCore_poisons (s : State) (p : Nat) (c : Core) : (s.setCore p c).poisons = s.poisons := rfl
@[simp] theorem setCore_reloc (s : State) (p : Nat) (c : Core) : (s.setCore p c).reloc = s.reloc := rfl
@[simp] theorem setCore_access (s : State) (p : Nat) (c : Core) : (s.setCore p c).access = s.access := rfl
@[simp] theorem setCore_job (s : State) (p : Nat) (c : Core) : (s.setCore p c).job = s.job := rfl
@[simp] theorem setCore_net (s : State) (p : Nat) (c : Core) : (s.setCore p c).net = s.net := rfl
@[simp] theorem setCore_reqs (s : State) (p : Nat) (c : Core) : (s.setCore p c).reqs = s.reqs := rfl
@[simp] theorem setCore_replies (s : State) (p : Nat) (c : Core) : (s.setCore p c).replies = s.replies := rfl
@[simp] theorem setCore_nextReq (s : State) (p : Nat) (c : Core) : (s.setCore p c).nextReq = s.nextReq := rfl
@[simp] theorem setCore_cohorts (s : State) (p : Nat) (c : Core) : (s.setCore p c).cohorts = s.cohorts := rfl
@[simp] theorem setCore_ranges (s : State) (p : Nat) (c : Core) : (s.setCore p c).ranges = s.ranges := rfl
@[simp] theorem setCore_choice (s : State) (p : Nat) (c : Core) : (s.setCore p c).choice = s.choice := rfl
@[simp] theorem setCore_pq (s : State) (p : Nat) (c : Core) : (s.setCore p c).pq = s.pq := rfl
@[simp] theorem setCore_ptab (s : State) (p : Nat) (c : Core) : (s.setCore p c).ptab = s.ptab := rfl
@[simp] theorem setCore_crown (s : State) (p : Nat) (c : Core) : (s.setCore p c).crown = s.crown := rfl
@[simp] theorem setCore_front (s : State) (p : Nat) (c : Core) : (s.setCore p c).front = s.front := rfl
@[simp] theorem setCore_bq (s : State) (p : Nat) (c : Core) : (s.setCore p c).bq = s.bq := rfl
@[simp] theorem setCore_strms (s : State) (p : Nat) (c : Core) : (s.setCore p c).strms = s.strms := rfl
@[simp] theorem setCore_pkts (s : State) (p : Nat) (c : Core) : (s.setCore p c).pkts = s.pkts := rfl
@[simp] theorem setCore_saved (s : State) (p : Nat) (c : Core) : (s.setCore p c).saved = s.saved := rfl
@[simp] theorem setCore_hub (s : State) (p : Nat) (c : Core) : (s.setCore p c).hub = s.hub := rfl
@[simp] theorem setCore_zusil (s : State) (p : Nat) (c : Core) : (s.setCore p c).zusil = s.zusil := rfl
@[simp] theorem setCore_tape (s : State) (p : Nat) (c : Core) : (s.setCore p c).tape = s.tape := rfl
@[simp] theorem setCore_cur (s : State) (p : Nat) (c : Core) : (s.setCore p c).cur = s.cur := rfl
@[simp] theorem setCore_ticks (s : State) (p : Nat) (c : Core) : (s.setCore p c).ticks = s.ticks := rfl
@[simp] theorem setCore_free (s : State) (p : Nat) (c : Core) : (s.setCore p c).free = s.free := rfl
@[simp] theorem setCore_leafTlb (s : State) (p : Nat) (c : Core) : (s.setCore p c).leafTlb = s.leafTlb := rfl
@[simp] theorem setCore_opens (s : State) (p : Nat) (c : Core) : (s.setCore p c).opens = s.opens := rfl
@[simp] theorem setCore_stuck (s : State) (p : Nat) (c : Core) : (s.setCore p c).stuck = s.stuck := rfl
@[simp] theorem setCore_strmOpens (s : State) (p : Nat) (c : Core) : (s.setCore p c).strmOpens = s.strmOpens := rfl
@[simp] theorem modCore_slices (s : State) (p : Nat) (f : Core → Core) : (s.modCore p f).slices = s.slices := rfl
@[simp] theorem modCore_domains (s : State) (p : Nat) (f : Core → Core) : (s.modCore p f).domains = s.domains := rfl
@[simp] theorem modCore_clkStep (s : State) (p : Nat) (f : Core → Core) : (s.modCore p f).clkStep = s.clkStep := rfl
@[simp] theorem modCore_fuses (s : State) (p : Nat) (f : Core → Core) : (s.modCore p f).fuses = s.fuses := rfl
@[simp] theorem modCore_instant (s : State) (p : Nat) (f : Core → Core) : (s.modCore p f).instant = s.instant := rfl
@[simp] theorem modCore_dram (s : State) (p : Nat) (f : Core → Core) : (s.modCore p f).dram = s.dram := rfl
@[simp] theorem modCore_empties (s : State) (p : Nat) (f : Core → Core) : (s.modCore p f).empties = s.empties := rfl
@[simp] theorem modCore_poisons (s : State) (p : Nat) (f : Core → Core) : (s.modCore p f).poisons = s.poisons := rfl
@[simp] theorem modCore_reloc (s : State) (p : Nat) (f : Core → Core) : (s.modCore p f).reloc = s.reloc := rfl
@[simp] theorem modCore_access (s : State) (p : Nat) (f : Core → Core) : (s.modCore p f).access = s.access := rfl
@[simp] theorem modCore_job (s : State) (p : Nat) (f : Core → Core) : (s.modCore p f).job = s.job := rfl
@[simp] theorem modCore_net (s : State) (p : Nat) (f : Core → Core) : (s.modCore p f).net = s.net := rfl
@[simp] theorem modCore_reqs (s : State) (p : Nat) (f : Core → Core) : (s.modCore p f).reqs = s.reqs := rfl
@[simp] theorem modCore_replies (s : State) (p : Nat) (f : Core → Core) : (s.modCore p f).replies = s.replies := rfl
@[simp] theorem modCore_nextReq (s : State) (p : Nat) (f : Core → Core) : (s.modCore p f).nextReq = s.nextReq := rfl
@[simp] theorem modCore_cohorts (s : State) (p : Nat) (f : Core → Core) : (s.modCore p f).cohorts = s.cohorts := rfl
@[simp] theorem modCore_ranges (s : State) (p : Nat) (f : Core → Core) : (s.modCore p f).ranges = s.ranges := rfl
@[simp] theorem modCore_choice (s : State) (p : Nat) (f : Core → Core) : (s.modCore p f).choice = s.choice := rfl
@[simp] theorem modCore_pq (s : State) (p : Nat) (f : Core → Core) : (s.modCore p f).pq = s.pq := rfl
@[simp] theorem modCore_ptab (s : State) (p : Nat) (f : Core → Core) : (s.modCore p f).ptab = s.ptab := rfl
@[simp] theorem modCore_crown (s : State) (p : Nat) (f : Core → Core) : (s.modCore p f).crown = s.crown := rfl
@[simp] theorem modCore_front (s : State) (p : Nat) (f : Core → Core) : (s.modCore p f).front = s.front := rfl
@[simp] theorem modCore_bq (s : State) (p : Nat) (f : Core → Core) : (s.modCore p f).bq = s.bq := rfl
@[simp] theorem modCore_strms (s : State) (p : Nat) (f : Core → Core) : (s.modCore p f).strms = s.strms := rfl
@[simp] theorem modCore_pkts (s : State) (p : Nat) (f : Core → Core) : (s.modCore p f).pkts = s.pkts := rfl
@[simp] theorem modCore_saved (s : State) (p : Nat) (f : Core → Core) : (s.modCore p f).saved = s.saved := rfl
@[simp] theorem modCore_hub (s : State) (p : Nat) (f : Core → Core) : (s.modCore p f).hub = s.hub := rfl
@[simp] theorem modCore_zusil (s : State) (p : Nat) (f : Core → Core) : (s.modCore p f).zusil = s.zusil := rfl
@[simp] theorem modCore_tape (s : State) (p : Nat) (f : Core → Core) : (s.modCore p f).tape = s.tape := rfl
@[simp] theorem modCore_cur (s : State) (p : Nat) (f : Core → Core) : (s.modCore p f).cur = s.cur := rfl
@[simp] theorem modCore_ticks (s : State) (p : Nat) (f : Core → Core) : (s.modCore p f).ticks = s.ticks := rfl
@[simp] theorem modCore_free (s : State) (p : Nat) (f : Core → Core) : (s.modCore p f).free = s.free := rfl
@[simp] theorem modCore_leafTlb (s : State) (p : Nat) (f : Core → Core) : (s.modCore p f).leafTlb = s.leafTlb := rfl
@[simp] theorem modCore_opens (s : State) (p : Nat) (f : Core → Core) : (s.modCore p f).opens = s.opens := rfl
@[simp] theorem modCore_stuck (s : State) (p : Nat) (f : Core → Core) : (s.modCore p f).stuck = s.stuck := rfl
@[simp] theorem modCore_strmOpens (s : State) (p : Nat) (f : Core → Core) : (s.modCore p f).strmOpens = s.strmOpens := rfl
@[simp] theorem modMe_slices (s : State) (f : Scalar → Scalar) : (s.modMe f).slices = s.slices := rfl
@[simp] theorem modMe_domains (s : State) (f : Scalar → Scalar) : (s.modMe f).domains = s.domains := rfl
@[simp] theorem modMe_clkStep (s : State) (f : Scalar → Scalar) : (s.modMe f).clkStep = s.clkStep := rfl
@[simp] theorem modMe_fuses (s : State) (f : Scalar → Scalar) : (s.modMe f).fuses = s.fuses := rfl
@[simp] theorem modMe_instant (s : State) (f : Scalar → Scalar) : (s.modMe f).instant = s.instant := rfl
@[simp] theorem modMe_dram (s : State) (f : Scalar → Scalar) : (s.modMe f).dram = s.dram := rfl
@[simp] theorem modMe_empties (s : State) (f : Scalar → Scalar) : (s.modMe f).empties = s.empties := rfl
@[simp] theorem modMe_poisons (s : State) (f : Scalar → Scalar) : (s.modMe f).poisons = s.poisons := rfl
@[simp] theorem modMe_reloc (s : State) (f : Scalar → Scalar) : (s.modMe f).reloc = s.reloc := rfl
@[simp] theorem modMe_access (s : State) (f : Scalar → Scalar) : (s.modMe f).access = s.access := rfl
@[simp] theorem modMe_job (s : State) (f : Scalar → Scalar) : (s.modMe f).job = s.job := rfl
@[simp] theorem modMe_net (s : State) (f : Scalar → Scalar) : (s.modMe f).net = s.net := rfl
@[simp] theorem modMe_reqs (s : State) (f : Scalar → Scalar) : (s.modMe f).reqs = s.reqs := rfl
@[simp] theorem modMe_replies (s : State) (f : Scalar → Scalar) : (s.modMe f).replies = s.replies := rfl
@[simp] theorem modMe_nextReq (s : State) (f : Scalar → Scalar) : (s.modMe f).nextReq = s.nextReq := rfl
@[simp] theorem modMe_cohorts (s : State) (f : Scalar → Scalar) : (s.modMe f).cohorts = s.cohorts := rfl
@[simp] theorem modMe_ranges (s : State) (f : Scalar → Scalar) : (s.modMe f).ranges = s.ranges := rfl
@[simp] theorem modMe_choice (s : State) (f : Scalar → Scalar) : (s.modMe f).choice = s.choice := rfl
@[simp] theorem modMe_pq (s : State) (f : Scalar → Scalar) : (s.modMe f).pq = s.pq := rfl
@[simp] theorem modMe_ptab (s : State) (f : Scalar → Scalar) : (s.modMe f).ptab = s.ptab := rfl
@[simp] theorem modMe_crown (s : State) (f : Scalar → Scalar) : (s.modMe f).crown = s.crown := rfl
@[simp] theorem modMe_front (s : State) (f : Scalar → Scalar) : (s.modMe f).front = s.front := rfl
@[simp] theorem modMe_bq (s : State) (f : Scalar → Scalar) : (s.modMe f).bq = s.bq := rfl
@[simp] theorem modMe_strms (s : State) (f : Scalar → Scalar) : (s.modMe f).strms = s.strms := rfl
@[simp] theorem modMe_pkts (s : State) (f : Scalar → Scalar) : (s.modMe f).pkts = s.pkts := rfl
@[simp] theorem modMe_saved (s : State) (f : Scalar → Scalar) : (s.modMe f).saved = s.saved := rfl
@[simp] theorem modMe_hub (s : State) (f : Scalar → Scalar) : (s.modMe f).hub = s.hub := rfl
@[simp] theorem modMe_zusil (s : State) (f : Scalar → Scalar) : (s.modMe f).zusil = s.zusil := rfl
@[simp] theorem modMe_tape (s : State) (f : Scalar → Scalar) : (s.modMe f).tape = s.tape := rfl
@[simp] theorem modMe_cur (s : State) (f : Scalar → Scalar) : (s.modMe f).cur = s.cur := rfl
@[simp] theorem modMe_ticks (s : State) (f : Scalar → Scalar) : (s.modMe f).ticks = s.ticks := rfl
@[simp] theorem modMe_free (s : State) (f : Scalar → Scalar) : (s.modMe f).free = s.free := rfl
@[simp] theorem modMe_leafTlb (s : State) (f : Scalar → Scalar) : (s.modMe f).leafTlb = s.leafTlb := rfl
@[simp] theorem modMe_opens (s : State) (f : Scalar → Scalar) : (s.modMe f).opens = s.opens := rfl
@[simp] theorem modMe_stuck (s : State) (f : Scalar → Scalar) : (s.modMe f).stuck = s.stuck := rfl
@[simp] theorem modMe_strmOpens (s : State) (f : Scalar → Scalar) : (s.modMe f).strmOpens = s.strmOpens := rfl
@[simp] theorem setSlice_cores (s : State) (n : Nat) (x : Slice) : (s.setSlice n x).cores = s.cores := rfl
@[simp] theorem setSlice_domains (s : State) (n : Nat) (x : Slice) : (s.setSlice n x).domains = s.domains := rfl
@[simp] theorem setSlice_clkStep (s : State) (n : Nat) (x : Slice) : (s.setSlice n x).clkStep = s.clkStep := rfl
@[simp] theorem setSlice_fuses (s : State) (n : Nat) (x : Slice) : (s.setSlice n x).fuses = s.fuses := rfl
@[simp] theorem setSlice_instant (s : State) (n : Nat) (x : Slice) : (s.setSlice n x).instant = s.instant := rfl
@[simp] theorem setSlice_dram (s : State) (n : Nat) (x : Slice) : (s.setSlice n x).dram = s.dram := rfl
@[simp] theorem setSlice_empties (s : State) (n : Nat) (x : Slice) : (s.setSlice n x).empties = s.empties := rfl
@[simp] theorem setSlice_poisons (s : State) (n : Nat) (x : Slice) : (s.setSlice n x).poisons = s.poisons := rfl
@[simp] theorem setSlice_reloc (s : State) (n : Nat) (x : Slice) : (s.setSlice n x).reloc = s.reloc := rfl
@[simp] theorem setSlice_access (s : State) (n : Nat) (x : Slice) : (s.setSlice n x).access = s.access := rfl
@[simp] theorem setSlice_job (s : State) (n : Nat) (x : Slice) : (s.setSlice n x).job = s.job := rfl
@[simp] theorem setSlice_net (s : State) (n : Nat) (x : Slice) : (s.setSlice n x).net = s.net := rfl
@[simp] theorem setSlice_reqs (s : State) (n : Nat) (x : Slice) : (s.setSlice n x).reqs = s.reqs := rfl
@[simp] theorem setSlice_replies (s : State) (n : Nat) (x : Slice) : (s.setSlice n x).replies = s.replies := rfl
@[simp] theorem setSlice_nextReq (s : State) (n : Nat) (x : Slice) : (s.setSlice n x).nextReq = s.nextReq := rfl
@[simp] theorem setSlice_cohorts (s : State) (n : Nat) (x : Slice) : (s.setSlice n x).cohorts = s.cohorts := rfl
@[simp] theorem setSlice_ranges (s : State) (n : Nat) (x : Slice) : (s.setSlice n x).ranges = s.ranges := rfl
@[simp] theorem setSlice_choice (s : State) (n : Nat) (x : Slice) : (s.setSlice n x).choice = s.choice := rfl
@[simp] theorem setSlice_pq (s : State) (n : Nat) (x : Slice) : (s.setSlice n x).pq = s.pq := rfl
@[simp] theorem setSlice_ptab (s : State) (n : Nat) (x : Slice) : (s.setSlice n x).ptab = s.ptab := rfl
@[simp] theorem setSlice_crown (s : State) (n : Nat) (x : Slice) : (s.setSlice n x).crown = s.crown := rfl
@[simp] theorem setSlice_front (s : State) (n : Nat) (x : Slice) : (s.setSlice n x).front = s.front := rfl
@[simp] theorem setSlice_bq (s : State) (n : Nat) (x : Slice) : (s.setSlice n x).bq = s.bq := rfl
@[simp] theorem setSlice_strms (s : State) (n : Nat) (x : Slice) : (s.setSlice n x).strms = s.strms := rfl
@[simp] theorem setSlice_pkts (s : State) (n : Nat) (x : Slice) : (s.setSlice n x).pkts = s.pkts := rfl
@[simp] theorem setSlice_saved (s : State) (n : Nat) (x : Slice) : (s.setSlice n x).saved = s.saved := rfl
@[simp] theorem setSlice_hub (s : State) (n : Nat) (x : Slice) : (s.setSlice n x).hub = s.hub := rfl
@[simp] theorem setSlice_zusil (s : State) (n : Nat) (x : Slice) : (s.setSlice n x).zusil = s.zusil := rfl
@[simp] theorem setSlice_tape (s : State) (n : Nat) (x : Slice) : (s.setSlice n x).tape = s.tape := rfl
@[simp] theorem setSlice_cur (s : State) (n : Nat) (x : Slice) : (s.setSlice n x).cur = s.cur := rfl
@[simp] theorem setSlice_ticks (s : State) (n : Nat) (x : Slice) : (s.setSlice n x).ticks = s.ticks := rfl
@[simp] theorem setSlice_free (s : State) (n : Nat) (x : Slice) : (s.setSlice n x).free = s.free := rfl
@[simp] theorem setSlice_leafTlb (s : State) (n : Nat) (x : Slice) : (s.setSlice n x).leafTlb = s.leafTlb := rfl
@[simp] theorem setSlice_opens (s : State) (n : Nat) (x : Slice) : (s.setSlice n x).opens = s.opens := rfl
@[simp] theorem setSlice_stuck (s : State) (n : Nat) (x : Slice) : (s.setSlice n x).stuck = s.stuck := rfl
@[simp] theorem setSlice_strmOpens (s : State) (n : Nat) (x : Slice) : (s.setSlice n x).strmOpens = s.strmOpens := rfl
@[simp] theorem report_cores (s : State) (r : ZRec) : (s.report r).cores = s.cores := rfl
@[simp] theorem report_slices (s : State) (r : ZRec) : (s.report r).slices = s.slices := rfl
@[simp] theorem report_domains (s : State) (r : ZRec) : (s.report r).domains = s.domains := rfl
@[simp] theorem report_clkStep (s : State) (r : ZRec) : (s.report r).clkStep = s.clkStep := rfl
@[simp] theorem report_fuses (s : State) (r : ZRec) : (s.report r).fuses = s.fuses := rfl
@[simp] theorem report_instant (s : State) (r : ZRec) : (s.report r).instant = s.instant := rfl
@[simp] theorem report_dram (s : State) (r : ZRec) : (s.report r).dram = s.dram := rfl
@[simp] theorem report_empties (s : State) (r : ZRec) : (s.report r).empties = s.empties := rfl
@[simp] theorem report_poisons (s : State) (r : ZRec) : (s.report r).poisons = s.poisons := rfl
@[simp] theorem report_reloc (s : State) (r : ZRec) : (s.report r).reloc = s.reloc := rfl
@[simp] theorem report_access (s : State) (r : ZRec) : (s.report r).access = s.access := rfl
@[simp] theorem report_job (s : State) (r : ZRec) : (s.report r).job = s.job := rfl
@[simp] theorem report_net (s : State) (r : ZRec) : (s.report r).net = s.net := rfl
@[simp] theorem report_reqs (s : State) (r : ZRec) : (s.report r).reqs = s.reqs := rfl
@[simp] theorem report_replies (s : State) (r : ZRec) : (s.report r).replies = s.replies := rfl
@[simp] theorem report_nextReq (s : State) (r : ZRec) : (s.report r).nextReq = s.nextReq := rfl
@[simp] theorem report_cohorts (s : State) (r : ZRec) : (s.report r).cohorts = s.cohorts := rfl
@[simp] theorem report_ranges (s : State) (r : ZRec) : (s.report r).ranges = s.ranges := rfl
@[simp] theorem report_choice (s : State) (r : ZRec) : (s.report r).choice = s.choice := rfl
@[simp] theorem report_pq (s : State) (r : ZRec) : (s.report r).pq = s.pq := rfl
@[simp] theorem report_ptab (s : State) (r : ZRec) : (s.report r).ptab = s.ptab := rfl
@[simp] theorem report_crown (s : State) (r : ZRec) : (s.report r).crown = s.crown := rfl
@[simp] theorem report_front (s : State) (r : ZRec) : (s.report r).front = s.front := rfl
@[simp] theorem report_bq (s : State) (r : ZRec) : (s.report r).bq = s.bq := rfl
@[simp] theorem report_strms (s : State) (r : ZRec) : (s.report r).strms = s.strms := rfl
@[simp] theorem report_pkts (s : State) (r : ZRec) : (s.report r).pkts = s.pkts := rfl
@[simp] theorem report_saved (s : State) (r : ZRec) : (s.report r).saved = s.saved := rfl
@[simp] theorem report_hub (s : State) (r : ZRec) : (s.report r).hub = s.hub := rfl
@[simp] theorem report_tape (s : State) (r : ZRec) : (s.report r).tape = s.tape := rfl
@[simp] theorem report_cur (s : State) (r : ZRec) : (s.report r).cur = s.cur := rfl
@[simp] theorem report_ticks (s : State) (r : ZRec) : (s.report r).ticks = s.ticks := rfl
@[simp] theorem report_free (s : State) (r : ZRec) : (s.report r).free = s.free := rfl
@[simp] theorem report_leafTlb (s : State) (r : ZRec) : (s.report r).leafTlb = s.leafTlb := rfl
@[simp] theorem report_opens (s : State) (r : ZRec) : (s.report r).opens = s.opens := rfl
@[simp] theorem report_stuck (s : State) (r : ZRec) : (s.report r).stuck = s.stuck := rfl
@[simp] theorem report_strmOpens (s : State) (r : ZRec) : (s.report r).strmOpens = s.strmOpens := rfl

@[simp] theorem core_setCore_same (s : State) (p : Nat) (c : Core) : (s.setCore p c).core p = c := get_put_same ..
theorem core_setCore_other (s : State) {p q : Nat} (c : Core) (h : q ≠ p) : (s.setCore p c).core q = s.core q := get_put_other _ _ _ h
@[simp] theorem core_modCore_same (s : State) (p : Nat) (f : Core → Core) : (s.modCore p f).core p = f (s.core p) := get_put_same ..
theorem core_modCore_other (s : State) {p q : Nat} (f : Core → Core) (h : q ≠ p) : (s.modCore p f).core q = s.core q := get_put_other _ _ _ h
@[simp] theorem core_report (s : State) (r : ZRec) (p : Nat) : (s.report r).core p = s.core p := rfl
@[simp] theorem core_setSlice (s : State) (n : Nat) (x : Slice) (p : Nat) : (s.setSlice n x).core p = s.core p := rfl
@[simp] theorem slice_setSlice_same (s : State) (n : Nat) (x : Slice) : (s.setSlice n x).slice n = x := get_put_same ..
theorem slice_setSlice_other (s : State) {n m : Nat} (x : Slice) (h : m ≠ n) : (s.setSlice n x).slice m = s.slice m := get_put_other _ _ _ h
@[simp] theorem slice_setCore (s : State) (p : Nat) (c : Core) (n : Nat) : (s.setCore p c).slice n = s.slice n := rfl
@[simp] theorem slice_modCore (s : State) (p : Nat) (f : Core → Core) (n : Nat) : (s.modCore p f).slice n = s.slice n := rfl

/-! ## A core -/

@[simp] theorem setScal_vcn (c : Core) (k : Kind) (x : Scalar) : (c.setScal k x).vcn = c.vcn := by cases k <;> rfl
@[simp] theorem setScal_ph (c : Core) (k : Kind) (x : Scalar) : (c.setScal k x).ph = c.ph := by cases k <;> rfl
@[simp] theorem setScal_lease (c : Core) (k : Kind) (x : Scalar) : (c.setScal k x).lease = c.lease := by cases k <;> rfl
@[simp] theorem setScal_spmax (c : Core) (k : Kind) (x : Scalar) : (c.setScal k x).spmax = c.spmax := by cases k <;> rfl
@[simp] theorem setScal_dth (c : Core) (k : Kind) (x : Scalar) : (c.setScal k x).dth = c.dth := by cases k <;> rfl
@[simp] theorem setScal_tq (c : Core) (k : Kind) (x : Scalar) : (c.setScal k x).tq = c.tq := by cases k <;> rfl
@[simp] theorem setScal_age (c : Core) (k : Kind) (x : Scalar) : (c.setScal k x).age = c.age := by cases k <;> rfl
@[simp] theorem setScal_spillFirst (c : Core) (k : Kind) (x : Scalar) : (c.setScal k x).spillFirst = c.spillFirst := by cases k <;> rfl
@[simp] theorem setScal_spillBlocks (c : Core) (k : Kind) (x : Scalar) : (c.setScal k x).spillBlocks = c.spillBlocks := by cases k <;> rfl
@[simp] theorem setScal_feat (c : Core) (k : Kind) (x : Scalar) : (c.setScal k x).feat = c.feat := by cases k <;> rfl
@[simp] theorem setScal_mb (c : Core) (k : Kind) (x : Scalar) : (c.setScal k x).mb = c.mb := by cases k <;> rfl
@[simp] theorem setScal_fnt (c : Core) (k : Kind) (x : Scalar) : (c.setScal k x).fnt = c.fnt := by cases k <;> rfl
@[simp] theorem setScal_pubMax (c : Core) (k : Kind) (x : Scalar) : (c.setScal k x).pubMax = c.pubMax := by cases k <;> rfl
@[simp] theorem setScal_l1 (c : Core) (k : Kind) (x : Scalar) : (c.setScal k x).l1 = c.l1 := by cases k <;> rfl
@[simp] theorem setScal_stash (c : Core) (k : Kind) (x : Scalar) : (c.setScal k x).stash = c.stash := by cases k <;> rfl
@[simp] theorem setScal_tlb (c : Core) (k : Kind) (x : Scalar) : (c.setScal k x).tlb = c.tlb := by cases k <;> rfl
@[simp] theorem setScal_handlers (c : Core) (k : Kind) (x : Scalar) : (c.setScal k x).handlers = c.handlers := by cases k <;> rfl
@[simp] theorem setScal_inb (c : Core) (k : Kind) (x : Scalar) : (c.setScal k x).inb = c.inb := by cases k <;> rfl
@[simp] theorem setScal_out (c : Core) (k : Kind) (x : Scalar) : (c.setScal k x).out = c.out := by cases k <;> rfl
@[simp] theorem setScal_dlv (c : Core) (k : Kind) (x : Scalar) : (c.setScal k x).dlv = c.dlv := by cases k <;> rfl
@[simp] theorem setScal_hold (c : Core) (k : Kind) (x : Scalar) : (c.setScal k x).hold = c.hold := by cases k <;> rfl
@[simp] theorem setScal_plane (c : Core) (k : Kind) (x : Scalar) : (c.setScal k x).plane = c.plane := by cases k <;> rfl
@[simp] theorem setScal_toAck (c : Core) (k : Kind) (x : Scalar) : (c.setScal k x).toAck = c.toAck := by cases k <;> rfl
@[simp] theorem setScal_offUna (c : Core) (k : Kind) (x : Scalar) : (c.setScal k x).offUna = c.offUna := by cases k <;> rfl
@[simp] theorem setScal_naks (c : Core) (k : Kind) (x : Scalar) : (c.setScal k x).naks = c.naks := by cases k <;> rfl
@[simp] theorem setScal_eq (c : Core) (k : Kind) (x : Scalar) : (c.setScal k x).eq = c.eq := by cases k <;> rfl
@[simp] theorem setScal_eqHeld (c : Core) (k : Kind) (x : Scalar) : (c.setScal k x).eqHeld = c.eqHeld := by cases k <;> rfl
@[simp] theorem setScal_engines (c : Core) (k : Kind) (x : Scalar) : (c.setScal k x).engines = c.engines := by cases k <;> rfl
@[simp] theorem setScal_cfgq (c : Core) (k : Kind) (x : Scalar) : (c.setScal k x).cfgq = c.cfgq := by cases k <;> rfl
@[simp] theorem setScal_tasks (c : Core) (k : Kind) (x : Scalar) : (c.setScal k x).tasks = c.tasks := by cases k <;> rfl
@[simp] theorem setScal_futs (c : Core) (k : Kind) (x : Scalar) : (c.setScal k x).futs = c.futs := by cases k <;> rfl
@[simp] theorem setScal_bars (c : Core) (k : Kind) (x : Scalar) : (c.setScal k x).bars = c.bars := by cases k <;> rfl
@[simp] theorem setScal_cmask (c : Core) (k : Kind) (x : Scalar) : (c.setScal k x).cmask = c.cmask := by cases k <;> rfl
@[simp] theorem setScal_amask (c : Core) (k : Kind) (x : Scalar) : (c.setScal k x).amask = c.amask := by cases k <;> rfl
@[simp] theorem setScal_retry (c : Core) (k : Kind) (x : Scalar) : (c.setScal k x).retry = c.retry := by cases k <;> rfl
@[simp] theorem setScal_prog (c : Core) (k : Kind) (x : Scalar) : (c.setScal k x).prog = c.prog := by cases k <;> rfl
@[simp] theorem setScal_sw (c : Core) (k : Kind) (x : Scalar) : (c.setScal k x).sw = c.sw := by cases k <;> rfl
@[simp] theorem setScal_freeze (c : Core) (k : Kind) (x : Scalar) : (c.setScal k x).freeze = c.freeze := by cases k <;> rfl
@[simp] theorem setScal_elems (c : Core) (k : Kind) (x : Scalar) : (c.setScal k x).elems = c.elems := by cases k <;> rfl
@[simp] theorem setScal_overflow (c : Core) (k : Kind) (x : Scalar) : (c.setScal k x).overflow = c.overflow := by cases k <;> rfl
@[simp] theorem setScal_ports (c : Core) (k : Kind) (x : Scalar) : (c.setScal k x).ports = c.ports := by cases k <;> rfl
@[simp] theorem setScal_bus (c : Core) (k : Kind) (x : Scalar) : (c.setScal k x).bus = c.bus := by cases k <;> rfl
@[simp] theorem setScal_tearing (c : Core) (k : Kind) (x : Scalar) : (c.setScal k x).tearing = c.tearing := by cases k <;> rfl
@[simp] theorem setScal_resumeWait (c : Core) (k : Kind) (x : Scalar) : (c.setScal k x).resumeWait = c.resumeWait := by cases k <;> rfl
@[simp] theorem setScal_rewalk (c : Core) (k : Kind) (x : Scalar) : (c.setScal k x).rewalk = c.rewalk := by cases k <;> rfl

@[simp] theorem scal_setScal_same (c : Core) (k : Kind) (x : Scalar) : (c.setScal k x).scal k = x := by cases k <;> rfl
theorem scal_setScal_other (c : Core) {k q : Kind} (x : Scalar) (h : q ≠ k) : (c.setScal k x).scal q = c.scal q := by
  cases k <;> cases q <;> first | rfl | exact absurd rfl h
@[simp] theorem setScal_scal (c : Core) (k : Kind) : c.setScal k (c.scal k) = c := by cases k <;> rfl
@[simp] theorem setScal_setScal (c : Core) (k : Kind) (x y : Scalar) : (c.setScal k x).setScal k y = c.setScal k y := by cases k <;> rfl
@[simp] theorem setScal_oldAreas (c : Core) (k : Kind) (x : Scalar) : (c.setScal k x).oldAreas = c.oldAreas := by cases k <;> rfl
@[simp] theorem setScal_behind (c : Core) (k : Kind) (x : Scalar) : (c.setScal k x).behind = c.behind := by cases k <;> rfl
@[simp] theorem setScal_progStop (c : Core) (k : Kind) (x : Scalar) : (c.setScal k x).progStop = c.progStop := by cases k <;> rfl
@[simp] theorem setScal_alloc (c : Core) (k : Kind) (x : Scalar) : (c.setScal k x).alloc = c.alloc := by cases k <;> rfl
@[simp] theorem lineAt_setScal (c : Core) (k : Kind) (x : Scalar) (w : Place) : (c.setScal k x).lineAt w = c.lineAt w := by cases k <;> rfl

/-! ## A scalar core -/

@[simp] theorem setG_t (x : Scalar) (d : BitVec 5) (v : Word) : (x.setG d v).t = x.t := by unfold Scalar.setG; split <;> rfl
@[simp] theorem setG_pc (x : Scalar) (d : BitVec 5) (v : Word) : (x.setG d v).pc = x.pc := by unfold Scalar.setG; split <;> rfl
@[simp] theorem setG_lpc (x : Scalar) (d : BitVec 5) (v : Word) : (x.setG d v).lpc = x.lpc := by unfold Scalar.setG; split <;> rfl
@[simp] theorem setG_lps (x : Scalar) (d : BitVec 5) (v : Word) : (x.setG d v).lps = x.lps := by unfold Scalar.setG; split <;> rfl
@[simp] theorem setG_lpe (x : Scalar) (d : BitVec 5) (v : Word) : (x.setG d v).lpe = x.lpe := by unfold Scalar.setG; split <;> rfl
@[simp] theorem setG_slps (x : Scalar) (d : BitVec 5) (v : Word) : (x.setG d v).slps = x.slps := by unfold Scalar.setG; split <;> rfl
@[simp] theorem setG_slpe (x : Scalar) (d : BitVec 5) (v : Word) : (x.setG d v).slpe = x.slpe := by unfold Scalar.setG; split <;> rfl
@[simp] theorem setG_spp (x : Scalar) (d : BitVec 5) (v : Word) : (x.setG d v).spp = x.spp := by unfold Scalar.setG; split <;> rfl
@[simp] theorem setG_lpa (x : Scalar) (d : BitVec 5) (v : Word) : (x.setG d v).lpa = x.lpa := by unfold Scalar.setG; split <;> rfl
@[simp] theorem setG_prio (x : Scalar) (d : BitVec 5) (v : Word) : (x.setG d v).prio = x.prio := by unfold Scalar.setG; split <;> rfl
@[simp] theorem setG_hnd (x : Scalar) (d : BitVec 5) (v : Word) : (x.setG d v).hnd = x.hnd := by unfold Scalar.setG; split <;> rfl
@[simp] theorem setG_dbe (x : Scalar) (d : BitVec 5) (v : Word) : (x.setG d v).dbe = x.dbe := by unfold Scalar.setG; split <;> rfl
@[simp] theorem setG_ssr (x : Scalar) (d : BitVec 5) (v : Word) : (x.setG d v).ssr = x.ssr := by unfold Scalar.setG; split <;> rfl
@[simp] theorem setG_epc (x : Scalar) (d : BitVec 5) (v : Word) : (x.setG d v).epc = x.epc := by unfold Scalar.setG; split <;> rfl
@[simp] theorem setG_ecause (x : Scalar) (d : BitVec 5) (v : Word) : (x.setG d v).ecause = x.ecause := by unfold Scalar.setG; split <;> rfl
@[simp] theorem setG_eaddr (x : Scalar) (d : BitVec 5) (v : Word) : (x.setG d v).eaddr = x.eaddr := by unfold Scalar.setG; split <;> rfl
@[simp] theorem setG_tvec (x : Scalar) (d : BitVec 5) (v : Word) : (x.setG d v).tvec = x.tvec := by unfold Scalar.setG; split <;> rfl
@[simp] theorem setG_spcount (x : Scalar) (d : BitVec 5) (v : Word) : (x.setG d v).spcount = x.spcount := by unfold Scalar.setG; split <;> rfl
@[simp] theorem setG_store (x : Scalar) (d : BitVec 5) (v : Word) : (x.setG d v).store = x.store := by unfold Scalar.setG; split <;> rfl
@[simp] theorem setG_run (x : Scalar) (d : BitVec 5) (v : Word) : (x.setG d v).run = x.run := by unfold Scalar.setG; split <;> rfl
@[simp] theorem setG_stop (x : Scalar) (d : BitVec 5) (v : Word) : (x.setG d v).stop = x.stop := by unfold Scalar.setG; split <;> rfl
@[simp] theorem setG_wait (x : Scalar) (d : BitVec 5) (v : Word) : (x.setG d v).wait = x.wait := by unfold Scalar.setG; split <;> rfl
@[simp] theorem setG_sp (x : Scalar) (d : BitVec 5) (v : Word) : (x.setG d v).sp = x.sp := by unfold Scalar.setG; split <;> rfl
@[simp] theorem setG_ready (x : Scalar) (d : BitVec 5) (v : Word) : (x.setG d v).ready = x.ready := by unfold Scalar.setG; split <;> rfl
@[simp] theorem setG_section_ (x : Scalar) (d : BitVec 5) (v : Word) : (x.setG d v).section_ = x.section_ := by unfold Scalar.setG; split <;> rfl
@[simp] theorem setG_nsp (x : Scalar) (d : BitVec 5) (v : Word) : (x.setG d v).nsp = x.nsp := by unfold Scalar.setG; split <;> rfl
@[simp] theorem setG_sptab (x : Scalar) (d : BitVec 5) (v : Word) : (x.setG d v).sptab = x.sptab := by unfold Scalar.setG; split <;> rfl
@[simp] theorem setG_askAge (x : Scalar) (d : BitVec 5) (v : Word) : (x.setG d v).askAge = x.askAge := by unfold Scalar.setG; split <;> rfl
@[simp] theorem setG_asking (x : Scalar) (d : BitVec 5) (v : Word) : (x.setG d v).asking = x.asking := by unfold Scalar.setG; split <;> rfl
@[simp] theorem setG_prioSet (x : Scalar) (d : BitVec 5) (v : Word) : (x.setG d v).prioSet = x.prioSet := by unfold Scalar.setG; split <;> rfl
@[simp] theorem setT_g (x : Scalar) (d : BitVec 3) (v : Word) : (x.setT d v).g = x.g := rfl
@[simp] theorem setT_pc (x : Scalar) (d : BitVec 3) (v : Word) : (x.setT d v).pc = x.pc := rfl
@[simp] theorem setT_lpc (x : Scalar) (d : BitVec 3) (v : Word) : (x.setT d v).lpc = x.lpc := rfl
@[simp] theorem setT_lps (x : Scalar) (d : BitVec 3) (v : Word) : (x.setT d v).lps = x.lps := rfl
@[simp] theorem setT_lpe (x : Scalar) (d : BitVec 3) (v : Word) : (x.setT d v).lpe = x.lpe := rfl
@[simp] theorem setT_slps (x : Scalar) (d : BitVec 3) (v : Word) : (x.setT d v).slps = x.slps := rfl
@[simp] theorem setT_slpe (x : Scalar) (d : BitVec 3) (v : Word) : (x.setT d v).slpe = x.slpe := rfl
@[simp] theorem setT_spp (x : Scalar) (d : BitVec 3) (v : Word) : (x.setT d v).spp = x.spp := rfl
@[simp] theorem setT_lpa (x : Scalar) (d : BitVec 3) (v : Word) : (x.setT d v).lpa = x.lpa := rfl
@[simp] theorem setT_prio (x : Scalar) (d : BitVec 3) (v : Word) : (x.setT d v).prio = x.prio := rfl
@[simp] theorem setT_hnd (x : Scalar) (d : BitVec 3) (v : Word) : (x.setT d v).hnd = x.hnd := rfl
@[simp] theorem setT_dbe (x : Scalar) (d : BitVec 3) (v : Word) : (x.setT d v).dbe = x.dbe := rfl
@[simp] theorem setT_ssr (x : Scalar) (d : BitVec 3) (v : Word) : (x.setT d v).ssr = x.ssr := rfl
@[simp] theorem setT_epc (x : Scalar) (d : BitVec 3) (v : Word) : (x.setT d v).epc = x.epc := rfl
@[simp] theorem setT_ecause (x : Scalar) (d : BitVec 3) (v : Word) : (x.setT d v).ecause = x.ecause := rfl
@[simp] theorem setT_eaddr (x : Scalar) (d : BitVec 3) (v : Word) : (x.setT d v).eaddr = x.eaddr := rfl
@[simp] theorem setT_tvec (x : Scalar) (d : BitVec 3) (v : Word) : (x.setT d v).tvec = x.tvec := rfl
@[simp] theorem setT_spcount (x : Scalar) (d : BitVec 3) (v : Word) : (x.setT d v).spcount = x.spcount := rfl
@[simp] theorem setT_store (x : Scalar) (d : BitVec 3) (v : Word) : (x.setT d v).store = x.store := rfl
@[simp] theorem setT_run (x : Scalar) (d : BitVec 3) (v : Word) : (x.setT d v).run = x.run := rfl
@[simp] theorem setT_stop (x : Scalar) (d : BitVec 3) (v : Word) : (x.setT d v).stop = x.stop := rfl
@[simp] theorem setT_wait (x : Scalar) (d : BitVec 3) (v : Word) : (x.setT d v).wait = x.wait := rfl
@[simp] theorem setT_sp (x : Scalar) (d : BitVec 3) (v : Word) : (x.setT d v).sp = x.sp := rfl
@[simp] theorem setT_ready (x : Scalar) (d : BitVec 3) (v : Word) : (x.setT d v).ready = x.ready := rfl
@[simp] theorem setT_section_ (x : Scalar) (d : BitVec 3) (v : Word) : (x.setT d v).section_ = x.section_ := rfl
@[simp] theorem setT_nsp (x : Scalar) (d : BitVec 3) (v : Word) : (x.setT d v).nsp = x.nsp := rfl
@[simp] theorem setT_sptab (x : Scalar) (d : BitVec 3) (v : Word) : (x.setT d v).sptab = x.sptab := rfl
@[simp] theorem setT_askAge (x : Scalar) (d : BitVec 3) (v : Word) : (x.setT d v).askAge = x.askAge := rfl
@[simp] theorem setT_asking (x : Scalar) (d : BitVec 3) (v : Word) : (x.setT d v).asking = x.asking := rfl
@[simp] theorem setT_prioSet (x : Scalar) (d : BitVec 3) (v : Word) : (x.setT d v).prioSet = x.prioSet := rfl
@[simp] theorem advance_g (x : Scalar) : x.advance.g = x.g := by unfold Scalar.advance; (repeat' split) <;> rfl
@[simp] theorem advance_t (x : Scalar) : x.advance.t = x.t := by unfold Scalar.advance; (repeat' split) <;> rfl
@[simp] theorem advance_lps (x : Scalar) : x.advance.lps = x.lps := by unfold Scalar.advance; (repeat' split) <;> rfl
@[simp] theorem advance_lpe (x : Scalar) : x.advance.lpe = x.lpe := by unfold Scalar.advance; (repeat' split) <;> rfl
@[simp] theorem advance_slps (x : Scalar) : x.advance.slps = x.slps := by unfold Scalar.advance; (repeat' split) <;> rfl
@[simp] theorem advance_slpe (x : Scalar) : x.advance.slpe = x.slpe := by unfold Scalar.advance; (repeat' split) <;> rfl
@[simp] theorem advance_spp (x : Scalar) : x.advance.spp = x.spp := by unfold Scalar.advance; (repeat' split) <;> rfl
@[simp] theorem advance_prio (x : Scalar) : x.advance.prio = x.prio := by unfold Scalar.advance; (repeat' split) <;> rfl
@[simp] theorem advance_hnd (x : Scalar) : x.advance.hnd = x.hnd := by unfold Scalar.advance; (repeat' split) <;> rfl
@[simp] theorem advance_dbe (x : Scalar) : x.advance.dbe = x.dbe := by unfold Scalar.advance; (repeat' split) <;> rfl
@[simp] theorem advance_ssr (x : Scalar) : x.advance.ssr = x.ssr := by unfold Scalar.advance; (repeat' split) <;> rfl
@[simp] theorem advance_epc (x : Scalar) : x.advance.epc = x.epc := by unfold Scalar.advance; (repeat' split) <;> rfl
@[simp] theorem advance_ecause (x : Scalar) : x.advance.ecause = x.ecause := by unfold Scalar.advance; (repeat' split) <;> rfl
@[simp] theorem advance_eaddr (x : Scalar) : x.advance.eaddr = x.eaddr := by unfold Scalar.advance; (repeat' split) <;> rfl
@[simp] theorem advance_tvec (x : Scalar) : x.advance.tvec = x.tvec := by unfold Scalar.advance; (repeat' split) <;> rfl
@[simp] theorem advance_spcount (x : Scalar) : x.advance.spcount = x.spcount := by unfold Scalar.advance; (repeat' split) <;> rfl
@[simp] theorem advance_store (x : Scalar) : x.advance.store = x.store := by unfold Scalar.advance; (repeat' split) <;> rfl
@[simp] theorem advance_run (x : Scalar) : x.advance.run = x.run := by unfold Scalar.advance; (repeat' split) <;> rfl
@[simp] theorem advance_stop (x : Scalar) : x.advance.stop = x.stop := by unfold Scalar.advance; (repeat' split) <;> rfl
@[simp] theorem advance_wait (x : Scalar) : x.advance.wait = x.wait := by unfold Scalar.advance; (repeat' split) <;> rfl
@[simp] theorem advance_sp (x : Scalar) : x.advance.sp = x.sp := by unfold Scalar.advance; (repeat' split) <;> rfl
@[simp] theorem advance_ready (x : Scalar) : x.advance.ready = x.ready := by unfold Scalar.advance; (repeat' split) <;> rfl
@[simp] theorem advance_section_ (x : Scalar) : x.advance.section_ = x.section_ := by unfold Scalar.advance; (repeat' split) <;> rfl
@[simp] theorem advance_nsp (x : Scalar) : x.advance.nsp = x.nsp := by unfold Scalar.advance; (repeat' split) <;> rfl
@[simp] theorem advance_sptab (x : Scalar) : x.advance.sptab = x.sptab := by unfold Scalar.advance; (repeat' split) <;> rfl
@[simp] theorem advance_askAge (x : Scalar) : x.advance.askAge = x.askAge := by unfold Scalar.advance; (repeat' split) <;> rfl
@[simp] theorem advance_asking (x : Scalar) : x.advance.asking = x.asking := by unfold Scalar.advance; (repeat' split) <;> rfl
@[simp] theorem advance_prioSet (x : Scalar) : x.advance.prioSet = x.prioSet := by unfold Scalar.advance; (repeat' split) <;> rfl
@[simp] theorem enterTrap_g (k : Kind) (c : Nat) (e a : Word) (x : Scalar) : (x.enterTrap k c e a).g = x.g := rfl
@[simp] theorem enterTrap_t (k : Kind) (c : Nat) (e a : Word) (x : Scalar) : (x.enterTrap k c e a).t = x.t := rfl
@[simp] theorem enterTrap_lpc (k : Kind) (c : Nat) (e a : Word) (x : Scalar) : (x.enterTrap k c e a).lpc = x.lpc := rfl
@[simp] theorem enterTrap_lps (k : Kind) (c : Nat) (e a : Word) (x : Scalar) : (x.enterTrap k c e a).lps = x.lps := rfl
@[simp] theorem enterTrap_lpe (k : Kind) (c : Nat) (e a : Word) (x : Scalar) : (x.enterTrap k c e a).lpe = x.lpe := rfl
@[simp] theorem enterTrap_slps (k : Kind) (c : Nat) (e a : Word) (x : Scalar) : (x.enterTrap k c e a).slps = x.slps := rfl
@[simp] theorem enterTrap_slpe (k : Kind) (c : Nat) (e a : Word) (x : Scalar) : (x.enterTrap k c e a).slpe = x.slpe := rfl
@[simp] theorem enterTrap_spp (k : Kind) (c : Nat) (e a : Word) (x : Scalar) : (x.enterTrap k c e a).spp = x.spp := rfl
@[simp] theorem enterTrap_lpa (k : Kind) (c : Nat) (e a : Word) (x : Scalar) : (x.enterTrap k c e a).lpa = x.lpa := rfl
@[simp] theorem enterTrap_prio (k : Kind) (c : Nat) (e a : Word) (x : Scalar) : (x.enterTrap k c e a).prio = x.prio := rfl
@[simp] theorem enterTrap_dbe (k : Kind) (c : Nat) (e a : Word) (x : Scalar) : (x.enterTrap k c e a).dbe = x.dbe := rfl
@[simp] theorem enterTrap_tvec (k : Kind) (c : Nat) (e a : Word) (x : Scalar) : (x.enterTrap k c e a).tvec = x.tvec := rfl
@[simp] theorem enterTrap_store (k : Kind) (c : Nat) (e a : Word) (x : Scalar) : (x.enterTrap k c e a).store = x.store := rfl
@[simp] theorem enterTrap_run (k : Kind) (c : Nat) (e a : Word) (x : Scalar) : (x.enterTrap k c e a).run = x.run := rfl
@[simp] theorem enterTrap_stop (k : Kind) (c : Nat) (e a : Word) (x : Scalar) : (x.enterTrap k c e a).stop = x.stop := rfl
@[simp] theorem enterTrap_sp (k : Kind) (c : Nat) (e a : Word) (x : Scalar) : (x.enterTrap k c e a).sp = x.sp := rfl
@[simp] theorem enterTrap_ready (k : Kind) (c : Nat) (e a : Word) (x : Scalar) : (x.enterTrap k c e a).ready = x.ready := rfl
@[simp] theorem enterTrap_section_ (k : Kind) (c : Nat) (e a : Word) (x : Scalar) : (x.enterTrap k c e a).section_ = x.section_ := rfl
@[simp] theorem enterTrap_nsp (k : Kind) (c : Nat) (e a : Word) (x : Scalar) : (x.enterTrap k c e a).nsp = x.nsp := rfl
@[simp] theorem enterTrap_sptab (k : Kind) (c : Nat) (e a : Word) (x : Scalar) : (x.enterTrap k c e a).sptab = x.sptab := rfl
@[simp] theorem enterTrap_askAge (k : Kind) (c : Nat) (e a : Word) (x : Scalar) : (x.enterTrap k c e a).askAge = x.askAge := rfl
@[simp] theorem enterTrap_asking (k : Kind) (c : Nat) (e a : Word) (x : Scalar) : (x.enterTrap k c e a).asking = x.asking := rfl
@[simp] theorem enterTrap_prioSet (k : Kind) (c : Nat) (e a : Word) (x : Scalar) : (x.enterTrap k c e a).prioSet = x.prioSet := rfl

@[simp] theorem gr_zero (x : Scalar) : x.gr 0 = 0 := rfl

/-- A register reads as written; g0 still reads 0 (R9). -/
theorem gr_setG (x : Scalar) (d r : BitVec 5) (v : Word) : (x.setG d v).gr r = if r = d ∧ d ≠ 0 then v else x.gr r := by
  unfold Scalar.setG
  by_cases hd : d = 0
  · simp [hd]
  · by_cases hr : r = d
    · subst hr
      rw [if_neg hd, if_pos ⟨rfl, hd⟩, Scalar.gr, if_neg hd]
      exact get_put_same ..
    · rw [if_neg hd, if_neg (fun h => hr h.1)]
      unfold Scalar.gr
      split
      · rfl
      · exact get_put_other _ _ _ fun h => hr (BitVec.eq_of_toNat_eq h)

theorem tr_setT (x : Scalar) (d r : BitVec 3) (v : Word) : (x.setT d v).tr r = if r = d then v else x.tr r := by
  unfold Scalar.setT Scalar.tr
  by_cases hr : r = d
  · subst hr
    simp
  · rw [if_neg hr]
    exact get_put_other _ _ _ fun h => hr (BitVec.eq_of_toNat_eq h)

@[simp] theorem gr_advance (x : Scalar) (r : BitVec 5) : x.advance.gr r = x.gr r := by simp [Scalar.gr]
@[simp] theorem tr_advance (x : Scalar) (r : BitVec 3) : x.advance.tr r = x.tr r := by simp [Scalar.tr]
@[simp] theorem tr_setG (x : Scalar) (d : BitVec 5) (v : Word) (r : BitVec 3) : (x.setG d v).tr r = x.tr r := by simp [Scalar.tr]
@[simp] theorem gr_setT (x : Scalar) (d : BitVec 3) (v : Word) (r : BitVec 5) : (x.setT d v).gr r = x.gr r := by simp [Scalar.gr]

/-- A register write and the advance of the pc do not depend on each other. -/
theorem advance_setG (x : Scalar) (d : BitVec 5) (v : Word) : (x.setG d v).advance = { x.advance with g := (x.setG d v).g } := by
  unfold Scalar.setG
  split
  · unfold Scalar.advance
    (repeat' split) <;> rfl
  · unfold Scalar.advance
    dsimp only
    (repeat' split) <;> rfl

theorem advance_setT (x : Scalar) (d : BitVec 3) (v : Word) : (x.setT d v).advance = { x.advance with t := (x.setT d v).t } := by
  unfold Scalar.setT Scalar.advance
  dsimp only
  (repeat' split) <;> rfl

/-! ## The executing scalar core -/

@[simp] theorem me_modMe (s : State) (f : Scalar → Scalar) : (s.modMe f).me = f s.me := by
  simp [State.modMe, State.me, State.scal, State.modScal, State.modCore, State.setCore, State.core, Core.modScal]

theorem scal_modScal_same (s : State) (p : Nat) (k : Kind) (f : Scalar → Scalar) : (s.modScal p k f).scal p k = f (s.scal p k) := by
  simp [State.scal, State.modScal, Core.modScal]

theorem core_modMe_same (s : State) (f : Scalar → Scalar) : (s.modMe f).core s.cur.p = s.mine.setScal s.cur.k (f s.me) := get_put_same ..

end Sys2Proof.Laws
end

