-- ==== Sys2Proof/Laws/Memory.lean ====
section
/-!
SUPPORT. What the operations over memory do: bytes of DRAM read after a write, the canonical form kept by every write, and the bytes of a line
after a store, a merge or a fill.
-/
namespace Sys2Proof.Laws

open Sys2Proof Sys2Proof.Machine

/-! ## DRAM, byte by byte -/

/-- Reading a byte after writing it gives it, and every other byte stays. -/
theorem dramByte_set (m : List Host.Cell) (k q : Nat) (b : Byte) : dramByte (setDramByte m k b) q = if q = k then b else dramByte m q := by
  unfold dramByte setDramByte
  split
  · next h => rw [h, get_set_same]
  · next h => rw [get_set_other _ _ _ h]

/-- n bytes written: those of x, least significant first; every other byte stays. -/
theorem dramByte_write (n : Nat) : ∀ (m : List Host.Cell) (k x q : Nat),
    dramByte (dramWrite m k n x) q = if k ≤ q ∧ q < k + n then BitVec.ofNat 8 (x / 2 ^ (8 * (q - k))) else dramByte m q := by
  induction n with
  | zero => intro m k x q; rw [if_neg (by omega)]; rfl
  | succ n ih =>
    intro m k x q
    unfold dramWrite
    rw [ih, dramByte_set]
    by_cases hq : q = k
    · subst hq
      rw [if_neg (by omega), if_pos rfl, if_pos (by omega), Nat.sub_self]
      simp
    · by_cases h : k + 1 ≤ q ∧ q < k + 1 + n
      · rw [if_pos h, if_pos (by omega), Nat.div_div_eq_div_mul, show 8 * (q - k) = 8 + 8 * (q - (k + 1)) by omega, Nat.pow_add]
      · rw [if_neg h, if_neg hq, if_neg (by omega)]

/-- A write keeps the canonical form. -/
theorem wf_set {m : List Host.Cell} (k : Nat) (b : Byte) (h : Memory.wf m = true) : Memory.wf (setDramByte m k b) = true := canonical_set k b h

theorem wf_write (n : Nat) : ∀ {m : List Host.Cell} (k x : Nat), Memory.wf m = true → Memory.wf (dramWrite m k n x) = true := by
  induction n with
  | zero => intro m k x h; exact h
  | succ n ih => intro m k x h; exact ih (k + 1) (x / 256) (wf_set k _ h)

theorem wf_reset : Memory.wf State.reset.dram = true := rfl

/-- A write at a channel controller keeps the canonical form (R80). -/
theorem dramPut_wf {s t : State} {k n x : Nat} (h : s.dramPut k n x = some t) (hw : Memory.wf s.dram = true) : Memory.wf t.dram = true := by
  unfold State.dramPut at h
  dsimp only at h
  split at h
  · exact absurd h (by simp)
  · obtain rfl := Option.some.inj h
    exact wf_write n k x hw

/-- What a write at a channel controller leaves (R80, R115). -/
theorem dramPut_bytes {s t : State} {k n x : Nat} (h : s.dramPut k n x = some t) (q : Nat) :
    dramByte t.dram q = if k ≤ q ∧ q < k + n then BitVec.ofNat 8 (x / 2 ^ (8 * (q - k))) else dramByte s.dram q := by
  unfold State.dramPut at h
  dsimp only at h
  split at h
  · exact absurd h (by simp)
  · obtain rfl := Option.some.inj h
    exact dramByte_write n s.dram k x q

/-- A written-back line keeps the canonical form (R45). -/
theorem writeBack_wf {s : State} (line : Nat) (l : L2Line) (hw : Memory.wf s.dram = true) : Memory.wf (s.writeBack line l).dram = true :=
  wf_write 128 _ _ hw

/-! ## Bytes of a line -/

theorem testBit_spreadMask (n : Nat) : ∀ m i : Nat, (spreadMask n m).testBit i = (decide (i < 8 * n) && m.testBit (i / 8)) := by
  induction n with
  | zero => intro m i; simp [spreadMask]
  | succ n ih =>
    intro m i
    unfold spreadMask
    have hlt : (if m % 2 = 1 then 255 else 0) < 2 ^ 8 := by split <;> decide
    rw [Nat.add_comm, show 256 = 2 ^ 8 from rfl, Nat.testBit_two_pow_mul_add _ hlt]
    split
    · next h =>
      rw [show i / 8 = 0 by omega, Nat.testBit_zero]
      by_cases hm : m % 2 = 1
      · rw [if_pos hm, show (255 : Nat) = 2 ^ 8 - 1 from rfl, Nat.testBit_two_pow_sub_one]
        simp [h, hm]; omega
      · rw [if_neg hm]; simp [hm]
    · next h =>
      rw [ih, Nat.testBit_div_two, show (i - 8) / 8 + 1 = i / 8 by omega]
      simp only [show (i - 8 < 8 * n) = (i < 8 * (n + 1)) by simp; omega]

/-- Bit i of a merged line. -/
theorem getLsbD_mergeData (m : LineMask) (a b : LineData) (i : Nat) (h : i < 1024) :
    (mergeData m a b).getLsbD i = if m.getLsbD (i / 8) then b.getLsbD i else a.getLsbD i := by
  unfold mergeData
  simp only [BitVec.getLsbD_or, BitVec.getLsbD_and, BitVec.getLsbD_not, BitVec.getLsbD_ofNat, testBit_spreadMask, h, decide_true, Bool.true_and]
  rw [show m.toNat.testBit (i / 8) = m.getLsbD (i / 8) from rfl]
  cases m.getLsbD (i / 8) <;> simp

/-- Byte j of a merged line comes from the side that the mask says. -/
theorem mergeData_byte (m : LineMask) (a b : LineData) {j : Nat} (h : j < 128) :
    (mergeData m a b).extractLsb' (8 * j) 8 = if m.getLsbD j then b.extractLsb' (8 * j) 8 else a.extractLsb' (8 * j) 8 := by
  apply BitVec.eq_of_getLsbD_eq
  intro i hi
  rw [BitVec.getLsbD_extractLsb', getLsbD_mergeData _ _ _ _ (by omega), show (8 * j + i) / 8 = j by omega]
  split <;> rw [BitVec.getLsbD_extractLsb']

/-- Bit j of a byte mask. -/
theorem getLsbD_byteMask {off n : Nat} (j : Nat) (h : off + n ≤ 128) : (byteMask off n).getLsbD j = decide (off ≤ j ∧ j < off + n) := by
  unfold byteMask
  rw [BitVec.getLsbD_ofNat, Nat.mul_comm, Nat.testBit_two_pow_mul, Nat.testBit_two_pow_sub_one]
  rw [Bool.eq_iff_iff]
  simp only [Bool.and_eq_true, decide_eq_true_eq]
  omega

/-- Bytes off to off + n - 1 of a line written with x hold its bytes, the others stay. -/
theorem putBytes_byte (d : LineData) {off n : Nat} (x : Nat) {j : Nat} (h : off + n ≤ 128) (hj : j < 128) :
    (putBytes d off n x).extractLsb' (8 * j) 8 =
      if off ≤ j ∧ j < off + n then BitVec.ofNat 8 (x / 2 ^ (8 * (j - off))) else d.extractLsb' (8 * j) 8 := by
  unfold putBytes
  rw [mergeData_byte _ _ _ hj, getLsbD_byteMask _ h]
  by_cases hh : off ≤ j ∧ j < off + n
  · rw [if_pos (by simpa using hh), if_pos hh]
    apply BitVec.eq_of_getLsbD_eq
    intro i hi
    rw [BitVec.getLsbD_extractLsb', BitVec.getLsbD_ofNat, BitVec.getLsbD_ofNat, Nat.mul_comm (x % _), Nat.testBit_two_pow_mul,
      Nat.testBit_mod_two_pow, Nat.testBit_div_two_pow]
    rw [show decide (8 * j + i < 1024) = true by simp; omega, show decide (8 * j + i ≥ 8 * off) = true by simp; omega,
      show decide (8 * j + i - 8 * off < 8 * n) = true by simp; omega, show 8 * j + i - 8 * off = i + 8 * (j - off) by omega]
    simp [hi]
  · rw [if_neg (by simpa using hh), if_neg hh]

/-- The n bytes of a line from off, as one number. -/
theorem lineBytes_byte (d : LineData) {off n i : Nat} (hi : i < n) :
    BitVec.ofNat 8 (lineBytes d off n / 2 ^ (8 * i)) = d.extractLsb' (8 * (off + i)) 8 := by
  apply BitVec.eq_of_getLsbD_eq
  intro b hb
  rw [BitVec.getLsbD_extractLsb', BitVec.getLsbD_ofNat, Nat.testBit_div_two_pow]
  unfold lineBytes
  rw [Nat.testBit_mod_two_pow, Nat.testBit_shiftRight]
  rw [show decide (b + 8 * i < 8 * n) = true by simp; omega, show 8 * off + (b + 8 * i) = 8 * (off + i) + b by omega]
  simp [hb]; rfl

theorem lineBytes_lt (d : LineData) (off n : Nat) : lineBytes d off n < 2 ^ (8 * n) := Nat.mod_lt _ (Nat.pow_pos (by decide))

/-! ## The checks of an access -/

/-- What an access that passes the checks of R79 is. -/
structure Passed (va n align : Nat) (cls : Nat → Bool) (a : Acc) : Prop where
  atVa : a.va = va
  bytes : a.n = n
  page : a.pa % 4096 = va % 4096
  valid : winValid a.win = true
  permits : cls (winClass a.win) = true
  dram : isDram a.pa = true
  aligned : va % align = 0
  canon : canonical va = true

/-- The parts of an access pass, one for one. -/
inductive AllPassed (align : Nat) (cls : Nat → Bool) : List (Nat × Nat) → List Acc → Prop where
  | nil : AllPassed align cls [] []
  | cons {va n : Nat} {a : Acc} {l : List (Nat × Nat)} {as : List Acc} : Passed va n align cls a → AllPassed align cls l as →
      AllPassed align cls ((va, n) :: l) (a :: as)

theorem check_passed {s u : State} {p va n align : Nat} {k : AK} {cls : Nat → Bool} {a : Acc}
    (h : s.check p va n k align cls = (u, .ok a)) : Passed va n align cls a := by
  unfold State.check at h
  split at h
  · exact absurd (congrArg Prod.snd h) (by simp)
  next hc =>
  split at h
  · exact absurd (congrArg Prod.snd h) (by simp)
  next ha =>
  split at h
  · exact absurd (congrArg Prod.snd h) (by simp)
  · exact absurd (congrArg Prod.snd h) (by simp)
  · exact absurd (congrArg Prod.snd h) (by simp)
  next v e _ =>
  dsimp only at h
  split at h
  · exact absurd (congrArg Prod.snd h) (by simp)
  split at h
  · exact absurd (congrArg Prod.snd h) (by simp)
  next hv =>
  split at h
  · exact absurd (congrArg Prod.snd h) (by simp)
  next hcl =>
  split at h
  · exact absurd (congrArg Prod.snd h) (by simp)
  split at h
  · exact absurd (congrArg Prod.snd h) (by simp)
  next hd =>
  split at h
  · exact absurd (congrArg Prod.snd h) (by simp)
  obtain rfl := Chk.ok.inj (congrArg Prod.snd h)
  refine ⟨rfl, rfl, ?_, by simpa using hv, by simpa using hcl, by simpa using hd, by simpa using ha, by simpa using hc⟩
  show (e.ppage * 4096 + va % 4096) % 4096 = va % 4096
  omega

/-- What translation and the checks may change: home slices that a page-table read fills, DRAM where a full slice writes a line back, TLBs, and Zusil's
records of denied accesses (R2, R66, R67, R77). -/
structure Looked (s u : State) : Prop where
  rest : u = { s with cores := u.cores, slices := u.slices, leafTlb := u.leafTlb, dram := u.dram, empties := u.empties, poisons := u.poisons, zusil := u.zusil }
  cores : ∀ q, u.core q = { s.core q with tlb := (u.core q).tlb }

theorem Looked.refl (s : State) : Looked s s := ⟨rfl, fun _ => rfl⟩

theorem Looked.trans {s u v : State} (h : Looked s u) (g : Looked u v) : Looked s v := by
  refine ⟨?_, fun q => ?_⟩
  · rw [g.rest, h.rest]
  · rw [g.cores q, h.cores q]

theorem Looked.cur {s u : State} (h : Looked s u) : u.cur = s.cur := by rw [h.rest]
theorem Looked.reqs {s u : State} (h : Looked s u) : u.reqs = s.reqs := by rw [h.rest]
theorem Looked.scal {s u : State} (h : Looked s u) (p : Nat) (k : Kind) : u.scal p k = s.scal p k := by
  unfold State.scal
  rw [h.cores p]
  cases k <;> rfl
theorem Looked.me {s u : State} (h : Looked s u) : u.me = s.me := by
  unfold State.me
  rw [h.cur, h.scal]

theorem looked_report (s : State) (r : ZRec) : Looked s (s.report r) := ⟨rfl, fun _ => rfl⟩
theorem looked_setSlice (s : State) (n : Nat) (x : Slice) : Looked s (s.setSlice n x) := ⟨rfl, fun _ => rfl⟩

theorem looked_keepTlb (s : State) (p : Nat) (e : TlbEntry) : Looked s (s.keepTlb p e) := by
  unfold State.keepTlb
  refine ⟨rfl, fun q => ?_⟩
  by_cases h : q = p
  · subst h; rw [core_modCore_same]
  · rw [core_modCore_other _ _ h]
theorem looked_keepLeaf (s : State) (p : Nat) (e : TlbEntry) : Looked s (s.keepLeaf p e) := ⟨rfl, fun _ => rfl⟩

theorem looked_writeBack (s : State) (line : Nat) (l : L2Line) : Looked s (s.writeBack line l) := ⟨rfl, fun _ => rfl⟩

theorem looked_dropL2 (s : State) (sk lk : Nat) : Looked s (s.dropL2 sk lk) := by
  unfold State.dropL2
  dsimp only
  split
  · exact .refl s
  · split
    · exact (looked_writeBack s _ _).trans (looked_setSlice _ _ _)
    · exact looked_setSlice _ _ _

/-- Room in a slice costs at most one line. -/
theorem looked_roomHome (s : State) (sk lk : Nat) : Looked s (s.roomHome sk lk) := by
  unfold State.roomHome
  dsimp only
  split
  · exact .refl s
  · split
    · exact looked_dropL2 s _ _
    · exact .refl s

/-- A slice that holds the line, or has room, gives up none. -/
theorem roomHome_id {s : State} {sk lk : Nat}
    (h : (∃ l, Map.find (s.slice sk).lines lk = some l) ∨ (s.slice sk).lines.length < Config.sliceLines (sk % Config.slices)) : s.roomHome sk lk = s := by
  unfold State.roomHome
  dsimp only
  rw [if_pos]
  rcases h with ⟨l, h⟩ | h
  · simp [h]
  · simp [h]

theorem looked_homeNow {s u : State} {a : Acc} {op : MemOp} {r : HomeRes} (h : s.homeNow a op = some (u, r)) : Looked s u := by
  unfold State.homeNow at h
  dsimp only at h
  split at h
  · exact absurd h (by simp)
  · obtain ⟨rfl, _⟩ := Prod.mk.inj (Option.some.inj h)
    exact (looked_roomHome s _ _).trans (looked_setSlice _ _ _)

theorem looked_atHome {s u : State} {p : Nat} {a : Acc} {op : MemOp} {r : HomeRes} (h : s.atHome p a op = some (u, r)) : Looked s u := by
  unfold State.atHome at h
  split at h
  · exact absurd h (by simp)
  · exact looked_homeNow h

theorem looked_tableRead (s : State) (p pa : Nat) : Looked s (s.tableRead p pa).1 := by
  unfold State.tableRead
  dsimp only
  split
  · exact .refl s
  split
  · split
    · exact looked_report s _
    · exact .refl s
  split
  · exact .refl s
  split
  · exact looked_report s _
  split
  · split <;> exact .refl s
  split
  · exact .refl s
  · next h =>
    split
    · exact looked_atHome h
    · exact looked_atHome h

theorem looked_walk (p va : Nat) : ∀ (levels : List Nat) (s : State) (base : Nat), Looked s (s.walk p va base levels).1 := by
  intro levels
  induction levels with
  | nil => intro s base; exact .refl s
  | cons sh rest ih =>
    intro s base
    unfold State.walk
    dsimp only
    have ht := looked_tableRead s p (base + 8 * (va / 2 ^ sh % (if sh = 39 then 131072 else 512)))
    generalize s.tableRead p (base + 8 * (va / 2 ^ sh % (if sh = 39 then 131072 else 512))) = r at ht ⊢
    obtain ⟨v, c⟩ := r
    dsimp only at ht
    split
    · next h => obtain ⟨rfl, _⟩ := Prod.mk.inj h; exact ht
    · next h => obtain ⟨rfl, _⟩ := Prod.mk.inj h; exact ht
    · next h => obtain ⟨rfl, _⟩ := Prod.mk.inj h; exact ht
    · next h =>
      obtain ⟨rfl, _⟩ := Prod.mk.inj h
      split
      · exact ht
      split
      · exact ht
      split
      · exact ht
      · exact ht.trans (ih _ _)

theorem looked_translate (s : State) (p va : Nat) : Looked s (s.translate p va).1 := by
  unfold State.translate
  split
  · exact .refl s
  split
  · exact looked_keepTlb s p _
  split
  · exact .refl s
  next j _ =>
  have hw := looked_walk p va [39, 30, 21, 12] s j.root
  generalize s.walk p va j.root [39, 30, 21, 12] = r at hw ⊢
  obtain ⟨v, c⟩ := r
  dsimp only at hw
  split
  · next h =>
    obtain ⟨rfl, _⟩ := Prod.mk.inj h
    exact (hw.trans (looked_keepLeaf _ _ _)).trans (looked_keepTlb _ _ _)
  · exact hw

/-- The checks change nothing but what a page-table walk leaves behind. -/
theorem looked_check (s : State) (p va n : Nat) (k : AK) (align : Nat) (cls : Nat → Bool) : Looked s (s.check p va n k align cls).1 := by
  unfold State.check
  split
  · exact .refl s
  split
  · exact .refl s
  have ht := looked_translate s p va
  generalize s.translate p va = r at ht ⊢
  obtain ⟨v, c⟩ := r
  dsimp only at ht
  split
  · next h => obtain ⟨rfl, _⟩ := Prod.mk.inj h; exact ht
  · next h => obtain ⟨rfl, _⟩ := Prod.mk.inj h; exact ht
  · next h => obtain ⟨rfl, _⟩ := Prod.mk.inj h; exact ht
  next v' e h =>
  obtain ⟨rfl, _⟩ := Prod.mk.inj h
  dsimp only
  split
  · exact ht
  split
  · exact ht
  split
  · exact ht
  split
  · exact ht
  split
  · split
    · exact ht.trans (looked_report _ _)
    · exact ht
  split
  · exact ht.trans (looked_report _ _)
  · exact ht

theorem looked_checkAll (p : Nat) (k : AK) (align : Nat) (cls : Nat → Bool) : ∀ (l : List (Nat × Nat)) (s : State),
    Looked s (s.checkAll p l k align cls).1 := by
  intro l
  induction l with
  | nil => intro s; exact .refl s
  | cons e r ih =>
    intro s
    obtain ⟨va, n⟩ := e
    unfold State.checkAll
    have ht := looked_check s p va n k align cls
    generalize s.check p va n k align cls = c at ht ⊢
    obtain ⟨v, c⟩ := c
    dsimp only at ht
    split
    · next h => obtain ⟨rfl, _⟩ := Prod.mk.inj h; exact ht
    · next h => obtain ⟨rfl, _⟩ := Prod.mk.inj h; exact ht
    · next v' a h =>
      obtain ⟨rfl, _⟩ := Prod.mk.inj h
      have h2 := ht.trans (ih v)
      generalize v.checkAll p r k align cls = c2 at h2 ⊢
      obtain ⟨v2, c2⟩ := c2
      dsimp only at h2
      split
      · next h => obtain ⟨rfl, _⟩ := Prod.mk.inj h; exact h2
      · exact h2

theorem looked_checkSpan {s u : State} {p va n align : Nat} {k : AK} {cls : Nat → Bool} {r : ChkAll}
    (h : s.checkSpan p va n k align cls = (u, r)) : Looked s u := by
  have := looked_checkAll p k align cls (pieces (n / 128 + 2) va n) s
  unfold State.checkSpan at h
  rw [h] at this
  exact this

/-- The parts that pass are those that were asked for, in order. -/
theorem checkAll_passed {p align : Nat} {k : AK} {cls : Nat → Bool} : ∀ (l : List (Nat × Nat)) {s u : State} {as : List Acc},
    s.checkAll p l k align cls = (u, .ok as) → AllPassed align cls l as := by
  intro l
  induction l with
  | nil =>
    intro s u as h
    obtain rfl := ChkAll.ok.inj (congrArg Prod.snd h)
    exact .nil
  | cons e r ih =>
    intro s u as h
    obtain ⟨va, n⟩ := e
    unfold State.checkAll at h
    split at h
    · exact absurd (congrArg Prod.snd h) (by simp)
    · exact absurd (congrArg Prod.snd h) (by simp)
    next v a hc =>
    split at h
    · next w bs hr =>
      obtain rfl := ChkAll.ok.inj (congrArg Prod.snd h)
      exact .cons (check_passed hc) (ih hr)
    · next x hx => exact absurd h (by intro e; exact hx _ _ e)

/-- The lines that at most 128 bytes touch: one, or two. -/
theorem pieces_short {va n : Nat} (hn : 0 < n) (h : n ≤ 128) : pieces (n / 128 + 2) va n =
    if va % 128 + n ≤ 128 then [(va % 2 ^ 64, n)] else [(va % 2 ^ 64, 128 - va % 128), ((va + (128 - va % 128)) % 2 ^ 64, n - (128 - va % 128))] := by
  have e : n / 128 + 2 = (n / 128 + 1) + 1 := rfl
  rw [e, pieces, if_neg (by omega)]
  dsimp only
  by_cases hh : va % 128 + n ≤ 128
  · rw [if_pos hh, show min n (128 - va % 128) = n by omega, Nat.sub_self, pieces, if_pos rfl]
  · rw [if_neg hh, show min n (128 - va % 128) = 128 - va % 128 by omega, pieces, if_neg (by omega)]
    dsimp only
    rw [show min (n - (128 - va % 128)) (128 - (va + (128 - va % 128)) % 128) = n - (128 - va % 128) by omega, Nat.sub_self]
    congr 2
    cases n / 128 <;> simp [pieces]

/-- An access of one part lies in one line. -/
theorem checkSpan_one {s u : State} {p va n align : Nat} {k : AK} {cls : Nat → Bool} {a : Acc} (hn : 0 < n) (h8 : n ≤ 128) (hv : va < 2 ^ 64)
    (h : s.checkSpan p va n k align cls = (u, .ok [a])) : Passed va n align cls a ∧ a.pa % 128 + n ≤ 128 ∧ a.pa % 128 = va % 128 := by
  unfold State.checkSpan at h
  have hp := checkAll_passed _ h
  rw [pieces_short hn h8] at hp
  split at hp
  · next hh =>
    cases hp with
    | cons ha _ =>
      rw [Nat.mod_eq_of_lt hv] at ha
      have := ha.page
      exact ⟨ha, by omega, by omega⟩
  · cases hp with | cons _ hr => cases hr

/-- The line where a phased access is kept can be written: a mapped page has its block. -/
theorem place_block {c : Core} {a : Acc} {b m : Nat} (h : c.place a = .stash b m) : ∃ x, Map.find c.stash b = some x := by
  unfold Core.place Core.blockOf at h
  split at h
  · next b' hb =>
    obtain ⟨rfl, _⟩ := Place.stash.inj h
    rw [Option.map_eq_some_iff] at hb
    obtain ⟨e, he, rfl⟩ := hb
    have hm : ∀ (l : Map Block) (f : Nat × Block → Bool), firstOf l f = some e → ∃ x, Map.find l e.1 = some x := by
      intro l f
      induction l with
      | nil => intro h; simp [firstOf] at h
      | cons y r ih =>
        intro h
        obtain ⟨k, v⟩ := y
        unfold firstOf at h
        unfold Map.find
        split at h
        · obtain rfl := Option.some.inj h
          exact ⟨v, if_pos rfl⟩
        · split
          · exact ⟨v, rfl⟩
          · exact ih h
    exact hm _ _ he
  · exact absurd h (by simp)

/-- Reading the place that was written. -/
theorem lineAt_setLine_same {c : Core} {w : Place} (l : Option Line) (h : ∀ b m, w = .stash b m → ∃ x, Map.find c.stash b = some x) :
    (c.setLine w l).lineAt w = l := by
  cases w with
  | l1 k => cases l <;> simp [Core.setLine, Core.lineAt]
  | stash b m =>
    obtain ⟨x, hx⟩ := h b m rfl
    cases l <;> simp [Core.setLine, Core.lineAt, hx]

/-- Reading any other place. -/
theorem lineAt_setLine_other {c : Core} {w v : Place} (l : Option Line) (h : v ≠ w) : (c.setLine w l).lineAt v = c.lineAt v := by
  cases w with
  | l1 k =>
    cases v with
    | l1 j =>
      have : j ≠ k := fun e => h (by rw [e])
      cases l
      · exact find_del_other _ this
      · exact find_put_other _ _ this
    | stash b m => rfl
  | stash b m =>
    unfold Core.setLine
    dsimp only
    cases hx : Map.find c.stash b with
    | none => rfl
    | some x =>
      dsimp only
      cases v with
      | l1 j => rfl
      | stash b' m' =>
        unfold Core.lineAt
        dsimp only
        by_cases hb : b' = b
        · subst hb
          have : m' ≠ m := fun e => h (by rw [e])
          rw [find_put_same, hx]
          cases l
          · exact find_del_other _ this
          · exact find_put_other _ _ this
        · rw [find_put_other _ _ hb]

end Sys2Proof.Laws
end

