-- ==== Sys2Proof/Laws/Regs.lean ====
section
/-!
SUPPORT. What the shared operations of the scalar cores do, said once: completing with a result in g or t or with none, waiting, and taking a trap.
-/
namespace Sys2Proof.Laws

open Sys2Proof Sys2Proof.Machine

/-! ## Memory under an update of scalar cores -/

theorem sameBelow_of_eq {s t : State} (hd : t.dram = s.dram) (hs : t.slices = s.slices) (hh : t.hub = s.hub) : SameBelow s t := by
  refine ⟨fun k => ?_, fun n key j => ?_, fun a => ?_, fun a => ?_⟩
  · simp [dramAt, hd]
  · simp [homeByte, State.slice, hs]
  · simp [hostByte, hh]
  · simp [storeByte, hh]

/-- A state that differs in cores only has the same memory below the cores. -/
theorem sameBelow_of_cores {s t : State} (h : t = { s with cores := t.cores }) : SameBelow s t := by
  apply sameBelow_of_eq <;> rw [h]

theorem cachedByte_of_lines {s t : State} {p : Nat} (h : ∀ w, (t.core p).lineAt w = (s.core p).lineAt w) (w : Place) (j : Nat) :
    cachedByte t p w j = cachedByte s p w j := by simp [cachedByte, h]

/-- An update of one scalar core leaves every byte of memory as it was. -/
theorem sameBytes_of_onlyScalar {s t : State} {p : Nat} {k : Kind} (h : OnlyScalar s t p k) : SameBytes s t := by
  refine ⟨sameBelow_of_cores h.1.1, fun q w j => ?_⟩
  by_cases hq : q = p
  · subst hq
    exact cachedByte_of_lines (fun w => by rw [h.2, lineAt_setScal]) w j
  · exact cachedByte_of_lines (fun w => by rw [h.1.2 q hq]) w j

theorem onlyCore_setCore (s : State) (p : Nat) (c : Core) : OnlyCore s (s.setCore p c) p := ⟨rfl, fun _ h => core_setCore_other s c h⟩
theorem onlyCore_modCore (s : State) (p : Nat) (f : Core → Core) : OnlyCore s (s.modCore p f) p := ⟨rfl, fun _ h => core_modCore_other s f h⟩

theorem onlyScalar_modScal (s : State) (p : Nat) (k : Kind) (f : Scalar → Scalar) : OnlyScalar s (s.modScal p k f) p k := by
  refine ⟨onlyCore_modCore s p _, ?_⟩
  rw [scal_modScal_same, State.modScal, core_modCore_same]
  rfl

theorem onlyScalar_modMe (s : State) (f : Scalar → Scalar) : OnlyScalar s (s.modMe f) s.cur.p s.cur.k := onlyScalar_modScal s _ _ f

/-! ## Completion -/

/-- A meaning that answers `doneG d v` writes v to g[d] and nothing else. -/
theorem writesG_of_doneG {i : Instr} {s : State} {d : BitVec 5} {v : Word} (h : exec i s = doneG d v s) : WritesG i s d v := by
  refine ⟨_, h, onlyScalar_modMe s _, ?_, fun r => ?_, sameBytes_of_onlyScalar (onlyScalar_modMe s _)⟩
  · rw [me_modMe, advance_setG]
  · rw [State.gr, me_modMe, gr_advance, gr_setG]
    rfl

/-- A meaning that answers `doneT d v` writes v to t[d] and nothing else. -/
theorem writesT_of_doneT {i : Instr} {s : State} {d : BitVec 3} {v : Word} (h : exec i s = doneT d v s) : WritesT i s d v := by
  refine ⟨_, h, onlyScalar_modMe s _, ?_, fun r => ?_, sameBytes_of_onlyScalar (onlyScalar_modMe s _)⟩
  · rw [me_modMe, advance_setT]
  · rw [me_modMe, tr_advance, tr_setT]

/-- A meaning that answers `done` only advances. -/
theorem onlyAdvances_of_done {i : Instr} {s : State} (h : exec i s = done s) : OnlyAdvances i s :=
  ⟨_, h, onlyScalar_modMe s _, me_modMe s _, sameBytes_of_onlyScalar (onlyScalar_modMe s _)⟩

/-! ## Traps -/

/-- A trap outside a handler writes its registers and nothing else (R334). -/
theorem trap_enters {s : State} {p : Nat} {k : Kind} (h : (s.scal p k).hnd = false) (c : Nat) (e a : Word) :
    s.trap p k c e a = s.modScal p k (Scalar.enterTrap k c e a) := by simp [State.trap, h]

/-- A trap while HND = 1 is a double trap (R336). -/
theorem trap_doubles {s : State} {p : Nat} {k : Kind} (h : (s.scal p k).hnd = true) (c : Nat) (e a : Word) :
    s.trap p k c e a = (s.modScal p k fun y => { y with stop := some .double, wait := none }).report
      (.doubleTrap (s.core p).vcnNum k c a e (s.scal p k).pc) := by simp [State.trap, h]

theorem traps_of_faults {i : Instr} {s : State} {c : Nat} {a : Word} (h : exec i s = faults c a s) : Traps i s c s.me.pc a := h
theorem traps_of_faultsNext {i : Instr} {s : State} {c : Nat} {a : Word} (h : exec i s = faultsNext c a s) : Traps i s c (s.me.pc + 4) a := h

/-! ## The pc -/

/-- Bits [1:0] of an address are zero exactly when it is a multiple of 4. -/
theorem low2 (t : Word) : (t.extractLsb' 0 2 != 0) = decide (t.toNat % 4 ≠ 0) := by
  have e : t.extractLsb' 0 2 = 0 ↔ t.toNat % 4 = 0 := by
    rw [← BitVec.toNat_inj]
    simp [BitVec.extractLsb'_toNat]
  rw [Bool.eq_iff_iff, bne_iff_ne, decide_eq_true_eq]
  exact not_congr e

theorem outside_false {k : Kind} {a : Word} (h : a.toNat < Config.storeBytes k) : outside k a = false := decide_eq_false (by omega)
theorem outside_true {k : Kind} {a : Word} (h : Config.storeBytes k ≤ a.toNat) : outside k a = true := decide_eq_true h

/-- A jump to an aligned word of the store goes there and links. -/
theorem jump_good {s : State} {t : Word} {l : Option (BitVec 5)} (h1 : t.toNat < Config.storeBytes s.cur.k) (h2 : t.toNat % 4 = 0) :
    jump t l s = go (s.modMe fun x => { (match l with | some d => x.setG d (x.pc + 4) | none => x) with pc := t }) := by
  unfold jump
  rw [if_neg (by rw [low2]; simp [outside, h1, h2])] <;> (cases l <;> rfl)

/-- Any other jump is the instruction-address fault. -/
theorem jump_bad {s : State} {t : Word} {l : Option (BitVec 5)} (h : ¬ (t.toNat < Config.storeBytes s.cur.k ∧ t.toNat % 4 = 0)) :
    jump t l s = faults 0x02 t s := by
  unfold jump
  rw [if_pos (by rw [low2]; simp [outside]; omega)]

/-- The back-edge check (R158). -/
theorem advance_cases (x : Scalar) : (if x.lpa = true ∧ x.hnd = false ∧ x.pc = x.lpe then
        (if 2 ≤ x.lpc.toNat then x.advance.lpc.toNat = x.lpc.toNat - 1 ∧ x.advance.lpa = true ∧ x.advance.pc = x.lps
          else x.advance.lpc = 0 ∧ x.advance.lpa = false ∧ x.advance.pc = x.lpe + 4)
      else x.advance.lpc = x.lpc ∧ x.advance.lpa = x.lpa ∧ x.advance.pc = x.pc + 4) := by
  unfold Scalar.advance
  by_cases h : x.lpa = true ∧ x.hnd = false ∧ x.pc = x.lpe
  · obtain ⟨h1, h2, h3⟩ := h
    rw [if_pos ⟨h1, h2, h3⟩]
    split
    · next hl =>
      simp only [h1, h2, h3, Bool.not_false, Bool.and_true, beq_self_eq_true, if_true, and_true]
      rw [BitVec.toNat_sub_of_le (by rw [BitVec.le_def]; simp; omega)]
      simp
    · next hl => simp [h1, h2, h3]
  · rw [if_neg h, if_neg]
    · simp
    · simp; intro a b c; exact h ⟨a, b, c⟩

theorem modMe_congr {s : State} {f g : Scalar → Scalar} (h : f s.me = g s.me) : s.modMe f = s.modMe g := by
  unfold State.modMe State.modScal State.modCore Core.modScal
  dsimp only
  rw [show f ((s.core s.cur.p).scal s.cur.k) = g ((s.core s.cur.p).scal s.cur.k) from h]

theorem modMine_congr {s : State} {f g : Core → Core} (h : f s.mine = g s.mine) : s.modMine f = s.modMine g := by
  unfold State.modMine State.modCore
  rw [show f (s.core s.cur.p) = g (s.core s.cur.p) from h]

/-- Two meanings in turn change the executing scalar core once. -/
theorem modMe_modMe (s : State) (f g : Scalar → Scalar) : (s.modMe f).modMe g = s.modMe fun x => g (f x) := by
  unfold State.modMe State.modScal State.modCore
  simp only [State.setCore, State.core, get_put_same, put_put]
  unfold Core.modScal
  rw [scal_setScal_same]
  cases s.cur.k <;> rfl

end Sys2Proof.Laws
end

