-- ==== Sys2Proof/Laws/Net.lean ====
section
/-!
SUPPORT. What sending a message does.
-/
namespace Sys2Proof.Laws

open Sys2Proof Sys2Proof.Machine

theorem setCore_setCore (s : State) (p : Nat) (c d : Core) : (s.setCore p c).setCore p d = s.setCore p d := by
  unfold State.setCore
  simp
theorem modCore_modCore (s : State) (p : Nat) (f g : Core → Core) : (s.modCore p f).modCore p g = s.modCore p fun c => g (f c) := by
  unfold State.modCore
  rw [setCore_setCore]
  simp [State.setCore, State.core]

theorem core_withNet (s : State) (n : List NetMsg) (q : Nat) : ({ s with net := n } : State).core q = s.core q := rfl

/-- KIND of a record that the machine makes (R149). -/
theorem recW0_kind (kind cause tag elem slot port ctx unit iss vcn : Nat) : (recW0 kind cause tag elem slot port ctx unit iss vcn).extractLsb' 56 8 = BitVec.ofNat 8 kind := by
  unfold recW0
  ext j hj
  simp only [BitVec.getElem_extractLsb', BitVec.getLsbD_append]
  repeat rw [if_neg (by omega)]
  rw [show 56 + j - 10 - 2 - 4 - 4 - 1 - 5 - 6 - 16 - 8 = j by omega, BitVec.getLsbD_eq_getElem]

/-- A record enters a queue that has room, with a copy to Zusil (R149, R151). -/
theorem putRec_room {c : Core} (r : Rec) (h1 : c.eq.length < 256) (h2 : c.eqHeld = []) : c.putRec r = { c with eq := c.eq ++ [r] } := by
  unfold Core.putRec Core.eqRoom
  rw [h2]
  simp [h1]

/-- Sending changes the message counts and traffic counters of one core, and the network. -/
theorem postWith_near {s : State} {p : Nat} {m : Msg} (issuer : Option Kind) (parts : List Msg) (h1 : relocRmt (Map.get s.reloc 0 m.dst.toNat) = false)
    (h2 : relocFwd (Map.get s.reloc 0 m.dst.toNat) = false ∨ 8 ≤ m.cls.toNat) :
    s.postWith p issuer parts m = { s.modCore p fun c => { c with sw := c.sw.count p (relocNum (Map.get s.reloc 0 m.dst.toNat)) } with
      net := s.net ++ [⟨m, false, false, issuer, none, parts⟩] } := by
  unfold State.postWith
  dsimp only
  rw [show s.relocOf m.dst.toNat = Map.get s.reloc 0 m.dst.toNat from rfl, h1, if_neg (by decide)]
  have : (relocFwd (Map.get s.reloc 0 m.dst.toNat) && decide (m.cls.toNat < 8)) = false := by
    rcases h2 with h | h
    · rw [h]; rfl
    · rw [Bool.and_eq_false_iff]; right; simp; omega
  rw [this]
  rfl

/-- The same of a message that answers no spawn. -/
theorem post_near {s : State} {p : Nat} {m : Msg} (issuer : Option Kind) (h1 : relocRmt (Map.get s.reloc 0 m.dst.toNat) = false)
    (h2 : relocFwd (Map.get s.reloc 0 m.dst.toNat) = false ∨ 8 ≤ m.cls.toNat) :
    s.post p issuer m = { s.modCore p fun c => { c with sw := c.sw.count p (relocNum (Map.get s.reloc 0 m.dst.toNat)) } with
      net := s.net ++ [⟨m, false, false, issuer, none, []⟩] } := postWith_near issuer [] h1 h2

/-- A counted message that its interface accepts is sent, and counted (R95, R97). -/
theorem sendCounted_accepts {s : State} {p : Nat} {m : Msg} (h : Accepts s p m.dst.toNat) : ∃ u, s.sendCounted p m = some u ∧ SentCounted s u p m := by
  obtain ⟨h1, h2, h3, h4, h5⟩ := h
  have hun : s.unknown m.dst.toNat = false := by
    unfold State.unknown State.relocOf
    dsimp only
    rw [h1, h2]
    rfl
  have hw : s.sendWaits p m.dst.toNat = false := by
    unfold State.sendWaits State.relocOf
    dsimp only
    rw [hun, if_neg (by decide), h2, h5]
    simp [h4]
  unfold State.sendCounted
  dsimp only
  rw [hw, if_neg (by decide), hun, if_neg (by decide)]
  refine ⟨_, rfl, ?_⟩
  rw [post_near]
  · refine ⟨rfl, fun q hq => ?_, ?_⟩
    · rw [core_withNet, core_modCore_other _ _ hq, core_setCore_other _ _ hq]
    · rw [core_withNet, core_modCore_same, core_setCore_same, show s.relocOf m.dst.toNat = Map.get s.reloc 0 m.dst.toNat from rfl, h2]
      rfl
  · exact h2
  · exact Or.inl h3

/-- It waits at its source otherwise (R95). -/
theorem sendCounted_heldBack {s : State} {p : Nat} {m : Msg} (h : HeldBack s p m.dst.toNat) : s.sendCounted p m = none := by
  obtain ⟨h1, h2, h3⟩ := h
  have hun : s.unknown m.dst.toNat = false := by
    unfold State.unknown State.relocOf
    dsimp only
    rw [h1, h2]
    rfl
  unfold State.sendCounted
  dsimp only
  rw [if_pos]
  unfold State.sendWaits
  dsimp only
  rw [hun, if_neg (by decide), Bool.or_eq_true, Bool.or_eq_true, decide_eq_true_eq]
  exact Or.inl h3

/-- A VCN held by a core of this module (R82). -/
theorem local_iff (s : State) (v : Nat) : s.local v = true ↔ relocV (Map.get s.reloc 0 v) = true ∧ relocRmt (Map.get s.reloc 0 v) = false := by
  unfold State.local State.relocOf
  rw [Bool.and_eq_true, Bool.not_eq_true']

/-- A message of class C13 to a core of this module goes into the network and nowhere else (R85, R86). -/
theorem sendC13_local {s : State} {p : Nat} {iss : Option Kind} {m : Msg} (h : s.local m.dst.toNat = true) (hc : m.cls = 13) :
    SentUncounted s (s.sendC13 p iss m) p iss m := by
  obtain ⟨h1, h2⟩ := (local_iff s _).1 h
  have hun : s.unknown m.dst.toNat = false := by
    unfold State.unknown State.relocOf
    dsimp only
    rw [h1, h2]
    rfl
  have hno : s.noC13 m.dst.toNat = false := by
    unfold State.noC13 State.relocOf
    rw [hun, h2]
    rfl
  unfold State.sendC13
  rw [hno, if_neg (by decide), post_near iss h2 (Or.inr (by rw [hc]; decide))]
  refine ⟨rfl, fun q hq => ?_, ?_⟩
  · rw [core_withNet, core_modCore_other _ _ hq]
  · rw [core_withNet, core_modCore_same]

end Sys2Proof.Laws
end

