-- ==== Sys2Proof/Laws/Times.lean ====
section
/-!
SUPPORT. The fields of the times that the time operations build.
-/
namespace Sys2Proof.Laws

open Sys2Proof Sys2Proof.Machine

theorem epochOf_lt (t : Word) : epochOf t < 2 ^ 32 := BitVec.isLt _
theorem ctrOf_lt (t : Word) (i : Nat) : ctrOf t i < 2 ^ 10 := BitVec.isLt _
theorem depthOf_lt (t : Word) : depthOf t < 4 := BitVec.isLt _

theorem toNat_mkTime {e i1 i2 i3 d : Nat} (he : e < 2 ^ 32) (h1 : i1 < 1024) (h2 : i2 < 1024) (h3 : i3 < 1024) (hd : d < 4) :
    (mkTime e i1 i2 i3 d).toNat = (((e * 1024 + i1) * 1024 + i2) * 1024 + i3) * 4 + d := by
  unfold mkTime
  simp only [BitVec.toNat_append, BitVec.toNat_ofNat]
  rw [Nat.mod_eq_of_lt he, Nat.mod_eq_of_lt h1, Nat.mod_eq_of_lt h2, Nat.mod_eq_of_lt h3, Nat.mod_eq_of_lt hd]
  rw [← Nat.shiftLeft_add_eq_or_of_lt (i := 2) hd, ← Nat.shiftLeft_add_eq_or_of_lt (i := 10) h3,
    ← Nat.shiftLeft_add_eq_or_of_lt (i := 10) h2, ← Nat.shiftLeft_add_eq_or_of_lt (i := 10) h1]
  simp only [Nat.shiftLeft_eq]

/-- The fields of a time are those it was made of. -/
theorem mkTime_fields {e i1 i2 i3 d : Nat} (he : e < 2 ^ 32) (h1 : i1 < 1024) (h2 : i2 < 1024) (h3 : i3 < 1024) (hd : d < 4) :
    epochOf (mkTime e i1 i2 i3 d) = e ∧ ctrOf (mkTime e i1 i2 i3 d) 1 = i1 ∧ ctrOf (mkTime e i1 i2 i3 d) 2 = i2 ∧
      ctrOf (mkTime e i1 i2 i3 d) 3 = i3 ∧ depthOf (mkTime e i1 i2 i3 d) = d := by
  have h := toNat_mkTime he h1 h2 h3 hd
  unfold epochOf ctrOf depthOf
  simp only [BitVec.extractLsb'_toNat, h, Nat.shiftRight_eq_div_pow]
  refine ⟨?_, ?_, ?_, ?_, ?_⟩ <;> omega

theorem tJoin_fields (a b : Word) : epochOf (tJoin a b) = max (epochOf a) (epochOf b) ∧ ctrOf (tJoin a b) 1 = max (ctrOf a 1) (ctrOf b 1) ∧
    ctrOf (tJoin a b) 2 = max (ctrOf a 2) (ctrOf b 2) ∧ ctrOf (tJoin a b) 3 = max (ctrOf a 3) (ctrOf b 3) ∧
    depthOf (tJoin a b) = max (depthOf a) (depthOf b) := by
  have := epochOf_lt a; have := epochOf_lt b
  have h := ctrOf_lt a; have h' := ctrOf_lt b
  have := h 1; have := h 2; have := h 3; have := h' 1; have := h' 2; have := h' 3
  have := depthOf_lt a; have := depthOf_lt b
  exact mkTime_fields (by omega) (by omega) (by omega) (by omega) (by omega)

theorem tMeet_fields (a b : Word) : epochOf (tMeet a b) = min (epochOf a) (epochOf b) ∧ ctrOf (tMeet a b) 1 = min (ctrOf a 1) (ctrOf b 1) ∧
    ctrOf (tMeet a b) 2 = min (ctrOf a 2) (ctrOf b 2) ∧ ctrOf (tMeet a b) 3 = min (ctrOf a 3) (ctrOf b 3) ∧
    depthOf (tMeet a b) = min (depthOf a) (depthOf b) := by
  have := epochOf_lt a; have := epochOf_lt b
  have h := ctrOf_lt a; have h' := ctrOf_lt b
  have := h 1; have := h 2; have := h 3; have := h' 1; have := h' 2; have := h' 3
  have := depthOf_lt a; have := depthOf_lt b
  exact mkTime_fields (by omega) (by omega) (by omega) (by omega) (by omega)

/-- One counter replaced by a value that fits. -/
theorem setCtr_fields (t : Word) {i x : Nat} (h0 : i = 0 → x < 2 ^ 32) (h1 : i ≠ 0 → x < 1024) :
    epochOf (setCtr t i x) = (if i = 0 then x else epochOf t) ∧ depthOf (setCtr t i x) = depthOf t ∧
      ∀ j, 1 ≤ j → j ≤ 3 → ctrOf (setCtr t i x) j = if j = i then x else ctrOf t j := by
  have he := epochOf_lt t
  have hc := ctrOf_lt t
  have := hc 1; have := hc 2; have := hc 3
  have hd := depthOf_lt t
  obtain ⟨a1, a2, a3, a4, a5⟩ := mkTime_fields (e := if i = 0 then x else epochOf t) (i1 := if i = 1 then x else ctrOf t 1)
    (i2 := if i = 2 then x else ctrOf t 2) (i3 := if i = 3 then x else ctrOf t 3) (d := depthOf t)
    (by split <;> simp_all) (by split <;> simp_all) (by split <;> simp_all) (by split <;> simp_all) hd
  unfold setCtr
  refine ⟨a1, a5, fun j hj1 hj3 => ?_⟩
  have : j = 1 ∨ j = 2 ∨ j = 3 := by omega
  rcases this with rfl | rfl | rfl
  · rw [a2]; simp only [eq_comm]
  · rw [a3]; simp only [eq_comm]
  · rw [a4]; simp only [eq_comm]

end Sys2Proof.Laws
end

