-- ==== Sys2Proof/Laws/Scalars.lean ====
section
/-!
SUPPORT. What the integer operations compute, how a scalar instruction moves on, and what the system registers and a trap do.
-/
namespace Sys2Proof.Laws

open Sys2Proof Sys2Proof.Machine

theorem leadingZeros_spec (n x : Nat) (h : x < 2 ^ n) : leadingZeros n x ≤ n ∧ x < 2 ^ (n - leadingZeros n x) ∧ (leadingZeros n x < n → 2 ^ (n - 1 - leadingZeros n x) ≤ x) := by
  induction n with
  | zero => simp [leadingZeros] at *; omega
  | succ n ih =>
    unfold leadingZeros
    split
    · next hb => 
      refine ⟨by omega, by simpa using h, fun _ => ?_⟩
      simpa using Nat.ge_two_pow_of_testBit hb
    · next hb =>
      have hx : x < 2 ^ n := by
        apply Nat.lt_pow_two_of_testBit
        intro j hj
        by_cases hjn : j = n
        · subst hjn; simpa using hb
        · exact Nat.testBit_lt_two_pow (Nat.lt_of_lt_of_le h (Nat.pow_le_pow_right (by decide) (by omega)))
      obtain ⟨h1, h2, h3⟩ := ih hx
      refine ⟨by omega, ?_, fun hl => ?_⟩
      · rw [show n + 1 - (leadingZeros n x + 1) = n - leadingZeros n x by omega]; exact h2
      · rw [show n + 1 - 1 - (leadingZeros n x + 1) = n - 1 - leadingZeros n x by omega]; exact h3 (by omega)

theorem popcount_eq (x : Word) (n : Nat) : popcount x.toNat n = ((List.range n).filter fun i => x.getLsbD i).length := by
  induction n with
  | zero => rfl
  | succ n ih =>
    rw [popcount, ih, List.range_succ, List.filter_append, List.length_append, Nat.add_comm]
    congr 1
    by_cases h : x.getLsbD n = true <;> simp_all [BitVec.getLsbD]

theorem shiftAmount_mod (x : Word) : shiftAmount x = x.toNat % 64 := by
  simp [shiftAmount]

theorem sext_bmod (x : Word) (n : Nat) (h : n ≤ 64): sext x n = BitVec.ofInt 64 (Int.bmod x.toNat (2^n)) := by
  unfold sext
  rw [BitVec.signExtend, BitVec.toInt_setWidth]

theorem mulHigh_eq (x y : Word) : mulHigh x y = BitVec.ofInt 64 (x.toInt * y.toInt / 2 ^ 64) := by
  have hz : (x.signExtend 128) * (y.signExtend 128) = BitVec.ofInt 128 (x.toInt * y.toInt) := by
    apply BitVec.eq_of_toInt_eq
    rw [BitVec.toInt_mul, BitVec.toInt_signExtend_of_le (by decide), BitVec.toInt_signExtend_of_le (by decide), BitVec.toInt_ofInt]
  unfold mulHigh
  rw [hz]
  generalize x.toInt * y.toInt = p
  apply BitVec.eq_of_toNat_eq
  simp only [BitVec.extractLsb'_toNat, BitVec.toNat_ofInt, Nat.shiftRight_eq_div_pow]
  omega

theorem mulHighN_eq (x y : Word) : mulHighN x y = BitVec.ofNat 64 (x.toNat * y.toNat / 2 ^ 64) := by
  unfold mulHighN
  apply BitVec.eq_of_toNat_eq
  have hx := x.isLt
  have hy := y.isLt
  have h : x.toNat * y.toNat < 2 ^ 128 := by
    have := Nat.mul_lt_mul'' hx hy
    rw [← Nat.pow_add] at this
    exact this
  simp only [BitVec.extractLsb'_toNat, BitVec.toNat_mul, BitVec.toNat_setWidth, BitVec.toNat_ofNat, Nat.shiftRight_eq_div_pow]
  rw [Nat.mod_eq_of_lt (Nat.lt_trans hx (by decide)), Nat.mod_eq_of_lt (Nat.lt_trans hy (by decide)), Nat.mod_eq_of_lt h]

/-- How a scalar core moves on: at the last word of an active loop, or past the instruction. -/
theorem advance_spec (x : Scalar) : (if x.lpa = true ∧ x.hnd = false ∧ x.pc = x.lpe then
        (if 2 ≤ x.lpc.toNat then x.advance.lpc.toNat = x.lpc.toNat - 1 ∧ x.advance.lpa = true ∧ x.advance.pc = x.lps
          else x.advance.lpc = 0 ∧ x.advance.lpa = false ∧ x.advance.pc = x.lpe + 4)
      else x.advance.lpc = x.lpc ∧ x.advance.lpa = x.lpa ∧ x.advance.pc = x.pc + 4) := by
  unfold Scalar.advance
  by_cases h : x.lpa = true ∧ x.hnd = false ∧ x.pc = x.lpe
  · obtain ⟨h1, h2, h3⟩ := h
    rw [if_pos ⟨h1, h2, h3⟩]
    split
    · next hl => 
      simp only [h1, h2, h3, hl, Bool.not_false, Bool.and_true, beq_self_eq_true, if_true, and_true]
      rw [BitVec.toNat_sub_of_le (by rw [BitVec.le_def]; simp; omega)]
      simp
    · next hl => simp [h1, h2, h3, hl]
  · rw [if_neg h, if_neg]
    · simp
    · simp; intro a b c; exact h ⟨a, b, c⟩

/-- What a branch does, taken within the store, taken outside it, and not taken. -/
theorem branch_spec (c : Prop) (cb : Bool) (hcb : cb = true ↔ c) (off : BitVec 16) (s : State) (i) (h : exec i s = branch cb off s) :
    let t := s.me.pc + 4 * off.signExtend 64
    (c → t.toNat < Config.storeBytes s.cur.k → t.toNat % 4 = 0 → exec i s = .next (s.modMe fun z => { z with pc := t })) ∧
    (c → Config.storeBytes s.cur.k ≤ t.toNat → Traps i s 0x02 s.me.pc t) ∧
    (¬ c → OnlyAdvances i s) := by
  intro t
  rw [← hcb]
  refine ⟨fun hc h1 h2 => ?_, fun hc h1 => ?_, fun hc => onlyAdvances_of_done ?_⟩
  · rw [h]; subst hc; show jump t none s = _; rw [jump_good h1 h2]
  · subst hc; apply traps_of_faults; rw [h]; show jump t none s = _; exact jump_bad (by omega)
  · simp at hc; subst hc; exact h

theorem sr_fields (k : Kind) (x : Scalar) : (x.sr k).extractLsb' 12 52 = 0 ∧ ((x.sr k).extractLsb' 10 2).toNat = k.code ∧ (x.sr k).getLsbD 9 = x.spp ∧ (x.sr k).getLsbD 8 = x.lpa ∧
      (x.sr k).extractLsb' 6 2 = x.prio ∧ (x.sr k).getLsbD 5 = x.hnd ∧ (x.sr k).extractLsb' 1 4 = 0 ∧ (x.sr k).getLsbD 0 = x.dbe := by
  unfold Scalar.sr
  generalize x.prio = p
  cases k <;> cases x.spp <;> cases x.lpa <;> cases x.hnd <;> cases x.dbe <;> revert p <;> decide

/-- A read of a register that has a value. -/
theorem sysrd_ok {s : State} {d n v} (h : sysValue s s.cur.p s.cur.k n.toNat = some v) (hm : isMailbox n.toNat = false) : WritesG (.sysrd d n) s d v := by
  apply writesG_of_doneG
  show execSysrd d n s = _
  unfold execSysrd
  rw [h]; simp [hm]

theorem sysNumbers_iff (m : Nat) (hm : m < 1024) : m ∉ sysNumbers ↔ ¬ (m < 7 ∨ (8 ≤ m ∧ m < 11) ∨ (0x10 ≤ m ∧ m < 0x19) ∨ (0x20 ≤ m ∧ m < 0x28) ∨ (0x40 ≤ m ∧ m < 0x80 ∧ m % 8 < 5)) := by
  unfold sysNumbers
  simp only [List.mem_append, List.mem_map, List.mem_flatten, List.mem_range, List.mem_cons, List.not_mem_nil, or_false]
  refine not_congr ⟨?_, ?_⟩
  · rintro (((h | ⟨i, h, rfl⟩) | ⟨i, h, rfl⟩) | ⟨l, ⟨i, h, rfl⟩, h2⟩)
    · omega
    · omega
    · omega
    · rw [List.mem_map] at h2
      obtain ⟨j, h3, rfl⟩ := h2
      rw [List.mem_range] at h3
      omega
  · rintro (h | h | h | h | h)
    · left; left; left; omega
    · left; left; left; omega
    · left; left; right; exact ⟨m - 0x10, by omega, by omega⟩
    · left; right; exact ⟨m - 0x20, by omega, by omega⟩
    · right
      refine ⟨_, ⟨(m - 0x40) / 8, by omega, rfl⟩, ?_⟩
      rw [List.mem_map]
      exact ⟨m % 8, by rw [List.mem_range]; omega, by omega⟩

theorem sysValue_high {s : State} {p k} {m : Nat} (h0 : m = 7 ∨ (11 ≤ m ∧ m < 0x10) ∨ (0x19 ≤ m ∧ m < 0x20) ∨ 0x28 ≤ m)
  (h : ¬ (0x40 ≤ m ∧ m < 0x80 ∧ m % 8 < 5)) : sysValue s p k m = none := by
  rw [sysValue]
  · have h1 : (decide (0x024 ≤ m) && decide (m < 0x028)) = false := by
      rcases h0 with h0 | h0 | h0 | h0 <;> simp <;> omega
    have h2 : (decide (0x040 ≤ m) && decide (m < 0x080) && decide (m % 8 < 5)) = false := by
      simp; omega
    rw [h1, h2]; rfl
  all_goals (intro e; subst e; revert h0; decide)

theorem sysValue_none {s : State} {p k} {n : BitVec 10} (h : n.toNat ∉ sysNumbers) : sysValue s p k n.toNat = none := by
  have hn : n.toNat < 1024 := n.isLt
  rw [sysNumbers_iff _ hn] at h
  exact sysValue_high (by omega) (by omega)

/-- A write of a scalar register. -/
theorem syswr_scalar {s : State} {a n v} (h : sysValue s s.cur.p s.cur.k n.toNat = some v) (hc : isCoreReg n.toNat = false) {f : Scalar → Scalar}
    (hf : ∀ x : Scalar, x = x) (hx : s.me.sysWrite n.toNat (s.gr a) = f s.me) :
    exec (.syswr a n) s = .next ((s.modMe f).modMe Scalar.advance) := by
  show execSyswr a n s = _
  unfold execSyswr
  dsimp only
  rw [h]
  simp only [hc]
  show go ((s.modMe _).modMe _) = _
  rw [modMe_congr (f := fun x => x.sysWrite n.toNat (x.gr a)) (g := f) hx]

theorem traps_of_illegal {i : Instr} {s : State} (h : exec i s = illegal i s) : Traps i s 0x01 s.me.pc (eaddrWord i) := h

/-- A write of a core register. -/
theorem syswr_core {s : State} {a n v} (h : sysValue s s.cur.p s.cur.k n.toNat = some v) (hc : isCoreReg n.toNat = true) {f : Core → Core}
    (hx : ∀ c, Core.sysWrite c n.toNat (s.gr a) = f c) :
    (s.cur.k = .control → exec (.syswr a n) s = .next ((s.modMine f).modMe Scalar.advance)) ∧
      (s.cur.k ≠ .control → Traps (.syswr a n) s 0x01 s.me.pc (eaddrWord (.syswr a n))) := by
  have e : exec (.syswr a n) s = if s.cur.k != .control then illegal (.syswr a n) s else done (s.modMine fun c => c.sysWrite n.toNat (s.gr a)) := by
    show execSyswr a n s = _
    unfold execSyswr
    dsimp only
    rw [h]
    simp only [hc, if_true]
  refine ⟨fun hk => ?_, fun hk => ?_⟩
  · rw [e]; simp only [hk]
    rw [show (fun c : Core => c.sysWrite n.toNat (s.gr a)) = f from funext hx]
    rfl
  · apply traps_of_illegal; rw [e]; simp [hk]

/-- A trap outside a handler enters the handler. -/
theorem enters_ok {s : State} (h : s.me.hnd = false) {i : Instr} {c : Nat} {e a : Word} (hi : exec i s = go (s.trap s.cur.p s.cur.k c e a)) (hc : c < 256) :
   ∃ t, exec i s = .next t ∧ OnlyScalar s t s.cur.p s.cur.k ∧ SameBytes s t ∧
      t.me = { s.me with ssr := s.me.sr s.cur.k, epc := e, ecause := BitVec.ofNat 64 c, eaddr := a, hnd := true, spcount := if c = 4 then 0 else s.me.spcount, pc := s.me.tvec, wait := none } := by
  rw [trap_enters (s := s) (p := s.cur.p) (k := s.cur.k) h] at hi
  refine ⟨_, hi, onlyScalar_modMe s _, sameBytes_of_onlyScalar (onlyScalar_modMe s _), ?_⟩
  show (s.modMe _).me = _
  rw [me_modMe, Scalar.enterTrap, Nat.mod_eq_of_lt hc]

theorem ssr_bad (k : Kind) (w : Word) : (!ssrOk k w) = true ↔ w.extractLsb' 12 52 ≠ 0 ∨ w.getLsbD 5 = true ∨ w.extractLsb' 1 4 ≠ 0 ∨ (w.extractLsb' 10 2).toNat ≠ k.code := by
  unfold ssrOk
  simp only [Bool.not_eq_true', Bool.and_eq_false_iff, beq_eq_false_iff_ne, ne_eq]
  cases w.getLsbD 5 <;> simp [or_assoc]

/-- A trap inside a handler stops the core and reports. -/
theorem double_traps {s : State} (h : s.me.hnd = true) {i : Instr} {c e a} (hi : exec i s = go (s.trap s.cur.p s.cur.k c e a)) :
    exec i s = .next ((s.modMe fun y => { y with stop := some .double, wait := none }).report (.doubleTrap s.mine.vcnNum s.cur.k c a e s.me.pc)) := by
  rw [hi, trap_doubles (s := s) (p := s.cur.p) (k := s.cur.k) h]
  rfl

theorem meetAll_foldl (t : Word) : ∀ (r : List Word) (a : Word), tMeetAll a (r.map (tJoin t)) = r.foldl (fun v w => tMeet v (tJoin t w)) a := by
  intro r
  induction r with
  | nil => intro a; rfl
  | cons x r ih => intro a; exact ih _

theorem timeOk_iff (w : Word) : timeOk w = true ↔ ¬ ∃ i, 1 ≤ i ∧ i ≤ 3 ∧ (w.extractLsb' 0 2).toNat < i ∧ w.extractLsb' (32 - 10 * i) 10 ≠ 0 := by
  unfold timeOk depthOf ctrOf
  have e : ∀ v : BitVec 10, v.toNat = 0 ↔ v = 0 := fun v => by rw [← BitVec.toNat_inj]; rfl
  simp only [Bool.and_eq_true, Bool.or_eq_true, decide_eq_true_eq, beq_iff_eq, e, not_exists, not_and, Decidable.not_not]
  constructor
  · rintro ⟨⟨a, b⟩, c⟩ i h1 h3
    have : i = 1 ∨ i = 2 ∨ i = 3 := by omega
    rcases this with rfl | rfl | rfl
    · intro hl; exact a.resolve_left (by omega)
    · intro hl; exact b.resolve_left (by omega)
    · intro hl; exact c.resolve_left (by omega)
  · intro h
    refine ⟨⟨?_, ?_⟩, ?_⟩
    · exact Classical.or_iff_not_imp_left.2 fun hl => h 1 (by omega) (by omega) (by omega)
    · exact Classical.or_iff_not_imp_left.2 fun hl => h 2 (by omega) (by omega) (by omega)
    · exact Classical.or_iff_not_imp_left.2 fun hl => h 3 (by omega) (by omega) (by omega)

end Sys2Proof.Laws
end

