-- ==== Sys2Proof/Laws/Access.lean ====
section
/-!
SUPPORT. What a checked access, a cached line, a request at its home and a publication do.
-/
namespace Sys2Proof.Laws

open Sys2Proof Sys2Proof.Machine

theorem byteMask_ne {off n : Nat} (h : off + n ≤ 128) (hn : 0 < n) : byteMask off n ≠ 0 := by
  intro e
  have := getLsbD_byteMask off h
  rw [e] at this
  simp at this; omega

/-- Every byte an access hits is held. -/
theorem hits_held {l : Line} {off n : Nat} {q : Word} (hh : l.hits off n q = true) (h : off + n ≤ 128) {j : Nat} (hj : j < n) :
    heldByte l (off + j) = some (l.data.extractLsb' (8 * (off + j)) 8) := by
  unfold heldByte
  rw [if_pos]
  unfold Line.hits at hh
  simp only [Bool.and_eq_true, beq_iff_eq] at hh
  have h1 := hh.1
  have h2 : (byteMask off n).getLsbD (off + j) = true := by rw [getLsbD_byteMask _ h]; simp; omega
  rw [← h1, BitVec.getLsbD_and] at h2
  simp at h2
  exact h2.1

/-- The parts follow one another from an address, each within its line. -/
def Consecutive (ea : Nat) : Nat → List Acc → Prop
  | _, [] => True
  | got, a :: r => a.pa % 128 + a.n ≤ 128 ∧ a.va = (ea + got) % 2 ^ 64 ∧ Consecutive ea (got + a.n) r

/-- The bytes of the parts. -/
def accBytes : List Acc → Nat
  | [] => 0
  | a :: r => a.n + accBytes r

/-- A load whose remaining parts are all held gathers their bytes and completes. -/
theorem loadOn_hits (p : Nat) (k : Kind) (d : BitVec 5) (n : Nat) (sg : Bool) (s : State) : ∀ (l : List Acc) (acc got : Nat), acc < 2 ^ (8 * got) → (∀ x ∈ l, Hits s p x) →
    ∃ m, m < 2 ^ (8 * (got + accBytes l)) ∧ m % 2 ^ (8 * got) = acc ∧ s.loadOn p k d n sg l acc got = s.modScal p k (fun x => ({ x with wait := none }.setG d (loadValue n sg m)).advance) ∧
      (∀ (ea : Nat), Consecutive ea got l → ea < 2 ^ 64 → got + accBytes l < 2 ^ 64 → ∀ x ∈ l, ∀ j, j < x.n → offsetOf ea x.va + x.n ≤ got + accBytes l ∧ cachedByte s p ((s.core p).place x) (x.pa % 128 + j) = some (BitVec.ofNat 8 (m / 2 ^ (8 * (offsetOf ea x.va + j))))) := by
  intro l
  induction l with
  | nil =>
    intro acc got ha _
    exact ⟨acc, by simpa [accBytes] using ha, Nat.mod_eq_of_lt ha, rfl, by simp⟩
  | cons a r ih =>
    intro acc got ha hh
    obtain ⟨hw, y, hy, hyh, hyp⟩ := hh a (by simp)
    have hb := lineBytes_lt y.data (a.pa % 128) a.n
    have hlt : acc + lineBytes y.data (a.pa % 128) a.n * 2 ^ (8 * got) < 2 ^ (8 * (got + a.n)) := by
      rw [Nat.mul_add, Nat.pow_add, Nat.add_comm acc, Nat.mul_comm (2 ^ (8 * got))]
      have : lineBytes y.data (a.pa % 128) a.n + 1 ≤ 2 ^ (8 * a.n) := hb
      calc lineBytes y.data (a.pa % 128) a.n * 2 ^ (8 * got) + acc < lineBytes y.data (a.pa % 128) a.n * 2 ^ (8 * got) + 2 ^ (8 * got) := by omega
        _ = (lineBytes y.data (a.pa % 128) a.n + 1) * 2 ^ (8 * got) := by rw [Nat.add_mul, Nat.one_mul]
        _ ≤ _ := Nat.mul_le_mul_right _ this
    obtain ⟨m, hm, hmod, he, hbytes⟩ := ih (acc + lineBytes y.data (a.pa % 128) a.n * 2 ^ (8 * got)) (got + a.n) hlt (fun x hx => hh x (by simp [hx]))
    refine ⟨m, ?_, ?_, ?_, ?_⟩
    · simpa [accBytes, Nat.add_assoc] using hm
    · rw [← Nat.mod_mod_of_dvd m (Nat.pow_dvd_pow 2 (show 8 * got ≤ 8 * (got + a.n) by omega)), hmod, Nat.add_mul_mod_self_right, Nat.mod_eq_of_lt ha]
    · rw [← he, State.loadOn]
      dsimp only
      rw [if_pos hw, hy]
      show (if y.hits _ _ _ then _ else _) = _
      rw [if_pos hyh]
      show (if wordsPoisoned y.poison _ _ then _ else _) = _
      rw [if_neg (by rw [hyp]; decide)]
      rfl
    · intro ea hs hea hl x hx j hj
      obtain ⟨s1, s2, s3⟩ := hs
      have htot : got + a.n + accBytes r = got + accBytes (a :: r) := by simp [accBytes]; omega
      rw [List.mem_cons] at hx
      rcases hx with rfl | hx
      · have ho : offsetOf ea x.va = got := by
          unfold offsetOf; rw [s2]
          have : got < 2 ^ 64 := by omega
          omega
        rw [ho]
        refine ⟨by omega, ?_⟩
        unfold cachedByte
        rw [hy]
        show heldByte y _ = _
        rw [hits_held hyh s1 hj, ← lineBytes_byte y.data (off := x.pa % 128) hj]
        congr 1
        apply BitVec.eq_of_toNat_eq
        simp only [BitVec.toNat_ofNat]
        have e1 : lineBytes y.data (x.pa % 128) x.n = m % 2 ^ (8 * (got + x.n)) / 2 ^ (8 * got) := by
          rw [hmod, Nat.add_mul_div_right _ _ (Nat.pow_pos (by decide)), Nat.div_eq_of_lt ha, Nat.zero_add]
        rw [e1]
        rw [show 8 * (got + x.n) = 8 * got + 8 * x.n by omega, Nat.pow_add, Nat.mod_mul_right_div_self]
        rw [show 8 * (got + j) = 8 * got + 8 * j by omega, Nat.pow_add, ← Nat.div_div_eq_div_mul]
        generalize m / 2 ^ (8 * got) = z
        rw [show 8 * x.n = 8 * j + (8 + 8 * (x.n - j - 1)) by omega, Nat.pow_add, Nat.mod_mul_right_div_self, Nat.pow_add, Nat.mod_mul_right_mod]
      · have := hbytes ea s3 hea (by omega) x hx j hj
        rw [htot] at this
        exact this

/-- The parts of a checked access follow one another and fill it. -/
theorem seq_of_span {s u : State} {p va n : Nat} {k : AK} {al : Nat} {cls : Nat → Bool} {l : List Acc} (hn : 0 < n) (h8 : n ≤ 128) (hv : va < 2 ^ 64)
    (h : s.checkSpan p va n k al cls = (u, .ok l)) : Consecutive va 0 l ∧ accBytes l = n := by
  unfold State.checkSpan at h
  have hp := checkAll_passed _ h
  rw [pieces_short hn h8] at hp
  split at hp
  · next hh =>
    cases hp with
    | cons ha hr =>
    cases hr
    have e1 := ha.atVa; have e2 := ha.bytes; have e3 := ha.page
    refine ⟨⟨by omega, by omega, trivial⟩, by simp [accBytes, e2]⟩
  · next hh =>
    cases hp with
    | cons ha hr =>
    cases hr with
    | cons hb hr =>
    cases hr
    have e1 := ha.atVa; have e2 := ha.bytes; have e3 := ha.page
    have f1 := hb.atVa; have f2 := hb.bytes; have f3 := hb.page
    refine ⟨⟨by omega, by omega, by omega, ?_, trivial⟩, by simp [accBytes, e2, f2]; omega⟩
    rw [e2, Nat.zero_add]; exact f1

theorem loadValue_eq (n m : Nat) (sg : Bool) (h0 : 0 < n) (h : n ≤ 8) : loadValue n sg m = if sg then (BitVec.ofNat (8 * n) m).signExtend 64 else (BitVec.ofNat (8 * n) m).setWidth 64 := by
  have e : (BitVec.ofNat 64 m).setWidth (8 * n) = BitVec.ofNat (8 * n) m := by
    apply BitVec.eq_of_toNat_eq
    simp only [BitVec.toNat_setWidth, BitVec.toNat_ofNat]
    exact Nat.mod_mod_of_dvd _ (Nat.pow_dvd_pow 2 (by omega))
  unfold loadValue sext zext
  rw [e]

/-- The bytes of a line after a store into it, and of every other line. -/
theorem storePhased_bytes (c : Core) (a : Acc) (x : Nat) (h : a.pa % 128 + a.n ≤ 128) (w : Place) (j : Nat) (hj : j < 128) :
    (((c.storePhased a x).lineAt w).bind fun l => heldByte l j) =
      if w = c.place a ∧ a.pa % 128 ≤ j ∧ j < a.pa % 128 + a.n then some (BitVec.ofNat 8 (x / 2 ^ (8 * (j - a.pa % 128)))) else (c.lineAt w).bind fun l => heldByte l j := by
  unfold Core.storePhased
  dsimp only
  by_cases hw : w = c.place a
  · subst hw
    rw [lineAt_setLine_same _ (fun b m e => place_block e)]
    show heldByte _ j = _
    have hm := getLsbD_byteMask (off := a.pa % 128) (n := a.n) j h
    by_cases hh : a.pa % 128 ≤ j ∧ j < a.pa % 128 + a.n
    · rw [if_pos ⟨rfl, hh⟩]
      unfold heldByte Line.store
      dsimp only
      rw [if_pos (by rw [BitVec.getLsbD_or, hm]; simp; right; exact hh), putBytes_byte _ _ h hj, if_pos hh]
    · rw [if_neg (fun e => hh e.2)]
      have hz : (byteMask (a.pa % 128) a.n).getLsbD j = false := by rw [hm]; simpa using hh
      unfold heldByte Line.store
      dsimp only
      rw [BitVec.getLsbD_or, hz, Bool.or_false, putBytes_byte _ _ h hj, if_neg hh]
      cases hl : c.lineAt (c.place a) with
      | none => simp [Line.absent]
      | some l => rfl
  · rw [lineAt_setLine_other _ hw, if_neg (fun e => hw e.1)]

/-- A store into a held line changes L1 or the stash only. -/
theorem storePhased_rest (c : Core) (a : Acc) (x : Nat) : c.storePhased a x = { c with l1 := (c.storePhased a x).l1, stash := (c.storePhased a x).stash } := by
  unfold Core.storePhased Core.setLine
  dsimp only
  split
  · rfl
  · split <;> rfl

/-- A check of an access within one line is the check of its one part. -/
theorem checkSpan_eq (s : State) (p va n : Nat) (k : AK) (al : Nat) (cls : Nat → Bool) (hn : 0 < n) (hl : va % 128 + n ≤ 128) (h8 : n ≤ 128) (hv : va < 2 ^ 64) :
    s.checkSpan p va n k al cls = match s.check p va n k al cls with
      | (s, .stall) => (s, .stall)
      | (s, .bad c h) => (s, .bad c va h)
      | (s, .ok a) => (s, .ok [a]) := by
  unfold State.checkSpan
  rw [pieces_short hn h8, if_pos hl, Nat.mod_eq_of_lt hv]
  unfold State.checkAll
  generalize s.check p va n k al cls = r
  obtain ⟨u, c⟩ := r
  cases c <;> rfl

/-- An access whose first part fails, fails with its cause at its own address. -/
theorem span_first_bad {s u : State} {p va n : Nat} {k : AK} {al : Nat} {cls : Nat → Bool} {c : Nat} {h : Bool} (hn : 0 < n) (h8 : n ≤ 128) (hv : va < 2 ^ 64)
    (hc : ∀ m, s.check p va m k al cls = (u, .bad c h)) : s.checkSpan p va n k al cls = (u, .bad c va h) := by
  unfold State.checkSpan
  rw [pieces_short hn h8, Nat.mod_eq_of_lt hv]
  split <;> (unfold State.checkAll; rw [hc])

/-- The request an instruction issues. -/
def issuedReq (s : State) (op : MemOp) (x : Acc) (posted : Bool) (word : BitVec 32) : MemReq :=
  ⟨s.nextReq, s.cur.p, s.cur.k, op, x, domVer (s.accDomain x), homeOf (s.accDomain x) (x.pa / 128), posted, word, .flight, fewest (s.bufferedReqs s.cur.p), false⟩

theorem accDomain_of {s u : State} (h : u.domains = s.domains) (x : Acc) : u.accDomain x = s.accDomain x := by
  unfold State.accDomain State.domEntry; rw [h]

theorem slice_of {s u : State} (h : u.slices = s.slices) (n : Nat) : u.slice n = s.slice n := by
  unfold State.slice; rw [h]

/-- A request that writes and links no node and sends no dispatches is its operation at the home line. -/
theorem performWhole_plain {s : State} {sk lk : Nat} {r : MemReq} {l : L2Line} {h : HomeRes} (hf : Map.find (s.slice sk).lines lk = some l) (hn : ∀ i c, r.op ≠ .futget (some i) c)
    (hr : homeOp (s.homeCont r) (r.acc.pa % 128) (s.slice sk).hts l = h) (hh : h.head = none) :
    s.performWhole sk lk r = (s.setSlice sk { (s.slice sk).without r.id with hts := h.hts, lines := Map.put (s.slice sk).lines lk h.line }).answerReq r h.reply := by
  have hnode : s.nodeAt r = (s, .none) := by
    unfold State.nodeAt
    split
    · next e => exact absurd e (hn _ _)
    · rfl
  have hp : s.performAt sk lk r = ((s.setSlice sk { (s.slice sk).without r.id with hts := h.hts, lines := Map.put (s.slice sk).lines lk h.line }).answerReq r h.reply, h) := by
    unfold State.performAt
    rw [roomHome_id (.inl ⟨_, hf⟩)]
    dsimp only
    rw [hf]
    dsimp only [Option.getD_some]
    rw [hr]
  unfold State.performWhole
  rw [hnode]
  dsimp only
  rw [hp]
  dsimp only
  rw [hh]
  split
  · next e => exact absurd e (by simp)
  · next e => exact absurd e (by simp)
  · rfl

/-- A home slice that holds the line, with no lock and no queue, serves a request at once. -/
theorem serve_holds {s : State} {r : MemReq} {l : L2Line} {h : HomeRes} (hv : r.ver = domVer (s.accDomain r.acc)) (hh : HomeHolds s r.acc l)
    (hn : ∀ i c, r.op ≠ .futget (some i) c) (hr : homeOp (s.homeCont r) (r.acc.pa % 128) (s.slice (homeSlice s r.acc)).hts l = h) (h0 : h.head = none) :
    s.serve r false = (s.setSlice (homeSlice s r.acc) { s.slice (homeSlice s r.acc) with hts := h.hts, lines := Map.put (s.slice (homeSlice s r.acc)).lines (homeLine s r.acc) h.line }).answerReq r h.reply := by
  obtain ⟨h1, h2, h3⟩ := hh
  unfold State.serve
  dsimp only
  rw [if_neg (by simp [hv])]
  rw [show sliceKey r.acc.pa (homeOf (s.accDomain r.acc) (r.acc.pa / 128)) = homeSlice s r.acc from rfl, show lineKey r.acc (domVer (s.accDomain r.acc)) = homeLine s r.acc from rfl, h1, h2, h3]
  have hb : ∀ (L : List MemReq), (anyOf (keep L fun q => hasNat [] q.id && bankOf (q.acc.pa / 128) == bankOf (r.acc.pa / 128)) fun q => q.acc.copy == r.acc.copy) = false := by
    intro L
    have : (keep L fun q => hasNat [] q.id && bankOf (q.acc.pa / 128) == bankOf (r.acc.pa / 128)) = [] := by
      rw [keep_eq_filter, List.filter_eq_nil_iff]; intro q _; simp [hasNat, anyOf]
    rw [this]; rfl
  rw [hb]
  simp only [anyOf, Bool.and_false, Bool.or_false]
  rw [if_neg (by decide), if_pos (by rfl), performWhole_plain h3 hn hr h0]
  unfold Slice.without
  rw [h1, h2]
  rfl

/-- What a home event does when one request is in flight. -/
theorem home_lone {s u : State} {op : MemOp} {x : Acc} {l : L2Line} {posted : Bool} {word : BitVec 32} {kind : MemOp → Bool} {h : HomeRes}
    (hr : u.reqs = [issuedReq s op x posted word]) (hrep : u.replies = []) (hd : u.domains = s.domains) (hs : u.slices = s.slices) (hh : HomeHolds s x l) (hw : winClass x.win = 1)
    (hk : kind op = true) (hop : u.homeCont (issuedReq s op x posted word) = op) (hn : ∀ i c, op ≠ .futget (some i) c)
    (hres : homeOp op (x.pa % 128) (s.slice (homeSlice s x)).hts l = h) (h0 : h.head = none) :
    u.homeEvent 0 kind =
      (u.setSlice (homeSlice s x) { s.slice (homeSlice s x) with hts := h.hts, lines := Map.put (s.slice (homeSlice s x)).lines (homeLine s x) h.line }).answerReq (issuedReq s op x posted word) h.reply := by
  unfold State.homeEvent
  rw [hr]
  have hready : u.reqReady 0 (issuedReq s op x posted word) = true := by
    unfold State.reqReady
    rw [hr, hrep]; rfl
  show (if winClass x.win != 2 && kind op && (Stage.flight != .conflict) && u.reqReady 0 (issuedReq s op x posted word) then _ else _) = _
  rw [hw, hk, hready]
  show u.serve (issuedReq s op x posted word) false = _
  have ed : u.accDomain x = s.accDomain x := accDomain_of hd x
  have es : homeSlice u x = homeSlice s x := by unfold homeSlice; rw [ed]
  have el : homeLine u x = homeLine s x := by unfold homeLine; rw [ed]
  have hu : HomeHolds u x l := by unfold HomeHolds; rw [es, el, slice_of hs]; exact hh
  have e := serve_holds (s := u) (r := issuedReq s op x posted word) (l := l) (h := h) (by show domVer (s.accDomain x) = domVer (u.accDomain x); rw [ed]) hu hn
    (by rw [hop]; show homeOp op (x.pa % 128) (u.slice (homeSlice u x)).hts l = h; rw [es, slice_of hs, hres]) h0
  rw [e]
  show (u.setSlice (homeSlice u x) _).answerReq _ _ = _
  rw [show (issuedReq s op x posted word).acc = x from rfl, es, el, slice_of hs]

/-- The operation writes a window that holds page-table words. -/
def writesTable (op : MemOp) (x : Acc) : Bool := match op with | .amo .. => winPtw x.win | _ => false

/-- What a reply leaves when one request was in flight. -/
theorem answer_lone {u : State} {r : MemReq} {reply : Reply} (hr : u.reqs = [r]) (hrep : u.replies = []) (hp : r.posted = false) (hw : winClass r.acc.win = 1) (he : reply ≠ .error 0x16)
    (hop : (∃ n, r.op = .read n) ∨ ∃ a b c d e f, r.op = .amo a b c d e f) :
    ∃ w : State, u.answerReq r reply = { w with reqs := [], replies := [⟨r, reply⟩] } ∧ w = { u with cores := w.cores } ∧
      w.core r.p = { u.core r.p with rewalk := (u.core r.p).rewalk || writesTable r.op r.acc } ∧ ∀ q, q ≠ r.p → w.core q = u.core q := by
  have hk : (keep u.reqs fun q => q.id != r.id) = [] := by rw [hr]; simp [keep]
  have hd : u.dropReq r.id = { u with reqs := [] } := by unfold State.dropReq; rw [hk]
  cases hx : writesTable r.op r.acc with
  | false =>
    refine ⟨u, ?_, rfl, by simp, fun _ _ => rfl⟩
    have : ({ u with reqs := [] } : State).ptwWrite r reply = { u with reqs := [] } := by
      unfold State.ptwWrite
      rcases hop with ⟨n, h⟩ | ⟨a, b, c, d, e, f, h⟩
      · rw [h]; rfl
      · rw [h] at hx ⊢
        rw [if_neg]
        simp only [writesTable] at hx
        rw [hx]; simp
    unfold State.answerReq
    rw [hd, this]
    rcases hop with ⟨n, h⟩ | ⟨a, b, c, d, e, f, h⟩ <;> (rw [h, hp]; simp [hrep])
  | true =>
    refine ⟨u.modCore r.p fun c => { c with rewalk := true }, ?_, rfl, by rw [core_modCore_same]; simp, fun q hq => core_modCore_other _ _ hq⟩
    rcases hop with ⟨n, h⟩ | ⟨a, b, c, d, e, f, h⟩
    · rw [h] at hx; exact absurd hx (by simp [writesTable])
    · have : ({ u with reqs := [] } : State).ptwWrite r reply = ({ u with reqs := [] } : State).modCore r.p fun c => { c with rewalk := true } := by
        unfold State.ptwWrite
        rw [h] at hx ⊢
        rw [if_pos]
        simp only [writesTable] at hx
        rw [hx, hw]; simp [he]
      unfold State.answerReq
      rw [hd, this, h, hp]
      simp only [State.modCore, State.setCore]
      simp [hrep, State.core]

theorem runs_three {a b c : Instr} {s t u v : State} (h1 : exec a s = .next t) (h2 : exec b t = .next u) (h3 : exec c u = .next v) : runs [a, b, c] s = some v := by
  simp [runs, h1, h2, h3]

/-- The value a register takes from a reply. -/
def replyValue (op : MemOp) (v : Word) : Word := match op with | .amo _ fp n _ _ _ => if fp then zext v 32 else sext v (8 * n) | .read n => sext v (8 * n) | _ => v

/-- A request issued, served at its home and answered, in three steps. -/
theorem request_and_answer {s : State} {i : Instr} {ev : Instr} {op : MemOp} {x : Acc} {l : L2Line} {d : BitVec 5} {acq : Bool} {kind : MemOp → Bool} {v sp : Word} {l' : L2Line} {hts' : Word}
    (hreqs : s.reqs = []) (hrep : s.replies = []) (hh : HomeHolds s x l) (hw : winClass x.win = 1) (hk : kind op = true)
    (hi : exec i s = sendOp op x false d acq i s) (hev : ∀ u, exec ev u = go (u.homeEvent 0 kind))
    (hop : (∃ n, op = .read n) ∨ ∃ a b c d e f, op = .amo a b c d e f)
    (hr : homeOp op (x.pa % 128) (s.slice (homeSlice s x)).hts l = ⟨l', hts', .value v sp, none⟩) :
    ∃ t, runs [i, ev, .memoryReply 0] s = some t ∧ OnlyHome s t s.cur.p ∧
      t.slices = Map.put s.slices (homeSlice s x) { s.slice (homeSlice s x) with hts := hts', lines := Map.put (s.slice (homeSlice s x)).lines (homeLine s x) l' } ∧
       t.core s.cur.p = ({ (if acq then (s.core s.cur.p).raise sp else s.core s.cur.p) with rewalk := (s.core s.cur.p).rewalk || writesTable op x }).setScal s.cur.k (({ s.me with wait := none } : Scalar).setG d (replyValue op v)).advance := by
  let r := issuedReq s op x false (wordOf i)
  let u0 : State := (s.request s.cur.p s.cur.k op x false (wordOf i)).1.modMe fun y => { y with wait := some (.reply s.nextReq d acq) }
  have h1 : exec i s = .next u0 := hi
  have hr0 : u0.reqs = [r] := by show s.reqs ++ [_] = [r]; rw [hreqs]; rfl
  have hn : ∀ i c, op ≠ .futget (some i) c := by rcases hop with ⟨n, rfl⟩ | ⟨a, b, c, d, e, f, rfl⟩ <;> exact fun _ _ e => nomatch e
  have hc : u0.homeCont r = op := by rcases hop with ⟨n, rfl⟩ | ⟨a, b, c, d, e, f, rfl⟩ <;> rfl
  have e1 := home_lone (s := s) (u := u0) (posted := false) (word := wordOf i) hr0 hrep rfl rfl hh hw hk hc hn hr rfl
  obtain ⟨w, ew, w1, w2, w3⟩ := answer_lone (u := u0.setSlice (homeSlice s x) { s.slice (homeSlice s x) with hts := hts', lines := Map.put (s.slice (homeSlice s x)).lines (homeLine s x) l' }) (r := r) (reply := .value v sp) hr0 hrep rfl hw (by simp) hop
  have e3 : u0.homeEvent 0 kind = { w with reqs := [], replies := [⟨r, .value v sp⟩] } := by
    rw [e1, ew]
  have h2 : exec ev u0 = .next { w with reqs := [], replies := [⟨r, .value v sp⟩] } := by rw [hev, e3]
  have h0 : u0.core s.cur.p = (s.core s.cur.p).setScal s.cur.k { s.me with wait := some (.reply s.nextReq d acq) } := core_modCore_same _ _ _
  have hwc : w.core s.cur.p = { (s.core s.cur.p).setScal s.cur.k { s.me with wait := some (.reply s.nextReq d acq) } with rewalk := (s.core s.cur.p).rewalk || writesTable op x } := by
    have : w.core s.cur.p = { u0.core s.cur.p with rewalk := (u0.core s.cur.p).rewalk || writesTable op x } := w2
    rw [this, h0]
    cases s.cur.k <;> rfl
  let u3 : State := { w with reqs := [], replies := [] }
  have hs3 : (u3.scal s.cur.p s.cur.k) = { s.me with wait := some (.reply s.nextReq d acq) } := by
    show (w.core s.cur.p).scal s.cur.k = _
    rw [hwc]; cases s.cur.k <;> rfl
  have h3 : exec (.memoryReply 0) { w with reqs := [], replies := [⟨r, .value v sp⟩] } = .next (u3.completeReply r d acq (.value v sp)) := by
    show go (State.replyEvent _ 0) = _
    unfold State.replyEvent
    show go (if (anyOf [] _ || anyOf [(⟨r, .value v sp⟩ : MemReply)] _ || (Reply.value v sp == .done && _)) then _ else _) = _
    rw [if_neg (by simp [anyOf])]
    show go (State.takeReply u3 ⟨r, .value v sp⟩) = _
    unfold State.takeReply
    dsimp only
    rw [show (u3.scal r.p r.k).wait = some (.reply s.nextReq d acq) from congrArg Scalar.wait hs3]
  have e4 : u3.completeReply r d acq (.value v sp) = (if acq then u3.modCore s.cur.p fun c => c.raise sp else u3).modScal s.cur.p s.cur.k fun y => ({ y with wait := none }.setG d (replyValue op v)).advance := by
    unfold State.completeReply
    rcases hop with ⟨n, hn⟩ | ⟨a, b, c, d, e, f, hn⟩
    · subst hn; rfl
    · subst hn; rfl
  refine ⟨_, runs_three h1 h2 h3, ?_, ?_, ?_⟩
  · rw [e4]
    refine ⟨?_, fun q hq => ?_⟩
    · cases acq <;> (simp only [u3]; rw [w1]; rw [hreqs, hrep]; rfl)
    · show ((if acq then _ else _ : State).modCore s.cur.p _).core q = _
      rw [core_modCore_other _ _ hq]
      have h0q : u0.core q = s.core q := core_modCore_other _ _ hq
      have : u3.core q = s.core q := (w3 q hq).trans h0q
      cases acq
      · exact this
      · rw [if_pos rfl]; exact (core_modCore_other _ _ hq).trans this
  · rw [e4]
    have : u3.slices = Map.put s.slices (homeSlice s x) { s.slice (homeSlice s x) with hts := hts', lines := Map.put (s.slice (homeSlice s x)).lines (homeLine s x) l' } := by
      show w.slices = _
      rw [w1]; rfl
    cases acq <;> exact this
  · rw [e4]
    show ((if acq then _ else _ : State).modCore s.cur.p _).core s.cur.p = _
    rw [core_modCore_same]
    have hx : (if acq then u3.modCore s.cur.p fun c => c.raise sp else u3).core s.cur.p = if acq then (u3.core s.cur.p).raise sp else u3.core s.cur.p := by
      cases acq
      · rfl
      · rw [if_pos rfl, if_pos rfl]; exact core_modCore_same _ _ _
    have hx3 : u3.core s.cur.p = w.core s.cur.p := rfl
    rw [hx, hx3, hwc]
    cases acq <;> (cases s.cur.k <;> rfl)

/-- The operation writes a window that holds page-table words, posted ones included. -/
def storesTable (op : MemOp) (x : Acc) : Bool := match op with | .amo .. => winPtw x.win | .write .. => winPtw x.win | _ => false

/-- What the answer of a posted request leaves. -/
theorem answer_posted {u : State} {r : MemReq} {reply : Reply} (hr : u.reqs = [r]) (hp : r.posted = true) (hw : winClass r.acc.win = 1) (he : reply ≠ .error 0x16)
    (hop : (∃ n y, r.op = .write n y) ∨ ∃ a b c d e f, r.op = .amo a b c d e f) :
    ∃ w : State, u.answerReq r reply = { w with reqs := [] } ∧ w = { u with cores := w.cores } ∧
      w.core r.p = { u.core r.p with rewalk := (u.core r.p).rewalk || storesTable r.op r.acc } ∧ ∀ q, q ≠ r.p → w.core q = u.core q := by
  have hk : (keep u.reqs fun q => q.id != r.id) = [] := by rw [hr]; simp [keep]
  have hd : u.dropReq r.id = { u with reqs := [] } := by unfold State.dropReq; rw [hk]
  have hx : storesTable r.op r.acc = winPtw r.acc.win := by rcases hop with ⟨n, y, h⟩ | ⟨a, b, c, d, e, f, h⟩ <;> (rw [h]; rfl)
  have ha : ∀ v, ({ u with reqs := [] } : State).ptwWrite r reply = v → u.answerReq r reply = v := by
    intro v hv
    unfold State.answerReq
    rw [hd, hv]
    rcases hop with ⟨n, y, h⟩ | ⟨a, b, c, d, e, f, h⟩ <;> (rw [h, hp]; simp [he])
  cases hq : winPtw r.acc.win with
  | false =>
    refine ⟨u, ha _ ?_, rfl, by rw [hx, hq]; simp, fun _ _ => rfl⟩
    unfold State.ptwWrite
    rw [hq]; simp
  | true =>
    refine ⟨u.modCore r.p fun c => { c with rewalk := true }, ha _ ?_, rfl, by rw [core_modCore_same, hx, hq]; simp, fun q hq => core_modCore_other _ _ hq⟩
    unfold State.ptwWrite
    rw [hq, hw, if_pos (by rcases hop with ⟨n, y, h⟩ | ⟨a, b, c, d, e, f, h⟩ <;> (rw [h]; simp [he]))]
    rfl

theorem runs_two {a b : Instr} {s t u : State} (h1 : exec a s = .next t) (h2 : exec b t = .next u) : runs [a, b] s = some u := by
  simp [runs, h1, h2]

/-- A posted request issued and served at its home, in two steps. -/
theorem posted_request_and_answer {s : State} {i : Instr} {ev : Instr} {op : MemOp} {x : Acc} {l : L2Line} {d : BitVec 5} {acq : Bool} {kind : MemOp → Bool} {reply : Reply} {l' : L2Line} {hts' : Word}
    (hreqs : s.reqs = []) (hrep : s.replies = []) (hh : HomeHolds s x l) (hw : winClass x.win = 1) (hk : kind op = true)
    (hi : exec i s = sendOp op x true d acq i s) (hev : ∀ u, exec ev u = go (u.homeEvent 0 kind)) (he : reply ≠ .error 0x16)
    (hop : (∃ n y, op = .write n y) ∨ ∃ a b c d e f, op = .amo a b c d e f)
    (hr : homeOp op (x.pa % 128) (s.slice (homeSlice s x)).hts l = ⟨l', hts', reply, none⟩) :
    ∃ t, runs [i, ev] s = some t ∧ OnlyHome s t s.cur.p ∧
      t.slices = Map.put s.slices (homeSlice s x) { s.slice (homeSlice s x) with hts := hts', lines := Map.put (s.slice (homeSlice s x)).lines (homeLine s x) l' } ∧
       t.core s.cur.p = ({ s.core s.cur.p with rewalk := (s.core s.cur.p).rewalk || storesTable op x }).setScal s.cur.k s.me.advance := by
  let r := issuedReq s op x true (wordOf i)
  let u0 : State := (s.request s.cur.p s.cur.k op x true (wordOf i)).1.modMe Scalar.advance
  have h1 : exec i s = .next u0 := hi
  have hr0 : u0.reqs = [r] := by show s.reqs ++ [_] = [r]; rw [hreqs]; rfl
  have hn : ∀ i c, op ≠ .futget (some i) c := by rcases hop with ⟨n, y, rfl⟩ | ⟨a, b, c, d, e, f, rfl⟩ <;> exact fun _ _ e => nomatch e
  have hc : u0.homeCont r = op := by rcases hop with ⟨n, y, rfl⟩ | ⟨a, b, c, d, e, f, rfl⟩ <;> rfl
  have e1 := home_lone (s := s) (u := u0) (posted := true) (word := wordOf i) hr0 hrep rfl rfl hh hw hk hc hn hr rfl
  obtain ⟨w, ew, w1, w2, w3⟩ := answer_posted (u := u0.setSlice (homeSlice s x) { s.slice (homeSlice s x) with hts := hts', lines := Map.put (s.slice (homeSlice s x)).lines (homeLine s x) l' }) (r := r) (reply := reply) hr0 rfl hw he hop
  have e3 : u0.homeEvent 0 kind = { w with reqs := [] } := by
    rw [e1, ew]
  have h2 : exec ev u0 = .next { w with reqs := [] } := by rw [hev, e3]
  have h0 : u0.core s.cur.p = (s.core s.cur.p).setScal s.cur.k s.me.advance := core_modCore_same _ _ _
  refine ⟨_, runs_two h1 h2, ⟨?_, fun q hq => ?_⟩, ?_, ?_⟩
  · rw [w1, hreqs]; rfl
  · have h0q : u0.core q = s.core q := core_modCore_other _ _ hq
    exact (w3 q hq).trans h0q
  · show w.slices = _
    rw [w1]; rfl
  · show w.core s.cur.p = _
    have : w.core s.cur.p = { u0.core s.cur.p with rewalk := (u0.core s.cur.p).rewalk || storesTable op x } := w2
    rw [this, h0]
    cases s.cur.k <;> rfl

/-- A write into an unmarked word of a home line. -/
theorem write_ok {l : L2Line} {off n x : Nat} (hpo : wordsPoisoned l.poison off n = false) : ∃ l', l.write off n x = some l' ∧ l'.data = putBytes l.data off n x ∧ l'.sp = l.sp := by
  unfold L2Line.write
  rw [if_neg]
  · exact ⟨_, rfl, rfl, rfl⟩
  · rw [anyOf_iff]
    rintro ⟨w, hw1, hw2⟩
    have : wordsPoisoned l.poison off n = true := by
      unfold wordsPoisoned; rw [anyOf_iff]
      exact ⟨w, hw1, (Bool.and_eq_true _ _ ▸ hw2).1⟩
    rw [this] at hpo; exact absurd hpo (by decide)

theorem homeByte_set (s : State) (sk lk : Nat) (x : Slice) (hx : x.lines = Map.put (s.slice sk).lines lk y) (n key j : Nat) :
    homeByte (s.setSlice sk x) n key j = if n = sk ∧ key = lk then some (y.data.extractLsb' (8 * j) 8) else homeByte s n key j := by
  unfold homeByte
  by_cases hn : n = sk
  · subst hn
    rw [slice_setSlice_same, hx]
    by_cases hk : key = lk
    · subst hk
      rw [find_put_same, if_pos ⟨rfl, rfl⟩]; rfl
    · rw [find_put_other _ _ hk, if_neg (fun e => hk e.2)]
  · rw [slice_setSlice_other _ _ hn, if_neg (fun e => hn e.1)]

/-- The bytes of the home line after a write. -/
theorem homeBytes_of {s t : State} {p : Nat} {x : Acc} {l l' : L2Line} {h : Word} {off n v : Nat} (ho : OnlyHome s t p) (hh : HomeHolds s x l) (hl : off + n ≤ 128)
    (hs : t.slices = Map.put s.slices (homeSlice s x) { s.slice (homeSlice s x) with hts := h, lines := Map.put (s.slice (homeSlice s x)).lines (homeLine s x) l' })
    (hd : l'.data = putBytes l.data off n v) : HomeBytes s t (homeSlice s x) (homeLine s x) off n v := by
  have hb : (∀ n key j, homeByte t n key j = if n = homeSlice s x ∧ key = homeLine s x then some (l'.data.extractLsb' (8 * j) 8) else homeByte s n key j) := by
    intro n key j
    have : homeByte t n key j = homeByte (s.setSlice (homeSlice s x) { s.slice (homeSlice s x) with hts := h, lines := Map.put (s.slice (homeSlice s x)).lines (homeLine s x) l' }) n key j := by
      unfold homeByte State.slice; rw [hs]; rfl
    rw [this]
    exact homeByte_set s _ _ _ rfl n key j
  intro m q j hj
  rw [hb, hd, putBytes_byte _ _ hl hj]
  by_cases e : m = homeSlice s x ∧ q = homeLine s x
  · obtain ⟨rfl, rfl⟩ := e
    rw [if_pos ⟨rfl, rfl⟩]
    by_cases f : off ≤ j ∧ j < off + n
    · rw [if_pos f, if_pos ⟨rfl, rfl, f⟩]
    · rw [if_neg f, if_neg (fun e => f e.2.2)]
      unfold homeByte; rw [hh.2.2]; rfl
  · rw [if_neg e, if_neg (fun f => e ⟨f.1, f.2.1⟩)]

theorem sameBytes_trip {s t : State} {p : Nat} {sk lk : Nat} {h : Word} {l l' : L2Line} (ho : OnlyHome s t p) (hl : Map.find (s.slice sk).lines lk = some l)
    (hs : t.slices = Map.put s.slices sk { s.slice sk with hts := h, lines := Map.put (s.slice sk).lines lk l' }) :
    (∀ n key j, homeByte t n key j = if n = sk ∧ key = lk then some (l'.data.extractLsb' (8 * j) 8) else homeByte s n key j) := by
  intro n key j
  have : homeByte t n key j = homeByte (s.setSlice sk { s.slice sk with hts := h, lines := Map.put (s.slice sk).lines lk l' }) n key j := by
    unfold homeByte State.slice; rw [hs]; rfl
  rw [this]
  exact homeByte_set s sk lk _ rfl n key j

theorem cached_of_core {s t : State} {p : Nat} {c : Core} (h1 : ∀ q, q ≠ p → t.core q = s.core q) (h2 : t.core p = c) (h3 : ∀ w, c.lineAt w = (s.core p).lineAt w) : SameCached s t := by
  intro q w j
  by_cases hq : q = p
  · subst hq; unfold cachedByte; rw [h2, h3]
  · unfold cachedByte; rw [h1 q hq]

theorem span_imm {s : State} {va n : Nat} {k : AK} {x : Acc} (hn : 0 < n) (h8 : n ≤ 128) (hv : va < 2 ^ 64) (h : s.checkSpan s.cur.p va n k n immOnly = (s, .ok [x])) :
    winClass x.win = 1 ∧ x.pa % 128 + n ≤ 128 := by
  obtain ⟨hp, hl, _⟩ := checkSpan_one hn h8 hv h
  exact ⟨by simpa [immOnly] using hp.permits, hl⟩

/-- The home's answer to an atomic on an unmarked word. -/
theorem amo_home {opn : BitVec 3} {fp : Bool} {n : Nat} {x c ph : Word} {off : Nat} {hts : Word} {l : L2Line} (hpo : wordsPoisoned l.poison off n = false) :
    ∃ l', homeOp (.amo opn fp n x c ph) off hts l = ⟨l', hts, .value (BitVec.ofNat 64 (lineBytes l.data off n)) (maxW l.sp ph), none⟩ ∧
      l'.data = putBytes l.data off n (amoNew opn fp n (lineBytes l.data off n) (x.toNat % 2 ^ (8 * n)) (c.toNat % 2 ^ (8 * n))) ∧ l'.sp = maxW l.sp ph := by
  obtain ⟨l', h1, h2, h3⟩ := write_ok (x := amoNew opn fp n (lineBytes l.data off n) (x.toNat % 2 ^ (8 * n)) (c.toNat % 2 ^ (8 * n))) hpo
  refine ⟨{ l' with sp := maxW l.sp ph }, ?_, h2, rfl⟩
  unfold homeOp
  dsimp only
  rw [if_neg (by rw [hpo]; decide), h1]
  rfl

/-- A home event serves the request it is for. -/
theorem served_home {s : State} {n : Nat} {r : MemReq} {l : L2Line} {kind : MemOp → Bool} (h : Served s n r l) (hk : kind r.op = true) (hop : s.homeCont r = r.op)
    (hn : ∀ i c, r.op ≠ .futget (some i) c) {l' : L2Line} {hts : Word} {reply : Reply}
    (hr : homeOp r.op (r.acc.pa % 128) (s.slice (homeSlice s r.acc)).hts l = ⟨l', hts, reply, none⟩) : s.homeEvent n kind = performed s r l' hts reply := by
  obtain ⟨h1, h2, h3, h4, h5, hh⟩ := h
  unfold State.homeEvent
  rw [h1]
  show (if winClass r.acc.win != 2 && kind r.op && r.stage != .conflict && s.reqReady n r then _ else _) = _
  rw [if_pos (by simp [h2, hk, h3, h4]), serve_holds h5 hh hn (h := ⟨l', hts, reply, none⟩) (by rw [hop]; exact hr) rfl]
  rfl

/-- A reply event takes the reply it is for. -/
theorem replyEvent_first {s : State} {n : Nat} {y : MemReply} (hy : nth s.replies n = some y)
    (h1 : ∀ q ∈ s.reqs, ¬ (q.p = y.req.p ∧ q.acc.copy = y.req.acc.copy ∧ q.id < y.req.id))
    (h2 : ∀ z ∈ s.replies, ¬ (z.req.p = y.req.p ∧ z.req.acc.copy = y.req.acc.copy ∧ z.req.id < y.req.id))
    (h3 : y.reply = .done → s.endWaits y.req.p y.req.k = false) : s.replyEvent n = ({ s with replies := dropNth s.replies n } : State).takeReply y := by
  unfold State.replyEvent
  rw [hy]
  dsimp only
  rw [if_neg]
  simp only [Bool.or_eq_true, anyOf_iff, not_or, not_exists, not_and, Bool.and_eq_true, beq_iff_eq, decide_eq_true_eq]
  exact ⟨⟨fun q hq a => fun hlt => h1 q hq ⟨a.1, a.2, hlt⟩, fun q hq a => fun hlt => h2 q hq ⟨a.1, a.2, hlt⟩⟩, fun e => by rw [h3 e]; decide⟩

theorem heldByte_fill (l : Line) (h : L2Line) {j : Nat} (hj : j < 128) : heldByte (l.fill h) j = some (if (l.fill h).own.getLsbD j then l.data.extractLsb' (8 * j) 8 else h.data.extractLsb' (8 * j) 8) := by
  unfold heldByte Line.fill
  dsimp only
  rw [if_pos (by rw [BitVec.getLsbD_allOnes]; simpa using hj), mergeData_byte _ _ _ hj]
  rfl

/-- No publication of the core is open. -/
theorem pubsOpen_false {s : State} {p : Nat} (h1 : ∀ r ∈ s.reqs, ¬ (r.p = p ∧ r.op.publishes = true)) (h2 : ∀ y ∈ s.replies, ¬ (y.req.p = p ∧ y.req.op.publishes = true)) :
    s.pubsOpen p = false := by
  unfold State.pubsOpen
  rw [Bool.or_eq_false_iff, ← Bool.not_eq_true, ← Bool.not_eq_true, anyOf_iff, anyOf_iff]
  refine ⟨?_, ?_⟩
  · rintro ⟨r, hr, h⟩; exact h1 r hr (by simpa using h)
  · rintro ⟨y, hy, h⟩; exact h2 y hy (by simpa using h)

theorem dirtyPlaces_nil {c : Core} (h : ∀ w l, c.lineAt w = some l → l.dirty = 0) : c.dirtyPlaces = [] := by
  unfold Core.dirtyPlaces
  apply keep_nil
  intro w _
  cases e : c.lineAt w with
  | none => rfl
  | some l => simp [h w l e]

theorem mem_dirty {c : Core} {w : Place} (h : w ∈ c.dirtyPlaces) : ∃ l, c.lineAt w = some l ∧ l.dirty ≠ 0 := by
  unfold Core.dirtyPlaces at h
  rw [keep_eq_filter, List.mem_filter] at h
  cases e : c.lineAt w with
  | none => rw [e] at h; simp at h
  | some l => rw [e] at h; exact ⟨l, rfl, by simpa using h.2⟩

theorem dirtyOfPage_nil {c : Core} {pp : Nat} (h : ∀ key l, copyLine key / 32 = pp → c.lineAt (.l1 key) = some l → l.dirty = 0) : c.dirtyOfPage pp = [] := by
  unfold Core.dirtyOfPage
  apply keep_nil
  intro w hw
  obtain ⟨l, h1, h2⟩ := mem_dirty hw
  cases w with
  | l1 key =>
    by_cases e : copyLine key / 32 = pp
    · exact absurd (h key l e h1) h2
    · simp [e]
  | stash b n => rfl

theorem dirtyOfBlock_nil {c : Core} {b : Nat} (h : ∀ n l, c.lineAt (.stash b n) = some l → l.dirty = 0) : c.dirtyOfBlock b = [] := by
  unfold Core.dirtyOfBlock
  apply keep_nil
  intro w hw
  obtain ⟨l, h1, h2⟩ := mem_dirty hw
  cases w with
  | l1 key => rfl
  | stash x n =>
    by_cases e : x = b
    · subst e; exact absurd (h n l h1) h2
    · simp [e]

theorem stillDirty_scal (c : Core) (k : Kind) (x : Scalar) (a : AfterPub) : (c.setScal k x).stillDirty a = c.stillDirty a := by cases k <;> rfl

/-- A wait for publications with none open and nothing dirty ends. -/
theorem pubwait {s : State} {a : AfterPub} (hq : s.pubsOpen s.cur.p = false) (hd : s.mine.stillDirty a = [])
   : publishAndWait [] a s = s.modMine fun c => (match a with
      | .phadv => { c with ph := maxW (c.ph + 1) c.pubMax }
      | .smap v pp b => { c.dropPage pp with stash := Map.put c.stash b ⟨v, pp, []⟩ }
      | .sunmap b => { c with stash := Map.del c.stash b }
      | .sflush _ => c).modScal s.cur.k fun x => { x with wait := none }.advance := by
  unfold publishAndWait
  dsimp only
  show State.settlePubs (s.modMe _) _ _ = _
  unfold State.settlePubs
  have e1 : ((s.modMe fun x => { x with wait := some (.pubs a) }).scal s.cur.p s.cur.k).wait = some (.pubs a) := by
    show (State.me (s.modMe _)).wait = _
    rw [me_modMe]
  rw [e1]
  dsimp only
  rw [if_neg (by show ¬ (s.pubsOpen _ = true); rw [hq]; decide)]
  rw [core_modMe_same, stillDirty_scal, hd]
  dsimp only
  unfold State.afterPubs State.modMe State.modScal State.modMine
  rw [modCore_modCore]
  congr 1
  funext c
  cases a <;> cases s.cur.k <;> rfl

theorem dropClean_eq (c : Core) (f : Nat → Bool) (g : Nat → Prop) [DecidablePred g] (h : ∀ n, f n = true ↔ g n) : c.dropClean f =
  { c with l1 := c.l1.filter fun e => ¬ (e.2.dirty ||| e.2.pend = 0 ∧ g (copyLine e.1))
           stash := c.stash.map fun x => (x.1, { x.2 with lines := x.2.lines.filter fun e => ¬ (e.2.dirty ||| e.2.pend = 0 ∧ g (x.2.ppage * 32 + e.1)) }) } := by
  unfold Core.dropClean
  have : ∀ (l : Map Line) (F : Nat → Nat), (keep l fun e => !(e.2.clean && f (F e.1))) = l.filter fun e => ¬ (e.2.dirty ||| e.2.pend = 0 ∧ g (F e.1)) := by
    intro l F
    rw [keep_eq_filter]
    congr 1
    funext e
    rw [Bool.eq_iff_iff]
    simp only [decide_eq_true_eq, ← h, Line.clean, Line.own]; by_cases h1 : e.2.dirty = 0#128 <;> by_cases h2 : e.2.pend = 0#128 <;> simp [h1, h2]
  rw [this c.l1 copyLine]
  congr 2
  funext b
  rw [this b.2.lines (b.2.ppage * 32 + ·)]

theorem virtualParts_one {s : State} {p lo n : Nat} (hlo : lo < 2 ^ 64) (h0 : n ≠ 0) (h : lo % 4096 + n ≤ 4096) :
   s.validPages (n / 4096 + 2) p lo (lo + n) = match (if canonical lo then s.translate p lo else (s, .absent false)) with
     | (u, .stall) => (u, none)
     | (u, .ok e) => (u, some [(lo / 4096, e.ppage)])
     | (u, _) => (u, some []) := by
  have hnext : ∀ (u : State) f, u.validPages (f + 1) p ((lo / 4096 + 1) * 4096) (lo + n) = (u, some []) := by
    intro u f
    unfold State.validPages
    rw [if_pos (by omega)]
  unfold State.validPages
  rw [if_neg (by omega), Nat.mod_eq_of_lt hlo]
  dsimp only
  rcases (if canonical lo = true then s.translate p lo else (s, Walk.absent false)) with ⟨u, w⟩
  cases w <;> simp [hnext]

theorem wbr_one {s : State} {p : Nat} {k : Kind} {lo n : Nat} (h0 : 0 < n) (h : lo % 4096 + n ≤ 4096) :
   s.wbrPages (n / 4096 + 2) p k lo (lo + n) = match s.check p lo 1 .load 1 anyClass with
      | (s, .stall) => (s, .wait)
      | (s, .bad c _) => (s, .fault c lo)
      | (s, .ok a) =>
        if winClass a.win = 2 then (s, .finished)
        else if winClass a.win = 0 && !((s.core p).dirtyOf (lo / 4096) (a.pa / 4096)).isEmpty then
          (s.publishAll p k ((s.core p).dirtyOf (lo / 4096) (a.pa / 4096)), .wait)
        else if anyOf s.reqs fun r => r.p == p && r.acc.pa / 4096 == a.pa / 4096 then (s, .wait)
        else (each (s.pageLines a) (fun e s => s.cleanL2 e.1 e.2) s, .finished) := by
  have hnext : ∀ (u : State) f, u.wbrPages (f + 1) p k ((lo / 4096 + 1) * 4096) (lo + n) = (u, .finished) := by
    intro u f
    unfold State.wbrPages
    rw [if_pos (by omega)]
  unfold State.wbrPages
  rw [if_neg (by omega)]
  rcases s.check p lo 1 .load 1 anyClass with ⟨u, w⟩
  cases w <;> simp [hnext]

/-- Every slice of a domain gets the time. -/
theorem slices_each (d : Nat) (h : Word) : ∀ (l : List Nat) (s : State), l.Nodup → ∀ i,
   (each l (fun i s => let x := s.slice (d * 21 + i); s.setSlice (d * 21 + i) { x with mts := maxW x.mts h }) s).slice (d * 21 + i) =
     if i ∈ l then { s.slice (d * 21 + i) with mts := maxW (s.slice (d * 21 + i)).mts h } else s.slice (d * 21 + i) := by
  intro l
  induction l with
  | nil => intro s _ i; simp [each]
  | cons a r ih =>
    intro s hn i
    rw [List.nodup_cons] at hn
    unfold each
    rw [ih _ hn.2]
    by_cases e : i = a
    · subst e
      rw [if_neg hn.1, if_pos (by simp)]
      exact slice_setSlice_same ..
    · dsimp only
      rw [slice_setSlice_other _ _ (by omega)]
      simp [e]

theorem nodup_domSlices (e : Word) : (domSlices e).Nodup := by
  unfold domSlices bitsOf
  rw [keep_eq_filter]
  exact List.Pairwise.filter _ (nodup_range _ _).1

end Sys2Proof.Laws
end

