-- ==== Sys2Proof/Laws/Choices.lean ====
section
/-!
SUPPORT. What the choices that the spec leaves open give: a FREE entry or node, an unused piece identifier, the times of a frontier in some order.
-/
namespace Sys2Proof.Laws

open Sys2Proof Sys2Proof.Machine

/-- A start changes only the order in which the numbers below n come. -/
theorem mem_around (n start i : Nat) : i ∈ around n start ↔ i < n := by
  unfold around
  simp only [List.mem_map, mem_range]
  constructor
  · rintro ⟨j, hj, rfl⟩; exact Nat.mod_lt _ (by omega)
  · intro h
    have hs : start % n < n := Nat.mod_lt _ (by omega)
    refine ⟨(i + (n - start % n)) % n, ⟨Nat.zero_le _, by simpa using Nat.mod_lt _ (by omega)⟩, ?_⟩
    have e : i + (n - start % n) + start % n = i + n := by omega
    calc (start + (i + (n - start % n)) % n) % n = (i + (n - start % n) + start % n) % n := by
            rw [Nat.add_mod, Nat.mod_mod, ← Nat.add_mod, Nat.add_comm, Nat.add_mod_mod]
      _ = i := by rw [e, Nat.add_mod_right, Nat.mod_eq_of_lt h]

/-- What a search finds, and when it finds nothing. -/
theorem firstOf_found {α : Type} (f : α → Bool) (l : List α) (x : α) (h : firstOf l f = some x) : x ∈ l ∧ f x = true := by
  induction l with
  | nil => simp [firstOf] at h
  | cons a r ih =>
    unfold firstOf at h
    split at h
    · next ha => cases h; exact ⟨List.mem_cons_self, ha⟩
    · exact ⟨List.mem_cons_of_mem _ (ih h).1, (ih h).2⟩

theorem firstOf_nothing {α : Type} (f : α → Bool) (l : List α) : firstOf l f = none ↔ ∀ x ∈ l, f x = false := by
  induction l with
  | nil => simp [firstOf]
  | cons a r ih =>
    unfold firstOf
    by_cases ha : f a = true
    · simp [ha]
    · simp [ha, ih]

/-- The entry that a core takes is FREE and not reserved, and there is none only when no entry is (R296, R311). -/
theorem freeEntry_free (c : Core) (e : Nat) (h : c.freeEntry = some e) : e < 256 ∧ (c.task e).st = .free ∧ (c.task e).reserved = false := by
  obtain ⟨h1, h2⟩ := firstOf_found _ _ _ h
  exact ⟨(mem_around _ _ _).1 h1, by simpa using h2⟩

theorem freeEntry_none (c : Core) : c.freeEntry = none ↔ ∀ e < 256, (c.task e).st ≠ .free ∨ (c.task e).reserved = true := by
  unfold Core.freeEntry
  rw [firstOf_nothing]
  simp only [mem_around]
  refine forall₂_congr fun e _ => ?_
  by_cases h : (c.task e).st = .free <;> simp [h]

/-- The node that a core takes is free, and there is none only when no node is (R116, R117). -/
theorem freeNode_free (c : Core) (n : Nat) (h : c.freeNode = some n) : n < 64 ∧ Map.get c.futs .free n = .free := by
  obtain ⟨h1, h2⟩ := firstOf_found _ _ _ h
  exact ⟨(mem_around _ _ _).1 h1, by simpa using h2⟩

theorem freeNode_none (c : Core) : c.freeNode = none ↔ ∀ n < 64, Map.get c.futs .free n ≠ .free := by
  unfold Core.freeNode
  rw [firstOf_nothing]
  simp only [mem_around]
  exact forall₂_congr fun e _ => by simp

/-- The times of a frontier in another order are the same times, as often (R13). -/
theorem arranged_perm {α : Type} : ∀ (k c : Nat) (l : List α), (arranged c k l).Perm l := by
  intro k
  induction k with
  | zero => intro c l; exact .refl _
  | succ k ih =>
    intro c l
    unfold arranged
    cases h : nth l (c % l.length) with
    | none => exact .refl _
    | some x =>
      rw [nth_eq] at h
      obtain ⟨hlt, hx⟩ := List.getElem?_eq_some_iff.1 h
      refine ((ih _ _).cons x).trans ?_
      rw [dropNth_eq]
      have : l = l.take (c % l.length) ++ x :: l.drop (c % l.length + 1) := by
        rw [← hx, ← List.drop_eq_getElem_cons hlt, List.take_append_drop]
      conv => rhs; rw [this]
      exact List.perm_middle.symm

theorem anyOf_false {α : Type} (l : List α) (p : α → Bool) : anyOf l p = false ↔ ∀ x ∈ l, p x = false := by
  induction l with
  | nil => simp [anyOf]
  | cons a r ih => simp [anyOf, ih]

theorem nodup_map {α β : Type} (f : α → β) : ∀ l : List α, l.Nodup → (∀ x ∈ l, ∀ y ∈ l, f x = f y → x = y) → (l.map f).Nodup := by
  intro l
  induction l with
  | nil => intros; simp
  | cons a r ih =>
    intro h g
    rw [List.map_cons, List.nodup_cons]
    obtain ⟨ha, hr⟩ := List.nodup_cons.1 h
    refine ⟨fun hm => ?_, ih hr fun x hx y hy => g x (List.mem_cons_of_mem _ hx) y (List.mem_cons_of_mem _ hy)⟩
    obtain ⟨x, hx, e⟩ := List.mem_map.1 hm
    rw [g x (List.mem_cons_of_mem _ hx) a List.mem_cons_self e] at hx
    exact ha hx

theorem nodup_length {α : Type} [DecidableEq α] : ∀ l : List α, l.Nodup → ∀ m : List α, l ⊆ m → l.length ≤ m.length := by
  intro l
  induction l with
  | nil => intros; simp
  | cons a r ih =>
    intro h m hm
    obtain ⟨ha, hr⟩ := List.nodup_cons.1 h
    have hin : a ∈ m := hm List.mem_cons_self
    have := ih hr (m.erase a) fun x hx => (List.mem_erase_of_ne fun e => ha (by rw [← e]; exact hx)).2 (hm (List.mem_cons_of_mem _ hx))
    rw [List.length_erase_of_mem hin] at this
    have : 0 < m.length := List.length_pos_of_mem hin
    simp only [List.length_cons]
    omega

/-- A new piece's identifier is no open piece's while fewer than 65,536 pieces are open (R86). -/
theorem freshPid_fresh (s : State) (h : ((s.ranges.map fun r => r.pieces.map Piece.pid).flatten).length < 65536) :
    ∀ r ∈ s.ranges, ∀ q ∈ r.pieces, q.pid ≠ s.freshPid := by
  unfold State.freshPid
  dsimp only
  generalize hu : (s.ranges.map fun r => r.pieces.map Piece.pid).flatten = used at h
  have mem : ∀ r ∈ s.ranges, ∀ q ∈ r.pieces, q.pid ∈ used := by
    intro r hr q hq
    rw [← hu]
    exact List.mem_flatten.2 ⟨_, List.mem_map.2 ⟨r, hr, rfl⟩, List.mem_map.2 ⟨q, hq, rfl⟩⟩
  cases e : firstOf ((range 0 (used.length + 1)).map fun i => BitVec.ofNat 16 (s.choice + i)) (fun q => !anyOf used fun u => u == q) with
  | some x =>
    obtain ⟨_, h2⟩ := firstOf_found _ _ _ e
    have h3 := (anyOf_false _ _).1 (by simpa using h2)
    intro r hr q hq heq
    have := h3 _ (mem r hr q hq)
    simp [heq] at this
  | none =>
    exfalso
    rw [firstOf_nothing] at e
    have sub : ((range 0 (used.length + 1)).map fun i => BitVec.ofNat 16 (s.choice + i)) ⊆ used := by
      intro x hx
      have h1 := e x hx
      refine Decidable.byContradiction fun hn => ?_
      have : anyOf used (fun u => u == x) = false := (anyOf_false _ _).2 fun u hu' => by
        simp only [beq_eq_false_iff_ne]; rintro rfl; exact hn hu'
      simp [this] at h1
    have nd : ((range 0 (used.length + 1)).map fun i => BitVec.ofNat 16 (s.choice + i)).Nodup := by
      refine nodup_map _ _ (nodup_range _ _).1 ?_
      intro i hi j hj hij
      have a := (mem_range _ _ _).1 hi
      have b := (mem_range _ _ _).1 hj
      have := congrArg BitVec.toNat hij
      simp only [BitVec.toNat_ofNat] at this
      omega
    have := nodup_length _ nd _ sub
    rw [List.length_map, range_len] at this
    omega

end Sys2Proof.Laws
end

