-- ==== Sys2Proof/Laws/Issue.lean ====
section
/-!
SUPPORT. What issuing an engine command, a stake, a spawn and the end of a firing do.
-/
namespace Sys2Proof.Laws

open Sys2Proof Sys2Proof.Machine

/-- Making place in L1 does not change which core executes. -/
theorem roomL1_cur (s : State) (p : Nat) (a : Acc) : (s.roomL1 p a).cur = s.cur := by
  have hp : ∀ (k : Kind) (w : Place) (b : Bool), (s.publishLine p k w b).cur = s.cur := by
    intro k w b
    unfold State.publishLine
    dsimp only
    split
    · rfl
    · split <;> rfl
  unfold State.roomL1
  dsimp only
  split
  · rfl
  · split
    · rfl
    · split
      · exact hp ..
      · rfl

theorem loadPart_cur (s : State) (p : Nat) (a : Acc) : (s.loadPart p a).1.cur = s.cur := by
  unfold State.loadPart
  dsimp only
  split
  · split
    · rfl
    · split
      · rfl
      · next h => exact (roomL1_cur _ p a).trans (looked_atHome h).cur
  · split
    · rfl
    · next h => exact (looked_atHome h).cur
  · split
    · rfl
    · split <;> rfl

/-- Loads do not change which core executes. -/
theorem loadParts_cur (p : Nat) : ∀ (l : List Acc) (s : State), (s.loadParts p l).1.cur = s.cur := by
  intro l
  induction l with
  | nil => intro s; rfl
  | cons a r ih =>
    intro s
    unfold State.loadParts
    have h := loadPart_cur s p a
    revert h; rcases s.loadPart p a with ⟨u, g⟩; intro h
    cases g with
    | ok x =>
      dsimp only
      have h2 := ih u
      revert h2; rcases u.loadParts p r with ⟨v, g2⟩; intro h2
      cases g2 <;> exact h2.trans h
    | poison => exact h
    | stall => exact h

theorem items_looked (p : Nat) (k : Kind) (sz : Nat) (ak : AK) : ∀ (n : Nat) (s : State) (va : Nat), (s.items p k va sz n ak).1.cur = s.cur := by
  intro n
  induction n with
  | zero => intro s va; rfl
  | succ n ih =>
    intro s va
    unfold State.items
    have h : (s.checkSpan p (va % 2 ^ 64) sz ak 1 anyClass).1.cur = s.cur := (looked_checkSpan (u := (s.checkSpan p (va % 2 ^ 64) sz ak 1 anyClass).1) rfl).cur
    revert h; rcases s.checkSpan p (va % 2 ^ 64) sz ak 1 anyClass with ⟨u, c⟩; intro h
    cases c with
    | stall => exact h
    | bad c a hh => exact h
    | ok l =>
      dsimp only
      split
      · exact h
      · have h2 := loadParts_cur p l u
        revert h2; rcases u.loadParts p l with ⟨v, g⟩; intro h2
        cases g with
        | stall => exact h2.trans h
        | poison => exact h2.trans h
        | ok x =>
          dsimp only
          have h3 := ih v (va + sz)
          revert h3; rcases State.items v p k (va + sz) sz n ak with ⟨w, r⟩; intro h3
          cases r <;> exact h3.trans (h2.trans h)

theorem meets_iff (a n b m : Nat) : meets a n b m = true ↔ 0 < n ∧ 0 < m ∧ a < b + m ∧ b < a + n := by
  unfold meets; simp [and_assoc]

theorem zeroFrom_iff (c : Cmd) (i : Nat) : c.zeroFrom i = true ↔ ∀ x ∈ c.d.drop i, x = 0 := by
  unfold Cmd.zeroFrom; rw [allOf_iff]; simp

/-- A command enters its queue, or the issue keeps it and waits while the queue is full. -/
theorem enqueue_spec (eng : Nat) (c : Cmd) (s : State) :
    (let g := s.mine.engine eng;
      (8 ≤ g.queue.length + g.runs.length → enqueueCmd eng c s = .next (s.modMe fun x => { x with wait := some (.engine eng c) })) ∧
      (g.queue.length + g.runs.length < 8 → enqueueCmd eng c s =
        .next (((s.modMine fun x => x.setEngine eng { g with queue := g.queue ++ [c] }).modMe fun x => { x with wait := none }).modMe Scalar.advance))) := by
  intro g
  constructor
  · intro h8; exact if_pos h8
  · intro h8; exact if_neg (show ¬ 8 ≤ g.queue.length + g.runs.length by omega)

theorem shr_ne {w : Word} (n : Nat) : (w >>> n != 0) = decide (2 ^ n ≤ w.toNat) := by
  rw [Bool.eq_iff_iff, bne_iff_ne, ne_eq, ← BitVec.toNat_inj]
  simp [Nat.shiftRight_eq_div_pow]

theorem low3 (w : Word) : (w.extractLsb' 0 3 != 0) = decide (w.toNat % 8 ≠ 0) := by
  rw [Bool.eq_iff_iff, bne_iff_ne, ne_eq, ← BitVec.toNat_inj]; simp

/-- An issue that waited with its command has it enter the queue. -/
theorem issue_again {eng : Nat} {c : Cmd} {s : State} (h : s.me.wait = some (.engine eng c)) (op : Nat) (a b : BitVec 5) (lim : Cmd → State → Ans) :
    issue op a b lim s = enqueueCmd eng c s := by
  unfold issue; rw [h]

/-- The order of an issue: its descriptor, its checks, the queue. -/
theorem issue_eq (op : Nat) (a b : BitVec 5) (lim : Cmd → State → Ans) {s : State} (hw : ∀ e c, s.me.wait ≠ some (.engine e c)) : issue op a b lim s =
    if 2 ^ 22 ≤ (s.gr b).toNat ∨ ((s.gr b).getLsbD 16 = true ∧ s.mine.ctxKnown ((s.gr b).extractLsb' 17 4).toNat = false) then faults 0x17 0 s
    else if (s.gr a).toNat % 8 ≠ 0 then faults 0x18 0 s
    else readWords (s.gr a).toNat 8 .load s fun s' d => lim ⟨op, s'.cur.k, s.gr a, s.gr b, d, [], []⟩ s' := by
  unfold issue
  split
  · next h => exact absurd h (hw _ _)
  dsimp only
  rw [shr_ne, low3]
  simp only [Bool.or_eq_true, Bool.and_eq_true, Bool.not_eq_true', decide_eq_true_eq]

theorem flat_filter {α : Type} (f : Nat → Bool) (g : Nat → α) : ∀ l : List Nat, (l.map fun i => if f i then [g i] else []).flatten = (l.filter f).map g := by
  intro l
  induction l with
  | nil => rfl
  | cons a r ih =>
    rw [List.map_cons, List.flatten_cons, ih, List.filter_cons]
    by_cases h : f a = true
    · rw [if_pos h, if_pos h]; rfl
    · rw [if_neg h, if_neg h]; rfl

/-- The words of a safe-point record. -/
theorem live_eq (x : Scalar) (live : Word) : x.liveWords live = (((List.range 31).filter fun i => live.getLsbD (i + 1)).map fun i => Map.get x.g 0 (i + 1)) ++
         (((List.range 8).filter fun i => live.getLsbD (32 + i)).map fun i => Map.get x.t 0 i) ++
         (if live.getLsbD 40 then [x.lpc] else []) ++ (if live.getLsbD 41 then [x.lps] else []) ++ (if live.getLsbD 42 then [x.lpe] else []) ++ (if live.getLsbD 43 then [x.slps, x.slpe] else []) := by
  unfold Scalar.liveWords
  rw [flat_filter, flat_filter, range_eq, range_eq]
  simp only [List.filter_map, List.map_map, Nat.add_zero]
  rfl

theorem stakes_refused (c : Core) (n : Nat) (ta : Word) (ts : List Word) : c.timesRefused n ta ts = true ↔
    ((c.frontier n).times = [] ∨ (∃ t ∈ ta :: ts, depthOf t ≠ depthOf ((c.frontier n).times.headD 0) ∨ minEpoch (c.frontier n).times + 2 ^ 14 ≤ epochOf t) ∨ ∀ x ∈ (c.frontier n).times, tLe x ta = false) := by
  unfold Core.timesRefused
  dsimp only
  split
  · next h => simp [h]
  · next f0 r h =>
    rw [Bool.or_eq_true, anyOf_iff]
    unfold completeIn
    rw [allOf_iff, h]
    simp

/-- A change enters its buffer, or stops the buffer until it is sent. -/
theorem handsOver_spec (n : Nat) (ta st md : Word) (s : State) :
    (let buf := s.mine.progress n
      let x := addChange buf.ents ta st md;
      (n ∈ s.mine.progStop ∨ 64 < x.1.length → handsOver n (s.mine.enterChange n ta st md) s = .next (s.modMine fun c => { c with progStop := insertNat c.progStop n })) ∧
      (n ∉ s.mine.progStop → x.1.length ≤ 64 → handsOver n (s.mine.enterChange n ta st md) s =
        .next ((s.modMine fun c => { c with prog := Map.put c.prog n ⟨x.1, min (buf.sat + x.2) 0xFFFFFFFF⟩ }).modMe Scalar.advance))) := by
  intro buf x
  unfold Core.enterChange
  dsimp only
  refine ⟨fun g => ?_, fun g1 g2 => ?_⟩
  · rw [if_pos (by simpa [hasNat, anyOf_iff] using g)]; rfl
  · rw [if_neg (by
      have : ¬ 64 < x.1.length := by omega
      simpa [hasNat, anyOf_iff, g1] using this)]
    rfl

theorem endOf_range {s : State} {p : Nat} {k : Kind} {e n : Nat} {q : BitVec 16} (h : ((s.core p).task e).range = some (q, n)) :
    s.endOf p k (.task e) = (let u := s.modCore p fun c => c.setTask e { Task.reset with gen := ((s.core p).task e).gen + 1 }
      if u.isKeeper p then u.keeperRelease q else u.keeperAsk p k 6 [(q.setWidth 64, 0)]) := by
  unfold State.endOf; dsimp only; rw [h]

theorem endOf_shot {s : State} {p : Nat} {k : Kind} {e : Nat} (h : ((s.core p).task e).range = none) (h2 : ((s.core p).task e).actor = false) :
    s.endOf p k (.task e) = (let u := s.modCore p fun c => c.setTask e { Task.reset with gen := ((s.core p).task e).gen + 1 }
      match ((s.core p).task e).done with
        | some d => u.counterSend p k 0 (d.setWidth 64) 0
        | none => u) := by
  unfold State.endOf; dsimp only; rw [h]; dsimp only; rw [if_neg (by rw [h2]; decide)] <;> rfl

theorem x_ext (w : Word) (i n : Nat) : (w.extractLsb' i n).toNat = w.toNat / 2 ^ i % 2 ^ n := by simp [Nat.shiftRight_eq_div_pow]

theorem ext_z (w : Word) (i n : Nat) : w.extractLsb' i n = 0 ↔ w.toNat / 2 ^ i % 2 ^ n = 0 := by
  rw [← BitVec.toNat_inj, x_ext]; simp

theorem endOf_actor {s : State} {p : Nat} {k : Kind} {e : Nat} (h : ((s.core p).task e).range = none) (h2 : ((s.core p).task e).actor = true)
    (h3 : ((s.core p).task e).out0.toNat < 2 ^ 48) (h4 : ((s.core p).task e).out1.toNat < 2 ^ 48) :
    s.endOf p k (.task e) = s.modCore p fun c => (c.setTask e { (s.core p).task e with st := if ((s.core p).task e).cnt = 0 then .idle else .wait, prio := ((s.core p).scal k).levelOf ((s.core p).task e).prio }).evaluate e := by
  unfold State.endOf; dsimp only; rw [h]; dsimp only; rw [if_pos h2]
  have z : ∀ w : Word, w.toNat < 2 ^ 48 → ∀ u : State, u.produce p k w = u := by
    intro w hw u
    unfold State.produce
    rw [if_pos]
    rw [ext_z]
    omega
  rw [z _ h3, z _ h4, modCore_modCore]
  rfl

theorem recordOk_iff (k : Kind) (c0 c1 : Word) : recordOk k c0 c1 = true ↔ (c0.extractLsb' 56 8 = 0x5C ∧ (c0.extractLsb' 46 2).toNat = k.code ∧ c0.extractLsb' 32 9 = 0 ∧ c1.getLsbD 0 = false ∧
          c1.extractLsb' 44 20 = 0 ∧ (c0.extractLsb' 48 8).toNat = recordWords (c0.getLsbD 45) c1 ∧ c0.toNat % 2 ^ 16 < Config.storeBytes k ∧ c0.toNat % 4 = 0) := by
  unfold recordOk
  simp only [Bool.and_eq_true, beq_iff_eq, decide_eq_true_eq, Bool.not_eq_true', and_assoc]
  rw [show (BitVec.extractLsb' 0 16 c0).toNat = c0.toNat % 2 ^ 16 from by rw [x_ext]; simp]
  rw [show (BitVec.extractLsb' 0 2 c0 = 0) ↔ c0.toNat % 4 = 0 from by rw [ext_z]; simp]

theorem dst_blank (s : State) (p cls opc v : Nat) (h : v < 1024) : (s.blank p cls opc v).dst.toNat = v := by
  show (BitVec.ofNat 10 v).toNat = v; simp; omega

/-- Messages to this chip enter the network in order. -/
theorem sendParts_net (iss : Option Kind) (p : Nat) : ∀ (l : List Msg) (s : State), (∀ m ∈ l, s.local m.dst.toNat = true ∧ m.cls = 13) →
   let t := s.sendParts p iss l
   t = { s with cores := t.cores, net := t.net } ∧ t.net = s.net ++ l.map (fun m => ⟨m, false, false, iss, none, []⟩) ∧
     (∀ q, q ≠ p → t.core q = s.core q) ∧ t.core p = { s.core p with sw := (t.core p).sw } := by
  intro l
  induction l with
  | nil => intro s _; exact ⟨rfl, by simp [State.sendParts, each], fun _ _ => rfl, rfl⟩
  | cons a r ih =>
    intro s h
    have h1 := sendC13_local (s := s) (p := p) (iss := iss) (h a (by simp)).1 (h a (by simp)).2
    obtain ⟨e, f, g⟩ := h1
    have hn : (s.sendC13 p iss a).net = s.net ++ [⟨a, false, false, iss, none, []⟩] := by rw [e]
    have hl : ∀ v, (s.sendC13 p iss a).local v = s.local v := by intro v; rw [e]; rfl
    obtain ⟨i1, i2, i3, i4⟩ := ih (s.sendC13 p iss a) (fun m hm => by rw [hl]; exact h m (by simp [hm]))
    have e2 : s.sendParts p iss (a :: r) = (s.sendC13 p iss a).sendParts p iss r := rfl
    dsimp only
    rw [e2]
    refine ⟨?_, ?_, fun q hq => (i3 q hq).trans (f q hq), ?_⟩
    · refine i1.trans ?_
      rw [e]
    · rw [i2, hn]; simp
    · refine i4.trans ?_
      rw [g]

/-- The interface of a scalar core that no spawn or enqueue occupies. -/
theorem clear_iff (s : State) (p : Nat) (k : Kind) (v : Nat) :
    (Clear s p k v ↔ ((s.core p).spawnOpen k v || anyOf (s.core p).behind (fun b => b.1 == k && partsDst b.2 == v)) = false) := by
  unfold Clear Core.spawnOpen
  rw [Bool.or_eq_false_iff, ← Bool.not_eq_true, ← Bool.not_eq_true, anyOf_iff, anyOf_iff]
  simp only [Bool.and_eq_true, beq_iff_eq, not_exists, not_and]

/-- An enqueue leaves for a core of this module, or waits at the interface in its order. -/
theorem enqueueAt_spec {s : State} {p : Nat} {k : Kind} {l : List Msg} {v : Nat} (hv : partsDst l = v) (h : ∀ m ∈ l, s.local m.dst.toNat = true ∧ m.cls = 13) :
    Enqueued s (s.enqueueAt p k l) p k v l := by
  subst hv
  refine ⟨fun hc => ?_, fun hc => ?_⟩
  · have e : s.enqueueAt p k l = s.sendEnqueue p k l := by
      unfold State.enqueueAt
      dsimp only
      rw [(clear_iff s p k _).1 hc, if_neg (by decide)]
    obtain ⟨h1, h2, h3, h4⟩ := sendParts_net (some k) p l s h
    rw [e]
    unfold State.sendEnqueue
    dsimp only
    cases hx : anyOf l fun m => m.opc == 5 with
    | false =>
      rw [if_neg (by decide), if_neg (by decide), List.append_nil]
      refine ⟨?_, h3, h4⟩
      rw [← h2]; exact h1
    | true =>
      rw [if_pos rfl, if_pos rfl]
      refine ⟨?_, fun q hq => by rw [core_modCore_other _ _ hq, h3 q hq], ?_⟩
      · rw [← h2]
        conv => lhs; unfold State.modCore; rw [h1]
        rfl
      · rw [core_modCore_same, h4]
  · unfold State.enqueueAt
    dsimp only
    rw [if_pos]
    rw [clear_iff, Bool.not_eq_false] at hc
    exact hc

/-- A request of one part to a keeper of this chip: subops 0 to 3 are enqueues, the others leave at once. -/
theorem keeperAsk_one {s : State} {p : Nat} {k : Kind} {sub : Nat} {a b : Word} (h : s.local 0 = true) :
   ∃ m : Msg, (if sub < 4 then Enqueued s (s.keeperAsk p k sub [(a, b)]) p k 0 [m] else SentUncounted s (s.keeperAsk p k sub [(a, b)]) p (some k) m) ∧
      m.dst = 0 ∧ m.cls = 13 ∧ m.opc = 8 ∧ m.plane = 0 ∧ m.value = a ∧ m.time = b ∧ m.cont = contOf sub 0 ∧ m.src = BitVec.ofNat 10 (s.core p).vcnNum ∧
      m.phase = (s.core p).ph.extractLsb' 0 24 := by
  let m : Msg := { s.blank p 13 8 0 with value := a, time := b, cont := contOf sub 0, phase := (s.core p).ph.extractLsb' 0 24, plane := 0 }
  refine ⟨m, ?_, rfl, rfl, rfl, rfl, rfl, rfl, rfl, rfl, rfl⟩
  unfold State.keeperAsk
  by_cases hs : sub < 4
  · rw [if_pos hs, if_pos hs]
    exact enqueueAt_spec (l := [m]) rfl (by simpa [m] using ⟨h, rfl⟩)
  · rw [if_neg hs, if_neg hs]
    exact sendC13_local (m := m) h rfl

theorem getLsb (w : Word) (i : Nat) (hi : i < 64) : w.getLsbD i = decide (w.toNat / 2 ^ i % 2 = 1) := by
  unfold BitVec.getLsbD
  rw [Nat.testBit_eq_decide_div_mod_eq]

theorem ext_c (w : Word) (i n c : Nat) (hc : c < 2 ^ n) : w.extractLsb' i n = BitVec.ofNat n c ↔ w.toNat / 2 ^ i % 2 ^ n = c := by
  rw [← BitVec.toNat_inj, x_ext]; simp [Nat.mod_eq_of_lt hc]

theorem word_z (l : List Word) (i : Nat) : (nth l i).getD 0 = 0 ↔ ((nth l i).getD 0).toNat = 0 := by
  rw [← BitVec.toNat_inj]; simp

/-- The format of a spawn descriptor. -/
theorem spawnOk_iff (l : List Word) : spawnOk l = true ↔ (
      let x := fun i => ((nth l i).getD 0).toNat
      let codeFits := fun (kind entry : Nat) => kind ≠ 3 ∧ entry < Config.storeBytes (Kind.ofCode kind) ∧ entry % 4 = 0
      let rate := fun i => x i / 2 ^ 48
      let output := fun i => x i / 2 ^ 27 % 2 ^ 21 = 0 ∧ (rate i = 0 ∨ (1 ≤ x i / 2 ^ 24 % 8 ∧ x i / 2 ^ 24 % 8 ≤ 4))
      x 0 < 2 ^ 42 ∧ x 0 / 2 ^ 21 % 2 ^ 11 = 0 ∧ codeFits (x 0 / 2 ^ 18 % 4) (x 0 % 2 ^ 16) ∧ x 1 < 2 ^ 16 ∧ x 3 / 2 ^ 27 % 2 ^ 36 = 0 ∧
        x 7 = 0 ∧ (x 0 / 2 ^ 20 % 2 = 1 → x 3 = 0 ∧ x 4 ≠ 0 ∧ output 5 ∧ output 6) ∧ (x 0 / 2 ^ 20 % 2 = 0 → x 4 = 0 ∧ x 5 = 0 ∧ x 6 = 0)) := by
  dsimp only
  unfold spawnOk
  dsimp only
  have hlt := fun i => ((nth l i).getD 0).isLt
  have t0 := hlt 0
  have t1 := hlt 1
  have t5 := hlt 5
  have t6 := hlt 6
  have hb : ((nth l 0).getD 0).toNat / 2 ^ 20 % 2 = 0 ∨ ((nth l 0).getD 0).toNat / 2 ^ 20 % 2 = 1 := by omega
  have hg := getLsb ((nth l 0).getD 0) 20 (by omega)
  have hs : ∀ (a b : Bool), (a || b) = true ↔ (a = true ∨ b = true) := by simp
  rw [hg]
  rcases hb with hb | hb
  all_goals
    rw [hb]
    first | rw [if_neg (show ¬ (decide ((0:Nat) = 1)) = true by decide)] | rw [if_pos (show (decide ((1:Nat) = 1)) = true by decide)]
    simp only [Bool.and_eq_true, Bool.or_eq_true, beq_iff_eq, bne_iff_ne, ne_eq, decide_eq_true_eq, ext_z, word_z, x_ext, refSel, Nat.pow_zero, Nat.div_one,
      show (3 : BitVec 2) = BitVec.ofNat 2 3 from rfl, ext_c _ 18 2 3 (by decide)]
    generalize ((nth l 0).getD 0).toNat = x0 at *
    generalize ((nth l 1).getD 0).toNat = x1 at *
    generalize ((nth l 5).getD 0).toNat = x5 at *
    generalize ((nth l 6).getD 0).toNat = x6 at *
    generalize ((nth l 3).getD 0).toNat = x3 at *
    generalize ((nth l 4).getD 0).toNat = x4 at *
    generalize ((nth l 7).getD 0).toNat = x7 at *
    have e0 : x0 / 2 ^ 42 % 2 ^ 22 = 0 ↔ x0 < 2 ^ 42 := by omega
    have e1 : x1 / 2 ^ 16 % 2 ^ 48 = 0 ↔ x1 < 2 ^ 16 := by omega
    have e5 : x5 / 2 ^ 48 % 2 ^ 16 = 0 ↔ x5 / 2 ^ 48 = 0 := by omega
    have e6 : x6 / 2 ^ 48 % 2 ^ 16 = 0 ↔ x6 / 2 ^ 48 = 0 := by omega
    have e4 : x0 % 2 ^ 2 = 0 ↔ x0 % 2 ^ 16 % 4 = 0 := by omega
    rw [e0, e1, e4]
    try rw [e5, e6]
    clear hg hs hlt
    generalize Config.storeBytes (Kind.ofCode (x0 / 2 ^ 18 % 2 ^ 2)) = sb
    refine iff_of_eq ?_
    grind

end Sys2Proof.Laws
end

