-- ==== Sys2Proof/Laws/Firing.lean ====
section
/-!
SUPPORT. What a firing does: its operands, its result in each type, the tokens it sends, a fault, poison, a node, a vector, a port; and the order of the ready matches.
-/
namespace Sys2Proof.Laws

open Sys2Proof Sys2Proof.Machine

/-- A node firing of the first match that fires. -/
theorem fireNode_first {s : State} {n : Nat} {m : Match} (h : Fireable s n m) (act : Nat → Match → Option State) {u : State} (ha : act n m = some u) :
    s.fireNode act = some u := by
  obtain ⟨h1, h2, key, rest, h3⟩ := h
  unfold State.fireNode
  rw [h1, h2, if_pos (by decide), h3]
  unfold firstReady
  rw [ha]

/-- A plain firing with no poison: its result written back and sent. -/
theorem firePlain_ok {s : State} {w : EW} {n : Nat} {m : Match} {op : Fx → Fire} {pois} (h : Fireable s n m) (hp : m.poison = none)
    {l l' : List (Nat × Token)} {regs : Elem → Elem} {takes : Nat} (ho : op (s.fx w m) = ⟨l, regs, takes, none⟩) (ht : (s.fx w m).tagAll l = .ok l') (hr : HasRoom s w l') :
    s.firePlain w op pois = some (fired s w n l' fun x => (regs x).advance takes) := by
  unfold State.firePlain
  refine fireNode_first h _ ?_
  dsimp only
  rw [hp]
  dsimp only
  rw [ho]
  unfold Fx.resolve
  dsimp only
  rw [ht]
  dsimp only
  unfold State.emitFits
  rw [if_pos (show (s.core s.cur.p).fits (List.map (fun o => target w o.fst) l') = true from hr)]
  rfl

/-- A firing whose tag operation fails. -/
theorem tag_fails {i : Instr} {s : State} {w : EW} {n : Nat} {m : Match} {op : Fx → Fire} {pois} (h : Fireable s n m) (hp : m.poison = none)
    (he : exec i s = fires s (s.firePlain w op pois)) {c : Nat} {l0 : List (Nat × Token)} {regs : Elem → Elem} {takes : Nat} (ho : op (s.fx w m) = ⟨l0, regs, takes, none⟩)
    (ht : (s.fx w m).tagAll l0 = .error c) (regs' : Elem → Elem) (hq : ∀ x : Elem, x.advance takes = regs' x) :
    let l := poisonOuts s w m c [0, 1]
    HasRoom s w l → exec i s = .next (fired s w n l regs') := by
  intro l hr
  rw [he]
  have : s.firePlain w op pois = some (fired s w n l regs') := by
    unfold State.firePlain
    refine fireNode_first h _ ?_
    dsimp only
    rw [hp]
    dsimp only
    rw [ho]
    unfold Fx.resolve
    dsimp only
    rw [ht]
    dsimp only
    rw [show (s.fx w m).failOuts c [0, 1] = l from rfl]
    unfold State.emitFits
    rw [if_pos (show (s.core s.cur.p).fits (List.map (fun o => target w o.fst) l) = true from hr)]
    have := funext hq
    rw [this]
    rfl
  rw [this]
  rfl

/-- The next state of a plain firing, whether its tag operation fails or not. -/
theorem plain_fires {i : Instr} {s : State} {w : EW} {n : Nat} {m : Match} {op : Fx → Fire} {pois} (h : Fireable s n m) (hp : m.poison = none)
    (he : exec i s = fires s (s.firePlain w op pois))
    {l : List (Nat × Token)} {regs regs' : Elem → Elem} {takes : Nat} (ho : op (s.fx w m) = ⟨l, regs, takes, none⟩) (hl : ∀ x, (regs x).lfsr = x.lfsr)
    (hq : ∀ x, (regs x).advance takes = regs' x) :
    FiresTo i s w n m l regs' := by
  refine ⟨fun l' ht hr => ?_, fun c ht hr => ?_⟩
  · rw [he, firePlain_ok h hp ho ht hr]
    unfold fires
    rw [Option.getD_some]
    have := funext hq
    rw [this]
    first | done | rfl
  · refine tag_fails h hp he ho ht _ (fun x => ?_) hr
    rw [← hq x]
    unfold Elem.advance
    dsimp only
    rw [hl]

/-- A plain firing that sends one value on T0 and T1. -/
theorem plain_case {i : Instr} {s : State} {w : EW} {n : Nat} {m : Match} {g : Nat → Nat → Nat} {v : Word} (h : Fireable s n m) (hp : m.poison = none)
   (he : exec i s = unary w g s) (hv : writeTy w.ty.toNat (g w.ty.toNat (s.fx w m).opA) = v) :
   FiresTo i s w n m [(0, (s.fx w m).token v), (1, (s.fx w m).token v)] id := by
  subst hv
  exact plain_fires h hp he rfl (fun _ => rfl) (fun x => rfl)

/-- A plain firing that also writes its register operand. -/
theorem back_case {i : Instr} {s : State} {w : EW} {n : Nat} {m : Match} {g : Fx → Nat → Nat → Nat} {v : Word} {flush : Bool} {takes : Nat} {sr : Bool} (h : Fireable s n m) (hp : m.poison = none)
   (he : exec i s = binary w flush takes g s) (ht : ∀ x : Elem, x.advance takes = if sr = true then { x with lfsr := lfsrNext x.lfsr } else x)
   (hv : writeTy w.ty.toNat (g (s.fx w m) (s.fx w m).opA (s.fx w m).opB) = v) :
   FiresTo i s w n m [(0, (s.fx w m).token v), (1, (s.fx w m).token v)] (fun z =>
      (fun (sr : Bool) (z : Elem) => if sr then { z with lfsr := lfsrNext z.lfsr } else z) sr (if w.sa = 1 then { z with e := Map.put z.e w.ai.toNat (if flush && m.flag Token.l then 0 else v) } else z)) := by
  subst hv
  exact plain_fires h hp he rfl (fun x => by unfold Fx.writeBack; split <;> rfl) (fun x => ht _)

/-- An integer result as the type writes it. -/
theorem write_int {ty : Nat} (h : ty < 3) {z : Int} {u : BitVec 32} {v : Word} (hu : ty ≠ 2 → u = BitVec.ofInt 32 z) (hv : ty = 2 → v = BitVec.ofInt 64 z) :
   writeTy ty (wrapInt ty z) = if ty = 0 then u.signExtend 64 else if ty = 1 then u.setWidth 64 else v := by
  have e : ty = 0 ∨ ty = 1 ∨ ty = 2 := by omega
  have nn : ∀ k : Nat, 0 ≤ z % (2 ^ k : Int) := fun k => Int.emod_nonneg _ (by have : (0:Int) < 2 ^ k := Int.pow_pos (by decide); omega)
  rcases e with rfl | rfl | rfl
  · rw [if_pos rfl, hu (by decide)]
    unfold writeTy wrapInt
    rw [if_pos rfl]
    congr 1
    apply BitVec.eq_of_toNat_eq
    rw [BitVec.toNat_ofNat, BitVec.toNat_ofInt]
    have := nn 32
    show (z % (2 ^ 32 : Int)).toNat % 2 ^ 32 = (z % ((2 ^ 32 : Nat) : Int)).toNat
    omega
  · rw [if_neg (by decide), if_pos rfl, hu (by decide)]
    unfold writeTy wrapInt
    rw [if_neg (by decide)]
    apply BitVec.eq_of_toNat_eq
    rw [BitVec.toNat_ofNat, BitVec.toNat_setWidth, BitVec.toNat_ofInt]
    have := nn 32
    show (z % (2 ^ 32 : Int)).toNat % 2 ^ 32 % 2 ^ 64 = (z % ((2 ^ 32 : Nat) : Int)).toNat % 2 ^ 64
    omega
  · rw [if_neg (by decide), if_neg (by decide), hv rfl]
    unfold writeTy wrapInt
    rw [if_neg (by decide)]
    apply BitVec.eq_of_toNat_eq
    rw [BitVec.toNat_ofNat, BitVec.toNat_ofInt]
    have := nn 64
    show (z % (2 ^ 64 : Int)).toNat % 2 ^ 64 % 2 ^ 64 = (z % ((2 ^ 64 : Nat) : Int)).toNat
    omega

theorem intOf_eq {ty : Nat} (h : ty < 3) (W : Word) : intOf ty (readTy ty W.toNat) = if ty = 0 then (W.setWidth 32).toInt else if ty = 1 then ((W.setWidth 32).toNat : Int) else W.toInt := by
  have e : ty = 0 ∨ ty = 1 ∨ ty = 2 := by omega
  rcases e with rfl | rfl | rfl
  · show (BitVec.ofNat 32 (W.toNat % 2 ^ 32)).toInt = (W.setWidth 32).toInt
    congr 1
    apply BitVec.eq_of_toNat_eq; simp
  · show ((BitVec.ofNat 32 (W.toNat % 2 ^ 32)).toNat : Int) = _
    simp
  · show (BitVec.ofNat 64 (W.toNat % 2 ^ 64)).toInt = W.toInt
    congr 1
    apply BitVec.eq_of_toNat_eq; simp; exact W.isLt

theorem ofInt_nat32 (x : BitVec 32) : BitVec.ofInt 32 (x.toNat : Int) = x := by
  apply BitVec.eq_of_toNat_eq; simp

/-- Integer arithmetic of an element, wrapped as the type says. -/
theorem arith_int {ty : Nat} (h : ty < 3) {f : Fx} (hf : f.ty = ty) {op : Int → Int → Int} {flt} {g32 : BitVec 32 → BitVec 32 → BitVec 32} {g64 : Word → Word → Word}
   (h32 : ∀ i j : Int, BitVec.ofInt 32 (op i j) = g32 (BitVec.ofInt 32 i) (BitVec.ofInt 32 j)) (h64 : ∀ i j : Int, BitVec.ofInt 64 (op i j) = g64 (BitVec.ofInt 64 i) (BitVec.ofInt 64 j)) :
   writeTy f.ty (arith op flt f f.opA f.opB) = if ty = 0 then (g32 (f.rawA.setWidth 32) (f.rawB.setWidth 32)).signExtend 64 else if ty = 1 then (g32 (f.rawA.setWidth 32) (f.rawB.setWidth 32)).setWidth 64 else g64 f.rawA f.rawB := by
  unfold arith
  rw [hf, show isInt ty = true from by simpa [isInt] using h, if_pos rfl]
  unfold Fx.opA Fx.opB
  rw [hf]
  refine write_int h ?_ ?_
  · intro h2
    rw [intOf_eq h, intOf_eq h, h32]
    have e : ty = 0 ∨ ty = 1 := by omega
    rcases e with rfl | rfl
    · rw [if_pos rfl, if_pos rfl, BitVec.ofInt_toInt, BitVec.ofInt_toInt]
    · rw [if_neg (by decide), if_pos rfl, if_neg (by decide), if_pos rfl, ofInt_nat32, ofInt_nat32]
  · intro h2
    subst h2
    rw [intOf_eq (by decide), intOf_eq (by decide), h64]
    rw [if_neg (by decide), if_neg (by decide), if_neg (by decide), if_neg (by decide), BitVec.ofInt_toInt, BitVec.ofInt_toInt]

theorem write_same {ty : Nat} (h : ty < 3) (W : Word) : writeTy ty (readTy ty W.toNat) = if ty = 0 then (W.setWidth 32).signExtend 64 else if ty = 1 then (W.setWidth 32).setWidth 64 else W := by
  have e : ty = 0 ∨ ty = 1 ∨ ty = 2 := by omega
  rcases e with rfl | rfl | rfl
  · show (BitVec.ofNat 32 (W.toNat % 2 ^ 32)).signExtend 64 = (W.setWidth 32).signExtend 64
    congr 1
    apply BitVec.eq_of_toNat_eq; simp
  · show BitVec.ofNat 64 (W.toNat % 2 ^ 32 % 2 ^ 32) = (W.setWidth 32).setWidth 64
    apply BitVec.eq_of_toNat_eq; simp
  · show BitVec.ofNat 64 (W.toNat % 2 ^ 64 % 2 ^ 64) = W
    apply BitVec.eq_of_toNat_eq; simp; exact W.isLt

theorem write_bits {ty : Nat} (h : ty < 3) {c : Nat} {u : BitVec 32} {v : Word} (hu : ty ≠ 2 → BitVec.ofNat 32 c = u) (hv : ty = 2 → BitVec.ofNat 64 c = v) :
   writeTy ty c = if ty = 0 then u.signExtend 64 else if ty = 1 then u.setWidth 64 else v := by
  have e : ty = 0 ∨ ty = 1 ∨ ty = 2 := by omega
  rcases e with rfl | rfl | rfl
  · rw [if_pos rfl, ← hu (by decide)]; rfl
  · rw [if_neg (by decide), if_pos rfl, ← hu (by decide)]
    show BitVec.ofNat 64 (c % 2 ^ 32) = _
    apply BitVec.eq_of_toNat_eq; simp
  · rw [if_neg (by decide), if_neg (by decide), ← hv rfl]
    show BitVec.ofNat 64 (c % 2 ^ 64) = _
    apply BitVec.eq_of_toNat_eq; simp

theorem lt_int {ty : Nat} (h : ty < 3) (V W : Word) : decide (intOf ty (readTy ty V.toNat) < intOf ty (readTy ty W.toNat)) =
    if ty = 0 then (V.setWidth 32).slt (W.setWidth 32) else if ty = 1 then (V.setWidth 32).ult (W.setWidth 32) else V.slt W := by
  rw [intOf_eq h, intOf_eq h]
  have e : ty = 0 ∨ ty = 1 ∨ ty = 2 := by omega
  rcases e with rfl | rfl | rfl
  · simp [BitVec.slt]
  · simp [BitVec.ult]; omega
  · simp [BitVec.slt]

theorem eq_int {ty : Nat} (h : ty < 3) (V W : Word) : (intOf ty (readTy ty V.toNat) == intOf ty (readTy ty W.toNat)) = decide (V.toNat % 2 ^ widthOf ty = W.toNat % 2 ^ widthOf ty) := by
  rw [Bool.eq_iff_iff, beq_iff_eq, decide_eq_true_eq, intOf_eq h, intOf_eq h]
  have e : ty = 0 ∨ ty = 1 ∨ ty = 2 := by omega
  rcases e with rfl | rfl | rfl
  · rw [if_pos rfl, if_pos rfl, BitVec.toInt_inj, ← BitVec.toNat_inj]; simp [widthOf]
  · rw [if_neg (by decide), if_pos rfl, if_neg (by decide), if_pos rfl]; simp [widthOf]; omega
  · rw [if_neg (by decide), if_neg (by decide), if_neg (by decide), if_neg (by decide), BitVec.toInt_inj, ← BitVec.toNat_inj]; simp [widthOf]
    rw [Nat.mod_eq_of_lt V.isLt, Nat.mod_eq_of_lt W.isLt]

theorem advance_takes (rm : BitVec 3) (x : Elem) : x.advance (takesOf rm) = if decide (rm = 4) = true then { x with lfsr := lfsrNext x.lfsr } else x := by
  unfold takesOf
  by_cases h : rm = 4
  · rw [if_pos h, if_pos (by simpa using h)]; rfl
  · rw [if_neg h, if_neg (by simpa using h)]; rfl

/-- A plain firing that fails: poison on its targets, and a record. -/
theorem fails_ok {i : Instr} {s : State} {w : EW} {n : Nat} {m : Match} {op : Fx → Fire} {pois} (h : Fireable s n m) (hp : m.poison = none)
    (he : exec i s = fires s (s.firePlain w op pois)) {c : Nat} {t : List Nat} (ho : (op (s.fx w m)).cause = some (c, t)) {took : Elem → Elem}
    (hk : ∀ x : Elem, x.advance (op (s.fx w m)).takes = took x) : FailsTo i s w n m c t took := by
  show ∀ hr, exec i s = _
  have hk := funext hk
  let l := poisonOuts s w m ((s.fx w m).lowest c) t
  show HasRoom s w l → exec i s = .next (fired s w n l took)
  intro hr
  rw [he]
  have : s.firePlain w op pois = some (fired s w n l took) := by
    unfold State.firePlain
    refine fireNode_first h _ ?_
    dsimp only
    rw [hp]
    dsimp only
    unfold Fx.resolve
    rw [ho]
    dsimp only
    rw [show Fx.failOuts (s.fx w m) ((s.fx w m).lowest c) t = l from rfl]
    unfold State.emitFits
    rw [if_pos (show (s.core s.cur.p).fits (List.map (fun o => target w o.fst) l) = true from hr), hk]
    rfl
  rw [this]
  rfl

theorem arm_eq (b : Word) : (armOf b).1 = if b = 0 then 1 else 0 := by
  unfold armOf
  by_cases h : b = 0
  · rw [if_pos h, if_neg (by simpa using h)]
  · rw [if_neg h, if_pos (by simpa using h)]

theorem arm_bit (b : Word) : (armOf b).2 = decide (b ≠ 0) := by
  unfold armOf
  by_cases h : b = 0
  · rw [if_neg (by simpa using h)]; simp [h]
  · rw [if_pos (by simpa using h)]; simp; exact h

/-- Poison tokens with the tag operation applied where it may be. -/
theorem tagAll_poison {f : Fx} (v : Word) : ∀ l : List (Nat × BitVec 11), f.tagAll (l.map fun o => (o.1, { f.token v with p := true, path := o.2 })) =
    .ok (l.map fun o => (o.1, match tagOp f.w.tg f.rawB f.m.tag.time o.2 with
      | .ok (t, q) => if tgtV (target f.w o.1) then { f.token v with p := true, time := t, path := q } else { f.token v with p := true, path := o.2 }
      | .error _ => { f.token v with p := true, path := o.2 })) := by
  intro l
  induction l with
  | nil => rfl
  | cons a r ih =>
    rw [List.map_cons, List.map_cons]
    unfold Fx.tagAll
    rw [ih]
    unfold Fx.tagOn Fx.tagged
    cases tgtV (target f.w a.1) with
    | false => rw [if_neg (by decide)]; cases e : tagOp f.w.tg f.rawB f.m.tag.time a.2 <;> rfl
    | true =>
      rw [if_pos rfl]
      cases e : tagOp f.w.tg f.rawB f.m.tag.time a.2 with
      | ok x =>
        rw [show tagOp f.w.tg f.rawB ({ f.token v with p := true, path := a.2 } : Token).time ({ f.token v with p := true, path := a.2 } : Token).path = .ok x from e]
        rfl
      | error c =>
        rw [show tagOp f.w.tg f.rawB ({ f.token v with p := true, path := a.2 } : Token).time ({ f.token v with p := true, path := a.2 } : Token).path = .error c from e]
        rfl

theorem modElem_modElem (s : State) (p e : Nat) (f g : Elem → Elem) : (s.modElem p e f).modElem p e g = s.modElem p e fun x => g (f x) := by
  unfold State.modElem State.setElem State.elem
  rw [modCore_modCore]
  rw [core_modCore_same]
  dsimp only
  rw [get_put_same]
  unfold State.modCore
  dsimp only
  rw [put_put]

theorem consume_id (s : State) (n : Nat) : (s.modElem s.cur.p s.cur.e id).consume n = s.consume n := by
  unfold State.consume
  rw [show (s.modElem s.cur.p s.cur.e id).cur = s.cur from rfl, modElem_modElem]
  rfl

/-- A firing with a poison operand passes the poison on. -/
theorem poison_case {i : Instr} {s : State} {w : EW} {n : Nat} {m : Match} {v : Word} {op} {pois} {targets : List (Nat × BitVec 11)} (h : Fireable s n m) (hp : m.poison = some v)
    (he : exec i s = fires s (s.firePlain w op pois)) (hq : pois (s.fx w m) v = targets.map fun o => (o.1, { (s.fx w m).token v with p := true, path := o.2 })) :
    let f := s.fx w m
    let k := { f.token v with p := true }
    let l := targets.map fun o => (o.1, match tagOp w.tg f.rawB m.tag.time o.2 with
      | .ok (t, q) => if tgtV (target w o.1) then { k with time := t, path := q } else { k with path := o.2 }
      | .error _ => { k with path := o.2 })
    HasRoom s w l → exec i s = .next (fired s w n l id) := by
  intro f k l hr
  rw [he]
  have : s.firePlain w op pois = some (fired s w n l id) := by
    unfold State.firePlain
    refine fireNode_first h _ ?_
    dsimp only
    rw [hp]
    dsimp only
    rw [hq]
    have hl : (s.fx w m).resolvePoison (targets.map fun o => (o.1, { (s.fx w m).token v with p := true, path := o.2 })) = l := by
      unfold Fx.resolvePoison
      rw [tagAll_poison v targets]
      rfl
    rw [hl]
    unfold State.emitFits
    rw [if_pos (show (s.core s.cur.p).fits (List.map (fun o => target w o.fst) l) = true from hr)]
    unfold fired
    rw [consume_id]
  rw [this]
  rfl

theorem laneOf_eq (v : Vec) (l : Nat) : laneOf v l = v.toNat / 2 ^ (32 * l) % 2 ^ 32 := by
  unfold laneOf; simp [Nat.shiftRight_eq_div_pow]

theorem ofLanes_lane0 (x : Nat) (r : List Nat) : laneOf (ofLanes (x :: r)) 0 = x % 2 ^ 32 := by
  unfold laneOf ofLanes
  rw [show BitVec.extractLsb' (32 * 0) 32 (BitVec.ofNat 1024 (x % 2 ^ 32) ||| ofLanes r <<< 32) = BitVec.ofNat 32 x from ?_]
  · simp
  · ext j hj
    simp only [BitVec.getElem_extractLsb', BitVec.getLsbD_or, BitVec.getLsbD_shiftLeft, BitVec.getLsbD_ofNat]
    rw [show 32 * 0 + j = j by omega]
    simp only [show j < 32 from hj, show j < 1024 by omega, decide_true, Bool.true_and, Bool.not_true, Bool.false_and, Bool.or_false]
    rw [Nat.testBit_mod_two_pow]
    simp [hj, ← BitVec.getLsbD_eq_getElem, BitVec.getLsbD_ofNat]

theorem ofLanes_succ (x : Nat) (r : List Nat) {l : Nat} (hl : l + 1 < 32) : laneOf (ofLanes (x :: r)) (l + 1) = laneOf (ofLanes r) l := by
  unfold laneOf
  rw [ofLanes]
  congr 1
  ext j hj
  simp only [BitVec.getElem_extractLsb', BitVec.getLsbD_or, BitVec.getLsbD_shiftLeft, BitVec.getLsbD_ofNat]
  rw [show 32 * (l + 1) + j - 32 = 32 * l + j by omega]
  rw [Nat.testBit_mod_two_pow]
  have h1 : ¬ (32 * (l + 1) + j < 32) := by omega
  have h2 : 32 * (l + 1) + j < 1024 := by omega
  simp [h1, h2]

theorem ofLanes_get : ∀ (L : List Nat) (l : Nat) (x : Nat), L.length ≤ 32 → L[l]? = some x → laneOf (ofLanes L) l = x % 2 ^ 32 := by
  intro L
  induction L with
  | nil => intro l x _ h; simp at h
  | cons a r ih =>
    intro l x hlen h
    cases l with
    | zero => simp at h; subst h; exact ofLanes_lane0 ..
    | succ l =>
      simp at h
      have hl : l < r.length := by
        rcases Nat.lt_or_ge l r.length with g | g
        · exact g
        · rw [List.getElem?_eq_none g] at h; exact absurd h (by simp)
      rw [ofLanes_succ _ _ (by simp at hlen; omega)]
      exact ih l x (by simp at hlen; omega) h

theorem packLane_value (ty : Nat) : ∀ (L : List Nat) (j x : Nat), L[j]? = some x → laneValue ty (packLane ty L) j = x % 2 ^ widthOf ty := by
  intro L
  induction L with
  | nil => intro j x h; simp at h
  | cons a r ih =>
    intro j x h
    unfold laneValue
    rw [Nat.shiftRight_eq_div_pow]
    unfold packLane
    have hp : 0 < 2 ^ widthOf ty := Nat.pow_pos (by decide)
    cases j with
    | zero =>
      simp at h; subst h
      rw [Nat.mul_zero, Nat.pow_zero, Nat.div_one, Nat.add_mul_mod_self_left, Nat.mod_mod]
    | succ j =>
      simp at h
      rw [Nat.mul_add, Nat.mul_one, Nat.add_comm (widthOf ty * j), Nat.pow_add, ← Nat.div_div_eq_div_mul]
      rw [Nat.add_mul_div_left _ _ hp, Nat.div_eq_of_lt (Nat.mod_lt _ hp), Nat.zero_add]
      have := ih j x h
      unfold laneValue at this
      rw [Nat.shiftRight_eq_div_pow] at this
      exact this

theorem packLane_lt (ty : Nat) : ∀ L : List Nat, packLane ty L < 2 ^ (widthOf ty * L.length) := by
  intro L
  induction L with
  | nil => show 0 < _; simp
  | cons a r ih =>
    unfold packLane
    rw [List.length_cons, Nat.mul_add, Nat.mul_one, Nat.pow_add]
    have hp : 0 < 2 ^ widthOf ty := Nat.pow_pos (by decide)
    have h1 := Nat.mod_lt a hp
    calc a % 2 ^ widthOf ty + 2 ^ widthOf ty * packLane ty r < 2 ^ widthOf ty + 2 ^ widthOf ty * packLane ty r := by omega
      _ = 2 ^ widthOf ty * (packLane ty r + 1) := by rw [Nat.mul_add, Nat.mul_one]; omega
      _ ≤ 2 ^ widthOf ty * 2 ^ (widthOf ty * r.length) := Nat.mul_le_mul_left _ ih
      _ = _ := by rw [Nat.mul_comm]

/-- A lane built value by value. -/
theorem built_value (ty : Nat) (h8 : ty < 8) (h2 : ty ≠ 2) (g : Nat → Nat → Nat) (l j : Nat) (hl : l < 32) (hj : j < perLane ty) :
    laneValue ty (laneOf (ofLanes ((range 0 32).map fun l => packLane ty ((range 0 (perLane ty)).map fun j => g l j))) l) j = g l j % 2 ^ widthOf ty := by
  rw [ofLanes_get _ l (packLane ty ((range 0 (perLane ty)).map fun j => g l j)) (by rw [List.length_map, range_len] <;> omega) (by
    rw [List.getElem?_map, range_get 32 0 l hl] <;> simp)]
  have hlt := packLane_lt ty ((range 0 (perLane ty)).map fun j => g l j)
  rw [List.length_map, range_len] at hlt
  have hw : widthOf ty * perLane ty = 32 := by
    have : ty = 0 ∨ ty = 1 ∨ ty = 3 ∨ ty = 4 ∨ ty = 5 ∨ ty = 6 ∨ ty = 7 := by omega
    rcases this with e | e | e | e | e | e | e <;> (rw [e]; decide)
  rw [hw] at hlt
  rw [Nat.mod_eq_of_lt hlt]
  exact packLane_value ty _ j _ (by rw [List.getElem?_map, range_get _ 0 j hj]; simp)

theorem built32 (ty : Nat) (hw : widthOf ty = 32) (g : Nat → Nat) (l j : Nat) (hl : l < 32) (hj : j < perLane ty) :
    laneValue ty (laneOf (ofLanes ((range 0 32).map g)) l) j = g l % 2 ^ widthOf ty := by
  rw [ofLanes_get _ l (g l) (by rw [List.length_map, range_len] <;> omega) (by rw [List.getElem?_map, range_get 32 0 l hl] <;> simp)]
  have : j = 0 := by unfold perLane at hj; rw [hw] at hj; simp at hj; omega
  subst this
  unfold laneValue
  rw [hw]; simp

/-- A reference code that names a register of the type. -/
def namesReg (f : Fx) (code : Nat) : Prop := code < 8 ∨ (code < 12 ∧ f.ty = 3)

theorem regOk_iff (f : Fx) (code : Nat) : regOk f.ty code = true ↔ namesReg f code := by
  unfold regOk namesReg
  simp

/-- The operand names the register of a code. -/
def refersTo (f : Fx) (sel idx : BitVec 3) (tok : Option Token) (code : Nat) : Prop := (sel = 4 ∧ code = idx.toNat) ∨ (sel = 5 ∧ code = 8 + idx.toNat ∧ namesReg f code) ∨
      (sel = 0 ∧ ∃ t, tok = some t ∧ code = t.value.toNat ∧ namesReg f code)

theorem vector_names (f : Fx) {ty : Nat} {sel idx : BitVec 3} {tok : Option Token} {code : Nat} (h : refersTo f sel idx tok code) : f.vector ty sel idx tok = .reg code := by
  unfold Fx.vector
  rcases h with ⟨rfl, rfl⟩ | ⟨rfl, rfl, h⟩ | ⟨rfl, t, rfl, rfl, h⟩
  · rfl
  · show (if regOk f.ty (8 + idx.toNat) = true then _ else _) = _
    rw [if_pos ((regOk_iff f _).2 h)]
  · show (if decide (16 ≤ t.value.toNat) || !regOk f.ty t.value.toNat then VOperand.bad else VOperand.reg t.value.toNat) = _
    rw [(regOk_iff f _).2 h, if_neg]
    have : t.value.toNat < 12 := by rcases h with h | h; omega; exact h.1
    simp; omega

/-- The operand names no register of its type. -/
def refersToNone (f : Fx) (sel idx : BitVec 3) (tok : Option Token) : Prop := (sel = 5 ∧ ¬ namesReg f (8 + idx.toNat)) ∨ (sel = 0 ∧ ∃ t, tok = some t ∧ ¬ namesReg f t.value.toNat)

theorem vector_bad (f : Fx) {ty : Nat} {sel idx : BitVec 3} {tok : Option Token} (h : refersToNone f sel idx tok) : f.vector ty sel idx tok = .bad := by
  unfold Fx.vector
  rcases h with ⟨rfl, h⟩ | ⟨rfl, t, rfl, h⟩
  · show (if regOk f.ty (8 + idx.toNat) = true then _ else _) = _
    rw [if_neg (fun z => h ((regOk_iff f _).1 z))]
  · show (if decide (16 ≤ t.value.toNat) || !regOk f.ty t.value.toNat then VOperand.bad else VOperand.reg t.value.toNat) = _
    rw [if_pos]
    have : regOk f.ty t.value.toNat = false := by rw [← Bool.not_eq_true]; exact fun z => h ((regOk_iff f _).1 z)
    rw [this]; simp

theorem vector_scalar (f : Fx) {ty : Nat} {sel idx : BitVec 3} {tok : Option Token} (h0 : sel ≠ 0) (h4 : sel ≠ 4) (h5 : sel ≠ 5) :
    f.vector ty sel idx tok = .scalar (broadcast ty (readTy ty (f.source ty sel idx tok).toNat)) := by
  unfold Fx.vector
  have := (by decide : ∀ x : BitVec 3, x = 0 ∨ x = 1 ∨ x = 2 ∨ x = 3 ∨ x = 4 ∨ x = 5 ∨ x = 6 ∨ x = 7) sel
  rcases this with rfl | rfl | rfl | rfl | rfl | rfl | rfl | rfl
  · exact absurd rfl h0
  · rfl
  · rfl
  · rfl
  · exact absurd rfl h4
  · exact absurd rfl h5
  · rfl
  · rfl

theorem setVreg_lfsr (x : Elem) (code : Nat) (v : Vec) : (x.setVreg code v).lfsr = x.lfsr := by unfold Elem.setVreg; split <;> rfl

/-- A vector firing writes its register and sends the code. -/
theorem vec_writes {i : Instr} {s : State} {w : EW} {n : Nat} {m : Match} {op : Fx → Fire} {pois} {code : Nat} {flush : Bool} {takes : Nat} {bad : Bool} {g : Nat → Vec} (h : Fireable s n m) (hp : m.poison = none)
    (he : exec i s = fires s (s.firePlain w op pois)) (ho : op (s.fx w m) = (s.fx w m).vecResult flush takes bad g) (hb : bad = false)
    (hn : refersTo (s.fx w m) w.sa w.ai m.a code) (regs : Elem → Elem) (hq : ∀ z : Elem, ((z.setVreg code (if flush && m.flag Token.l then 0 else g code)).advance takes) = regs z) :
    FiresTo i s w n m [(0, (s.fx w m).token (BitVec.ofNat 64 code)), (1, (s.fx w m).token (BitVec.ofNat 64 code))] regs := by
  refine plain_fires h hp he (takes := takes) (regs := (s.fx w m).writeVec flush code (g code)) ?_ (fun x => setVreg_lfsr x _ _) hq
  rw [ho]
  unfold Fx.vecResult
  rw [show (s.fx w m).vecA = .reg code from vector_names _ hn]
  dsimp only
  rw [hb]
  rfl

/-- A vector firing with a reference that names no register fails with 0x25. -/
theorem vec_fails {i : Instr} {s : State} {w : EW} {n : Nat} {m : Match} {op : Fx → Fire} {pois} {flush : Bool} {takes : Nat} {bad : Bool} {g : Nat → Vec} (h : Fireable s n m) (hp : m.poison = none)
    (he : exec i s = fires s (s.firePlain w op pois)) (ho : op (s.fx w m) = (s.fx w m).vecResult flush takes bad g)
    (hb : refersToNone (s.fx w m) w.sa w.ai m.a ∨ bad = true) {took : Elem → Elem} (hk : ∀ x : Elem, x.advance takes = took x) : FailsTo i s w n m 0x25 [0, 1] took := by
  have hf : (op (s.fx w m)).cause = some (0x25, [0, 1]) ∧ (op (s.fx w m)).takes = takes := ?_
  · exact fails_ok h hp he hf.1 (by rw [hf.2]; exact hk)
  rw [ho]
  unfold Fx.vecResult
  rcases hb with hb | hb
  · rw [show (s.fx w m).vecA = .bad from vector_bad _ hb]; exact ⟨rfl, rfl⟩
  · rw [hb]
    split <;> exact ⟨rfl, rfl⟩

theorem lanes_take (rm : BitVec 3) (z : Elem) : z.advance (laneTakes rm) = if decide (rm = 4) = true then { z with lfsr := (lfsrTakes 32 z.lfsr).2 } else z := by
  unfold laneTakes
  by_cases h : rm = 4
  · rw [if_pos h, if_pos (by simpa using h)]; rfl
  · rw [if_neg h, if_neg (by simpa using h)]; rfl

theorem operandB_ok (f : Fx) (t : Nat) (ht : t < 8) (h2 : t ≠ 2) {g : Nat → Nat → Nat}
   (h : (∃ c, refersTo f f.w.sb f.w.bi f.m.b c ∧ ∀ l j, g l j = laneValue t (laneOf (f.x.vreg c) l) j) ∨
      (f.w.sb ≠ 0 ∧ f.w.sb ≠ 4 ∧ f.w.sb ≠ 5 ∧ ∀ l j, g l j = (f.source t f.w.sb f.w.bi f.m.b).toNat % 2 ^ widthOf t)) :
   (f.vecB t == .bad) = false ∧ ∀ l j, l < 32 → j < perLane t → laneValue t (laneOf ((f.vecB t).value f.x) l) j = g l j := by
  rcases h with ⟨c, h1, h3⟩ | ⟨h0, h4, h5, h3⟩
  · rw [show f.vecB t = .reg c from vector_names f h1]
    refine ⟨rfl, fun l j _ _ => ?_⟩
    rw [h3]; rfl
  · rw [show f.vecB t = _ from vector_scalar f h0 h4 h5]
    refine ⟨rfl, fun l j hl hj => ?_⟩
    rw [h3]
    show laneValue t (laneOf (broadcast t _) l) j = _
    unfold broadcast
    rw [built_value t ht h2 (fun _ _ => _ % _) l j hl hj, Nat.mod_mod]
    unfold readTy; rw [Nat.mod_mod]

/-- A lanewise firing in each lane. -/
theorem lane_case {i : Instr} {s : State} {w : EW} {n : Nat} {m : Match} {code : Nat} {takes : Nat} {sr : Bool} {op : Fx → Nat → Nat → Nat → Nat → Nat} {g q : Nat → Nat → Nat} (h : Fireable s n m) (hp : m.poison = none)
    (he : exec i s = lanewise w takes op s) (hn : refersTo (s.fx w m) w.sa w.ai m.a code) (h2 : w.ty.toNat ≠ 2)
    (hB : (∃ c, refersTo (s.fx w m) w.sb w.bi m.b c ∧ ∀ l j, g l j = laneValue w.ty.toNat (laneOf ((s.fx w m).x.vreg c) l) j) ∨
      (w.sb ≠ 0 ∧ w.sb ≠ 4 ∧ w.sb ≠ 5 ∧ ∀ l j, g l j = ((s.fx w m).source w.ty.toNat w.sb w.bi m.b).toNat % 2 ^ widthOf w.ty.toNat))
    (ht : ∀ z : Elem, z.advance takes = if sr = true then { z with lfsr := (lfsrTakes 32 z.lfsr).2 } else z)
    (hq : ∀ l j, l < 32 → op (s.fx w m) l ((nth (s.fx w m).lanes l).getD 0) (laneValue w.ty.toNat (laneOf ((s.fx w m).x.vreg code) l) j) (g l j) = q l j) :
    ∃ v : Vec, FiresTo i s w n m [(0, (s.fx w m).token (BitVec.ofNat 64 code)), (1, (s.fx w m).token (BitVec.ofNat 64 code))]
        (fun z => (fun (sr : Bool) (z : Elem) => if sr then { z with lfsr := (lfsrTakes 32 z.lfsr).2 } else z) sr (z.setVreg code (if true && m.flag Token.l then 0 else v))) ∧
      ∀ l j, l < 32 → j < 32 / min 32 (widthOf w.ty.toNat) → LaneIs v w.ty.toNat l j (q l j % 2 ^ widthOf w.ty.toNat) := by
  have h8 : w.ty.toNat < 8 := w.ty.isLt
  obtain ⟨b1, b2⟩ := operandB_ok (s.fx w m) w.ty.toNat h8 h2 hB
  refine ⟨_, vec_writes h hp he (takes := takes) (flush := true) rfl b1 hn _ (fun z => ht _), fun l j hl hj => ?_⟩
  unfold LaneIs
  unfold laneMap
  rw [show (s.fx w m).ty = w.ty.toNat from rfl]
  rw [built_value w.ty.toNat h8 h2 (fun l j => op (s.fx w m) l ((nth (s.fx w m).lanes l).getD 0) (laneValue w.ty.toNat (laneOf ((s.fx w m).x.vreg code) l) j) (laneValue w.ty.toNat (laneOf (((s.fx w m).vecB w.ty.toNat).value (s.fx w m).x) l) j)) l j hl hj]
  rw [b2 l j hl hj, hq l j hl]

theorem lane_int {a b : Nat} {op : Int → Int → Int} {g : BitVec 32 → BitVec 32 → BitVec 32} (h : ∀ i j : Int, BitVec.ofInt 32 (op i j) = g (BitVec.ofInt 32 i) (BitVec.ofInt 32 j)) :
   wrapInt 0 (op (intOf 0 a) (intOf 0 b)) = (g (BitVec.ofNat 32 a) (BitVec.ofNat 32 b)).toNat := by
  unfold wrapInt intOf
  have := h (BitVec.ofNat 32 a).toInt (BitVec.ofNat 32 b).toInt
  rw [BitVec.ofInt_toInt, BitVec.ofInt_toInt] at this
  rw [← this, BitVec.toNat_ofInt]
  rfl

/-- The one node firing, when it is free to fire. -/
theorem fireFirst_one {s u : State} {w : EW} {q : NodeFire} (h : u.fireFree w (some q.opB) q.outs (fun s => s.setMyNode q.after) = some s) : u.fireFirst w [q] = some s := by
  unfold State.fireFirst; rw [h]

/-- A node firing with room sends its tokens, or poison where the tag operation fails, and leaves its node. -/
theorem free_ok {u : State} {w : EW} {j : Nat} {k : Token} {b : Option Word} {r l' : List (Nat × Token)} {node : Option Node}
    (h1 : u.mayFire u.cur.p u.cur.e = true) (h2 : (u.elem u.cur.p u.cur.e).slotMay u.cur.slot = true)
    (h3 : ∀ q, (u.fx w ⟨u.cur.slot, some k, b.map fun v => { Token.blank 0 with value := v }⟩).tagAll ((j, k) :: r) = q → (match q with
      | .ok q => q
      | .error c => [0, 1].map fun j => (j, { k with value := poisonValue c u.cur.p u.cur.e u.cur.slot, p := true })) = l') (h4 : HasRoom u w l') :
    u.fireFree w b ((j, k) :: r) (fun s => s.setMyNode node) =
      some ((u.modElem u.cur.p u.cur.e fun x => { x.setNode u.cur.slot node with fired := true }).emitAll u.cur.p u.cur.e u.cur.slot w l') := by
  unfold State.fireFree
  rw [show (((j, k) :: r).head?.map Prod.snd).getD (Token.blank 0) = k from rfl]
  dsimp only
  have h3 := h3 _ rfl
  revert h3
  generalize (u.fx w ⟨u.cur.slot, some k, b.map fun v => { Token.blank 0 with value := v }⟩).tagAll ((j, k) :: r) = q
  intro h3
  rw [h1, h2, if_pos (by decide)]
  have e : (match q with
    | .ok q => q
    | .error c => [(0, { k with value := poisonValue c u.cur.p u.cur.e u.cur.slot, p := true }), (1, { k with value := poisonValue c u.cur.p u.cur.e u.cur.slot, p := true })]) = l' := by
    cases q <;> exact h3
  cases q <;>
  · dsimp only at e ⊢
    rw [e]
    unfold State.emitFits
    rw [if_pos (show _ = true from h4)]
    unfold State.setMyNode
    dsimp only
    rw [modElem_modElem]

/-- The one node firing that a slot may make now. -/
theorem freeTo_one {s u : State} {i : Instr} {w : EW} {k : Token} {j : Nat} {node : Option Node} {key : Nat} {b : Word} (he : exec i s = fires s (u.fireFirst w [⟨key, b, [(j, k)], node⟩])) :
    FreeTo i s u w k (some b) [(j, k)] node := by
  unfold FreeTo
  intro f emits h1 h2
  have key : ∀ l', (∀ q, f.tagAll [(j, k)] = q → (match q with
      | .ok q => q
      | .error c => [0, 1].map fun j => (j, { k with value := poisonValue c u.cur.p u.cur.e u.cur.slot, p := true })) = l') → emits l' := by
    intro l' h3 h4
    rw [he, fireFirst_one (free_ok h1 h2 h3 h4)]
    rfl
  refine ⟨fun l' h3 => key _ ?_, fun c h3 => key _ ?_⟩
  · intro q hq; rw [← hq, h3]
  · intro q hq; rw [← hq, h3]

theorem freeTo_index {s : State} {p e slot : Nat} {k : Token} {j : Nat} {node : Option Node} {key : Nat} {b : Word}
   (h : (s.elem p e).counterFires p e slot = [⟨key, b, [(j, k)], node⟩]) :
   FreeTo (.counterIndexEmit p e slot) s (s.atSlot p e slot) (s.slotWord p e slot) k (some b) [(j, k)] node := by
  refine freeTo_one (key := key) ?_
  show fires s ((s.atSlot p e slot).fireFirst (s.slotWord p e slot) ((s.elem p e).counterFires p e slot)) = _
  rw [h]

theorem consume_emits {s : State} {w : EW} {n : Nat} {l : List (Nat × Token)} (h : HasRoom s w l) :
    s.emitFits w l (fun s => s.consume n) = some ((s.consume n).emitAll s.cur.p s.cur.e s.cur.slot w l) := by
  unfold State.emitFits
  rw [if_pos (show _ = true from h)]

theorem find_empty {x : Elem} {slot : Nat} {b : Word} {run : Option CtrRun} {bad : List Token}
   (h : Map.find x.nodes slot = some (.ctrb b run bad) ∨ (Map.find x.nodes slot = none ∧ b = 0 ∧ run = none ∧ bad = [])) : x.ctrb slot = (b, run, bad) := by
  unfold Elem.ctrb
  rcases h with h | ⟨h, rfl, rfl, rfl⟩ <;> rw [h]

theorem freeTo_copy {s : State} {i : Instr} {p e slot : Nat} {w : EW} {k : Token} {node : Option Node} {key : Nat} {b : Word}
   (he : exec i s = fires s (s.emitCopy w p e slot))
   (h : (s.elem p e).rptFire p e slot = some ⟨key, b, [(0, k)], node⟩) :
   FreeTo i s (s.atSlot p e slot) w k (some b) [(0, k)] node := by
  refine freeTo_one (key := key) ?_
  rw [he]
  unfold State.emitCopy
  rw [h]

theorem refill_vcn (fuel : Nat) : ∀ (c : Core) (e : Nat), (c.refill fuel e).vcnNum = c.vcnNum := by
  induction fuel with
  | zero => intro c e; rfl
  | succ f ih =>
    intro c e
    unfold Core.refill
    dsimp only
    split
    · rfl
    · split
      · rfl
      · split
        · rfl
        · rw [ih]; rfl

theorem consume_vcn (s : State) (n : Nat) : ((s.consume n).core s.cur.p).vcnNum = (s.core s.cur.p).vcnNum := by
  unfold State.consume
  rw [core_modCore_same, refill_vcn]
  unfold State.modElem State.setElem
  rw [core_modCore_same]; rfl

/-- A memory-port node's match: accepted, failed or waiting. -/
theorem port_cases {s : State} {w : EW} {n : Nat} {m : Match} (h : Fireable s n m) {i : Instr} {va : Fx → Word} {data cmp : Fx → Nat} {pre : Fx → Option Nat} 
   (he : exec i s = portNode w va data cmp pre s) {op size : Nat} {ak : AK} (hop : (s.elem s.cur.p s.cur.e).op s.cur.slot = op)
   (hsize : portBytes op w.ty.toNat = size) (hk : portKind op = ak) (hat : (0x120 ≤ op) ↔ ak = .atomic) :
    let p := s.cur.p
    let e := s.cur.e
    let slot := s.cur.slot
    let f := s.fx w m
    let tagged := tagOp w.tg f.rawB m.tag.time m.tag.path
    let acc : PortAcc := ⟨slot, 0, (va f).toNat, size, [], data f, cmp f, (s.core p).ph, f.token 0, match tagged with | .ok r => r.1 | .error _ => 0,
        match tagged with | .ok r => r.2 | .error _ => 0, match tagged with | .ok _ => none | .error c => some c⟩
    let checks := s.checkSpan p (va f).toNat size ak (if ak = .atomic then size else 1) (if ak = .atomic then immOnly else anyClass)
    (m.poison.isSome = true → (s.core p).eqRoom = true → exec i s = .next ((s.consume n).stopPoison p e slot m.poisonTok.1 m.poisonTok.2)) ∧
      (m.poison = none → s.portRoom p e = true → 
        (∀ c, pre f = some c → exec i s = .next ((s.consume n).owePortFault p e w acc c)) ∧
        (pre f = none → 
        (∀ u l, checks = (u, .ok l) → exec i s = .next ((u.consume n).modPort p (e / 8) fun q => { q with accs := q.accs ++ [{ acc with parts := l }] })) ∧
        (∀ u y hh, checks = (u, .bad 0x10 y hh) →
          exec i s = .next ((u.consume n).holdPort p e acc (if m.a.isSome then 0 else 1) y hh)) ∧
        (∀ u c y hh, c ≠ 0x10 → checks = (u, .bad c y hh) → exec i s = .next ((u.consume n).owePortFault p e w acc c)))) := by
  intro p e slot f tagged acc checks
  have key : ∀ u, (if m.poison.isSome then
      (if (s.core p).eqRoom then some ((s.consume n).stopPoison p e slot m.poisonTok.1 m.poisonTok.2) else none)
    else if !s.portRoom p e then none
    else match pre f with
      | some c => some ((s.consume n).owePortFault p e w acc c)
      | none =>
        match checks with
        | (_, .stall) => none
        | (s, .bad 0x10 fva h) =>
          some ((s.consume n).holdPort p e acc (if m.a.isSome then 0 else 1) fva h)
        | (s, .bad c _ _) => some ((s.consume n).owePortFault p e w acc c)
        | (s, .ok l) => some ((s.consume n).modPort p (e / 8) fun x => { x with accs := x.accs ++ [{ acc with parts := l }] })) = some u → exec i s = .next u := by
    intro u hu
    rw [he]
    show fires s (s.fireNode _) = _
    rw [fireNode_first h _ (u := u)]
    · rfl
    · refine Eq.trans ?_ hu
      subst hsize hk
      rw [show checks = s.portCheck p (va f).toNat (portBytes op w.ty.toNat) op from by
        unfold State.portCheck
        show s.checkSpan _ _ _ _ (if portKind op = .atomic then _ else _) (if portKind op = .atomic then _ else _) = _
        simp only [hat]]
      subst hop
      rfl
  refine ⟨fun h1 h2 => key _ (by rw [if_pos h1, if_pos h2]), fun h1 h2 => ⟨fun c h3 => key _ ?_, fun h3 => ⟨fun u l h4 => key _ ?_, fun u y hh h4 => key _ ?_, fun u c y hh h5 h4 => key _ ?_⟩⟩⟩
  · rw [h1, if_neg (by decide), h2, if_neg (by decide), h3]
  · rw [h1, if_neg (by decide), h2, if_neg (by decide), h3]; dsimp only; rw [h4]
  · rw [h1, if_neg (by decide), h2, if_neg (by decide), h3]; dsimp only; rw [h4]; rfl
  · rw [h1, if_neg (by decide), h2, if_neg (by decide), h3]; dsimp only; rw [h4]; split
    · next heq => injection heq with _ hq; exact absurd hq (by simp)
    · next heq => injection heq with _ hq; injection hq with hq; exact absurd hq h5
    · next heq => cases heq; rfl
    · next heq => injection heq with _ hq; exact absurd hq (by simp)

/-- What a port access that reads does. -/
theorem do_load {s : State} {p op ty : Nat} {a : PortAcc} (h : op = 0x110 ∨ op = 0x111 ∨ op = 0x113) : s.portDo p op ty a = s.loadParts p a.parts := by
  unfold State.portDo
  rw [if_neg (by rcases h with h | h | h <;> rw [h] <;> decide), if_neg (by rcases h with h | h | h <;> rw [h] <;> decide)]
  split
  · next h2 => rw [if_neg (by rcases h with h | h | h <;> rw [h] <;> decide), h2]
  · rfl

/-- What a port access that writes does. -/
theorem do_store {s : State} {p op ty : Nat} {a : PortAcc} (h : op = 0x112 ∨ op = 0x114) : s.portDo p op ty a = s.storeParts p a.parts a.data := by
  unfold State.portDo
  rw [if_pos (by rcases h with h | h <;> rw [h] <;> decide)]

/-- What a read-combine-write access does. -/
theorem do_upd {s : State} {p op ty : Nat} {a : PortAcc} (h1 : 0x118 ≤ op) (h2 : op ≤ 0x11C) : s.portDo p op ty a = match s.loadParts p a.parts with
    | (s, .ok x) =>
        match s.storeParts p a.parts (updNew op ty x a.data) with
        | (s, .ok _) => (s, .ok x)
        | r => r
    | r => r := by
  unfold State.portDo
  rw [if_neg (by simp; omega), if_neg (by omega)]
  rcases s.loadParts p a.parts with ⟨u, g⟩
  cases g <;> first | rfl | (dsimp only; rw [if_pos h1]; done) | (dsimp only; rw [if_pos h1]; rfl)

/-- What an atomic access does. -/
theorem do_amo {s : State} {p op ty : Nat} {a : PortAcc} {acc : Acc} (h1 : 0x120 ≤ op) (h2 : a.parts = [acc]) : s.portDo p op ty a =
   match s.atHome p acc (.amo (BitVec.ofNat 3 (if op = 0x128 then 0 else op - 0x120)) (op == 0x128) a.n (BitVec.ofNat 64 a.data) (BitVec.ofNat 64 a.cmp)
          a.ph) with
      | none => (s, .stall)
      | some (s, r) => (s, match r.reply with | .value v _ => .ok v.toNat | _ => .poison) := by
  unfold State.portDo
  rw [if_neg (by simp; omega), if_pos h1, h2] <;> rfl

/-- A firing that sends tokens on its targets, with room. -/
theorem emit_case {s : State} {w : EW} {n : Nat} {m : Match} {i : Instr} {act : Nat → Match → Option State} {l l' : List (Nat × Token)} {k : State → State} (h : Fireable s n m)
    (he : exec i s = fires s (s.fireNode act)) (ha : act n m = s.emitFits w ((s.fx w m).resolve (Fire.emit l)).1 k) (ht : (s.fx w m).tagAll l = .ok l') (hr : HasRoom s w l') :
    exec i s = .next ((k s).emitAll s.cur.p s.cur.e s.cur.slot w l') := by
  rw [he, fireNode_first h _ (u := (k s).emitAll s.cur.p s.cur.e s.cur.slot w l')]
  · rfl
  · rw [ha]
    unfold Fx.resolve
    rw [show (Fire.emit l).cause = none from rfl, show (Fire.emit l).outs = l from rfl]
    dsimp only
    rw [ht]
    dsimp only
    unfold State.emitFits
    rw [if_pos (show (s.core s.cur.p).fits _ = true from hr)]

theorem tagOr_eq (f : Fx) (l : List (Nat × Token)) : f.tagOr l = match f.tagAll l with
      | .ok q => q
      | .error c => [0, 1].map fun j => (j, { f.token (poisonValue c f.p f.e f.slot) with p := true }) := rfl

/-- A firing that ends with its tokens sent. -/
theorem ends_at {u : State} {w : EW} {n : Nat} {l : List (Nat × Token)} (h : HasRoom u w l) :
    u.emitFits w l (fun s => s.consume n) = some ((u.consume n).emitAll u.cur.p u.cur.e u.cur.slot w l) := by
  unfold State.emitFits
  rw [if_pos (show _ = true from h)]

theorem tagAll_pair (f : Fx) (a b : Nat × Token) {q : List (Nat × Token)} (h : f.tagAll [a, b] = .ok q) : ∃ c d, q = [c, d] := by
  obtain ⟨i, x⟩ := a
  obtain ⟨j, y⟩ := b
  unfold Fx.tagAll at h
  unfold Fx.tagAll at h
  unfold Fx.tagAll at h
  split at h
  · next h1 h2 =>
    split at h2
    · next h3 h4 => cases h4; cases h2; cases h; exact ⟨_, _, rfl⟩
    all_goals cases h2
  all_goals cases h

theorem fire_one {s : State} {n : Nat} {m : Match} (h : Fireable s n m) (act : Nat → Match → Option State) (ha : act n m = none) (h1 : s.slotMatches.length = 1) :
    s.fireNode act = none := by
  obtain ⟨k1, k2, key, rest, k3⟩ := h
  rw [k3] at h1
  have hrest : rest = [] := by cases rest with
    | nil => rfl
    | cons a b => simp at h1
  unfold State.fireNode
  rw [k1, k2, if_pos (by decide), k3, hrest]
  unfold firstReady
  rw [ha]
  rfl

theorem aprobe_first {w : EW} {s : State} (hn : ∀ l, Map.find (s.elem s.cur.p s.cur.e).nodes s.cur.slot ≠ some (.pairs l)) : exec (.eAprobe w) s = fires s (s.fireNode fun n m =>
      let f := s.fx w m
      match m.poison with
      | some v => s.emitFits w (f.resolvePoison (f.poisonOn [0, 1] v)) fun s => s.consume n
      | none =>
        match s.history s.cur.p f.rawB.toNat f.rawA.toNat with
        | (_, .stall) => none
        | (s, .bad c) => s.emitFits w (f.failOuts (f.lowest c) [0, 1]) fun s => s.consume n
        | (s, .ok l) => some ((s.consume n).setMyNode (if l.isEmpty then none else some (.pairs (l.map f.pair))))) := by
  show execEAprobe w s = _
  unfold execEAprobe
  dsimp only
  generalize Map.find (s.elem s.cur.p s.cur.e).nodes s.cur.slot = o at hn ⊢
  cases o with
  | none => rfl
  | some nd =>
    cases nd with
    | pairs l => exact absurd rfl (hn l)
    | _ => rfl

theorem mem_insertKey (l : List (Nat × Nat × Match)) (k n : Nat) (m : Match) (q : Nat × Nat × Match) : q ∈ insertKey l k n m ↔ q = (k, n, m) ∨ q ∈ l := by
  induction l with
  | nil => simp [insertKey]
  | cons a r ih =>
    unfold insertKey
    split
    · simp
    · simp only [List.mem_cons, ih]; grind

/-- The keyed matches are the matches with their places and keys. -/
theorem mem_byKey (l : List Match) : ∀ (n : Nat) (q : Nat × Nat × Match), q ∈ byKey l n → ∃ j, q.2.1 = n + j ∧ l[j]? = some q.2.2 ∧ q.1 = fireKey q.2.2.tag.time q.2.2.slot := by
  induction l with
  | nil => intro n q h; simp [byKey] at h
  | cons a r ih =>
    intro n q h
    unfold byKey at h
    rw [mem_insertKey] at h
    rcases h with rfl | h
    · exact ⟨0, rfl, rfl, rfl⟩
    · obtain ⟨j, h1, h2, h3⟩ := ih _ _ h
      exact ⟨j + 1, by omega, h2, h3⟩

/-- One place, one keyed match. -/
theorem keyed_inj {x : Elem} {a b : Nat × Nat × Match} (ha : a ∈ x.keyed) (hb : b ∈ x.keyed) (h : a.2.1 = b.2.1) : a = b := by
  obtain ⟨i, h1, h2, h3⟩ := mem_byKey _ _ _ ha
  obtain ⟨j, h4, h5, h6⟩ := mem_byKey _ _ _ hb
  have : i = j := by omega
  subst this
  rw [h2] at h5
  injection h5 with h5
  apply Prod.ext
  · rw [h3, h6, h5]
  · exact Prod.ext h h5

theorem headOf_act {s : State} {p e slot port : Nat} {k : Token} (h : s.headOf p e slot port = some k) : (s.elem p e).leaving = false := by
  unfold State.headOf at h
  dsimp only at h
  split at h
  · cases h
  · rename_i hc; simp at hc; exact hc.1.1.1.1.1.1.2

/-- A valid target of a slot that is no back edge. -/
def isEdge (g : EImage) (q : Nat × BitVec 13) : Prop :=
  q.1 < 32 ∧ ∃ w j, g.word q.1 = some w ∧ j < 2 ∧ q.2 = target (ewOf w) j ∧ tgtV q.2 = true ∧ g.back.getLsbD (2 * q.1 + j) = false

/-- The edges after one target of a slot. -/
def edgeStep (g : EImage) (slot : Nat) (w : EW) (j : Nat) (l : List (Nat × BitVec 13)) : List (Nat × BitVec 13) :=
  if tgtV (target w j) && !g.back.getLsbD (2 * slot + j) && !(anyOf l fun q => q.2 == target w j) then l ++ [(slot, target w j)] else l

theorem hasAny {α : Type} [BEq α] [LawfulBEq α] (l : List (Nat × α)) (t : α) : anyOf l (fun q => q.2 == t) = true ↔ t ∈ l.map Prod.snd := by
  rw [anyOf_iff]; simp [List.mem_map]

theorem edgeStep_ok (g : EImage) (slot : Nat) (w : Word) (j : Nat) (l : List (Nat × BitVec 13)) (hs : slot < 32) (hw : g.word slot = some w) (hj : j < 2)
    (h1 : ∀ q ∈ l, isEdge g q) (h2 : (l.map Prod.snd).Nodup) :
    (∀ q ∈ edgeStep g slot (ewOf w) j l, isEdge g q) ∧ ((edgeStep g slot (ewOf w) j l).map Prod.snd).Nodup ∧
      (∀ t ∈ l.map Prod.snd, t ∈ (edgeStep g slot (ewOf w) j l).map Prod.snd) ∧
      (tgtV (target (ewOf w) j) = true → g.back.getLsbD (2 * slot + j) = false → target (ewOf w) j ∈ (edgeStep g slot (ewOf w) j l).map Prod.snd) := by
  unfold edgeStep
  split
  · rename_i h
    simp only [Bool.and_eq_true, Bool.not_eq_true'] at h
    have hn : target (ewOf w) j ∉ l.map Prod.snd := by rw [← hasAny]; simp [h.2]
    refine ⟨fun q hq => ?_, ?_, fun t ht => by simp at ht ⊢; exact .inl ht, fun _ _ => by simp⟩
    · rcases List.mem_append.mp hq with hq | hq
      · exact h1 q hq
      · simp at hq; subst hq; exact ⟨hs, w, j, hw, hj, rfl, h.1.1, h.1.2⟩
    · rw [List.map_append, List.nodup_append]
      refine ⟨h2, by simp, ?_⟩
      intro a ha b hb; simp at hb; subst hb; intro hab; exact hn (hab ▸ ha)
  · rename_i h
    refine ⟨h1, h2, fun t ht => ht, fun a b => ?_⟩
    rw [← hasAny]
    simp only [a, b] at h
    simpa using h

/-- The edges of an image are its valid targets that are no back edges, each once. -/
theorem edges_ok (g : EImage) : (∀ q ∈ g.edges, isEdge g q) ∧ (g.edges.map Prod.snd).Nodup ∧ ∀ q, isEdge g q → q.2 ∈ g.edges.map Prod.snd := by
  have key : ∀ n a l, a + n ≤ 32 → (∀ q ∈ l, isEdge g q) → (l.map Prod.snd).Nodup →
      let r := each (range a n) (fun slot (l : List (Nat × BitVec 13)) =>
        match g.word slot with
        | none => l
        | some w => each [0, 1] (fun j (l : List (Nat × BitVec 13)) => edgeStep g slot (ewOf w) j l) l) l
      (∀ q ∈ r, isEdge g q) ∧ (r.map Prod.snd).Nodup ∧ (∀ t ∈ l.map Prod.snd, t ∈ r.map Prod.snd) ∧ ∀ q, isEdge g q → a ≤ q.1 → q.1 < a + n → q.2 ∈ r.map Prod.snd := by
    intro n
    induction n with
    | zero => intro a l h h1 h2; simp only [range, each]; exact ⟨h1, h2, fun t h => h, fun q hq h3 h4 => by omega⟩
    | succ n ih =>
      intro a l h h1 h2
      simp only [range, each]
      cases hw : g.word a with
      | none =>
        obtain ⟨x1, x2, x3, x4⟩ := ih (a + 1) l (by omega) h1 h2
        refine ⟨x1, x2, x3, fun q hq h3 h4 => ?_⟩
        by_cases hqa : q.1 = a
        · obtain ⟨_, w, j, h5, _⟩ := hq; rw [hqa, hw] at h5; cases h5
        · exact x4 q hq (by omega) (by omega)
      | some w =>
        dsimp only
        obtain ⟨a1, a2, a3, a4⟩ := edgeStep_ok g a w 0 l (by omega) hw (by omega) h1 h2
        obtain ⟨b1, b2, b3, b4⟩ := edgeStep_ok g a w 1 _ (by omega) hw (by omega) a1 a2
        obtain ⟨x1, x2, x3, x4⟩ := ih (a + 1) _ (by omega) b1 b2
        refine ⟨x1, x2, fun t ht => x3 t (b3 t (a3 t ht)), fun q hq h3 h4 => ?_⟩
        by_cases hqa : q.1 = a
        · obtain ⟨_, w', j, h5, h6, h7, h8, h9⟩ := hq
          rw [hqa, hw] at h5; cases h5
          rw [hqa] at h9
          rw [h7] at h8 ⊢
          have : j = 0 ∨ j = 1 := by omega
          rcases this with rfl | rfl
          · exact x3 _ (b3 _ (a4 h8 h9))
          · exact x3 _ (b4 h8 h9)
        · exact x4 q hq (by omega) (by omega)
  obtain ⟨x1, x2, _, x4⟩ := key 32 0 [] (by omega) (by simp) (by simp)
  exact ⟨x1, x2, fun q hq => x4 q hq (by omega) (by have := hq.1; omega)⟩

theorem setElem_core (s : State) (p e : Nat) (x : Elem) : (s.setElem p e x).core p = { s.core p with elems := Map.put (s.core p).elems e x } := by
  simp [State.setElem]

theorem setElem_elem_same (s : State) (p e : Nat) (y : Elem) : (s.setElem p e y).elem p e = y := by simp [State.elem, State.setElem]

theorem setElem_elem_other (s : State) (p e f : Nat) (y : Elem) (h : f ≠ e) : (s.setElem p e y).elem p f = s.elem p f := by
  simp [State.elem, State.setElem, get_put_other _ _ _ h]

/-- What a discarded token changes. -/
theorem discard_elem (s : State) (p e slot port : Nat) (k : Token) (q f : Nat) :
    (s.discard p e slot port k).elem q f = s.elem q f ∧ ((s.discard p e slot port k).core q).overflow = (s.core q).overflow := by
  have hr : ∀ (c : Core) (r : Rec), (c.putRec r).elems = c.elems ∧ (c.putRec r).overflow = c.overflow := by
    intro c r; unfold Core.putRec; split <;> exact ⟨rfl, rfl⟩
  unfold State.discard
  split
  · unfold State.stopPoison State.poisonRec State.putBoth State.putRec State.elem
    show (Map.get ((s.modCore p fun c => c.putRec _).core q).elems _ f = _) ∧ _
    by_cases h : q = p
    · subst h; exact ⟨by rw [core_modCore_same, (hr _ _).1], by show ((s.modCore q fun c => c.putRec _).core q).overflow = _; rw [core_modCore_same, (hr _ _).2]⟩
    · exact ⟨by rw [core_modCore_other _ _ h], by show ((s.modCore p fun c => c.putRec _).core q).overflow = _; rw [core_modCore_other _ _ h]⟩
  · exact ⟨rfl, rfl⟩

/-- What an update of an element leaves of a target's room. -/
theorem free_mod (u : State) (p f : Nat) (y : Elem → Elem) (t : BitVec 13)
    (h : tgtElem t ≠ f ∨ (∀ x, (y x).act = x.act ∧ (y x).matches_ = x.matches_ ∧ (y x).nodes = x.nodes ∧ (y x).due = x.due ∧
      Map.get (y x).bufs [] (tgtPort t) = Map.get x.bufs [] (tgtPort t))) :
    ((u.modElem p f y).core p).free t = (u.core p).free t := by
  by_cases hf : tgtElem t = f
  · have h := h.resolve_left (fun q => q hf)
    subst hf
    have hh := h.resolve_left (fun q => q rfl)
    obtain ⟨h1, h2, h3, h4, h5⟩ := hh (Map.get (u.core p).elems Elem.reset (tgtElem t))
    simp only [State.modElem, State.setElem, State.elem, core_modCore_same, Core.free, Core.keepsHead, Elem.op, Elem.word, get_put_same, h1, h2, h3, h4, h5]
  · simp only [State.modElem, State.setElem, State.elem, core_modCore_same, Core.free, Core.keepsHead, Elem.op, Elem.word, get_put_other _ _ _ hf]

theorem tgt_eq {a b : BitVec 13} (ha : tgtV a = true) (hb : tgtV b = true) (h1 : tgtElem a = tgtElem b) (h2 : tgtPort a = tgtPort b) : a = b := by
  have e1 : a.extractLsb' 6 6 = b.extractLsb' 6 6 := BitVec.eq_of_toNat_eq h1
  have e2 : a.extractLsb' 0 6 = b.extractLsb' 0 6 := BitVec.eq_of_toNat_eq h2
  unfold tgtV at ha hb
  ext i hi
  by_cases h6 : i < 6
  · have := congrArg (fun v => v.getLsbD i) e2
    simpa [h6, BitVec.getLsbD_eq_getElem hi] using this
  · by_cases h12 : i < 12
    · have := congrArg (fun v => v.getLsbD (i - 6)) e1
      have h : i - 6 < 6 := by omega
      have h' : 6 + (i - 6) = i := by omega
      simpa [h, h', BitVec.getLsbD_eq_getElem hi] using this
    · have : i = 12 := by omega
      subst this
      rw [BitVec.getLsbD_eq_getElem hi] at ha hb
      rw [ha, hb]

end Sys2Proof.Laws
end

