-- ==== Sys2Proof/Laws/Events.lean ====
section
/-!
SUPPORT. What an event on a message does: a delivery, a message taken into a class, an acknowledgement, a C13 message that runs, and the level-queue heads.
-/
namespace Sys2Proof.Laws

open Sys2Proof Sys2Proof.Machine

/-- A delivery at its own core. -/
theorem delivered_core (u : State) (p : Nat) (m : Msg) (chip : Option Nat) : (u.delivered p m chip).core p = { u.core p with
    ph := if m.o then raisePhase (u.core p).ph m.phase (Config.freeWord u.free) else (u.core p).ph
    dlv := if chip.isSome then (u.core p).dlv else Map.put (u.core p).dlv m.src.toNat (if m.o then 0 else Map.get (u.core p).dlv 0 m.src.toNat + 1)
    toAck := (u.core p).toAck ++ [(m.src.toNat, m.plane.toNat, m.o, chip)] } := by
  have hb : ∀ (b : Bool) (v : State) (f r : Nat), ((if b = true then { v with free := f } else v : State).core r) = v.core r := by
    intro b v f r; cases b <;> simp [State.core]
  unfold State.delivered
  dsimp only
  refine (hb _ _ _ _).trans ?_
  rw [core_modCore_same]

/-- A delivery at another core. -/
theorem delivered_other (u : State) (p q : Nat) (m : Msg) (chip : Option Nat) (h : q ≠ p) : (u.delivered p m chip).core q = u.core q := by
  have hb : ∀ (b : Bool) (v : State) (f r : Nat), ((if b = true then { v with free := f } else v : State).core r) = v.core r := by
    intro b v f r; cases b <;> simp [State.core]
  unfold State.delivered
  dsimp only
  refine (hb _ _ _ _).trans ?_
  rw [core_modCore_other _ _ h]

theorem delivered_net (u : State) (p : Nat) (m : Msg) (chip : Option Nat) : (u.delivered p m chip).net = u.net := by
  unfold State.delivered
  dsimp only
  split <;> rfl

theorem opc_of_toNat {m : Msg} {k : Nat} (h : m.opc.toNat = k) : m.opc = BitVec.ofNat 9 k := by subst h; simp

/-- A message taken by a class with room. -/
theorem takeMsg_room {u : State} {p cls : Nat} {m : Msg} (h1 : ((u.core p).inbound cls).st ≠ .held) (h2 : ((u.core p).inbound cls).heldMsg = none)
    (h3 : ((u.core p).inbound cls).q.length < 16) (h4 : ((u.core p).inbound cls).spilled = 0) :
    u.takeMsg p cls m = some (u.modCore p fun c => c.setInbound cls { (u.core p).inbound cls with q := ((u.core p).inbound cls).q ++ [m], st := .queue }, true) := by
  unfold State.takeMsg
  simp [h1, h2, h3, h4]

/-- A message held by a full class. -/
theorem takeMsg_full {u : State} {p cls : Nat} {m : Msg} (h1 : ((u.core p).inbound cls).st ≠ .held) (h2 : ((u.core p).inbound cls).heldMsg = none)
    (h3 : 16 ≤ ((u.core p).inbound cls).q.length ∨ ((u.core p).inbound cls).spilled ≠ 0) : u.takeMsg p cls m = u.spillMsg p cls m := by
  unfold State.takeMsg
  dsimp only
  rw [if_neg (by simp [h1, h2]), if_neg (by simp; omega)]

theorem uncover_filter (src plane : Nat) : ∀ (l : List (Nat × Nat × Bool × Option Nat)) (n : Nat),
    ((uncover l src plane n).filter fun e => ¬ (e.1 = src ∧ e.2.1 = plane)) = (l.filter fun e => ¬ (e.1 = src ∧ e.2.1 = plane)) := by
  intro l
  induction l with
  | nil => intro n; rfl
  | cons a r ih =>
    intro n
    cases n with
    | zero => rfl
    | succ n =>
      unfold uncover
      split
      · rename_i h; rw [ih, List.filter_cons_of_neg (by simpa using h)]
      · rename_i h; rw [List.filter_cons, List.filter_cons, ih]

theorem uncover_length (src plane : Nat) : ∀ (l : List (Nat × Nat × Bool × Option Nat)) (n : Nat),
    ((l.filter fun e => e.1 == src && e.2.1 == plane).take n).length = n → (uncover l src plane n).length + n = l.length := by
  intro l
  induction l with
  | nil => intro n h; simp at h; subst h; rfl
  | cons a r ih =>
    intro n h
    cases n with
    | zero => rfl
    | succ n =>
      unfold uncover
      split
      · rename_i hc
        rw [List.filter_cons_of_pos (by simpa using hc)] at h
        have := ih n (by simpa using h)
        simp; omega
      · rename_i hc
        rw [List.filter_cons_of_neg (by simpa using hc)] at h
        have := ih (n + 1) h
        simp; omega

/-- A C13 message of the test runs its action. -/
theorem onC13_run {s : State} {n opc : Nat} {test : Msg → Bool} {act : State → NetMsg → State} {e : NetMsg} (h1 : s.arrivable n = some e) (h2 : e.msg.cls = 13)
    (h3 : e.msg.opc.toNat = opc) (h4 : test e.msg = true) : s.onC13 n opc test act = act s e := by
  unfold State.onC13
  rw [h1]
  dsimp only
  rw [if_neg (by simp [h2, h3, h4])]

theorem noEnq {m : Msg} (h : m.opc.toNat = 4 ∨ m.opc.toNat = 6 ∨ m.opc.toNat = 9) : m.enqueue = false := by
  unfold Msg.enqueue
  rcases h with h | h | h <;> rw [opc_of_toNat h] <;> rfl

theorem task_setTask (c : Core) (j : Nat) (t : Task) : (c.setTask j t).task j = t := get_put_same ..

theorem setTask_setTask (c : Core) (j : Nat) (t u : Task) : (c.setTask j t).setTask j u = c.setTask j u := by simp [Core.setTask]

theorem evaluate_idem (c : Core) (j : Nat) : (c.evaluate j).evaluate j = c.evaluate j := by
  by_cases h : ((c.task j).st == .idle && (c.task j).actor && (c.task j).cnt == 0 && allOf [0, 1, 2, 3] fun i => (c.task j).rate i ≤ (c.task j).input i) = true
  · have : c.evaluate j = (c.setTask j { c.task j with inp := each [0, 1, 2, 3] (fun i m => Map.put m i (BitVec.ofNat 16 ((c.task j).input i - (c.task j).rate i))) (c.task j).inp }).ready j := by
      unfold Core.evaluate; dsimp only; rw [if_pos h]
    rw [this]
    unfold Core.evaluate
    dsimp only
    rw [if_neg]
    unfold Core.ready
    dsimp only
    have he : ∀ (c : Core) k l id, (c.enqueue k l id).task j = c.task j := by
      intro c k l id; cases k <;> rfl
    rw [he, task_setTask]
    simp
  · have : c.evaluate j = c := by
      unfold Core.evaluate; dsimp only; rw [if_neg h]
    rw [this, this]

theorem head_ready {x : Scalar} {n : Nat} {e : ReadyEnt} (h : x.head = some (n, e)) : ∃ r, Map.get x.ready [] n = e :: r := by
  unfold Scalar.head at h
  dsimp only at h
  have key : ∀ m : Nat, ∀ r : Option (Nat × ReadyEnt), (match Map.get x.ready [] m with | e :: _ => some (m, e) | [] => none) = some (n, e) → ∃ r, Map.get x.ready [] n = e :: r := by
    intro m r h
    cases hm : Map.get x.ready [] m with
    | nil => rw [hm] at h; cases h
    | cons a b => rw [hm] at h; simp at h; obtain ⟨rfl, rfl⟩ := h; exact ⟨b, hm⟩
  cases h3 : Map.get x.ready [] 3 with
  | cons a b => rw [h3] at h; simp at h; obtain ⟨rfl, rfl⟩ := h; exact ⟨b, h3⟩
  | nil =>
    rw [h3] at h
    cases h2 : Map.get x.ready [] 2 with
    | cons a b => rw [h2] at h; simp at h; obtain ⟨rfl, rfl⟩ := h; exact ⟨b, h2⟩
    | nil =>
      rw [h2] at h
      cases h1 : Map.get x.ready [] 1 with
      | cons a b => rw [h1] at h; simp at h; obtain ⟨rfl, rfl⟩ := h; exact ⟨b, h1⟩
      | nil =>
        rw [h1] at h
        exact key 0 none h

/-- A request runs at its keeper. -/
theorem keeperRequest_run {s : State} {n sub : Nat} {act : State → NetMsg → State} {e : NetMsg} (h1 : s.arrivable n = some e) (h2 : e.msg.cls = 13)
    (h3 : e.msg.opc.toNat = 8) (h4 : e.msg.subop = sub) (h5 : sub = 3 → e.msg.part = 0) : keeperRequest sub n act s = .next (act s e) := by
  unfold keeperRequest
  rw [onC13_run h1 h2 h3 (by by_cases h : sub = 3 <;> simp [h4, h, h5])]

end Sys2Proof.Laws
end

