-- ==== Sys2Proof/Laws/PerInstr.lean ====
section
/-!
SUPPORT. Statements about every instruction, proved constructor by constructor. RoundTrip: the words that `encode` gives a well-formed instruction decode
to it, with every operand it has (R15 to R29).
-/
namespace Sys2Proof.Laws

open Sys2Proof

set_option linter.unusedSimpArgs false

/-- The words of a well-formed instruction decode to that instruction. -/
def RoundTrip.Statement (i : Instr) : Prop := i.wellFormed = true → ∀ n w, encode i = some (n, w) → decodeTableWord n w = some i

theorem round_scalar (i : Instr) (w : BitVec 32) (e : encode i = some (32, w.toNat)) (h : i.wellFormed = true → decodeScalar w = some i) :
    RoundTrip.Statement i := by
  intro hw n v hv
  rw [e] at hv
  obtain ⟨rfl, rfl⟩ := hv
  rw [decodeTableWord, if_pos (by decide), BitVec.ofNat_toNat, BitVec.setWidth_eq]
  exact h hw

theorem round_elem (i : Instr) (w : BitVec 64) (e : encode i = some (64, w.toNat)) (h : i.wellFormed = true → decodeElem w = some i) :
    RoundTrip.Statement i := by
  intro hw n v hv
  rw [e] at hv
  obtain ⟨rfl, rfl⟩ := hv
  rw [decodeTableWord, if_neg (by decide), BitVec.ofNat_toNat, BitVec.setWidth_eq]
  exact h hw

/-- A nonzero field stays nonzero under a zero bit. -/
theorem append_ne_zero (x : BitVec 15) (h : x ≠ 0) : 0#1 ++ x ≠ 0#16 := by
  intro e
  apply h
  have e' := congrArg (BitVec.extractLsb' 0 15) e
  rw [extract_lower _ _ _ _ (by decide), extract_whole] at e'
  simpa using e'

/-- The four two-bit values. -/
theorem two_bits : ∀ x : BitVec 2, x = 0 ∨ x = 1 ∨ x = 2 ∨ x = 3 := by decide

theorem round_none (i : Instr) (e : encode i = none) : RoundTrip.Statement i := by
  intro _ n w h
  rw [e] at h
  cases h

theorem decodeInteger_word (d a b : BitVec 5) (f : BitVec 11) : decodeScalar (srWord 0x00 d a b f) = decodeInteger (srWord 0x00 d a b f) := by
  simp [decodeScalar, sr_major]

theorem decodeMemory_word (d a b : BitVec 5) (f : BitVec 11) : decodeScalar (srWord 0x20 d a b f) = decodeMemory (srWord 0x20 d a b f) := by
  simp [decodeScalar, sr_major]

theorem decodeAtomic_word (d a b : BitVec 5) (f : BitVec 11) : decodeScalar (srWord 0x21 d a b f) = decodeAtomic (srWord 0x21 d a b f) := by
  simp [decodeScalar, sr_major]

theorem decodeEngine_word (d a b : BitVec 5) (f : BitVec 11) : decodeScalar (srWord 0x22 d a b f) = decodeEngine (srWord 0x22 d a b f) := by
  simp [decodeScalar, sr_major]

theorem decodeTime_word (d a b : BitVec 5) (f : BitVec 11) : decodeScalar (srWord 0x24 d a b f) = decodeTime (srWord 0x24 d a b f) := by
  simp [decodeScalar, sr_major]

theorem decodeScheduling_word (d a b : BitVec 5) (f : BitVec 11) : decodeScalar (srWord 0x28 d a b f) = decodeScheduling (srWord 0x28 d a b f) := by
  simp [decodeScalar, sr_major]

theorem decodeTrap_word (d a b : BitVec 5) (f : BitVec 11) : decodeScalar (srWord 0x2C d a b f) = decodeTrap (srWord 0x2C d a b f) := by
  simp [decodeScalar, sr_major]

theorem decodeFabric_word (d a b : BitVec 5) (f : BitVec 11) : decodeScalar (srWord 0x30 d a b f) = decodeFabric (srWord 0x30 d a b f) := by
  simp [decodeScalar, sr_major]

theorem decodeKset_word (d a : BitVec 5) (y : BitVec 10) (f : BitVec 6) : decodeScalar (sxWord 0x33 d a y f) = decodeKset (sxWord 0x33 d a y f) := by
  simp [decodeScalar, sx_major]

theorem decodeSys_word (d a : BitVec 5) (y : BitVec 10) (f : BitVec 6) : decodeScalar (sxWord 0x34 d a y f) = decodeSys (sxWord 0x34 d a y f) := by
  simp [decodeScalar, sx_major]

theorem decodeLoop_word (d a : BitVec 5) (f : BitVec 16) : decodeScalar (siWord 0x12 d a f) = decodeLoop (siWord 0x12 d a f) := by
  simp [decodeScalar, si_major]

theorem RoundTrip.add (d : BitVec 5) (a : BitVec 5) (b : BitVec 5) : Statement (.add d a b) := round_scalar _ _ rfl fun _ => by
  rw [decodeInteger_word, decodeInteger]
  simp (disch := decide) only [sr_d, sr_a, sr_b, sr_fn, sr_low, extract_upper, extract_lower, extract_whole, tOf_reg]
  simp [zero5, shiftImm]

theorem RoundTrip.sub (d : BitVec 5) (a : BitVec 5) (b : BitVec 5) : Statement (.sub d a b) := round_scalar _ _ rfl fun _ => by
  rw [decodeInteger_word, decodeInteger]
  simp (disch := decide) only [sr_d, sr_a, sr_b, sr_fn, sr_low, extract_upper, extract_lower, extract_whole, tOf_reg]
  simp [zero5, shiftImm]

theorem RoundTrip.and (d : BitVec 5) (a : BitVec 5) (b : BitVec 5) : Statement (.and d a b) := round_scalar _ _ rfl fun _ => by
  rw [decodeInteger_word, decodeInteger]
  simp (disch := decide) only [sr_d, sr_a, sr_b, sr_fn, sr_low, extract_upper, extract_lower, extract_whole, tOf_reg]
  simp [zero5, shiftImm]

theorem RoundTrip.or (d : BitVec 5) (a : BitVec 5) (b : BitVec 5) : Statement (.or d a b) := round_scalar _ _ rfl fun _ => by
  rw [decodeInteger_word, decodeInteger]
  simp (disch := decide) only [sr_d, sr_a, sr_b, sr_fn, sr_low, extract_upper, extract_lower, extract_whole, tOf_reg]
  simp [zero5, shiftImm]

theorem RoundTrip.xor (d : BitVec 5) (a : BitVec 5) (b : BitVec 5) : Statement (.xor d a b) := round_scalar _ _ rfl fun _ => by
  rw [decodeInteger_word, decodeInteger]
  simp (disch := decide) only [sr_d, sr_a, sr_b, sr_fn, sr_low, extract_upper, extract_lower, extract_whole, tOf_reg]
  simp [zero5, shiftImm]

theorem RoundTrip.sll (d : BitVec 5) (a : BitVec 5) (b : BitVec 5) : Statement (.sll d a b) := round_scalar _ _ rfl fun _ => by
  rw [decodeInteger_word, decodeInteger]
  simp (disch := decide) only [sr_d, sr_a, sr_b, sr_fn, sr_low, extract_upper, extract_lower, extract_whole, tOf_reg]
  simp [zero5, shiftImm]

theorem RoundTrip.srl (d : BitVec 5) (a : BitVec 5) (b : BitVec 5) : Statement (.srl d a b) := round_scalar _ _ rfl fun _ => by
  rw [decodeInteger_word, decodeInteger]
  simp (disch := decide) only [sr_d, sr_a, sr_b, sr_fn, sr_low, extract_upper, extract_lower, extract_whole, tOf_reg]
  simp [zero5, shiftImm]

theorem RoundTrip.sra (d : BitVec 5) (a : BitVec 5) (b : BitVec 5) : Statement (.sra d a b) := round_scalar _ _ rfl fun _ => by
  rw [decodeInteger_word, decodeInteger]
  simp (disch := decide) only [sr_d, sr_a, sr_b, sr_fn, sr_low, extract_upper, extract_lower, extract_whole, tOf_reg]
  simp [zero5, shiftImm]

theorem RoundTrip.mul (d : BitVec 5) (a : BitVec 5) (b : BitVec 5) : Statement (.mul d a b) := round_scalar _ _ rfl fun _ => by
  rw [decodeInteger_word, decodeInteger]
  simp (disch := decide) only [sr_d, sr_a, sr_b, sr_fn, sr_low, extract_upper, extract_lower, extract_whole, tOf_reg]
  simp [zero5, shiftImm]

theorem RoundTrip.mulh (d : BitVec 5) (a : BitVec 5) (b : BitVec 5) : Statement (.mulh d a b) := round_scalar _ _ rfl fun _ => by
  rw [decodeInteger_word, decodeInteger]
  simp (disch := decide) only [sr_d, sr_a, sr_b, sr_fn, sr_low, extract_upper, extract_lower, extract_whole, tOf_reg]
  simp [zero5, shiftImm]

theorem RoundTrip.mulhn (d : BitVec 5) (a : BitVec 5) (b : BitVec 5) : Statement (.mulhn d a b) := round_scalar _ _ rfl fun _ => by
  rw [decodeInteger_word, decodeInteger]
  simp (disch := decide) only [sr_d, sr_a, sr_b, sr_fn, sr_low, extract_upper, extract_lower, extract_whole, tOf_reg]
  simp [zero5, shiftImm]

theorem RoundTrip.div (d : BitVec 5) (a : BitVec 5) (b : BitVec 5) : Statement (.div d a b) := round_scalar _ _ rfl fun _ => by
  rw [decodeInteger_word, decodeInteger]
  simp (disch := decide) only [sr_d, sr_a, sr_b, sr_fn, sr_low, extract_upper, extract_lower, extract_whole, tOf_reg]
  simp [zero5, shiftImm]

theorem RoundTrip.divn (d : BitVec 5) (a : BitVec 5) (b : BitVec 5) : Statement (.divn d a b) := round_scalar _ _ rfl fun _ => by
  rw [decodeInteger_word, decodeInteger]
  simp (disch := decide) only [sr_d, sr_a, sr_b, sr_fn, sr_low, extract_upper, extract_lower, extract_whole, tOf_reg]
  simp [zero5, shiftImm]

theorem RoundTrip.rem (d : BitVec 5) (a : BitVec 5) (b : BitVec 5) : Statement (.rem d a b) := round_scalar _ _ rfl fun _ => by
  rw [decodeInteger_word, decodeInteger]
  simp (disch := decide) only [sr_d, sr_a, sr_b, sr_fn, sr_low, extract_upper, extract_lower, extract_whole, tOf_reg]
  simp [zero5, shiftImm]

theorem RoundTrip.remn (d : BitVec 5) (a : BitVec 5) (b : BitVec 5) : Statement (.remn d a b) := round_scalar _ _ rfl fun _ => by
  rw [decodeInteger_word, decodeInteger]
  simp (disch := decide) only [sr_d, sr_a, sr_b, sr_fn, sr_low, extract_upper, extract_lower, extract_whole, tOf_reg]
  simp [zero5, shiftImm]

theorem RoundTrip.min (d : BitVec 5) (a : BitVec 5) (b : BitVec 5) : Statement (.min d a b) := round_scalar _ _ rfl fun _ => by
  rw [decodeInteger_word, decodeInteger]
  simp (disch := decide) only [sr_d, sr_a, sr_b, sr_fn, sr_low, extract_upper, extract_lower, extract_whole, tOf_reg]
  simp [zero5, shiftImm]

theorem RoundTrip.max (d : BitVec 5) (a : BitVec 5) (b : BitVec 5) : Statement (.max d a b) := round_scalar _ _ rfl fun _ => by
  rw [decodeInteger_word, decodeInteger]
  simp (disch := decide) only [sr_d, sr_a, sr_b, sr_fn, sr_low, extract_upper, extract_lower, extract_whole, tOf_reg]
  simp [zero5, shiftImm]

theorem RoundTrip.minn (d : BitVec 5) (a : BitVec 5) (b : BitVec 5) : Statement (.minn d a b) := round_scalar _ _ rfl fun _ => by
  rw [decodeInteger_word, decodeInteger]
  simp (disch := decide) only [sr_d, sr_a, sr_b, sr_fn, sr_low, extract_upper, extract_lower, extract_whole, tOf_reg]
  simp [zero5, shiftImm]

theorem RoundTrip.maxn (d : BitVec 5) (a : BitVec 5) (b : BitVec 5) : Statement (.maxn d a b) := round_scalar _ _ rfl fun _ => by
  rw [decodeInteger_word, decodeInteger]
  simp (disch := decide) only [sr_d, sr_a, sr_b, sr_fn, sr_low, extract_upper, extract_lower, extract_whole, tOf_reg]
  simp [zero5, shiftImm]

theorem RoundTrip.clz (d : BitVec 5) (a : BitVec 5) : Statement (.clz d a) := round_scalar _ _ rfl fun _ => by
  rw [decodeInteger_word, decodeInteger]
  simp (disch := decide) only [sr_d, sr_a, sr_b, sr_fn, sr_low, extract_upper, extract_lower, extract_whole, tOf_reg]
  simp [zero5, shiftImm]

theorem RoundTrip.popc (d : BitVec 5) (a : BitVec 5) : Statement (.popc d a) := round_scalar _ _ rfl fun _ => by
  rw [decodeInteger_word, decodeInteger]
  simp (disch := decide) only [sr_d, sr_a, sr_b, sr_fn, sr_low, extract_upper, extract_lower, extract_whole, tOf_reg]
  simp [zero5, shiftImm]

theorem RoundTrip.sext8 (d : BitVec 5) (a : BitVec 5) : Statement (.sext8 d a) := round_scalar _ _ rfl fun _ => by
  rw [decodeInteger_word, decodeInteger]
  simp (disch := decide) only [sr_d, sr_a, sr_b, sr_fn, sr_low, extract_upper, extract_lower, extract_whole, tOf_reg]
  simp [zero5, shiftImm]

theorem RoundTrip.sext16 (d : BitVec 5) (a : BitVec 5) : Statement (.sext16 d a) := round_scalar _ _ rfl fun _ => by
  rw [decodeInteger_word, decodeInteger]
  simp (disch := decide) only [sr_d, sr_a, sr_b, sr_fn, sr_low, extract_upper, extract_lower, extract_whole, tOf_reg]
  simp [zero5, shiftImm]

theorem RoundTrip.sext32 (d : BitVec 5) (a : BitVec 5) : Statement (.sext32 d a) := round_scalar _ _ rfl fun _ => by
  rw [decodeInteger_word, decodeInteger]
  simp (disch := decide) only [sr_d, sr_a, sr_b, sr_fn, sr_low, extract_upper, extract_lower, extract_whole, tOf_reg]
  simp [zero5, shiftImm]

theorem RoundTrip.zext8 (d : BitVec 5) (a : BitVec 5) : Statement (.zext8 d a) := round_scalar _ _ rfl fun _ => by
  rw [decodeInteger_word, decodeInteger]
  simp (disch := decide) only [sr_d, sr_a, sr_b, sr_fn, sr_low, extract_upper, extract_lower, extract_whole, tOf_reg]
  simp [zero5, shiftImm]

theorem RoundTrip.zext16 (d : BitVec 5) (a : BitVec 5) : Statement (.zext16 d a) := round_scalar _ _ rfl fun _ => by
  rw [decodeInteger_word, decodeInteger]
  simp (disch := decide) only [sr_d, sr_a, sr_b, sr_fn, sr_low, extract_upper, extract_lower, extract_whole, tOf_reg]
  simp [zero5, shiftImm]

theorem RoundTrip.zext32 (d : BitVec 5) (a : BitVec 5) : Statement (.zext32 d a) := round_scalar _ _ rfl fun _ => by
  rw [decodeInteger_word, decodeInteger]
  simp (disch := decide) only [sr_d, sr_a, sr_b, sr_fn, sr_low, extract_upper, extract_lower, extract_whole, tOf_reg]
  simp [zero5, shiftImm]

theorem RoundTrip.slt (d : BitVec 5) (a : BitVec 5) (b : BitVec 5) : Statement (.slt d a b) := round_scalar _ _ rfl fun _ => by
  rw [decodeInteger_word, decodeInteger]
  simp (disch := decide) only [sr_d, sr_a, sr_b, sr_fn, sr_low, extract_upper, extract_lower, extract_whole, tOf_reg]
  simp [zero5, shiftImm]

theorem RoundTrip.sltn (d : BitVec 5) (a : BitVec 5) (b : BitVec 5) : Statement (.sltn d a b) := round_scalar _ _ rfl fun _ => by
  rw [decodeInteger_word, decodeInteger]
  simp (disch := decide) only [sr_d, sr_a, sr_b, sr_fn, sr_low, extract_upper, extract_lower, extract_whole, tOf_reg]
  simp [zero5, shiftImm]

theorem RoundTrip.jr (a : BitVec 5) : Statement (.jr a) := round_scalar _ _ rfl fun _ => by
  rw [decodeInteger_word, decodeInteger]
  simp (disch := decide) only [sr_d, sr_a, sr_b, sr_fn, sr_low, extract_upper, extract_lower, extract_whole, tOf_reg]
  simp [zero5, shiftImm]

theorem RoundTrip.jalr (d : BitVec 5) (a : BitVec 5) : Statement (.jalr d a) := round_scalar _ _ rfl fun _ => by
  rw [decodeInteger_word, decodeInteger]
  simp (disch := decide) only [sr_d, sr_a, sr_b, sr_fn, sr_low, extract_upper, extract_lower, extract_whole, tOf_reg]
  simp [zero5, shiftImm]

theorem RoundTrip.addi (d : BitVec 5) (a : BitVec 5) (imm : BitVec 16) : Statement (.addi d a imm) := round_scalar _ _ rfl fun _ => by
  simp (disch := decide) only [decodeScalar, si_major, shiftImm, si_d, si_a, si_imm, si_low, extract_upper, extract_lower, extract_whole, tOf_reg]
  simp [zero5, shiftImm]

theorem RoundTrip.andi (d : BitVec 5) (a : BitVec 5) (imm : BitVec 16) : Statement (.andi d a imm) := round_scalar _ _ rfl fun _ => by
  simp (disch := decide) only [decodeScalar, si_major, shiftImm, si_d, si_a, si_imm, si_low, extract_upper, extract_lower, extract_whole, tOf_reg]
  simp [zero5, shiftImm]

theorem RoundTrip.ori (d : BitVec 5) (a : BitVec 5) (imm : BitVec 16) : Statement (.ori d a imm) := round_scalar _ _ rfl fun _ => by
  simp (disch := decide) only [decodeScalar, si_major, shiftImm, si_d, si_a, si_imm, si_low, extract_upper, extract_lower, extract_whole, tOf_reg]
  simp [zero5, shiftImm]

theorem RoundTrip.xori (d : BitVec 5) (a : BitVec 5) (imm : BitVec 16) : Statement (.xori d a imm) := round_scalar _ _ rfl fun _ => by
  simp (disch := decide) only [decodeScalar, si_major, shiftImm, si_d, si_a, si_imm, si_low, extract_upper, extract_lower, extract_whole, tOf_reg]
  simp [zero5, shiftImm]

theorem RoundTrip.slli (d : BitVec 5) (a : BitVec 5) (imm : BitVec 6) : Statement (.slli d a imm) := round_scalar _ _ rfl fun _ => by
  simp (disch := decide) only [decodeScalar, si_major, shiftImm, si_d, si_a, si_imm, si_low, extract_upper, extract_lower, extract_whole, tOf_reg]
  simp [zero5, shiftImm]

theorem RoundTrip.srli (d : BitVec 5) (a : BitVec 5) (imm : BitVec 6) : Statement (.srli d a imm) := round_scalar _ _ rfl fun _ => by
  simp (disch := decide) only [decodeScalar, si_major, shiftImm, si_d, si_a, si_imm, si_low, extract_upper, extract_lower, extract_whole, tOf_reg]
  simp [zero5, shiftImm]

theorem RoundTrip.srai (d : BitVec 5) (a : BitVec 5) (imm : BitVec 6) : Statement (.srai d a imm) := round_scalar _ _ rfl fun _ => by
  simp (disch := decide) only [decodeScalar, si_major, shiftImm, si_d, si_a, si_imm, si_low, extract_upper, extract_lower, extract_whole, tOf_reg]
  simp [zero5, shiftImm]

theorem RoundTrip.slti (d : BitVec 5) (a : BitVec 5) (imm : BitVec 16) : Statement (.slti d a imm) := round_scalar _ _ rfl fun _ => by
  simp (disch := decide) only [decodeScalar, si_major, shiftImm, si_d, si_a, si_imm, si_low, extract_upper, extract_lower, extract_whole, tOf_reg]
  simp [zero5, shiftImm]

theorem RoundTrip.lui (d : BitVec 5) (imm : BitVec 16) : Statement (.lui d imm) := round_scalar _ _ rfl fun _ => by
  simp (disch := decide) only [decodeScalar, si_major, shiftImm, si_d, si_a, si_imm, si_low, extract_upper, extract_lower, extract_whole, tOf_reg]
  simp [zero5, shiftImm]

theorem RoundTrip.beq (a : BitVec 5) (b : BitVec 5) (off : BitVec 16) : Statement (.beq a b off) := round_scalar _ _ rfl fun _ => by
  simp (disch := decide) only [decodeScalar, si_major, shiftImm, si_d, si_a, si_imm, si_low, extract_upper, extract_lower, extract_whole, tOf_reg]
  simp [zero5, shiftImm]

theorem RoundTrip.bne (a : BitVec 5) (b : BitVec 5) (off : BitVec 16) : Statement (.bne a b off) := round_scalar _ _ rfl fun _ => by
  simp (disch := decide) only [decodeScalar, si_major, shiftImm, si_d, si_a, si_imm, si_low, extract_upper, extract_lower, extract_whole, tOf_reg]
  simp [zero5, shiftImm]

theorem RoundTrip.blt (a : BitVec 5) (b : BitVec 5) (off : BitVec 16) : Statement (.blt a b off) := round_scalar _ _ rfl fun _ => by
  simp (disch := decide) only [decodeScalar, si_major, shiftImm, si_d, si_a, si_imm, si_low, extract_upper, extract_lower, extract_whole, tOf_reg]
  simp [zero5, shiftImm]

theorem RoundTrip.bge (a : BitVec 5) (b : BitVec 5) (off : BitVec 16) : Statement (.bge a b off) := round_scalar _ _ rfl fun _ => by
  simp (disch := decide) only [decodeScalar, si_major, shiftImm, si_d, si_a, si_imm, si_low, extract_upper, extract_lower, extract_whole, tOf_reg]
  simp [zero5, shiftImm]

theorem RoundTrip.bltn (a : BitVec 5) (b : BitVec 5) (off : BitVec 16) : Statement (.bltn a b off) := round_scalar _ _ rfl fun _ => by
  simp (disch := decide) only [decodeScalar, si_major, shiftImm, si_d, si_a, si_imm, si_low, extract_upper, extract_lower, extract_whole, tOf_reg]
  simp [zero5, shiftImm]

theorem RoundTrip.bgen (a : BitVec 5) (b : BitVec 5) (off : BitVec 16) : Statement (.bgen a b off) := round_scalar _ _ rfl fun _ => by
  simp (disch := decide) only [decodeScalar, si_major, shiftImm, si_d, si_a, si_imm, si_low, extract_upper, extract_lower, extract_whole, tOf_reg]
  simp [zero5, shiftImm]

theorem RoundTrip.j (off : BitVec 26) : Statement (.j off) := round_scalar _ _ rfl fun _ => by
  simp (disch := decide) only [decodeScalar, sj_major, shiftImm, sj_off, extract_upper, extract_lower, extract_whole, tOf_reg]
  simp [zero5, shiftImm]

theorem RoundTrip.jal (off : BitVec 26) : Statement (.jal off) := round_scalar _ _ rfl fun _ => by
  simp (disch := decide) only [decodeScalar, sj_major, shiftImm, sj_off, extract_upper, extract_lower, extract_whole, tOf_reg]
  simp [zero5, shiftImm]

theorem RoundTrip.loop (a : BitVec 5) (imm : BitVec 15) : Statement (.loop a imm) := round_scalar _ _ rfl fun h => by
  have h := append_ne_zero imm (by simpa [Instr.wellFormed] using h)
  rw [decodeLoop_word, decodeLoop]
  simp (disch := decide) only [si_d, si_a, si_imm, si_low, extract_upper, extract_lower, extract_whole, tOf_reg]
  simp [zero5, shiftImm, h]

theorem RoundTrip.loopS (a : BitVec 5) : Statement (.loopS a) := round_scalar _ _ rfl fun _ => by
  rw [decodeLoop_word, decodeLoop]
  simp (disch := decide) only [si_d, si_a, si_imm, si_low, extract_upper, extract_lower, extract_whole, tOf_reg]
  simp [zero5, shiftImm]

theorem RoundTrip.ldI8 (d : BitVec 5) (a : BitVec 5) (imm : BitVec 16) : Statement (.ldI8 d a imm) := round_scalar _ _ rfl fun _ => by
  simp (disch := decide) only [decodeScalar, si_major, shiftImm, si_d, si_a, si_imm, si_low, extract_upper, extract_lower, extract_whole, tOf_reg]
  simp [zero5, shiftImm]

theorem RoundTrip.ldI16 (d : BitVec 5) (a : BitVec 5) (imm : BitVec 16) : Statement (.ldI16 d a imm) := round_scalar _ _ rfl fun _ => by
  simp (disch := decide) only [decodeScalar, si_major, shiftImm, si_d, si_a, si_imm, si_low, extract_upper, extract_lower, extract_whole, tOf_reg]
  simp [zero5, shiftImm]

theorem RoundTrip.ldI32 (d : BitVec 5) (a : BitVec 5) (imm : BitVec 16) : Statement (.ldI32 d a imm) := round_scalar _ _ rfl fun _ => by
  simp (disch := decide) only [decodeScalar, si_major, shiftImm, si_d, si_a, si_imm, si_low, extract_upper, extract_lower, extract_whole, tOf_reg]
  simp [zero5, shiftImm]

theorem RoundTrip.ldI64 (d : BitVec 5) (a : BitVec 5) (imm : BitVec 16) : Statement (.ldI64 d a imm) := round_scalar _ _ rfl fun _ => by
  simp (disch := decide) only [decodeScalar, si_major, shiftImm, si_d, si_a, si_imm, si_low, extract_upper, extract_lower, extract_whole, tOf_reg]
  simp [zero5, shiftImm]

theorem RoundTrip.ldN8 (d : BitVec 5) (a : BitVec 5) (imm : BitVec 16) : Statement (.ldN8 d a imm) := round_scalar _ _ rfl fun _ => by
  simp (disch := decide) only [decodeScalar, si_major, shiftImm, si_d, si_a, si_imm, si_low, extract_upper, extract_lower, extract_whole, tOf_reg]
  simp [zero5, shiftImm]

theorem RoundTrip.ldN16 (d : BitVec 5) (a : BitVec 5) (imm : BitVec 16) : Statement (.ldN16 d a imm) := round_scalar _ _ rfl fun _ => by
  simp (disch := decide) only [decodeScalar, si_major, shiftImm, si_d, si_a, si_imm, si_low, extract_upper, extract_lower, extract_whole, tOf_reg]
  simp [zero5, shiftImm]

theorem RoundTrip.ldN32 (d : BitVec 5) (a : BitVec 5) (imm : BitVec 16) : Statement (.ldN32 d a imm) := round_scalar _ _ rfl fun _ => by
  simp (disch := decide) only [decodeScalar, si_major, shiftImm, si_d, si_a, si_imm, si_low, extract_upper, extract_lower, extract_whole, tOf_reg]
  simp [zero5, shiftImm]

theorem RoundTrip.st8 (d : BitVec 5) (a : BitVec 5) (imm : BitVec 16) : Statement (.st8 d a imm) := round_scalar _ _ rfl fun _ => by
  simp (disch := decide) only [decodeScalar, si_major, shiftImm, si_d, si_a, si_imm, si_low, extract_upper, extract_lower, extract_whole, tOf_reg]
  simp [zero5, shiftImm]

theorem RoundTrip.st16 (d : BitVec 5) (a : BitVec 5) (imm : BitVec 16) : Statement (.st16 d a imm) := round_scalar _ _ rfl fun _ => by
  simp (disch := decide) only [decodeScalar, si_major, shiftImm, si_d, si_a, si_imm, si_low, extract_upper, extract_lower, extract_whole, tOf_reg]
  simp [zero5, shiftImm]

theorem RoundTrip.st32 (d : BitVec 5) (a : BitVec 5) (imm : BitVec 16) : Statement (.st32 d a imm) := round_scalar _ _ rfl fun _ => by
  simp (disch := decide) only [decodeScalar, si_major, shiftImm, si_d, si_a, si_imm, si_low, extract_upper, extract_lower, extract_whole, tOf_reg]
  simp [zero5, shiftImm]

theorem RoundTrip.st64 (d : BitVec 5) (a : BitVec 5) (imm : BitVec 16) : Statement (.st64 d a imm) := round_scalar _ _ rfl fun _ => by
  simp (disch := decide) only [decodeScalar, si_major, shiftImm, si_d, si_a, si_imm, si_low, extract_upper, extract_lower, extract_whole, tOf_reg]
  simp [zero5, shiftImm]

theorem RoundTrip.ldim32 (d : BitVec 5) (a : BitVec 5) : Statement (.ldim32 d a) := round_scalar _ _ rfl fun _ => by
  rw [decodeMemory_word, decodeMemory]
  simp (disch := decide) only [sr_d, sr_a, sr_b, sr_fn, sr_low, extract_upper, extract_lower, extract_whole, tOf_reg]
  simp [zero5, shiftImm]

theorem RoundTrip.ldim64 (d : BitVec 5) (a : BitVec 5) : Statement (.ldim64 d a) := round_scalar _ _ rfl fun _ => by
  rw [decodeMemory_word, decodeMemory]
  simp (disch := decide) only [sr_d, sr_a, sr_b, sr_fn, sr_low, extract_upper, extract_lower, extract_whole, tOf_reg]
  simp [zero5, shiftImm]

theorem RoundTrip.stim32 (d : BitVec 5) (a : BitVec 5) : Statement (.stim32 d a) := round_scalar _ _ rfl fun _ => by
  rw [decodeMemory_word, decodeMemory]
  simp (disch := decide) only [sr_d, sr_a, sr_b, sr_fn, sr_low, extract_upper, extract_lower, extract_whole, tOf_reg]
  simp [zero5, shiftImm]

theorem RoundTrip.stim64 (d : BitVec 5) (a : BitVec 5) : Statement (.stim64 d a) := round_scalar _ _ rfl fun _ => by
  rw [decodeMemory_word, decodeMemory]
  simp (disch := decide) only [sr_d, sr_a, sr_b, sr_fn, sr_low, extract_upper, extract_lower, extract_whole, tOf_reg]
  simp [zero5, shiftImm]

theorem RoundTrip.futget (d : BitVec 5) (a : BitVec 5) (b : BitVec 5) : Statement (.futget d a b) := round_scalar _ _ rfl fun _ => by
  rw [decodeMemory_word, decodeMemory]
  simp (disch := decide) only [sr_d, sr_a, sr_b, sr_fn, sr_low, extract_upper, extract_lower, extract_whole, tOf_reg]
  simp [zero5, shiftImm]

theorem RoundTrip.futset (d : BitVec 5) (a : BitVec 5) (b : BitVec 5) : Statement (.futset d a b) := round_scalar _ _ rfl fun _ => by
  rw [decodeMemory_word, decodeMemory]
  simp (disch := decide) only [sr_d, sr_a, sr_b, sr_fn, sr_low, extract_upper, extract_lower, extract_whole, tOf_reg]
  simp [zero5, shiftImm]

theorem RoundTrip.futclr (a : BitVec 5) : Statement (.futclr a) := round_scalar _ _ rfl fun _ => by
  rw [decodeMemory_word, decodeMemory]
  simp (disch := decide) only [sr_d, sr_a, sr_b, sr_fn, sr_low, extract_upper, extract_lower, extract_whole, tOf_reg]
  simp [zero5, shiftImm]

theorem RoundTrip.smap (a : BitVec 5) (b : BitVec 5) : Statement (.smap a b) := round_scalar _ _ rfl fun _ => by
  rw [decodeMemory_word, decodeMemory]
  simp (disch := decide) only [sr_d, sr_a, sr_b, sr_fn, sr_low, extract_upper, extract_lower, extract_whole, tOf_reg]
  simp [zero5, shiftImm]

theorem RoundTrip.sunmap (a : BitVec 5) : Statement (.sunmap a) := round_scalar _ _ rfl fun _ => by
  rw [decodeMemory_word, decodeMemory]
  simp (disch := decide) only [sr_d, sr_a, sr_b, sr_fn, sr_low, extract_upper, extract_lower, extract_whole, tOf_reg]
  simp [zero5, shiftImm]

theorem RoundTrip.sflush (a : BitVec 5) : Statement (.sflush a) := round_scalar _ _ rfl fun _ => by
  rw [decodeMemory_word, decodeMemory]
  simp (disch := decide) only [sr_d, sr_a, sr_b, sr_fn, sr_low, extract_upper, extract_lower, extract_whole, tOf_reg]
  simp [zero5, shiftImm]

theorem RoundTrip.linv (a : BitVec 5) (b : BitVec 5) : Statement (.linv a b) := round_scalar _ _ rfl fun _ => by
  rw [decodeMemory_word, decodeMemory]
  simp (disch := decide) only [sr_d, sr_a, sr_b, sr_fn, sr_low, extract_upper, extract_lower, extract_whole, tOf_reg]
  simp [zero5, shiftImm]

theorem RoundTrip.wbr (a : BitVec 5) (b : BitVec 5) : Statement (.wbr a b) := round_scalar _ _ rfl fun _ => by
  rw [decodeMemory_word, decodeMemory]
  simp (disch := decide) only [sr_d, sr_a, sr_b, sr_fn, sr_low, extract_upper, extract_lower, extract_whole, tOf_reg]
  simp [zero5, shiftImm]

theorem RoundTrip.dswitch (a : BitVec 5) (b : BitVec 5) : Statement (.dswitch a b) := round_scalar _ _ rfl fun _ => by
  rw [decodeMemory_word, decodeMemory]
  simp (disch := decide) only [sr_d, sr_a, sr_b, sr_fn, sr_low, extract_upper, extract_lower, extract_whole, tOf_reg]
  simp [zero5, shiftImm]

theorem RoundTrip.phadv : Statement .phadv := round_scalar _ _ rfl fun _ => by
  rw [decodeMemory_word, decodeMemory]
  simp (disch := decide) only [sr_d, sr_a, sr_b, sr_fn, sr_low, extract_upper, extract_lower, extract_whole, tOf_reg]
  simp [zero5, shiftImm]

theorem RoundTrip.rst (d : BitVec 5) (a : BitVec 5) (b : BitVec 5) : Statement (.rst d a b) := round_scalar _ _ rfl fun _ => by
  rw [decodeMemory_word, decodeMemory]
  simp (disch := decide) only [sr_d, sr_a, sr_b, sr_fn, sr_low, extract_upper, extract_lower, extract_whole, tOf_reg]
  simp [zero5, shiftImm]

theorem RoundTrip.rstO (d : BitVec 5) (a : BitVec 5) (b : BitVec 5) : Statement (.rstO d a b) := round_scalar _ _ rfl fun _ => by
  rw [decodeMemory_word, decodeMemory]
  simp (disch := decide) only [sr_d, sr_a, sr_b, sr_fn, sr_low, extract_upper, extract_lower, extract_whole, tOf_reg]
  simp [zero5, shiftImm]

theorem RoundTrip.fenceE : Statement .fenceE := round_scalar _ _ rfl fun _ => by
  rw [decodeMemory_word, decodeMemory]
  simp (disch := decide) only [sr_d, sr_a, sr_b, sr_fn, sr_low, extract_upper, extract_lower, extract_whole, tOf_reg]
  simp [zero5, shiftImm]

theorem RoundTrip.fenceA : Statement .fenceA := round_scalar _ _ rfl fun _ => by
  rw [decodeMemory_word, decodeMemory]
  simp (disch := decide) only [sr_d, sr_a, sr_b, sr_fn, sr_low, extract_upper, extract_lower, extract_whole, tOf_reg]
  simp [zero5, shiftImm]

theorem RoundTrip.fenceQ : Statement .fenceQ := round_scalar _ _ rfl fun _ => by
  rw [decodeMemory_word, decodeMemory]
  simp (disch := decide) only [sr_d, sr_a, sr_b, sr_fn, sr_low, extract_upper, extract_lower, extract_whole, tOf_reg]
  simp [zero5, shiftImm]

theorem RoundTrip.fenceS : Statement .fenceS := round_scalar _ _ rfl fun _ => by
  rw [decodeMemory_word, decodeMemory]
  simp (disch := decide) only [sr_d, sr_a, sr_b, sr_fn, sr_low, extract_upper, extract_lower, extract_whole, tOf_reg]
  simp [zero5, shiftImm]

theorem RoundTrip.fenceAll : Statement .fenceAll := round_scalar _ _ rfl fun _ => by
  rw [decodeMemory_word, decodeMemory]
  simp (disch := decide) only [sr_d, sr_a, sr_b, sr_fn, sr_low, extract_upper, extract_lower, extract_whole, tOf_reg]
  simp [zero5, shiftImm]

theorem RoundTrip.amoAdd (d : BitVec 5) (a : BitVec 5) (b : BitVec 5) (acq : BitVec 1) (w : BitVec 1) : Statement (.amoAdd d a b acq w) := round_scalar _ _ rfl fun _ => by
  rw [decodeAtomic_word, decodeAtomic]
  simp (disch := decide) only [sr_d, sr_a, sr_b, sr_fn, sr_low, extract_upper, extract_lower, extract_whole, tOf_reg]
  simp [zero5, shiftImm]

theorem RoundTrip.amoMin (d : BitVec 5) (a : BitVec 5) (b : BitVec 5) (acq : BitVec 1) (w : BitVec 1) : Statement (.amoMin d a b acq w) := round_scalar _ _ rfl fun _ => by
  rw [decodeAtomic_word, decodeAtomic]
  simp (disch := decide) only [sr_d, sr_a, sr_b, sr_fn, sr_low, extract_upper, extract_lower, extract_whole, tOf_reg]
  simp [zero5, shiftImm]

theorem RoundTrip.amoMax (d : BitVec 5) (a : BitVec 5) (b : BitVec 5) (acq : BitVec 1) (w : BitVec 1) : Statement (.amoMax d a b acq w) := round_scalar _ _ rfl fun _ => by
  rw [decodeAtomic_word, decodeAtomic]
  simp (disch := decide) only [sr_d, sr_a, sr_b, sr_fn, sr_low, extract_upper, extract_lower, extract_whole, tOf_reg]
  simp [zero5, shiftImm]

theorem RoundTrip.amoAnd (d : BitVec 5) (a : BitVec 5) (b : BitVec 5) (acq : BitVec 1) (w : BitVec 1) : Statement (.amoAnd d a b acq w) := round_scalar _ _ rfl fun _ => by
  rw [decodeAtomic_word, decodeAtomic]
  simp (disch := decide) only [sr_d, sr_a, sr_b, sr_fn, sr_low, extract_upper, extract_lower, extract_whole, tOf_reg]
  simp [zero5, shiftImm]

theorem RoundTrip.amoOr (d : BitVec 5) (a : BitVec 5) (b : BitVec 5) (acq : BitVec 1) (w : BitVec 1) : Statement (.amoOr d a b acq w) := round_scalar _ _ rfl fun _ => by
  rw [decodeAtomic_word, decodeAtomic]
  simp (disch := decide) only [sr_d, sr_a, sr_b, sr_fn, sr_low, extract_upper, extract_lower, extract_whole, tOf_reg]
  simp [zero5, shiftImm]

theorem RoundTrip.amoXor (d : BitVec 5) (a : BitVec 5) (b : BitVec 5) (acq : BitVec 1) (w : BitVec 1) : Statement (.amoXor d a b acq w) := round_scalar _ _ rfl fun _ => by
  rw [decodeAtomic_word, decodeAtomic]
  simp (disch := decide) only [sr_d, sr_a, sr_b, sr_fn, sr_low, extract_upper, extract_lower, extract_whole, tOf_reg]
  simp [zero5, shiftImm]

theorem RoundTrip.amoSwap (d : BitVec 5) (a : BitVec 5) (b : BitVec 5) (acq : BitVec 1) (w : BitVec 1) : Statement (.amoSwap d a b acq w) := round_scalar _ _ rfl fun _ => by
  rw [decodeAtomic_word, decodeAtomic]
  simp (disch := decide) only [sr_d, sr_a, sr_b, sr_fn, sr_low, extract_upper, extract_lower, extract_whole, tOf_reg]
  simp [zero5, shiftImm]

theorem RoundTrip.amoCas (d : BitVec 5) (a : BitVec 5) (b : BitVec 5) (acq : BitVec 1) (w : BitVec 1) : Statement (.amoCas d a b acq w) := round_scalar _ _ rfl fun _ => by
  rw [decodeAtomic_word, decodeAtomic]
  simp (disch := decide) only [sr_d, sr_a, sr_b, sr_fn, sr_low, extract_upper, extract_lower, extract_whole, tOf_reg]
  simp [zero5, shiftImm]

theorem RoundTrip.amoFadd (d : BitVec 5) (a : BitVec 5) (b : BitVec 5) (acq : BitVec 1) : Statement (.amoFadd d a b acq) := round_scalar _ _ rfl fun _ => by
  rw [decodeAtomic_word, decodeAtomic]
  simp (disch := decide) only [sr_d, sr_a, sr_b, sr_fn, sr_low, extract_upper, extract_lower, extract_whole, tOf_reg]
  simp [zero5, shiftImm]

theorem RoundTrip.cpy (a : BitVec 5) (b : BitVec 5) : Statement (.cpy a b) := round_scalar _ _ rfl fun _ => by
  rw [decodeEngine_word, decodeEngine]
  simp (disch := decide) only [sr_d, sr_a, sr_b, sr_fn, sr_low, extract_upper, extract_lower, extract_whole, tOf_reg]
  simp [zero5, shiftImm]

theorem RoundTrip.gath (a : BitVec 5) (b : BitVec 5) : Statement (.gath a b) := round_scalar _ _ rfl fun _ => by
  rw [decodeEngine_word, decodeEngine]
  simp (disch := decide) only [sr_d, sr_a, sr_b, sr_fn, sr_low, extract_upper, extract_lower, extract_whole, tOf_reg]
  simp [zero5, shiftImm]

theorem RoundTrip.scat (a : BitVec 5) (b : BitVec 5) : Statement (.scat a b) := round_scalar _ _ rfl fun _ => by
  rw [decodeEngine_word, decodeEngine]
  simp (disch := decide) only [sr_d, sr_a, sr_b, sr_fn, sr_low, extract_upper, extract_lower, extract_whole, tOf_reg]
  simp [zero5, shiftImm]

theorem RoundTrip.mrg (a : BitVec 5) (b : BitVec 5) : Statement (.mrg a b) := round_scalar _ _ rfl fun _ => by
  rw [decodeEngine_word, decodeEngine]
  simp (disch := decide) only [sr_d, sr_a, sr_b, sr_fn, sr_low, extract_upper, extract_lower, extract_whole, tOf_reg]
  simp [zero5, shiftImm]

theorem RoundTrip.coll (a : BitVec 5) (b : BitVec 5) (vt : BitVec 2) (zd : BitVec 1) : Statement (.coll a b vt zd) := round_scalar _ _ rfl fun _ => by
  rw [decodeEngine_word, decodeEngine]
  simp (disch := decide) only [sr_d, sr_a, sr_b, sr_fn, sr_low, extract_upper, extract_lower, extract_whole, tOf_reg]
  simp [zero5, shiftImm]

theorem RoundTrip.evget (d : BitVec 5) : Statement (.evget d) := round_scalar _ _ rfl fun h => by
  simp [Instr.wellFormed] at h
  rw [decodeEngine_word, decodeEngine]
  simp (disch := decide) only [sr_d, sr_a, sr_b, sr_fn, sr_low, extract_upper, extract_lower, extract_whole, tOf_reg]
  simp [zero5, shiftImm, h]

theorem RoundTrip.hprobe (a : BitVec 5) (b : BitVec 5) : Statement (.hprobe a b) := round_scalar _ _ rfl fun _ => by
  rw [decodeEngine_word, decodeEngine]
  simp (disch := decide) only [sr_d, sr_a, sr_b, sr_fn, sr_low, extract_upper, extract_lower, extract_whole, tOf_reg]
  simp [zero5, shiftImm]

theorem RoundTrip.hins (a : BitVec 5) (b : BitVec 5) : Statement (.hins a b) := round_scalar _ _ rfl fun _ => by
  rw [decodeEngine_word, decodeEngine]
  simp (disch := decide) only [sr_d, sr_a, sr_b, sr_fn, sr_low, extract_upper, extract_lower, extract_whole, tOf_reg]
  simp [zero5, shiftImm]

theorem RoundTrip.tjoin (d : BitVec 3) (a : BitVec 3) (b : BitVec 3) : Statement (.tjoin d a b) := round_scalar _ _ rfl fun _ => by
  rw [decodeTime_word, decodeTime]
  simp (disch := decide) only [sr_d, sr_a, sr_b, sr_fn, sr_low, extract_upper, extract_lower, extract_whole, tOf_reg]
  simp [zero5, shiftImm]

theorem RoundTrip.tmeet (d : BitVec 3) (a : BitVec 3) (b : BitVec 3) : Statement (.tmeet d a b) := round_scalar _ _ rfl fun _ => by
  rw [decodeTime_word, decodeTime]
  simp (disch := decide) only [sr_d, sr_a, sr_b, sr_fn, sr_low, extract_upper, extract_lower, extract_whole, tOf_reg]
  simp [zero5, shiftImm]

theorem RoundTrip.tle (d : BitVec 5) (a : BitVec 3) (b : BitVec 3) : Statement (.tle d a b) := round_scalar _ _ rfl fun _ => by
  rw [decodeTime_word, decodeTime]
  simp (disch := decide) only [sr_d, sr_a, sr_b, sr_fn, sr_low, extract_upper, extract_lower, extract_whole, tOf_reg]
  simp [zero5, shiftImm]

theorem RoundTrip.tadv (d : BitVec 3) (a : BitVec 3) (b : BitVec 5) : Statement (.tadv d a b) := round_scalar _ _ rfl fun _ => by
  rw [decodeTime_word, decodeTime]
  simp (disch := decide) only [sr_d, sr_a, sr_b, sr_fn, sr_low, extract_upper, extract_lower, extract_whole, tOf_reg]
  simp [zero5, shiftImm]

theorem RoundTrip.tincE (d : BitVec 3) (a : BitVec 3) : Statement (.tincE d a) := round_scalar _ _ rfl fun _ => by
  rw [decodeTime_word, decodeTime]
  simp (disch := decide) only [sr_d, sr_a, sr_b, sr_fn, sr_low, extract_upper, extract_lower, extract_whole, tOf_reg]
  simp [zero5, shiftImm]

theorem RoundTrip.tinc1 (d : BitVec 3) (a : BitVec 3) : Statement (.tinc1 d a) := round_scalar _ _ rfl fun _ => by
  rw [decodeTime_word, decodeTime]
  simp (disch := decide) only [sr_d, sr_a, sr_b, sr_fn, sr_low, extract_upper, extract_lower, extract_whole, tOf_reg]
  simp [zero5, shiftImm]

theorem RoundTrip.tinc2 (d : BitVec 3) (a : BitVec 3) : Statement (.tinc2 d a) := round_scalar _ _ rfl fun _ => by
  rw [decodeTime_word, decodeTime]
  simp (disch := decide) only [sr_d, sr_a, sr_b, sr_fn, sr_low, extract_upper, extract_lower, extract_whole, tOf_reg]
  simp [zero5, shiftImm]

theorem RoundTrip.tinc3 (d : BitVec 3) (a : BitVec 3) : Statement (.tinc3 d a) := round_scalar _ _ rfl fun _ => by
  rw [decodeTime_word, decodeTime]
  simp (disch := decide) only [sr_d, sr_a, sr_b, sr_fn, sr_low, extract_upper, extract_lower, extract_whole, tOf_reg]
  simp [zero5, shiftImm]

theorem RoundTrip.tmk (d : BitVec 3) (a : BitVec 5) : Statement (.tmk d a) := round_scalar _ _ rfl fun _ => by
  rw [decodeTime_word, decodeTime]
  simp (disch := decide) only [sr_d, sr_a, sr_b, sr_fn, sr_low, extract_upper, extract_lower, extract_whole, tOf_reg]
  simp [zero5, shiftImm]

theorem RoundTrip.tfld (d : BitVec 5) (a : BitVec 3) (sel : BitVec 6) : Statement (.tfld d a sel) := round_scalar _ _ rfl fun h => by
  simp [Instr.wellFormed] at h
  rw [decodeTime_word, decodeTime]
  simp (disch := decide) only [sr_d, sr_a, sr_b, sr_fn, sr_low, extract_upper, extract_lower, extract_whole, tOf_reg]
  simp [zero5, shiftImm, h]

theorem RoundTrip.fget (d : BitVec 3) (scope : BitVec 3) (word : BitVec 2) : Statement (.fget d scope word) := round_scalar _ _ rfl fun _ => by
  rw [decodeTime_word, decodeTime]
  simp (disch := decide) only [sr_d, sr_a, sr_b, sr_fn, sr_low, extract_upper, extract_lower, extract_whole, tOf_reg]
  simp [zero5, shiftImm]

theorem RoundTrip.fwait (d : BitVec 5) (a : BitVec 3) (scope : BitVec 3) : Statement (.fwait d a scope) := round_scalar _ _ rfl fun _ => by
  rw [decodeTime_word, decodeTime]
  simp (disch := decide) only [sr_d, sr_a, sr_b, sr_fn, sr_low, extract_upper, extract_lower, extract_whole, tOf_reg]
  simp [zero5, shiftImm]

theorem RoundTrip.stkget (a : BitVec 3) (b : BitVec 5) (scope : BitVec 3) : Statement (.stkget a b scope) := round_scalar _ _ rfl fun _ => by
  rw [decodeTime_word, decodeTime]
  simp (disch := decide) only [sr_d, sr_a, sr_b, sr_fn, sr_low, extract_upper, extract_lower, extract_whole, tOf_reg]
  simp [zero5, shiftImm]

theorem RoundTrip.stkdrop (a : BitVec 3) (b : BitVec 5) (scope : BitVec 3) : Statement (.stkdrop a b scope) := round_scalar _ _ rfl fun _ => by
  rw [decodeTime_word, decodeTime]
  simp (disch := decide) only [sr_d, sr_a, sr_b, sr_fn, sr_low, extract_upper, extract_lower, extract_whole, tOf_reg]
  simp [zero5, shiftImm]

theorem RoundTrip.stkdn (a : BitVec 3) (b : BitVec 3) (scope : BitVec 3) : Statement (.stkdn a b scope) := round_scalar _ _ rfl fun _ => by
  rw [decodeTime_word, decodeTime]
  simp (disch := decide) only [sr_d, sr_a, sr_b, sr_fn, sr_low, extract_upper, extract_lower, extract_whole, tOf_reg]
  simp [zero5, shiftImm]

theorem RoundTrip.cfg (a : BitVec 5) : Statement (.cfg a) := round_scalar _ _ rfl fun _ => by
  rw [decodeFabric_word, decodeFabric]
  simp (disch := decide) only [sr_d, sr_a, sr_b, sr_fn, sr_low, extract_upper, extract_lower, extract_whole, tOf_reg]
  simp [zero5, shiftImm]

theorem RoundTrip.teard (a : BitVec 5) : Statement (.teard a) := round_scalar _ _ rfl fun _ => by
  rw [decodeFabric_word, decodeFabric]
  simp (disch := decide) only [sr_d, sr_a, sr_b, sr_fn, sr_low, extract_upper, extract_lower, extract_whole, tOf_reg]
  simp [zero5, shiftImm]

theorem RoundTrip.snd (d : BitVec 3) (a : BitVec 5) (b : BitVec 5) (cls : BitVec 3) : Statement (.snd d a b cls) := round_scalar _ _ rfl fun _ => by
  rw [decodeFabric_word, decodeFabric]
  simp (disch := decide) only [sr_d, sr_a, sr_b, sr_fn, sr_low, extract_upper, extract_lower, extract_whole, tOf_reg]
  simp [zero5, shiftImm]

theorem RoundTrip.sndO (d : BitVec 3) (a : BitVec 5) (b : BitVec 5) (cls : BitVec 3) : Statement (.sndO d a b cls) := round_scalar _ _ rfl fun _ => by
  rw [decodeFabric_word, decodeFabric]
  simp (disch := decide) only [sr_d, sr_a, sr_b, sr_fn, sr_low, extract_upper, extract_lower, extract_whole, tOf_reg]
  simp [zero5, shiftImm]

theorem RoundTrip.clsm (cls : BitVec 4) : Statement (.clsm cls) := round_scalar _ _ rfl fun h => by
  simp [Instr.wellFormed] at h
  rw [decodeFabric_word, decodeFabric]
  simp (disch := decide) only [sr_d, sr_a, sr_b, sr_fn, sr_low, extract_upper, extract_lower, extract_whole, tOf_reg]
  simp [zero5, shiftImm, h]

theorem RoundTrip.clsu (cls : BitVec 4) : Statement (.clsu cls) := round_scalar _ _ rfl fun h => by
  simp [Instr.wellFormed] at h
  rw [decodeFabric_word, decodeFabric]
  simp (disch := decide) only [sr_d, sr_a, sr_b, sr_fn, sr_low, extract_upper, extract_lower, extract_whole, tOf_reg]
  simp [zero5, shiftImm, h]

theorem RoundTrip.qspill (a : BitVec 5) (b : BitVec 5) (cls : BitVec 3) : Statement (.qspill a b cls) := round_scalar _ _ rfl fun _ => by
  rw [decodeFabric_word, decodeFabric]
  simp (disch := decide) only [sr_d, sr_a, sr_b, sr_fn, sr_low, extract_upper, extract_lower, extract_whole, tOf_reg]
  simp [zero5, shiftImm]

theorem RoundTrip.wfe : Statement .wfe := round_scalar _ _ rfl fun _ => by
  rw [decodeFabric_word, decodeFabric]
  simp (disch := decide) only [sr_d, sr_a, sr_b, sr_fn, sr_low, extract_upper, extract_lower, extract_whole, tOf_reg]
  simp [zero5, shiftImm]

theorem RoundTrip.halt : Statement .halt := round_scalar _ _ rfl fun _ => by
  rw [decodeFabric_word, decodeFabric]
  simp (disch := decide) only [sr_d, sr_a, sr_b, sr_fn, sr_low, extract_upper, extract_lower, extract_whole, tOf_reg]
  simp [zero5, shiftImm]

theorem RoundTrip.inj (d : BitVec 5) (a : BitVec 3) (row : BitVec 3) (slot : BitVec 5) (port : BitVec 1) : Statement (.inj d a row slot port) := round_scalar _ _ rfl fun _ => by
  simp (disch := decide) only [decodeScalar, si_major, shiftImm, si_d, si_a, si_imm, si_low, extract_upper, extract_lower, extract_whole, tOf_reg]
  simp [zero5, shiftImm]

theorem RoundTrip.drn (d : BitVec 5) (a : BitVec 3) (elem : BitVec 6) (slot : BitVec 5) (port : BitVec 1) : Statement (.drn d a elem slot port) := round_scalar _ _ rfl fun h => by
  simp [Instr.wellFormed] at h
  simp (disch := decide) only [decodeScalar, si_major, shiftImm, si_d, si_a, si_imm, si_low, extract_upper, extract_lower, extract_whole, tOf_reg]
  simp [zero5, shiftImm, h]

theorem RoundTrip.kset (d : BitVec 3) (a : BitVec 5) (elem : BitVec 6) : Statement (.kset d a elem) := round_scalar _ _ rfl fun _ => by
  rw [decodeKset_word, decodeKset]
  simp (disch := decide) only [sx_d, sx_a, sx_sys, sx_mid, sx_fn, extract_upper, extract_lower, extract_whole, tOf_reg]
  simp [zero5, shiftImm]

theorem RoundTrip.ksetAll (d : BitVec 3) (a : BitVec 5) : Statement (.ksetAll d a) := round_scalar _ _ rfl fun _ => by
  rw [decodeKset_word, decodeKset]
  simp (disch := decide) only [sx_d, sx_a, sx_sys, sx_mid, sx_fn, extract_upper, extract_lower, extract_whole, tOf_reg]
  simp [zero5, shiftImm]

theorem RoundTrip.sysrd (d : BitVec 5) (sys : BitVec 10) : Statement (.sysrd d sys) := round_scalar _ _ rfl fun _ => by
  rw [decodeSys_word, decodeSys]
  simp (disch := decide) only [sx_d, sx_a, sx_sys, sx_mid, sx_fn, extract_upper, extract_lower, extract_whole, tOf_reg]
  simp [zero5, shiftImm]

theorem RoundTrip.syswr (a : BitVec 5) (sys : BitVec 10) : Statement (.syswr a sys) := round_scalar _ _ rfl fun _ => by
  rw [decodeSys_word, decodeSys]
  simp (disch := decide) only [sx_d, sx_a, sx_sys, sx_mid, sx_fn, extract_upper, extract_lower, extract_whole, tOf_reg]
  simp [zero5, shiftImm]

theorem RoundTrip.spawn (d : BitVec 5) (a : BitVec 5) : Statement (.spawn d a) := round_scalar _ _ rfl fun _ => by
  rw [decodeScheduling_word, decodeScheduling]
  simp (disch := decide) only [sr_d, sr_a, sr_b, sr_fn, sr_low, extract_upper, extract_lower, extract_whole, tOf_reg]
  simp [zero5, shiftImm]

theorem RoundTrip.rng (a : BitVec 5) : Statement (.rng a) := round_scalar _ _ rfl fun h => by
  simp [Instr.wellFormed] at h
  rw [decodeScheduling_word, decodeScheduling]
  simp (disch := decide) only [sr_d, sr_a, sr_b, sr_fn, sr_low, extract_upper, extract_lower, extract_whole, tOf_reg]
  simp [zero5, shiftImm, h]

theorem RoundTrip.rngC (d : BitVec 5) : Statement (.rngC d) := round_scalar _ _ rfl fun h => by
  simp [Instr.wellFormed] at h
  rw [decodeScheduling_word, decodeScheduling]
  simp (disch := decide) only [sr_d, sr_a, sr_b, sr_fn, sr_low, extract_upper, extract_lower, extract_whole, tOf_reg]
  simp [zero5, shiftImm, h]

theorem RoundTrip.dcnt (a : BitVec 5) : Statement (.dcnt a) := round_scalar _ _ rfl fun _ => by
  rw [decodeScheduling_word, decodeScheduling]
  simp (disch := decide) only [sr_d, sr_a, sr_b, sr_fn, sr_low, extract_upper, extract_lower, extract_whole, tOf_reg]
  simp [zero5, shiftImm]

theorem RoundTrip.dset (a : BitVec 5) (b : BitVec 5) : Statement (.dset a b) := round_scalar _ _ rfl fun _ => by
  rw [decodeScheduling_word, decodeScheduling]
  simp (disch := decide) only [sr_d, sr_a, sr_b, sr_fn, sr_low, extract_upper, extract_lower, extract_whole, tOf_reg]
  simp [zero5, shiftImm]

theorem RoundTrip.cjoin (a : BitVec 5) : Statement (.cjoin a) := round_scalar _ _ rfl fun _ => by
  rw [decodeScheduling_word, decodeScheduling]
  simp (disch := decide) only [sr_d, sr_a, sr_b, sr_fn, sr_low, extract_upper, extract_lower, extract_whole, tOf_reg]
  simp [zero5, shiftImm]

theorem RoundTrip.cleave (a : BitVec 5) : Statement (.cleave a) := round_scalar _ _ rfl fun _ => by
  rw [decodeScheduling_word, decodeScheduling]
  simp (disch := decide) only [sr_d, sr_a, sr_b, sr_fn, sr_low, extract_upper, extract_lower, extract_whole, tOf_reg]
  simp [zero5, shiftImm]

theorem RoundTrip.cbar (a : BitVec 5) (b : BitVec 5) : Statement (.cbar a b) := round_scalar _ _ rfl fun _ => by
  rw [decodeScheduling_word, decodeScheduling]
  simp (disch := decide) only [sr_d, sr_a, sr_b, sr_fn, sr_low, extract_upper, extract_lower, extract_whole, tOf_reg]
  simp [zero5, shiftImm]

theorem RoundTrip.yield : Statement .yield := round_scalar _ _ rfl fun _ => by
  rw [decodeScheduling_word, decodeScheduling]
  simp (disch := decide) only [sr_d, sr_a, sr_b, sr_fn, sr_low, extract_upper, extract_lower, extract_whole, tOf_reg]
  simp [zero5, shiftImm]

theorem RoundTrip.fin : Statement .fin := round_scalar _ _ rfl fun _ => by
  rw [decodeScheduling_word, decodeScheduling]
  simp (disch := decide) only [sr_d, sr_a, sr_b, sr_fn, sr_low, extract_upper, extract_lower, extract_whole, tOf_reg]
  simp [zero5, shiftImm]

theorem RoundTrip.prio (a : BitVec 5) : Statement (.prio a) := round_scalar _ _ rfl fun _ => by
  rw [decodeScheduling_word, decodeScheduling]
  simp (disch := decide) only [sr_d, sr_a, sr_b, sr_fn, sr_low, extract_upper, extract_lower, extract_whole, tOf_reg]
  simp [zero5, shiftImm]

theorem RoundTrip.tret : Statement .tret := round_scalar _ _ rfl fun _ => by
  rw [decodeTrap_word, decodeTrap]
  simp (disch := decide) only [sr_d, sr_a, sr_b, sr_fn, sr_low, extract_upper, extract_lower, extract_whole, tOf_reg]
  simp [zero5, shiftImm]

theorem RoundTrip.ctxsv (d : BitVec 5) (a : BitVec 5) (b : BitVec 5) : Statement (.ctxsv d a b) := round_scalar _ _ rfl fun _ => by
  rw [decodeTrap_word, decodeTrap]
  simp (disch := decide) only [sr_d, sr_a, sr_b, sr_fn, sr_low, extract_upper, extract_lower, extract_whole, tOf_reg]
  simp [zero5, shiftImm]

theorem RoundTrip.ctxld (a : BitVec 5) : Statement (.ctxld a) := round_scalar _ _ rfl fun _ => by
  rw [decodeTrap_word, decodeTrap]
  simp (disch := decide) only [sr_d, sr_a, sr_b, sr_fn, sr_low, extract_upper, extract_lower, extract_whole, tOf_reg]
  simp [zero5, shiftImm]

theorem RoundTrip.tmigr (a : BitVec 5) : Statement (.tmigr a) := round_scalar _ _ rfl fun _ => by
  rw [decodeTrap_word, decodeTrap]
  simp (disch := decide) only [sr_d, sr_a, sr_b, sr_fn, sr_low, extract_upper, extract_lower, extract_whole, tOf_reg]
  simp [zero5, shiftImm]

theorem RoundTrip.brk : Statement .brk := round_scalar _ _ rfl fun _ => by
  rw [decodeTrap_word, decodeTrap]
  simp (disch := decide) only [sr_d, sr_a, sr_b, sr_fn, sr_low, extract_upper, extract_lower, extract_whole, tOf_reg]
  simp [zero5, shiftImm]

theorem RoundTrip.spt (imm : BitVec 16) : Statement (.spt imm) := round_scalar _ _ rfl fun _ => by
  simp (disch := decide) only [decodeScalar, si_major, shiftImm, si_d, si_a, si_imm, si_low, extract_upper, extract_lower, extract_whole, tOf_reg]
  simp [zero5, shiftImm]

theorem RoundTrip.trap (imm : BitVec 16) : Statement (.trap imm) := round_scalar _ _ rfl fun _ => by
  simp (disch := decide) only [decodeScalar, si_major, shiftImm, si_d, si_a, si_imm, si_low, extract_upper, extract_lower, extract_whole, tOf_reg]
  simp [zero5, shiftImm]

theorem RoundTrip.eAdd (rm : BitVec 3) (w : EW) : Statement (.eAdd rm w) := round_elem _ _ rfl fun h => by
  have h : rm.toNat < 5 := of_decide_eq_true h
  rw [decodeElem]
  simp only [elem_op, elem_fields, rounding_op]
  rw [extract_upper 0x00#6 rm 3 6 (by decide), extract_lower 0x00#6 rm 0 3 (by decide), extract_whole, extract_whole]
  simp [decodeRounding, h, show rm.toNat < 104 by omega]

theorem RoundTrip.eSub (rm : BitVec 3) (w : EW) : Statement (.eSub rm w) := round_elem _ _ rfl fun h => by
  have h : rm.toNat < 5 := of_decide_eq_true h
  rw [decodeElem]
  simp only [elem_op, elem_fields, rounding_op]
  rw [extract_upper 0x01#6 rm 3 6 (by decide), extract_lower 0x01#6 rm 0 3 (by decide), extract_whole, extract_whole]
  simp [decodeRounding, h, show 8 + rm.toNat < 104 by omega]

theorem RoundTrip.eMul (rm : BitVec 3) (w : EW) : Statement (.eMul rm w) := round_elem _ _ rfl fun h => by
  have h : rm.toNat < 5 := of_decide_eq_true h
  rw [decodeElem]
  simp only [elem_op, elem_fields, rounding_op]
  rw [extract_upper 0x02#6 rm 3 6 (by decide), extract_lower 0x02#6 rm 0 3 (by decide), extract_whole, extract_whole]
  simp [decodeRounding, h, show 16 + rm.toNat < 104 by omega]

theorem RoundTrip.eMad (rm : BitVec 3) (w : EW) : Statement (.eMad rm w) := round_elem _ _ rfl fun h => by
  have h : rm.toNat < 5 := of_decide_eq_true h
  rw [decodeElem]
  simp only [elem_op, elem_fields, rounding_op]
  rw [extract_upper 0x03#6 rm 3 6 (by decide), extract_lower 0x03#6 rm 0 3 (by decide), extract_whole, extract_whole]
  simp [decodeRounding, h, show 24 + rm.toNat < 104 by omega]

theorem RoundTrip.eVadd (rm : BitVec 3) (w : EW) : Statement (.eVadd rm w) := round_elem _ _ rfl fun h => by
  have h : rm.toNat < 5 := of_decide_eq_true h
  rw [decodeElem]
  simp only [elem_op, elem_fields, rounding_op]
  rw [extract_upper 0x04#6 rm 3 6 (by decide), extract_lower 0x04#6 rm 0 3 (by decide), extract_whole, extract_whole]
  simp [decodeRounding, h, show 32 + rm.toNat < 104 by omega]

theorem RoundTrip.eVsub (rm : BitVec 3) (w : EW) : Statement (.eVsub rm w) := round_elem _ _ rfl fun h => by
  have h : rm.toNat < 5 := of_decide_eq_true h
  rw [decodeElem]
  simp only [elem_op, elem_fields, rounding_op]
  rw [extract_upper 0x05#6 rm 3 6 (by decide), extract_lower 0x05#6 rm 0 3 (by decide), extract_whole, extract_whole]
  simp [decodeRounding, h, show 40 + rm.toNat < 104 by omega]

theorem RoundTrip.eVmul (rm : BitVec 3) (w : EW) : Statement (.eVmul rm w) := round_elem _ _ rfl fun h => by
  have h : rm.toNat < 5 := of_decide_eq_true h
  rw [decodeElem]
  simp only [elem_op, elem_fields, rounding_op]
  rw [extract_upper 0x06#6 rm 3 6 (by decide), extract_lower 0x06#6 rm 0 3 (by decide), extract_whole, extract_whole]
  simp [decodeRounding, h, show 48 + rm.toNat < 104 by omega]

theorem RoundTrip.eVfma (rm : BitVec 3) (w : EW) : Statement (.eVfma rm w) := round_elem _ _ rfl fun h => by
  have h : rm.toNat < 5 := of_decide_eq_true h
  rw [decodeElem]
  simp only [elem_op, elem_fields, rounding_op]
  rw [extract_upper 0x07#6 rm 3 6 (by decide), extract_lower 0x07#6 rm 0 3 (by decide), extract_whole, extract_whole]
  simp [decodeRounding, h, show 56 + rm.toNat < 104 by omega]

theorem RoundTrip.eVred (rm : BitVec 3) (w : EW) : Statement (.eVred rm w) := round_elem _ _ rfl fun h => by
  have h : rm.toNat < 5 := of_decide_eq_true h
  rw [decodeElem]
  simp only [elem_op, elem_fields, rounding_op]
  rw [extract_upper 0x08#6 rm 3 6 (by decide), extract_lower 0x08#6 rm 0 3 (by decide), extract_whole, extract_whole]
  simp [decodeRounding, h, show 64 + rm.toNat < 104 by omega]

theorem RoundTrip.eCvt (rm : BitVec 3) (w : EW) : Statement (.eCvt rm w) := round_elem _ _ rfl fun h => by
  have h : rm.toNat < 5 := of_decide_eq_true h
  rw [decodeElem]
  simp only [elem_op, elem_fields, rounding_op]
  rw [extract_upper 0x09#6 rm 3 6 (by decide), extract_lower 0x09#6 rm 0 3 (by decide), extract_whole, extract_whole]
  simp [decodeRounding, h, show 72 + rm.toNat < 104 by omega]

theorem RoundTrip.eCvts (rm : BitVec 3) (w : EW) : Statement (.eCvts rm w) := round_elem _ _ rfl fun h => by
  have h : rm.toNat < 5 := of_decide_eq_true h
  rw [decodeElem]
  simp only [elem_op, elem_fields, rounding_op]
  rw [extract_upper 0x0A#6 rm 3 6 (by decide), extract_lower 0x0A#6 rm 0 3 (by decide), extract_whole, extract_whole]
  simp [decodeRounding, h, show 80 + rm.toNat < 104 by omega]

theorem RoundTrip.eVcvt (rm : BitVec 3) (w : EW) : Statement (.eVcvt rm w) := round_elem _ _ rfl fun h => by
  have h : rm.toNat < 5 := of_decide_eq_true h
  rw [decodeElem]
  simp only [elem_op, elem_fields, rounding_op]
  rw [extract_upper 0x0B#6 rm 3 6 (by decide), extract_lower 0x0B#6 rm 0 3 (by decide), extract_whole, extract_whole]
  simp [decodeRounding, h, show 88 + rm.toNat < 104 by omega]

theorem RoundTrip.ePack (rm : BitVec 3) (w : EW) : Statement (.ePack rm w) := round_elem _ _ rfl fun h => by
  have h : rm.toNat < 5 := of_decide_eq_true h
  rw [decodeElem]
  simp only [elem_op, elem_fields, rounding_op]
  rw [extract_upper 0x0C#6 rm 3 6 (by decide), extract_lower 0x0C#6 rm 0 3 (by decide), extract_whole, extract_whole]
  simp [decodeRounding, h, show 96 + rm.toNat < 104 by omega]

theorem RoundTrip.eMin (w : EW) : Statement (.eMin w) := round_elem _ _ rfl fun _ => by
  rw [decodeElem, elem_op, elem_fields]
  rfl

theorem RoundTrip.eMax (w : EW) : Statement (.eMax w) := round_elem _ _ rfl fun _ => by
  rw [decodeElem, elem_op, elem_fields]
  rfl

theorem RoundTrip.eAbs (w : EW) : Statement (.eAbs w) := round_elem _ _ rfl fun _ => by
  rw [decodeElem, elem_op, elem_fields]
  rfl

theorem RoundTrip.eNeg (w : EW) : Statement (.eNeg w) := round_elem _ _ rfl fun _ => by
  rw [decodeElem, elem_op, elem_fields]
  rfl

theorem RoundTrip.eAnd (w : EW) : Statement (.eAnd w) := round_elem _ _ rfl fun _ => by
  rw [decodeElem, elem_op, elem_fields]
  rfl

theorem RoundTrip.eOr (w : EW) : Statement (.eOr w) := round_elem _ _ rfl fun _ => by
  rw [decodeElem, elem_op, elem_fields]
  rfl

theorem RoundTrip.eXor (w : EW) : Statement (.eXor w) := round_elem _ _ rfl fun _ => by
  rw [decodeElem, elem_op, elem_fields]
  rfl

theorem RoundTrip.eShl (w : EW) : Statement (.eShl w) := round_elem _ _ rfl fun _ => by
  rw [decodeElem, elem_op, elem_fields]
  rfl

theorem RoundTrip.eShr (w : EW) : Statement (.eShr w) := round_elem _ _ rfl fun _ => by
  rw [decodeElem, elem_op, elem_fields]
  rfl

theorem RoundTrip.eSar (w : EW) : Statement (.eSar w) := round_elem _ _ rfl fun _ => by
  rw [decodeElem, elem_op, elem_fields]
  rfl

theorem RoundTrip.eCeq (w : EW) : Statement (.eCeq w) := round_elem _ _ rfl fun _ => by
  rw [decodeElem, elem_op, elem_fields]
  rfl

theorem RoundTrip.eCne (w : EW) : Statement (.eCne w) := round_elem _ _ rfl fun _ => by
  rw [decodeElem, elem_op, elem_fields]
  rfl

theorem RoundTrip.eClt (w : EW) : Statement (.eClt w) := round_elem _ _ rfl fun _ => by
  rw [decodeElem, elem_op, elem_fields]
  rfl

theorem RoundTrip.eCle (w : EW) : Statement (.eCle w) := round_elem _ _ rfl fun _ => by
  rw [decodeElem, elem_op, elem_fields]
  rfl

theorem RoundTrip.eSel (w : EW) : Statement (.eSel w) := round_elem _ _ rfl fun _ => by
  rw [decodeElem, elem_op, elem_fields]
  rfl

theorem RoundTrip.eMov (w : EW) : Statement (.eMov w) := round_elem _ _ rfl fun _ => by
  rw [decodeElem, elem_op, elem_fields]
  rfl

theorem RoundTrip.eClz (w : EW) : Statement (.eClz w) := round_elem _ _ rfl fun _ => by
  rw [decodeElem, elem_op, elem_fields]
  rfl

theorem RoundTrip.eExt (w : EW) : Statement (.eExt w) := round_elem _ _ rfl fun _ => by
  rw [decodeElem, elem_op, elem_fields]
  rfl

theorem RoundTrip.eUnpack (w : EW) : Statement (.eUnpack w) := round_elem _ _ rfl fun _ => by
  rw [decodeElem, elem_op, elem_fields]
  rfl

theorem RoundTrip.eVmin (w : EW) : Statement (.eVmin w) := round_elem _ _ rfl fun _ => by
  rw [decodeElem, elem_op, elem_fields]
  rfl

theorem RoundTrip.eVmax (w : EW) : Statement (.eVmax w) := round_elem _ _ rfl fun _ => by
  rw [decodeElem, elem_op, elem_fields]
  rfl

theorem RoundTrip.eVbc (w : EW) : Statement (.eVbc w) := round_elem _ _ rfl fun _ => by
  rw [decodeElem, elem_op, elem_fields]
  rfl

theorem RoundTrip.eVins (w : EW) : Statement (.eVins w) := round_elem _ _ rfl fun _ => by
  rw [decodeElem, elem_op, elem_fields]
  rfl

theorem RoundTrip.eVext (w : EW) : Statement (.eVext w) := round_elem _ _ rfl fun _ => by
  rw [decodeElem, elem_op, elem_fields]
  rfl

theorem RoundTrip.eSteer (w : EW) : Statement (.eSteer w) := round_elem _ _ rfl fun _ => by
  rw [decodeElem, elem_op, elem_fields]
  rfl

theorem RoundTrip.eMerge (w : EW) : Statement (.eMerge w) := round_elem _ _ rfl fun _ => by
  rw [decodeElem, elem_op, elem_fields]
  rfl

theorem RoundTrip.eGate (w : EW) : Statement (.eGate w) := round_elem _ _ rfl fun _ => by
  rw [decodeElem, elem_op, elem_fields]
  rfl

theorem RoundTrip.eTjn (w : EW) : Statement (.eTjn w) := round_elem _ _ rfl fun _ => by
  rw [decodeElem, elem_op, elem_fields]
  rfl

theorem RoundTrip.eTle (w : EW) : Statement (.eTle w) := round_elem _ _ rfl fun _ => by
  rw [decodeElem, elem_op, elem_fields]
  rfl

theorem RoundTrip.eTadv (w : EW) : Statement (.eTadv w) := round_elem _ _ rfl fun _ => by
  rw [decodeElem, elem_op, elem_fields]
  rfl

theorem RoundTrip.eTgt (w : EW) : Statement (.eTgt w) := round_elem _ _ rfl fun _ => by
  rw [decodeElem, elem_op, elem_fields]
  rfl

theorem RoundTrip.eTst (w : EW) : Statement (.eTst w) := round_elem _ _ rfl fun _ => by
  rw [decodeElem, elem_op, elem_fields]
  rfl

theorem RoundTrip.eCtr (w : EW) : Statement (.eCtr w) := round_elem _ _ rfl fun _ => by
  rw [decodeElem, elem_op, elem_fields]
  rfl

theorem RoundTrip.eCtrb (w : EW) : Statement (.eCtrb w) := round_elem _ _ rfl fun _ => by
  rw [decodeElem, elem_op, elem_fields]
  rfl

theorem RoundTrip.ctrbBoundAbsorb (p e slot : Nat) : Statement (.ctrbBoundAbsorb p e slot) := round_none _ rfl

theorem RoundTrip.eRpt (w : EW) : Statement (.eRpt w) := round_elem _ _ rfl fun _ => by
  rw [decodeElem, elem_op, elem_fields]
  rfl

theorem RoundTrip.rptTokenAbsorb (p e slot port : Nat) : Statement (.rptTokenAbsorb p e slot port) := round_none _ rfl

theorem RoundTrip.eEmit (w : EW) : Statement (.eEmit w) := round_elem _ _ rfl fun _ => by
  rw [decodeElem, elem_op, elem_fields]
  rfl

theorem RoundTrip.eSink (w : EW) : Statement (.eSink w) := round_elem _ _ rfl fun _ => by
  rw [decodeElem, elem_op, elem_fields]
  rfl

theorem RoundTrip.eMark (w : EW) : Statement (.eMark w) := round_elem _ _ rfl fun _ => by
  rw [decodeElem, elem_op, elem_fields]
  rfl

theorem RoundTrip.eTdn (w : EW) : Statement (.eTdn w) := round_elem _ _ rfl fun _ => by
  rw [decodeElem, elem_op, elem_fields]
  rfl

theorem RoundTrip.eCmpl (w : EW) : Statement (.eCmpl w) := round_elem _ _ rfl fun _ => by
  rw [decodeElem, elem_op, elem_fields]
  rfl

theorem RoundTrip.eLdst (w : EW) : Statement (.eLdst w) := round_elem _ _ rfl fun _ => by
  rw [decodeElem, elem_op, elem_fields]
  rfl

theorem RoundTrip.eLdr (w : EW) : Statement (.eLdr w) := round_elem _ _ rfl fun _ => by
  rw [decodeElem, elem_op, elem_fields]
  rfl

theorem RoundTrip.eStr (w : EW) : Statement (.eStr w) := round_elem _ _ rfl fun _ => by
  rw [decodeElem, elem_op, elem_fields]
  rfl

theorem RoundTrip.eVld (w : EW) : Statement (.eVld w) := round_elem _ _ rfl fun _ => by
  rw [decodeElem, elem_op, elem_fields]
  rfl

theorem RoundTrip.eVst (w : EW) : Statement (.eVst w) := round_elem _ _ rfl fun _ => by
  rw [decodeElem, elem_op, elem_fields]
  rfl

theorem RoundTrip.eUpdAdd (w : EW) : Statement (.eUpdAdd w) := round_elem _ _ rfl fun _ => by
  rw [decodeElem, elem_op, elem_fields]
  rfl

theorem RoundTrip.eUpdMin (w : EW) : Statement (.eUpdMin w) := round_elem _ _ rfl fun _ => by
  rw [decodeElem, elem_op, elem_fields]
  rfl

theorem RoundTrip.eUpdMax (w : EW) : Statement (.eUpdMax w) := round_elem _ _ rfl fun _ => by
  rw [decodeElem, elem_op, elem_fields]
  rfl

theorem RoundTrip.eUpdOr (w : EW) : Statement (.eUpdOr w) := round_elem _ _ rfl fun _ => by
  rw [decodeElem, elem_op, elem_fields]
  rfl

theorem RoundTrip.eUpdSwap (w : EW) : Statement (.eUpdSwap w) := round_elem _ _ rfl fun _ => by
  rw [decodeElem, elem_op, elem_fields]
  rfl

theorem RoundTrip.eAmoAdd (w : EW) : Statement (.eAmoAdd w) := round_elem _ _ rfl fun _ => by
  rw [decodeElem, elem_op, elem_fields]
  rfl

theorem RoundTrip.eAmoMin (w : EW) : Statement (.eAmoMin w) := round_elem _ _ rfl fun _ => by
  rw [decodeElem, elem_op, elem_fields]
  rfl

theorem RoundTrip.eAmoMax (w : EW) : Statement (.eAmoMax w) := round_elem _ _ rfl fun _ => by
  rw [decodeElem, elem_op, elem_fields]
  rfl

theorem RoundTrip.eAmoAnd (w : EW) : Statement (.eAmoAnd w) := round_elem _ _ rfl fun _ => by
  rw [decodeElem, elem_op, elem_fields]
  rfl

theorem RoundTrip.eAmoOr (w : EW) : Statement (.eAmoOr w) := round_elem _ _ rfl fun _ => by
  rw [decodeElem, elem_op, elem_fields]
  rfl

theorem RoundTrip.eAmoXor (w : EW) : Statement (.eAmoXor w) := round_elem _ _ rfl fun _ => by
  rw [decodeElem, elem_op, elem_fields]
  rfl

theorem RoundTrip.eAmoSwap (w : EW) : Statement (.eAmoSwap w) := round_elem _ _ rfl fun _ => by
  rw [decodeElem, elem_op, elem_fields]
  rfl

theorem RoundTrip.eAmoCas (w : EW) : Statement (.eAmoCas w) := round_elem _ _ rfl fun _ => by
  rw [decodeElem, elem_op, elem_fields]
  rfl

theorem RoundTrip.eAmoFadd (w : EW) : Statement (.eAmoFadd w) := round_elem _ _ rfl fun _ => by
  rw [decodeElem, elem_op, elem_fields]
  rfl

theorem RoundTrip.memportAccessPerformed (p row n : Nat) : Statement (.memportAccessPerformed p row n) := round_none _ rfl

theorem RoundTrip.eMpre (fmt : BitVec 2) (w : EW) : Statement (.eMpre fmt w) := round_elem _ _ rfl fun _ => by
  rcases two_bits fmt with rfl | rfl | rfl | rfl <;> (rw [decodeElem, elem_op, elem_fields]; rfl)

theorem RoundTrip.eMrow (fmt : BitVec 2) (w : EW) : Statement (.eMrow fmt w) := round_elem _ _ rfl fun _ => by
  rcases two_bits fmt with rfl | rfl | rfl | rfl <;> (rw [decodeElem, elem_op, elem_fields]; rfl)

theorem RoundTrip.eMdrn (fmt : BitVec 2) (w : EW) : Statement (.eMdrn fmt w) := round_elem _ _ rfl fun _ => by
  rcases two_bits fmt with rfl | rfl | rfl | rfl <;> (rw [decodeElem, elem_op, elem_fields]; rfl)

theorem RoundTrip.eMsca (w : EW) : Statement (.eMsca w) := round_elem _ _ rfl fun _ => by
  rw [decodeElem, elem_op, elem_fields]
  rfl

theorem RoundTrip.eMband (w : EW) : Statement (.eMband w) := round_elem _ _ rfl fun _ => by
  rw [decodeElem, elem_op, elem_fields]
  rfl

theorem RoundTrip.eMmode (w : EW) : Statement (.eMmode w) := round_elem _ _ rfl fun _ => by
  rw [decodeElem, elem_op, elem_fields]
  rfl

theorem RoundTrip.segmentStart (p e slot : Nat) : Statement (.segmentStart p e slot) := round_none _ rfl

theorem RoundTrip.segmentEnd (p row : Nat) : Statement (.segmentEnd p row) := round_none _ rfl

theorem RoundTrip.eSnd (w : EW) : Statement (.eSnd w) := round_elem _ _ rfl fun _ => by
  rw [decodeElem, elem_op, elem_fields]
  rfl

theorem RoundTrip.eSndO (w : EW) : Statement (.eSndO w) := round_elem _ _ rfl fun _ => by
  rw [decodeElem, elem_op, elem_fields]
  rfl

theorem RoundTrip.eAprobe (w : EW) : Statement (.eAprobe w) := round_elem _ _ rfl fun _ => by
  rw [decodeElem, elem_op, elem_fields]
  rfl

theorem RoundTrip.eHprobe (w : EW) : Statement (.eHprobe w) := round_elem _ _ rfl fun _ => by
  rw [decodeElem, elem_op, elem_fields]
  rfl

theorem RoundTrip.eCons (w : EW) : Statement (.eCons w) := round_elem _ _ rfl fun _ => by
  rw [decodeElem, elem_op, elem_fields]
  rfl

theorem RoundTrip.safePointDistanceFault (p : Nat) (k : Kind) : Statement (.safePointDistanceFault p k) := round_none _ rfl

theorem RoundTrip.counterIndexEmit (p e slot : Nat) : Statement (.counterIndexEmit p e slot) := round_none _ rfl

theorem RoundTrip.rptCopyEmit (p e slot : Nat) : Statement (.rptCopyEmit p e slot) := round_none _ rfl

theorem RoundTrip.illegalInstruction (word : BitVec 32) : Statement (.illegalInstruction word) := round_none _ rfl

theorem RoundTrip.tokenTaken (p e slot port : Nat) : Statement (.tokenTaken p e slot port) := round_none _ rfl

theorem RoundTrip.markerPass (p e : Nat) : Statement (.markerPass p e) := round_none _ rfl

theorem RoundTrip.teardownTokenLeave (p e : Nat) : Statement (.teardownTokenLeave p e) := round_none _ rfl

theorem RoundTrip.elementFlip (p e : Nat) : Statement (.elementFlip p e) := round_none _ rfl

theorem RoundTrip.configImageLoad (p : Nat) : Statement (.configImageLoad p) := round_none _ rfl

theorem RoundTrip.elementDistanceFault (p e : Nat) : Statement (.elementDistanceFault p e) := round_none _ rfl

theorem RoundTrip.grantArrival (p e : Nat) : Statement (.grantArrival p e) := round_none _ rfl

theorem RoundTrip.fuseeClockStep (die : Nat) (stp : BitVec 2) : Statement (.fuseeClockStep die stp) := round_none _ rfl

theorem RoundTrip.msgArrival (n : Nat) : Statement (.msgArrival n) := round_none _ rfl

theorem RoundTrip.inboundQueueRefill (p cls : Nat) : Statement (.inboundQueueRefill p cls) := round_none _ rfl

theorem RoundTrip.handlerFiringStart (p cls : Nat) : Statement (.handlerFiringStart p cls) := round_none _ rfl

theorem RoundTrip.fabricDelivery (p cls : Nat) : Statement (.fabricDelivery p cls) := round_none _ rfl

theorem RoundTrip.rstDelivery (n : Nat) : Statement (.rstDelivery n) := round_none _ rfl

theorem RoundTrip.orderedHoldRelease (p n : Nat) : Statement (.orderedHoldRelease p n) := round_none _ rfl

theorem RoundTrip.ackSend (p src plane count : Nat) : Statement (.ackSend p src plane count) := round_none _ rfl

theorem RoundTrip.ackArrival (n : Nat) : Statement (.ackArrival n) := round_none _ rfl

theorem RoundTrip.nakArrival (n : Nat) : Statement (.nakArrival n) := round_none _ rfl

theorem RoundTrip.fdsp (n : Nat) : Statement (.fdsp n) := round_none _ rfl

theorem RoundTrip.spwn (n : Nat) : Statement (.spwn n) := round_none _ rfl

theorem RoundTrip.spref (n : Nat) : Statement (.spref n) := round_none _ rfl

theorem RoundTrip.spawnRetry (p n : Nat) : Statement (.spawnRetry p n) := round_none _ rfl

theorem RoundTrip.cntopDecrement (n : Nat) : Statement (.cntopDecrement n) := round_none _ rfl

theorem RoundTrip.cntopSet (n : Nat) : Statement (.cntopSet n) := round_none _ rfl

theorem RoundTrip.cntopAdd (n : Nat) : Statement (.cntopAdd n) := round_none _ rfl

theorem RoundTrip.kreqCjoin (n : Nat) : Statement (.kreqCjoin n) := round_none _ rfl

theorem RoundTrip.kreqCleave (n : Nat) : Statement (.kreqCleave n) := round_none _ rfl

theorem RoundTrip.kreqCbar (n : Nat) : Statement (.kreqCbar n) := round_none _ rfl

theorem RoundTrip.kreqRngOpen (n : Nat) : Statement (.kreqRngOpen n) := round_none _ rfl

theorem RoundTrip.kreqRngClaim (n : Nat) : Statement (.kreqRngClaim n) := round_none _ rfl

theorem RoundTrip.kreqWorkRequest (n : Nat) : Statement (.kreqWorkRequest n) := round_none _ rfl

theorem RoundTrip.kreqPieceRelease (n : Nat) : Statement (.kreqPieceRelease n) := round_none _ rfl

theorem RoundTrip.krepBarrierCompletion (n : Nat) : Statement (.krepBarrierCompletion n) := round_none _ rfl

theorem RoundTrip.krepRangeOpened (n : Nat) : Statement (.krepRangeOpened n) := round_none _ rfl

theorem RoundTrip.krepClaimReply (n : Nat) : Statement (.krepClaimReply n) := round_none _ rfl

theorem RoundTrip.krepPieceGranted (n : Nat) : Statement (.krepPieceGranted n) := round_none _ rfl

theorem RoundTrip.krepNoWork (n : Nat) : Statement (.krepNoWork n) := round_none _ rfl

theorem RoundTrip.workRequestTimer (p : Nat) (k : Kind) : Statement (.workRequestTimer p k) := round_none _ rfl

theorem RoundTrip.readyAging (p : Nat) (k : Kind) (level : Nat) : Statement (.readyAging p k level) := round_none _ rfl

theorem RoundTrip.firingStart (p : Nat) (k : Kind) : Statement (.firingStart p k) := round_none _ rfl

theorem RoundTrip.probeMessage (p : Nat) (op : ProbeOp) : Statement (.probeMessage p op) := round_none _ rfl

theorem RoundTrip.l2Renewal (n : Nat) : Statement (.l2Renewal n) := round_none _ rfl

theorem RoundTrip.l2Publication (n : Nat) : Statement (.l2Publication n) := round_none _ rfl

theorem RoundTrip.l2ImmediateAccess (n : Nat) : Statement (.l2ImmediateAccess n) := round_none _ rfl

theorem RoundTrip.l2Atomic (n : Nat) : Statement (.l2Atomic n) := round_none _ rfl

theorem RoundTrip.l2FutureOperation (n : Nat) : Statement (.l2FutureOperation n) := round_none _ rfl

theorem RoundTrip.bankConflictRelease (die slice bank : Nat) : Statement (.bankConflictRelease die slice bank) := round_none _ rfl

theorem RoundTrip.dramChannelAccess (n : Nat) : Statement (.dramChannelAccess n) := round_none _ rfl

theorem RoundTrip.memoryReply (n : Nat) : Statement (.memoryReply n) := round_none _ rfl

theorem RoundTrip.rewalk (p : Nat) : Statement (.rewalk p) := round_none _ rfl

theorem RoundTrip.engineCommandStart (p eng : Nat) : Statement (.engineCommandStart p eng) := round_none _ rfl

theorem RoundTrip.engineCommandComplete (p eng : Nat) : Statement (.engineCommandComplete p eng) := round_none _ rfl

theorem RoundTrip.collPacketArrival (p n : Nat) : Statement (.collPacketArrival p n) := round_none _ rfl

theorem RoundTrip.switchSegmentMerge (sw stream : Nat) : Statement (.switchSegmentMerge sw stream) := round_none _ rfl

theorem RoundTrip.progressBatchSend (p scope : Nat) : Statement (.progressBatchSend p scope) := round_none _ rfl

theorem RoundTrip.switchBatchFold (sw scope child : Nat) : Statement (.switchBatchFold sw scope child) := round_none _ rfl

theorem RoundTrip.switchTableSend (sw scope : Nat) : Statement (.switchTableSend sw scope) := round_none _ rfl

theorem RoundTrip.crownBatchApply (scope die : Nat) : Statement (.crownBatchApply scope die) := round_none _ rfl

theorem RoundTrip.frontierBroadcastArrival (p scope : Nat) : Statement (.frontierBroadcastArrival p scope) := round_none _ rfl

theorem RoundTrip.freezeComplete (p : Nat) : Statement (.freezeComplete p) := round_none _ rfl

theorem RoundTrip.freezeRefusal (p : Nat) : Statement (.freezeRefusal p) := round_none _ rfl

theorem RoundTrip.swapInstant (die : Nat) : Statement (.swapInstant die) := round_none _ rfl

theorem RoundTrip.exchangeStateTransfer (p q : Nat) : Statement (.exchangeStateTransfer p q) := round_none _ rfl

theorem RoundTrip.delridStart : Statement .delridStart := round_none _ rfl

theorem RoundTrip.delridWork : Statement .delridWork := round_none _ rfl

theorem RoundTrip.delridPreempt : Statement .delridPreempt := round_none _ rfl

theorem RoundTrip.delridResume : Statement .delridResume := round_none _ rfl

theorem RoundTrip.delridEnd : Statement .delridEnd := round_none _ rfl

theorem RoundTrip.reportWrite : Statement .reportWrite := round_none _ rfl

theorem RoundTrip.feataWrite (n : Nat) (x : Word) : Statement (.feataWrite n x) := round_none _ rfl

theorem RoundTrip.retryDoorbell (v : Nat) : Statement (.retryDoorbell v) := round_none _ rfl

theorem RoundTrip.hmbWrite (v : Nat) (x : Word) : Statement (.hmbWrite v x) := round_none _ rfl

theorem RoundTrip.checkpointGo (x : Word) : Statement (.checkpointGo x) := round_none _ rfl

theorem RoundTrip.checkpointFrontierReached : Statement .checkpointFrontierReached := round_none _ rfl

theorem RoundTrip.checkpointWriteDone (ok : Bool) : Statement (.checkpointWriteDone ok) := round_none _ rfl

theorem RoundTrip.dbgHalt (v : Nat) : Statement (.dbgHalt v) := round_none _ rfl

theorem RoundTrip.dbgRestart (v : Nat) : Statement (.dbgRestart v) := round_none _ rfl

theorem RoundTrip.deviceRegisterWrite (off : Nat) (x : Word) : Statement (.deviceRegisterWrite off x) := round_none _ rfl

theorem RoundTrip.cxlMemRequest (wr : Bool) (pa bytes x : Nat) : Statement (.cxlMemRequest wr pa bytes x) := round_none _ rfl

theorem RoundTrip.peerMemoryAccess (ethernet : Bool) (port : Nat) (wr : Bool) (pa bytes x : Nat) : Statement (.peerMemoryAccess ethernet port wr pa bytes x) := round_none _ rfl

theorem RoundTrip.peerMessageArrival (chip : Nat) (hdr payload : BitVec 128) : Statement (.peerMessageArrival chip hdr payload) := round_none _ rfl

theorem RoundTrip.zusilBoot (b : BootInput) : Statement (.zusilBoot b) := round_none _ rfl

theorem RoundTrip.spdmGetCertificate : Statement .spdmGetCertificate := round_none _ rfl

theorem RoundTrip.spdmGetMeasurements : Statement .spdmGetMeasurements := round_none _ rfl

theorem RoundTrip.delridRejected : Statement .delridRejected := round_none _ rfl

theorem RoundTrip.launchW7Dropped (x : Word) : Statement (.launchW7Dropped x) := round_none _ rfl

end Sys2Proof.Laws
end

