-- ==== Sys2Proof/Tests/Slice0.lean ====
section
/-!
SUPPORT. Small tests: words written out from the encodings, an ill-formed operand for each check, one step of an instruction on a small state
with its result computed by hand from the rules, and for each obligation states and operands that meet its hypotheses.
-/
set_option Elab.async false

namespace Sys2Proof.Tests

open Sys2Proof Sys2Proof.Machine

/-! ## Small states -/

/-- The control core of position 0 executes; its registers and flags are as f makes them. -/
def ctlState (f : Scalar → Scalar) : State := State.reset.modMe f
/-- Scalar core k of position 0 executes. -/
def kindState (k : Kind) (f : Scalar → Scalar) : State :=
  let s := State.reset
  { s with cur := { s.cur with k := k } }.modMe f
/-- Some g registers. -/
def regs (l : List (Nat × Word)) : Scalar → Scalar := fun x => { x with g := l }
/-- The access table admits everything, domain 0 of die 0 has slice 0, and the job has a phased, an immediate and a host-shared window, of
which the immediate one serves page-table reads. -/
def jobState (f : Core → Core) : State :=
  let s := State.reset
  { s with
    domains := [(0, BitVec.ofNat 64 (2 ^ 41 + 1))]
    access := [(0, BitVec.ofNat 128 (2 ^ 127 + 15 * 2 ^ 123 + (2 ^ 36 - 1) * 2 ^ 72))]
    job := some ⟨0, 0x100000, [(0, 1), (1, 9 + 2048), (2, 17)], 0, 0, 0, 0, [], 4, 0⟩
    cores := [(0, f { Core.reset with vcn := some 0 })] }
/-- Pages 1, 2 and 3 lie in the three windows, page 4 may not be accessed, page 5 has no valid window. -/
def pages : List TlbEntry :=
  [⟨1, 1, 0, true, true, true⟩, ⟨2, 2, 1, true, true, true⟩, ⟨3, 3, 2, true, true, true⟩, ⟨4, 4, 1, false, false, false⟩, ⟨5, 5, 7, true, true, true⟩]
/-- A line of zeros but for byte 0x81 at place 8, full and unmarked. -/
def someLine : L2Line := ⟨BitVec.ofNat 1024 (0x81 * 2 ^ 64), false, 2, 3, 7, 0xFFFF, 0, 0, 0, false⟩
/-- The name of the first line of page 2 at its home. -/
def someKey : Nat := lineKey ⟨0x2000, 0x2000, 8, 2057⟩ 0
/-- The job's state with those pages translated, the first line of page 2 at its home, and registers and a core as f and g make them. -/
def memState (f : Scalar → Scalar) (g : Core → Core) : State :=
  let s := jobState fun c => g { c with tlb := pages, ctl := f c.ctl }
  { s with slices := [(0, ⟨0, 0, [(someKey, someLine)], [], []⟩)] }

/-! ## Hypotheses that are met: the integer and control instructions -/

theorem witness_RegisterArithmetic : (1 : BitVec 5) ≠ 0 ∧ (31 : BitVec 5) ≠ 0 ∧ (0x020 : BitVec 11) ∈ [0x020#11, 0x021, 0x024, 0x025, 0x026, 0x028, 0x029, 0x02A] ∧
    decodeScalar (srWord 0 1 2 31 0x02A) = none := by decide

theorem witness_ImmediateArithmetic : 64 ≤ (0x8000 : BitVec 16).toNat ∧ 64 ≤ (64 : BitVec 16).toNat ∧ decodeScalar (siWord 0x05 1 2 64) = none ∧
    decodeScalar (siWord 0x07 1 2 0x8000) = none ∧ decodeScalar (siWord 0x09 1 31 5) = none := by decide

/-- At LPE with a count of 2, of 1, and outside a loop; a branch taken at LPE; a trap there. -/
theorem witness_BackEdge :
    let at_ := fun n : Word => ctlState fun x => { x with pc := 8, lps := 4, lpe := 8, lpc := n, lpa := true, g := [(1, 1)] }
    (at_ 2).gr 0 ≠ (at_ 2).gr 1 ∧ (∃ t, exec (.add 3 1 1) (at_ 2) = .next t ∧ t.me.pc = 4 ∧ t.me.lpc = 1) ∧
    (∃ t, exec (.beq 0 1 5) (at_ 1) = .next t ∧ t.me.pc = 12 ∧ t.me.lpa = false) ∧
    (∃ t, exec (.beq 0 0 0xFFFF) (at_ 2) = .next t ∧ t.me.pc = 4 ∧ t.me.lpc = 2) ∧ outside Kind.control ((at_ 2).me.pc + 4 * (0xFFFF#16).signExtend 64) = false ∧
    ∃ t, exec (.illegalInstruction 5) (at_ 2) = .next t ∧ t.me.lpc = 2 :=
  ⟨by decide, ⟨_, rfl, by decide⟩, ⟨_, rfl, by decide⟩, ⟨_, rfl, by decide⟩, by decide, ⟨_, rfl, by decide⟩⟩

/-- A branch forward to the last word of the store, one past it, and one not taken. -/
theorem witness_Branches :
    let s := ctlState fun x => { x with pc := BitVec.ofNat 64 (Config.storeBytes .control - 8), g := [(1, 5), (2, BitVec.allOnes 64)] }
    let t := fun off : BitVec 16 => s.me.pc + 4 * off.signExtend 64
    (s.gr 1 = s.gr 1 ∧ (t 1).toNat < Config.storeBytes s.cur.k ∧ (t 1).toNat % 4 = 0) ∧ (s.gr 1 ≠ s.gr 2 ∧ Config.storeBytes s.cur.k ≤ (t 2).toNat) ∧
    ((s.gr 2).toInt < (s.gr 1).toInt ∧ ¬ (s.gr 2).toNat < (s.gr 1).toNat ∧ (s.gr 1).toInt ≥ (s.gr 2).toInt ∧ (s.gr 1).toNat ≤ (s.gr 2).toNat) := by decide

/-- A jump to the last word, one behind the store, and one to a misaligned address. -/
theorem witness_Jumps :
    let s := ctlState fun x => { x with pc := BitVec.ofNat 64 (Config.storeBytes .control - 8), g := [(1, 6)] }
    let good := fun (t : Word) => t.toNat < Config.storeBytes s.cur.k ∧ t.toNat % 4 = 0
    good (s.me.pc + 4 * (1#26).signExtend 64) ∧ ¬ good (s.me.pc + 4 * (2#26).signExtend 64) ∧ good (s.gr 0) ∧ ¬ good (s.gr 1) := by decide

/-- A loop that ends in the last word and one that ends behind it; shadows that are accepted and some that are not. -/
theorem witness_LoopEntry :
    let s := ctlState fun x => { x with pc := BitVec.ofNat 64 (Config.storeBytes .control - 12), slps := 8, slpe := 8 }
    let u := ctlState fun x => { x with slps := 8, slpe := 4 }
    let en := fun imm : BitVec 15 => s.me.pc + 4 * imm.setWidth 64
    s.me.hnd = false ∧ (en 2).toNat < Config.storeBytes s.cur.k ∧ Config.storeBytes s.cur.k ≤ (en 3).toNat ∧ u.me.hnd = false ∧
    u.me.slpe.toNat < u.me.slps.toNat ∧ ¬ (s.me.slpe.toNat < s.me.slps.toNat ∨ s.me.slps.toNat % 4 ≠ 0 ∨ s.me.slpe.toNat % 4 ≠ 0 ∨ Config.storeBytes s.cur.k ≤ s.me.slpe.toNat) ∧
    32768 ≤ (0x8000 : BitVec 16).toNat ∧ (1 : BitVec 5) ≠ 0 := by decide

/-- A core with VCN 1,023 and a frontier of four times, the highest mailbox, and the absent numbers 7 and 0x3FF. -/
theorem witness_SystemRegisterReads :
    let s := jobState fun c => { c with vcn := some 1023, fnt := [(7, ⟨[1, 2, 3, 4], 9⟩)] }
    s.mine.vcn = some 1023 ∧ s.cur.p < 1024 ∧ s.cur.k = .control ∧ (kindState .storer id).cur.k ≠ .control ∧ (s.mine.frontier 7).times.length ≤ 4 ∧
    (7#10).toNat ∉ sysNumbers ∧ (0x3FF#10).toNat ∉ sysNumbers := by decide

theorem witness_SystemRegisterWrites :
    (ctlState id).cur.k = .control ∧ (kindState .loader id).cur.k ≠ .control ∧ (0x028#10).toNat ∉ sysNumbers ∧ (0x045#10).toNat ∉ sysNumbers := by decide

/-- Outside a handler, with a firing in RUN and SPCOUNT one above SPMAX. -/
theorem witness_TrapEntry :
    let s := ctlState fun x => { x with run := some .launch, spcount := 0x30D41 }
    s.me.hnd = false ∧ s.me.dbe = false ∧ s.me.run.isSome = true ∧ s.me.stop = none ∧ s.me.sp = none ∧ s.me.wait = none ∧
      s.mine.spmax.toNat < s.me.spcount.toNat := by decide

/-- In a handler, with an SSR that names another scalar core, and one trap there. -/
theorem witness_DoubleTrap :
    let s := ctlState fun x => { x with hnd := true, ssr := 0x400 }
    s.me.hnd = true ∧ s.me.dbe = false ∧ (s.me.ssr.extractLsb' 10 2).toNat ≠ s.cur.k.code ∧ Traps (.illegalInstruction 3) s 0x01 s.me.pc ((3 : BitVec 32).setWidth 64) :=
  ⟨by decide, by decide, by decide, rfl⟩

/-- In a handler with SSR accepted and not accepted, and outside one. -/
theorem witness_TrapReturn :
    let bad := fun (s : State) => s.me.ssr.extractLsb' 12 52 ≠ 0 ∨ s.me.ssr.getLsbD 5 = true ∨ s.me.ssr.extractLsb' 1 4 ≠ 0 ∨ (s.me.ssr.extractLsb' 10 2).toNat ≠ s.cur.k.code
    let s := ctlState fun x => { x with hnd := true, ssr := 0x0C1 }
    let u := ctlState fun x => { x with hnd := true, ssr := 0x020 }
    s.me.hnd = true ∧ ¬ bad s ∧ u.me.hnd = true ∧ bad u ∧ (ctlState id).me.hnd = false := by decide

theorem witness_StopsAndBreakpoints :
    (ctlState fun x => { x with dbe := true }).me.dbe = true ∧ (ctlState fun x => { x with hnd := true }).me.dbe = false ∧
      (ctlState fun x => { x with hnd := true }).me.hnd = true := by decide

theorem witness_SafePoints :
    let s := ctlState fun x => { x with nsp := 4 }
    let u := ctlState fun x => { x with nsp := 4, spp := true }
    ((3#16).toNat < s.me.nsp ∧ s.me.spp = false) ∧ ((3#16).toNat < u.me.nsp ∧ u.me.spp = true) ∧ s.me.nsp ≤ (4#16).toNat := by decide

/-- A frontier of two times; scope 7 and scope 8; a full counter, a counter beyond the depth, and one with room. -/
theorem witness_TimeOperations :
    let s := jobState fun c => { c with fnt := [(7, ⟨[5, 9], 1⟩)], ctl := { c.ctl with g := [(1, 7), (2, 8)], t := [(1, 0xFFC00001), (2, 0xFFFFFFFF00000000)] } }
    (s.gr 1).toNat = 7 ∧ (s.mine.frontier 7).times = [5, 9] ∧ (s.mine.frontier 0).times = [] ∧ 7 < (s.gr 2).toNat ∧
    depthOf (s.me.tr 1) = 1 ∧ ctrOf (s.me.tr 1) 1 = 1023 ∧ epochOf (s.me.tr 1) < 0xFFFFFFFF ∧ epochOf (s.me.tr 2) = 0xFFFFFFFF ∧ depthOf (s.me.tr 2) < 1 := by decide

theorem witness_TimeWords :
    let bad := fun w : Word => ∃ i, 1 ≤ i ∧ i ≤ 3 ∧ (w.extractLsb' 0 2).toNat < i ∧ w.extractLsb' (32 - 10 * i) 10 ≠ 0
    ¬ bad 0xFFC00001 ∧ bad 0x00400000 ∧ 6 ≤ (6#6).toNat ∧ decodeScalar (srWord 0x24 1 0 0 (6#6 ++ 0x09#5)) = none :=
  ⟨fun ⟨i, h1, h2, h3, h4⟩ => by
      have : i = 2 ∨ i = 3 := by simp at h3; omega
      rcases this with rfl | rfl <;> simp at h4, ⟨1, by decide⟩, by decide, by decide⟩

/-- A time of the frontier at t[0], one above it, and one of another depth. -/
theorem witness_FrontierReads :
    let s := fun w : Word => jobState fun c => { c with fnt := [(0, ⟨[w], 1⟩)] }
    (((s 0).mine.frontier 0).times = [0] ∧ tLe 0 ((s 0).me.tr 0) = true) ∧ (((s 0x100000000).mine.frontier 0).times = [0x100000000] ∧
      tLe 0x100000000 ((s 0x100000000).me.tr 0) = false) ∧
    (((s 1).mine.frontier 0).times = [1] ∧ depthOf 1 ≠ depthOf ((s 1).me.tr 0)) ∧ ((s 0).mine.frontier 1).times = [] := by decide

/-! ## Hypotheses that are met: loads, stores, atomics, futures -/

/-- The checked access of 8 bytes at an offset of page n + 1, in window n. -/
def accOf (n off : Nat) : Acc := ⟨(n + 1) * 4096 + off, (n + 1) * 4096 + off, 8, [1#64, 2057, 17].getD n 0⟩
/-- An L1 line with every byte present, leased to phase 9, and with its second word marked. -/
def someL1 : Line := ⟨BitVec.ofNat 1024 (0x81 * 2 ^ 64), BitVec.allOnes 128, 0, 0, 2, 0, 9, 0, false⟩
/-- The memory state with that line held for page 1, g1 to g6 naming the three pages, an address across two lines, the page that may not be
accessed, and the page with no window. -/
def loadState : State :=
  memState (fun x => { x with g := [(1, 0x1000), (2, 0x2000), (3, 0x3000), (4, 0x107C), (5, 0x4000), (6, 0x5000), (7, 0x6000)] }) fun c => { c with l1 := [((accOf 0 0).copy, someL1)] }

/-- A hit, a miss on a leased line, an immediate and a host-shared window, a marked word, and a page with no permission. -/
theorem witness_ScalarLoads :
    (loadState.checkSpan 0 0x1000 8 .load 1 anyClass = (loadState, .ok [accOf 0 0]) ∧ Hits loadState 0 (accOf 0 0) ∧ loadState.me.wait = none) ∧
    (loadState.checkSpan 0 0x1080 8 .load 1 anyClass = (loadState, .ok [accOf 0 0x80]) ∧ winClass (accOf 0 0x80).win = 0 ∧
      (((loadState.core 0).lineAt ((loadState.core 0).place (accOf 0 0x80))).getD (Line.absent (accOf 0 0x80))).hits 0 8 loadState.mine.ph = false) ∧
    (loadState.checkSpan 0 0x2000 8 .load 1 anyClass = (loadState, .ok [accOf 1 0]) ∧ winClass (accOf 1 0).win ≠ 0) ∧
    (loadState.checkSpan 0 0x1008 8 .load 1 anyClass = (loadState, .ok [accOf 0 8]) ∧ loadState.mine.lineAt (loadState.mine.place (accOf 0 8)) = some someL1 ∧
      someL1.hits 8 8 loadState.mine.ph = true ∧ wordsPoisoned someL1.poison 8 8 = true) ∧
    loadState.checkSpan 0 0x4000 8 .load 1 anyClass = (loadState, .bad 0x11 0x4000 false) := by
  refine ⟨⟨by decide +kernel, ?_, by decide +kernel⟩, ⟨by decide +kernel, by decide +kernel, by decide +kernel⟩, ⟨by decide +kernel, by decide +kernel⟩, ⟨by decide +kernel, by decide +kernel, by decide +kernel, by decide +kernel⟩, by decide +kernel⟩
  exact ⟨by decide +kernel, someL1, by decide +kernel, by decide +kernel, by decide +kernel⟩

/-- One part in L1, two parts in two lines, an immediate and a host-shared window, and a page with no permission. -/
theorem witness_ScalarStores :
    (loadState.checkSpan 0 0x1000 8 .store 1 anyClass = (loadState, .ok [accOf 0 0])) ∧
    (loadState.checkSpan 0 0x107C 8 .store 1 anyClass = (loadState, .ok [{ accOf 0 0x7C with n := 4 }, { accOf 0 0x80 with n := 4 }])) ∧
    (loadState.checkSpan 0 0x2000 8 .store 1 anyClass = (loadState, .ok [accOf 1 0])) ∧
    (loadState.checkSpan 0 0x307C 8 .store 1 anyClass = (loadState, .ok [{ accOf 2 0x7C with n := 4 }, { accOf 2 0x80 with n := 4 }])) ∧
    loadState.checkSpan 0 0x4000 8 .store 1 anyClass = (loadState, .bad 0x11 0x4000 false) ∧
    winClass (accOf 0 0).win = 0 ∧ winClass (accOf 1 0).win ≠ 0 ∧ winClass (accOf 2 0).win ≠ 0 := ⟨by decide +kernel, by decide +kernel, by decide +kernel, by decide +kernel, by decide +kernel, by decide +kernel⟩

/-- The lowest address that is not canonical, a misaligned one, an absent translation, a denied page-table read, a page with no permission, an
invalid window, a phased window, and an access that passes; a retired domain, and an access table with no entry. -/
theorem witness_AccessChecks :
    let gone := { loadState with domains := [] }
    let shut := { loadState with access := [] }
    canonical (2 ^ 55) = false ∧ (canonical 0x2001 = true ∧ 0x2001 % 8 ≠ 0) ∧ canonical 0x2000 = true ∧ 0x2000 % 8 = 0 ∧
    (loadState.translate 0 0x6000).2 = .absent false ∧ (shut.translate 0 0x6000).2 = .bad 0x12 ∧
    (loadState.translate 0 0x4000 = (loadState, .ok ⟨4, 4, 1, false, false, false⟩) ∧ permitted .load ⟨4, 4, 1, false, false, false⟩ = false) ∧
    (loadState.translate 0 0x5000 = (loadState, .ok ⟨5, 5, 7, true, true, true⟩) ∧ permitted .atomic ⟨5, 5, 7, true, true, true⟩ = true ∧ winValid (loadState.win 7) = false) ∧
    (loadState.translate 0 0x1000 = (loadState, .ok ⟨1, 1, 0, true, true, true⟩) ∧ winValid (loadState.win 0) = true ∧ winClass (loadState.win 0) ≠ 1) ∧
    (gone.translate 0 0x2000 = (gone, .ok ⟨2, 2, 1, true, true, true⟩) ∧ winClass (gone.win 1) = 1 ∧ isDram 0x2000 = true ∧ domValid (gone.accDomain (accOf 1 0)) = false) ∧
    (shut.translate 0 0x2000 = (shut, .ok ⟨2, 2, 1, true, true, true⟩) ∧ domValid (shut.accDomain (accOf 1 0)) = true ∧ shut.admits 0 0x2000 AK.load.perm = false) ∧
    loadState.admits 0 0x2000 AK.atomic.perm = true := by decide +kernel

/-- The home of page 2's first line holds it, and both sizes pass the checks, at the line's first and last word. -/
theorem witness_ImmediateAccesses :
    let s := loadState
    s.reqs = [] ∧ s.replies = [] ∧ HomeHolds s (accOf 1 0) someLine ∧ HomeHolds s { accOf 1 124 with n := 4 } someLine ∧
    s.checkSpan 0 (s.gr 2).toNat 8 .load 8 immOnly = (s, .ok [accOf 1 0]) ∧ s.checkSpan 0 0x207C 4 .stim 4 immOnly = (s, .ok [{ accOf 1 124 with n := 4 }]) ∧
    wordsPoisoned someLine.poison 0 8 = false ∧ wordsPoisoned someLine.poison 124 4 = false :=
  ⟨by decide +kernel, by decide +kernel, ⟨by decide +kernel, by decide +kernel, by decide +kernel⟩, ⟨by decide +kernel, by decide +kernel, by decide +kernel⟩, by decide +kernel, by decide +kernel, by decide +kernel, by decide +kernel⟩

theorem witness_Atomics :
    let s := loadState
    s.reqs = [] ∧ s.replies = [] ∧ HomeHolds s (accOf 1 0) someLine ∧ s.checkSpan 0 (s.gr 2).toNat 8 .atomic 8 immOnly = (s, .ok [accOf 1 0]) ∧
    s.checkSpan 0 (s.gr 2).toNat 4 .atomic 4 immOnly = (s, .ok [{ accOf 1 0 with n := 4 }]) ∧ wordsPoisoned someLine.poison 0 8 = false :=
  ⟨by decide +kernel, by decide +kernel, ⟨by decide +kernel, by decide +kernel, by decide +kernel⟩, by decide +kernel, by decide +kernel, by decide +kernel⟩

/-- A request of core 0 for bytes of page 2 (window 1) or page 3 (window 2). -/
def memReq (op : MemOp) (n : Nat) : MemReq := ⟨0, 0, .control, op, accOf n 0, 0, 0, false, 0, .flight, 0, true⟩
/-- The memory state with one request open. -/
def reqState (r : MemReq) (poison : BitVec 16) : State :=
  { loadState with reqs := [r], nextReq := 1, slices := [(0, ⟨0, 0, [(someKey, { someLine with poison := poison })], [], []⟩)] }

/-- Every operation is ready and served; a write of part of a marked word, and one with no marked word; a channel access with and without a
marked word; and two requests in a bank's queue. -/
theorem witness_HomeEvents :
    (∀ op ∈ [MemOp.renew 5 8, .publish 0xFF 1 0 5, .read 8, .write 8 1], Served (reqState (memReq op 1) 0) 0 (memReq op 1) someLine) ∧
    (∃ w ∈ wordsOf 0 4, (1#16).getLsbD w = true ∧ coversWord 0 4 w = false) ∧ (∀ w ∈ wordsOf 0 8, (1#16).getLsbD w = true → coversWord 0 8 w = true) ∧
    (let r := memReq (.write 8 1) 2
     nth (reqState r 0).reqs 0 = some r ∧ winClass r.acc.win = 2 ∧ (reqState r 0).reqReady 0 r = true ∧ ((reqState r 0).dramPut 0x3000 8 1).isSome = true ∧
       ({ reqState r 0 with poisons := [(0x600, true)] }).dramPut 0x3000 4 1 = none) ∧
    (let r := { memReq (.read 8) 1 with stage := .conflict }
     let s := { reqState r 0 with slices := [(0, ⟨0, 0, [(someKey, someLine)], [], [0]⟩)] }
     (s.slice (0 * 21 + 0)).conflict = [] ++ 0 :: [] ∧ (firstOf s.reqs fun q => q.id == 0) = some r ∧ bankOf (r.acc.pa / 128) = bankOf 64 ∧
       (s.slice 0).locked (lineKey r.acc (domVer (s.accDomain r.acc))) = false) := by
  refine ⟨by unfold Served HomeHolds; decide +kernel, ⟨0, by decide +kernel, by decide +kernel, by decide +kernel⟩, by decide +kernel, by decide +kernel, by decide +kernel⟩

/-- The memory state with one reply, of an operation to page n + 1 of core 0. -/
def replyState (op : MemOp) (n : Nat) (y : Reply) (f : Scalar → Scalar) (g : Core → Core) : State :=
  { memState f g with replies := [⟨memReq op n, y⟩], nextReq := 1 }

/-- A line for a load that waits for its last part, with its word marked and unmarked, a value, an error, and a WTS for a published line. -/
theorem witness_MemoryReplies :
    let load := fun x : Scalar => { x with wait := some (.load 5 8 true [accOf 0 0] 0 0) }
    let s := fun y => replyState (.renew 0 8) 0 y load id
    (∀ y ∈ [Reply.line someLine, .value 5 0, .error 0x16], nth (s y).replies 0 = some ⟨memReq (.renew 0 8) 0, y⟩ ∧ (s y).reqs = [] ∧
      (∀ z ∈ (s y).replies, ¬ (z.req.p = 0 ∧ z.req.acc.pa / 128 = 32 ∧ z.req.id < 0)) ∧ ((s y).scal 0 .control).wait = some (.load 5 8 true [accOf 0 0] 0 0)) ∧
    (let l := (((s (.line someLine)).core 0).lineAt (((s (.line someLine)).core 0).place (accOf 0 0))).getD (Line.absent (accOf 0 0))
     wordsPoisoned (l.fill someLine).poison 0 8 = false ∧ wordsPoisoned (l.fill { someLine with poison := 1 }).poison 0 8 = true) ∧
    (let l := { someL1 with pend := 1, dirty := 0 }
     let s := { replyState (.publish 1 0 0 0) 0 (.wts 9) id fun c => { c with l1 := [((accOf 0 0).copy, l)] } with
                replies := [⟨{ memReq (.publish 1 0 0 0) 0 with acc := ⟨1, 0x1000, 128, 1⟩ }, .wts 9⟩] }
     (s.core 0).lineAt (.l1 (accOf 0 0).copy) = some l ∧ l.pend ≠ 0 ∧ (s.scal 0 .control).wait = none) := by decide +kernel

/-- A full and an empty word with a free node, with no node area, and with none free; FEAT0.FUT refused; a bad continuation; another kind. -/
theorem witness_Futures :
    let s := memState (fun x => { x with g := [(1, 0x2000), (2, 4)] }) id
    let j := fun s : State => { s with job := s.job.map fun j : Job => { j with futb := 0x10000 } }
    let off := memState id fun c => { c with feat := 0 }
    let busy := j (memState (fun x => { x with g := [(1, 0x2000)] }) fun c => { c with futs := (range 0 64).map fun n => (n, NodeSt.asked) })
    let empty := { s with slices := [(0, ⟨0, 0, [(someKey, { someLine with full := 0, data := 0 })], [], []⟩)] }
    (kindState .loader id).cur.k ≠ .control ∧ off.cur.k = .control ∧ off.feat 6 = false ∧ s.feat 6 = true ∧
    ((s.gr 2).extractLsb' 0 2 = 0 ∧ (s.gr 2).extractLsb' 18 14 = 0) ∧ (1#64).extractLsb' 0 2 ≠ 0 ∧
    s.checkSpan 0 (s.gr 1).toNat 8 .atomic 8 immOnly = (s, .ok [accOf 1 0]) ∧ HomeHolds s (accOf 1 0) someLine ∧ wordsPoisoned someLine.poison 0 8 = false ∧
    someLine.full.getLsbD 0 = true ∧ s.futb = 0 ∧ s.me.hnd = false ∧ (j s).futb ≠ 0 ∧ (∃ n, (j s).mine.freeNode = some n) ∧
    busy.futb ≠ 0 ∧ busy.mine.freeNode = none ∧ HomeHolds empty (accOf 1 0) { someLine with full := 0, data := 0 } ∧
    BitVec.ofNat 64 (lineBytes ({ someLine with full := 0, data := 0 } : L2Line).data 0 8) = 0 :=
  ⟨by decide +kernel, by decide +kernel, by decide +kernel, by decide +kernel, by decide +kernel, by decide +kernel, by decide +kernel, ⟨by decide +kernel, by decide +kernel, by decide +kernel⟩, by decide +kernel, by decide +kernel, by decide +kernel, by decide +kernel, by decide +kernel,
    ⟨0, by decide +kernel⟩, by decide +kernel, by decide +kernel, ⟨by decide +kernel, by decide +kernel, by decide +kernel⟩, by decide +kernel⟩

/-! ## Hypotheses that are met: stash control, write-backs, fences, engine commands -/

/-- The memory state with registers and a core as they are given. -/
def cacheState (l : List (Nat × Word)) (g : Core → Core) : State := memState (regs l) g

/-- phadv with nothing dirty, with one dirty line, and its answer; smap refused, failing its check, and allowed; a mapped and an unmapped block. -/
theorem witness_StashControl :
    let s := cacheState [(1, 0x1000), (2, 511), (3, 512), (4, 0x4000)] id
    let key := (accOf 0 0).copy
    let dirty := cacheState [] fun c => { c with l1 := [(key, { someL1 with dirty := 1 })] }
    let answered := { cacheState [] id with replies := [⟨memReq (.publish 1 0 0 0) 0, .wts 9⟩] }.modMe fun x => { x with wait := some (.pubs .phadv) }
    let mapped := cacheState [(1, 0x1000), (2, 511)] fun c => { c with stash := [(511, ⟨1, 1, [(0, someL1)]⟩)] }
    let refused := fun (s : State) (va blk : Nat) => va % 4096 != 0 || decide (511 < blk) || (Map.find s.mine.stash blk).isSome || (s.mine.blockOf (va / 4096)).isSome ||
      (s.mine.inArea blk && s.mine.anyActive) || s.mine.oldSpill blk
    let spilled := cacheState [(1, 0x1000), (2, 511)] fun c => { c with oldAreas := [(500, 12)], overflow := [⟨3, 505, ⟨0, 0, Token.blank 0⟩⟩] }
    (s.reqs = [] ∧ s.replies = [] ∧ s.mine.l1 = [] ∧ s.mine.stash = []) ∧
    (dirty.mine.dirtyPlaces = [.l1 key] ∧ dirty.mine.lineAt (.l1 key) = some { someL1 with dirty := 1 }) ∧
    (answered.replies.length = 1 ∧ answered.reqs = [] ∧ answered.me.wait = some (.pubs .phadv)) ∧
    (!refused s 0x1000 511 ∧ s.checkSpan 0 0x1000 1 .load 1 phasedOnly = (s, .ok [{ accOf 0 0 with n := 1 }])) ∧
    (!refused s 0x2000 0 ∧ s.checkSpan 0 0x2000 1 .load 1 phasedOnly = (s, .bad 0x15 0x2000 false)) ∧
    refused s 0x1000 512 ∧ refused s 0x1001 511 ∧ refused mapped 0x2000 511 ∧ refused mapped 0x1000 510 ∧ refused spilled 0x1000 511 ∧ !refused spilled 0x1000 512 = false ∧ !refused spilled 0x1000 499 ∧
    (511 < (s.gr 3).toNat ∧ (s.gr 2).toNat ≤ 511 ∧ Map.find s.mine.stash 511 = none) ∧
    ((Map.find mapped.mine.stash 511).isSome = true ∧ mapped.mine.lineAt (.stash 511 0) = some someL1 ∧ mapped.mine.lineAt (.stash 511 1) = none) := by
  decide +kernel

/-- A range of no bytes, one that wraps, one of one page in each window, and the last canonical page; a page with a dirty line of this core; a
page with an open request; dswitch with each operand that is refused, with an old request in flight, and allowed. -/
theorem witness_WriteBacksAndSwitches :
    let s := cacheState [] id
    let dirty := cacheState [] fun c => { c with l1 := [((accOf 0 0).copy, { someL1 with dirty := 1 })] }
    let busy := { s with reqs := [{ memReq (.read 8) 1 with ver := 15 }] }
    s.validPages 2 0 0x1000 0x1001 = (s, some [(1, 1)]) ∧ (s.validPages 2 0 0x6000 0x6001).2 = some [] ∧ canonical (2 ^ 55) = false ∧
    s.translate 0 0x1000 = (s, .ok ⟨1, 1, 0, true, true, true⟩) ∧ (s.translate 0 0x6000).2 = .absent false ∧
    (({ s with access := [] }).translate 0 0x6000).2 = .bad 0x12 ∧
    (2 ^ 64 < 2 ^ 64 - 1 + 2 ∧ 0 < 1 ∧ 2 ^ 64 - 1 + 1 ≤ 2 ^ 64 ∧ (2 ^ 64 - 1) % 4096 + 1 ≤ 4096) ∧
    (s.check 0 0x4000 1 .load 1 anyClass).2 = .bad 0x11 false ∧
    (∃ x, s.check 0 0x3000 1 .load 1 anyClass = (s, .ok x) ∧ winClass x.win = 2) ∧
    (∃ x, dirty.check 0 0x1000 1 .load 1 anyClass = (dirty, .ok x) ∧ winClass x.win = 0 ∧ dirty.mine.dirtyOf 1 1 ≠ []) ∧
    (∃ x, s.check 0 0x2000 1 .load 1 anyClass = (s, .ok x) ∧ winClass x.win = 1 ∧ s.reqs = []) ∧
    (∃ x, s.check 0 0x1000 1 .load 1 anyClass = (s, .ok x) ∧ winClass x.win = 0 ∧ s.mine.dirtyOf 1 1 = []) ∧
    Map.find (s.slice 0).lines someKey = some someLine ∧ (kindState .storer id).cur.k ≠ .control ∧ s.cur.k = .control ∧ 15 < 16 ∧
    (domValid (2 ^ 41) = true ∧ domAccepted (2 ^ 41) = false) ∧ (domValid (2 ^ 41 + 1) = true ∧ domAccepted (2 ^ 41 + 1) = true) ∧
    busy.oldInFlight 0 0 = true ∧ s.oldInFlight 0 0 = false := by
  refine ⟨by decide +kernel, by decide +kernel, by decide +kernel, by decide +kernel, by decide +kernel, by decide +kernel, by decide, by decide +kernel,
    ⟨{ accOf 2 0 with n := 1 }, by decide +kernel⟩, ⟨{ accOf 0 0 with n := 1 }, by decide +kernel⟩, ⟨{ accOf 1 0 with n := 1 }, by decide +kernel⟩,
    ⟨{ accOf 0 0 with n := 1 }, by decide +kernel⟩, by decide +kernel, by decide +kernel, by decide +kernel, by decide, by decide +kernel, by decide +kernel,
    by decide +kernel, by decide +kernel⟩

/-- VCN 1 at position 1, with room, with 511 messages unacknowledged and with an O message; VCN 2 with V = 0; a destination word with a reserved
bit, an address that is not canonical and one that is misaligned; and a fence that completes and one that waits. -/
theorem witness_RemoteStoresAndFences :
    let s := fun (una : Nat) (o : Bool) => { cacheState [(1, 0x1000), (2, 1), (3, 0x2000), (4, 2 ^ 55), (5, 0x1004)] (fun c => { c with out := [(1, ⟨0, una, o⟩)] }) with reloc := [(1, 0x8001)] }
    ((s 0 false).gr 2).toNat < 2 ^ 13 ∧ 2 ^ 13 ≤ ((s 0 false).gr 3).toNat ∧ canonical 0x1000 = true ∧ 0x1000 % 8 = 0 ∧
    canonical ((s 0 false).gr 4).toNat = false ∧ ((s 0 false).gr 5).toNat % 8 ≠ 0 ∧ Accepts (s 510 false) 0 1 ∧ HeldBack (s 511 false) 0 1 ∧ HeldBack (s 1 true) 0 1 ∧
    (relocV (Map.get (s 0 false).reloc 0 2) = false ∧ (s 0 false).mine.eq.length < 256 ∧ (s 0 false).mine.eqHeld = []) ∧
    (s 0 false).net = [] ∧ (s 0 false).mine.retry = [] ∧ (s 0 false).mine.behind = [] ∧ (s 0 false).opens = [] ∧ (s 0 false).acksQuiet = true ∧
    ((s 0 false).modMine fun c => { c with plane := [(3, 1)] }).acksQuiet = false := by
  refine ⟨by decide +kernel, by decide +kernel, by decide +kernel, by decide, by decide +kernel, by decide +kernel, ?_, ?_, ?_, by decide +kernel, by decide +kernel,
    by decide +kernel, by decide +kernel, by decide +kernel⟩
  · unfold Accepts; decide +kernel
  · unfold HeldBack; decide +kernel
  · unfold HeldBack; decide +kernel

/-- The memory state with sixteen words in the first line of page 2. -/
def wordState (l : List Nat) (f : Scalar → Scalar) (g : Core → Core) : State :=
  { memState f g with slices := [(0, ⟨0, 0, [(someKey, { someLine with data := BitVec.ofNat 1024 (l.foldr (fun x n => x + 2 ^ 64 * n) 0) })], [], []⟩)], reloc := [(0, 0x8000)] }
/-- The eight words at page 2. -/
def wordsAt (l : List Nat) : Items := ((wordState l id id).items 0 .control 0x2000 8 8 .load).2

/-- Descriptors that fit and that do not, for each command; a command word with a reserved bit and one that binds an unknown context; a descriptor
that is misaligned and one whose page may not be read; an engine with eight commands. -/
theorem witness_EngineIssue :
    let s := wordState [0, 0x3000, 8] (regs [(1, 0x2000)]) id
    let full := (s.modMine fun c => { c with engines := [(0, ⟨List.replicate 8 ⟨0, .control, 0, 0, [], [], []⟩, []⟩)] })
    let words := fun l : List Nat => (Items.ok (l.map (BitVec.ofNat 64)))
    s.me.wait = none ∧ (full.modMe fun x => { x with wait := some (.engine 0 ⟨0, .control, 0, 0, [], [], []⟩) }).me.wait = some (.engine 0 ⟨0, .control, 0, 0, [], [], []⟩) ∧
    s.feat 4 = true ∧ s.feat 5 = true ∧ (s.modMine fun c => { c with feat := 0 }).feat 4 = false ∧ 2 ^ 22 ≤ (0x400000#64).toNat ∧
    ((0x10000#64).getLsbD 16 = true ∧ s.mine.ctxKnown 0 = false) ∧ 0x2004 % 8 ≠ 0 ∧
    (s.items 0 .control 0x4000 8 8 .load).2 = .bad 0x11 0x4000 ∧ (s.items 0 .control 0x2000 8 8 .load).2 = words [0, 0x3000, 8, 0, 0, 0, 0, 0] ∧
    (¬ 8 ≤ (Map.get s.mine.engines Engine.reset 0).queue.length ∧ 8 ≤ (Map.get full.mine.engines Engine.reset 0).queue.length) ∧
    wordsAt [0, 1, 2, 2 ^ 32 + 2 ^ 48, 5, 0, 0, 0] = words [0, 1, 2, 2 ^ 32 + 2 ^ 48, 5, 0, 0, 0] ∧
    wordsAt [16, 4, 2, 3, 4, 1, 0, 0] = words [16, 4, 2, 3, 4, 1, 0, 0] ∧
    (let s := wordState [0x2040, 0, 0x3000, 0, 0, 0, 0, 0, 0x3000, 0] id id
     (s.items 0 .control 0x2000 8 8 .load).2 = words [0x2040, 0, 0x3000, 0, 0, 0, 0, 0] ∧ (s.items 0 .control 0x2040 8 2 .load).2 = words [0x3000, 0]) ∧
    (let s := wordState [0, 0, 2 ^ 58, 0x2040, 1, 0, 0, 0, 0] id id
     (s.items 0 .control 0x2000 8 8 .load).2 = words [0, 0, 2 ^ 58, 0x2040, 1, 0, 0, 0] ∧ (s.items 0 .control 0x2040 2 1 .load).2 = words [0] ∧
       relocV (Map.get s.reloc 0 0) = true ∧ relocRmt (Map.get s.reloc 0 0) = false ∧ relocV (Map.get s.reloc 0 1) = false) := by
  decide +kernel

/-! ## Hypotheses that are met: fabric commands, messages, tasks, progress -/

/-- An active image of context ctx with the slots of a list. -/
def image (ctx : BitVec 4) (l : List (Nat × Word)) : EImage :=
  ⟨ctx, false, BitVec.ofNat 32 (l.foldr (fun x n => 2 ^ x.1 + n) 0), l, [], 0, 0, 0, 0, 0, [0], none, false⟩
/-- An element word with the fields of a record. -/
def word (op : Nat) (w : EW) : Word := elemBits (BitVec.ofNat 9 op) w
/-- A word's fields: i64, A and B from the sources given, no target. -/
def fields (sa sb : BitVec 3) : EW := ⟨2, sa, sb, 0, 0, 0, 0, 0, 0⟩
/-- A data token of context 3. -/
def token (v t : Word) : Token := ⟨v, t, 1, 0, false, false, false, false, 3⟩
/-- Element e of position 0 is x. -/
def withElem (e : Nat) (x : Elem) (s : State) : State := s.modElem 0 e fun _ => x
/-- An element that holds a draining sink in slot 1 and takes port a of slot 0. -/
def someElem : Elem := { Elem.reset with act := some (image 3 [(0, word 0x095 (fields 0 7)), (1, word 0x104 (fields 0 3))]) }

/-- Headers: one that keeps the format rules and one that does not; a misaligned address; a page that may not be fetched; a configured element, an
unconfigured one, a context in teardown; a port that takes tokens, one that does not, a full buffer; a sink with a token and with none. -/
theorem witness_FabricCommands :
    let h := [0xF0E7010000000180, 2 ^ 48, 0x1000, 1]
    let s := wordState h (regs [(1, 0x2000), (2, 3), (3, 16)]) id
    let e := withElem 0 someElem s
    let l := { e with cur := { e.cur with k := .loader } }
    let two := withElem 0 { someElem with bufs := [(0, [token 1 0, token 2 0]), (2, [token 5 0, token 6 0])] } s
    (kindState .storer id).cur.k ≠ .control ∧ s.cur.k = .control ∧ 0x2000 % 32 = 0 ∧ 0x2008 % 32 ≠ 0 ∧
    (s.items 0 .control 0x4000 8 4 .fetch).2 = .bad 0x11 0x4000 ∧ (s.items 0 .control 0x2000 8 4 .fetch).2 = .ok (h.map (BitVec.ofNat 64)) ∧
    headerOk (h.map (BitVec.ofNat 64)) = true ∧ headerOk [0, 0, 0, 0] = false ∧
    (∃ l, s.checkSpan 0 0x2000 384 .fetch 1 anyClass = (s, .ok l)) ∧ (s.checkSpan 0 0x3F00 384 .fetch 1 anyClass).2 = .bad 0x11 0x4000 false ∧
    s.mine.cfgq.length < 4 ∧ 16 ≤ (s.gr 3).toNat ∧ (s.gr 2).toNat < 16 ∧
    ((e.elem 0 0).act.map EImage.ctx = some 3 ∧ (e.elem 0 1).act = none ∧ e.mine.tearing = [] ∧ (e.teardown 0 3).mine.tearing ≠ []) ∧
    (l.cur.k = .loader ∧ (l.elem 0 0).act = someElem.act ∧ takesPort (word 0x095 (fields 0 7)) 0 = true ∧ takesPort (word 0x095 (fields 0 7)) 1 = false ∧
      0 < l.mine.free 0x1000 ∧ two.mine.free 0x1000 = 0 ∧ (l.elem 0 8).act = none) ∧
    (drains (word 0x104 (fields 0 3)) = true ∧ drains (word 0x095 (fields 0 7)) = false ∧ Map.get (e.elem 0 0).bufs [] 2 = [] ∧
      Map.get (two.elem 0 0).bufs [] 2 = [token 5 0, token 6 0] ∧ (token 5 0).ctx = (image 3 []).ctx) := by
  refine ⟨by decide, by decide +kernel, by decide, by decide, by decide +kernel, by decide +kernel, by decide +kernel, by decide +kernel,
    ⟨[⟨0x2000, 0x2000, 128, 2057⟩, ⟨0x2080, 0x2080, 128, 2057⟩, ⟨0x2100, 0x2100, 128, 2057⟩], by decide +kernel⟩, by decide +kernel, by decide +kernel, by decide +kernel,
    by decide +kernel, by decide +kernel, by decide +kernel, by decide +kernel⟩

/-- A message that may be sent, one that is held back, a reserved bit; a class with no handler, a waiting class; each state of a class for qspill;
an empty event queue, one with a record, and one with a record held back. -/
theorem witness_MessageCommands :
    let m : Msg := ⟨0, 0, 0, 0, false, false, false, false, 0, 1, 0, 0, 1, 0, 5, 0⟩
    let s := fun c : Core → Core => { memState (regs [(1, 1), (2, 2 ^ 22), (3, 0x2000), (4, 2 ^ 20), (5, 2 ^ 20 + 1)]) c with reloc := [(1, 0x8001)] }
    let wait := s fun c => { c with inb := [(0, { Inbound.reset with q := [m] })] }
    let rings := s fun c => { c with inb := [(0, { Inbound.reset with cur := some ⟨0, 8, 0, 1⟩, old := some ⟨0, 8, 0, 1⟩ })] }
    let held := s fun c => { c with inb := [(0, { Inbound.reset with st := .held, heldMsg := some m })] }
    let evts := s fun c => { c with eq := [⟨1, 2, 3, 4⟩] }
    let more := s fun c => { c with eq := List.replicate 256 ⟨1, 2, 3, 4⟩, eqHeld := [⟨5, 6, 7, 8⟩] }
    let idle := fun s : State => ([0, 1, 2, 3, 4, 5, 6, 7, 13].all fun n => !((s.mine.handler n).en && (s.mine.inbound n).pend && !(s.mine.handler n).mode && !(s.mine.handler n).busy))
    (((s id).gr 1).extractLsb' 22 9 = 0 ∧ ((s id).gr 2).extractLsb' 22 9 ≠ 0) ∧ Accepts (s id) 0 1 ∧ HeldBack (s fun c => { c with out := [(1, ⟨0, 511, false⟩)] }) 0 1 ∧
    ((s id).cur.k = .control ∧ (kindState .loader id).cur.k ≠ .control ∧ (13#4).toNat = 13 ∧ ¬ ((8#4).toNat < 8 ∨ (8#4).toNat = 13)) ∧
    (((s id).mine.inbound 0).pend = false ∧ (wait.mine.inbound 0).pend = true ∧ (wait.mine.handler 0).mode = false ∧ (wait.mine.handler 0).busy = false ∧ m.p = false) ∧
    (((s id).gr 3).toNat % 32 = 0 ∧ ((s id).gr 4).toNat ≠ 0 ∧ ((s id).gr 4).toNat ≤ 2 ^ 20 ∧ 0x2000 + 32 * 2 ^ 20 ≤ 2 ^ 64 ∧ 2 ^ 20 < ((s id).gr 5).toNat) ∧
    (0 < ringCount (rings.mine.inbound 0).old ∧ 0 < ringCount (rings.mine.inbound 0).cur ∧ ((s id).mine.inbound 0).st = .queue ∧
      ringCount ((s id).mine.inbound 0).old = 0 ∧ (held.mine.inbound 0).st = .held ∧ ringCount (held.mine.inbound 0).cur = 0) ∧
    ((s id).mine.eq = [] ∧ evts.mine.eq = [⟨1, 2, 3, 4⟩] ∧ evts.mine.eqHeld = [] ∧ evts.mine.naks = [] ∧ idle evts = true ∧ (28#5).toNat ≤ 28 ∧ 28 < (29#5).toNat) ∧
    (more.mine.eq.tail.length < 256 ∧ more.mine.eqHeld = [⟨5, 6, 7, 8⟩] ∧ more.mine.naks = [] ∧ idle more = true) := by
  refine ⟨by decide +kernel, ?_, ?_, by decide +kernel, by decide +kernel, by decide +kernel, by decide +kernel, by decide +kernel, by decide +kernel⟩
  · unfold Accepts; decide +kernel
  · unfold HeldBack; decide +kernel

/-- Counter references that are good (own core, another core) and bad; spawn and range descriptors that fit and that do not; on the keeper's core
and on another; a free entry and none; a range firing; a cohort that the core has joined. -/
theorem witness_Spawning :
    let spawn := [2 ^ 32, 0, 7, 0, 0, 0, 0, 0]
    let range := [0, 100, 2 ^ 32, 7, 0, 0, 0, 0]
    let s := fun (v : Nat) (l : List Nat) (g : Core → Core) =>
      { wordState l (regs [(1, 0x2000), (2, 0x100), (3, 2 ^ 27), (4, 63), (5, 64)]) (fun c => g { c with vcn := some v, cmask := 1 }) with reloc := [(0, 0x8000 + BitVec.ofNat 16 v), (1, 0x8001)] }
    let busy := s 0 range fun c => { c with tasks := (List.range 256).map fun n => (n, { Task.reset with st := .run }) }
    let piece := s 0 [] fun c => { c with tasks := [(5, { Task.reset with st := .run, range := some (9, 0) })], ctl := { c.ctl with run := some (.task 5) } }
    let word := fun l : List Nat => (l.map (BitVec.ofNat 64))
    (2 ^ 27 ≤ ((s 0 [] id).gr 3).toNat ∧ ((s 0 [] id).gr 2).toNat < 2 ^ 27 ∧ (s 0 [] id).local 1 = true ∧ refVcn ((s 0 [] id).gr 2) = 1 ∧ (s 0 [] id).mine.vcnNum = 0) ∧
    ((s 0 spawn id).items 0 .control 0x2000 8 8 .load).2 = .ok (word spawn) ∧ ((s 0 range id).items 0 .control 0x2000 8 8 .load).2 = .ok (word range) ∧
    (spawnOk (word spawn) = true ∧ spawnOk (word [2 ^ 42]) = false ∧ (0x2004 % 8 ≠ 0) ∧ ((s 0 [] id).items 0 .control 0x4000 8 8 .load).2 = .bad 0x11 0x4000) ∧
    ((s 0 [] id).local 2 = false ∧ ((s 0 [] id).mine.takeSpawn (word spawn)).isSome = true ∧ busy.mine.takeSpawn (word spawn) = none ∧ busy.mine.freeEntry = none) ∧
    ((s 0 [] id).mine.cmask.getLsbD 0 = true ∧ (s 0 [] id).mine.cmask.getLsbD 1 = false ∧ (s 0 [] id).mine.freeEntry = some 0) ∧
    ((s 0 [] id).isKeeper 0 = true ∧ ((s 0 [] id).rangesOf 0).length < 4 ∧ (s 1 [] id).isKeeper 0 = false ∧ (s 1 [] id).local 0 = true) ∧
    4 ≤ (({ s 0 [] id with ranges := List.replicate 4 ⟨0, .control, 0, 0, 0, none, 1, []⟩ }).rangesOf 0).length ∧
    (piece.me.hnd = false ∧ piece.me.run = some (.task 5) ∧ (piece.mine.task 5).range = some (9, 0)) ∧ ((s 0 [] id).me.run = none ∧ (s 0 [] id).me.hnd = false) ∧
    (((s 0 [] id).gr 4).toNat < 2 ^ 6 ∧ 2 ^ 6 ≤ ((s 0 [] id).gr 5).toNat) ∧
    ((s 0 [] id).mine.amask.getLsbD 0 = false ∧ ((s 0 [] id).gr 0).toNat % 4 = 0 ∧ ((s 0 [] id).gr 2).toNat / 2 ^ 18 % 2 ^ 14 = 0) := by decide +kernel

/-- A one-shot task with and without DONE, a piece on the keeper's core and elsewhere, an actor, a handler, a launch firing; values for prio and
tmigr; a record that ctxsv writes and one that ctxld accepts, each with its failing checks. -/
theorem witness_FiringEnds :
    let run := fun (t : Task) => memState (fun x => { x with run := some (.task 5) }) fun c => { c with tasks := [(5, t)] }
    let t := { Task.reset with st := .run }
    let c0 : Nat := 0x5C * 2 ^ 56 + 4 * 2 ^ 48
    let live : Nat := 2
    let s := wordState [live, 0, c0, live, 0, 9] (regs [(1, 0x2000), (2, 4), (3, 0x401), (4, 0x801), (5, 0x2010)]) fun c => { c with ctl := { c.ctl with nsp := 1, sptab := 0x2000 } }
    let m := { s with reloc := [(0, 0x8000), (1, 0x8001)] }
    ((run t).me.hnd = false ∧ (run t).me.run = some (.task 5) ∧ ((run t).mine.task 5).done = none ∧ ((run { t with done := some 1 }).mine.task 5).done = some 1) ∧
    (((run { t with range := some (1, 0) }).mine.task 5).range = some (1, 0) ∧ (run t).isKeeper 0 = true ∧ ((run t).modMine fun c => { c with vcn := some 1 }).isKeeper 0 = false) ∧
    (((run { t with actor := true }).mine.task 5).actor = true ∧ t.out0.toNat < 2 ^ 48) ∧ (s.me.run = none ∧ (0#64).toNat < 4 ∧ 4 ≤ (s.gr 2).toNat) ∧
    (s.feat 7 = true ∧ (s.modMine fun c => { c with feat := 0 }).feat 7 = false ∧ (s.gr 4).toNat = 2 ^ 11 + 1 ∧ m.local 1 = true ∧ m.posOf 1 / 64 = 0 ∧ m.mine.vcnNum ≠ 1 ∧
      ¬ ((s.gr 3).toNat / 2 ^ 11 = 0 → (s.gr 3).toNat % 2 ^ 10 = 0)) ∧
    (s.me.nsp ≤ 1 ∧ 0 < s.me.nsp ∧ (s.items 0 .control 0x2000 8 1 .load).2 = .ok [2] ∧ (2#64).getLsbD 1 = true ∧ (2#64).getLsbD 2 = false) ∧
    ((s.modMe fun x => { x with sptab := 0x4000 }).items 0 .control 0x4000 8 1 .load).2 = .bad 0x11 0x4000 ∧
    (s.checkSpan 0 0x4000 32 .store 1 anyClass).2 = .bad 0x11 0x4000 false ∧ (∃ l, s.checkSpan 0 0x1000 32 .store 1 anyClass = (s, .ok l)) ∧
    ((s.items 0 .control 0x2010 8 2 .load).2 = .ok [BitVec.ofNat 64 c0, 2] ∧ (s.items 0 .control 0x2010 8 4 .load).2 = .ok [BitVec.ofNat 64 c0, 2, 0, 9] ∧
      (BitVec.ofNat 64 c0).extractLsb' 56 8 = 0x5C ∧ 3 + popcount (2 / 2) 42 = 4) ∧ timeOk 1 = true ∧ timeOk 0x00400000 = false := by
  refine ⟨by decide +kernel, by decide +kernel, by decide +kernel, by decide +kernel, by decide +kernel, by decide +kernel, by decide +kernel, by decide +kernel,
    ⟨[{ accOf 0 0 with n := 32 }], by decide +kernel⟩, by decide +kernel, by decide, by decide⟩

/-- A frontier of one time; a change that enters, one that finds a full buffer, an empty frontier, and a change at a complete time. -/
theorem witness_Stakes :
    let s := fun (f : List Word) (n : Nat) => jobState fun c =>
      { c with fnt := [(0, ⟨f, 1⟩)], prog := [(0, ⟨(List.range n).map fun i => ⟨BitVec.ofNat 64 ((i + 9) * 2 ^ 32), 1, 1⟩, 0⟩)], ctl := { c.ctl with g := [(1, 1)], t := [(1, 0x100000000), (2, 0x200000000)] } }
    ((s [0] 0).mine.frontier 0).times = [0] ∧ ((s [] 0).mine.frontier 0).times = [] ∧ (tLe 0 ((s [0] 0).me.tr 1) = true ∧ tLe 0x500000000 ((s [0] 0).me.tr 1) = false) ∧
    tLe ((s [0] 0).me.tr 1) ((s [0] 0).me.tr 2) = true ∧ (s [0] 0).me.tr 1 ≠ (s [0] 0).me.tr 2 ∧ minEpoch [0] + 2 ^ 14 > epochOf ((s [0] 0).me.tr 2) ∧ (s [0] 0).gr 1 ≠ 0 ∧
    (addChange ((s [0] 63).mine.progress 0).ents 0x100000000 1 0).1.length = 64 ∧ (addChange ((s [0] 64).mine.progress 0).ents 0x100000000 1 0).1.length = 65 := by decide +kernel

/-! ## Hypotheses that are met: firings of elements -/

/-- Element 0 of position 0 has one slot, with an operation, and holds one match of it; its vector grant has come. -/
def fireState (op : Nat) (w : EW) (m : Match) (g : Elem → Elem) (c : Core → Core) : State :=
  withElem 0 (g { Elem.reset with act := some (image 3 [(0, word op w)]), matches_ := [m], vgrant := true }) (memState id c)
/-- A match of slot 0 with these tokens. -/
def pair (a b : Option Token) : Match := ⟨0, a, b⟩
/-- The match is the first of its slot, and the slot may fire. -/
def ready (s : State) (m : Match) : Bool :=
  s.cur.p == 0 && s.cur.e == 0 && s.cur.slot == 0 && s.mayFire s.cur.p s.cur.e && (s.elem s.cur.p s.cur.e).slotMay s.cur.slot &&
    decide (s.slotMatches.map Prod.snd = [(0, m)])
theorem fireable_of_ready {s : State} {m : Match} (h : ready s m = true) : Fireable s 0 m := by
  simp only [ready, Bool.and_eq_true, beq_iff_eq, decide_eq_true_eq] at h
  obtain ⟨⟨⟨⟨⟨-, -⟩, -⟩, h1⟩, h2⟩, h3⟩ := h
  cases h4 : s.slotMatches with
  | nil => rw [h4] at h3; cases h3
  | cons x r => rw [h4] at h3; obtain ⟨k, y⟩ := x; simp only [List.map_cons, List.cons.injEq] at h3; exact ⟨h1, h2, k, r, by rw [h4, h3.1]⟩

/-- A word of type ty with A from port a and B from port b, and T0 at port a of slot 0 of element 1. -/
def binary (ty : BitVec 3) : EW := ⟨ty, 0, 0, 0, 0, 0x1040, 0, 0, 0⟩

/-- Integer and floating types; a match with L = 1; room on T0. -/
theorem witness_ElementScalarOps :
    let m := pair (some (token 7 0)) (some { token 9 0 with l := true })
    (∀ op ∈ [0x000, 0x008, 0x010, 0x018, 0x080, 0x082, 0x084, 0x087, 0x090, 0x094, 0x095, 0x096, 0x097, 0x048, 0x050, 0x060, 0x098], ∀ ty ∈ [2#3, 3],
      ready (fireState op (binary ty) m id id) m = true) ∧
    m.poison = none ∧ (2#3).toNat < 3 ∧ 3 ≤ (3#3).toNat ∧ (pair (some (token 7 0)) (some { token 9 0 with l := true })).flag Token.l = true ∧
    HasRoom (fireState 0 (binary 2) m id id) (binary 2) [(0, token 16 0), (1, token 16 0)] := by unfold HasRoom; decide +kernel

/-- A vector register named in the word and by a token, the last code that is one, the first that is none, and an acc register outside f32. -/
theorem witness_ElementVectorOps :
    let w := fun (ty sa ai : BitVec 3) => (⟨ty, sa, 7, ai, 0, 0x1040, 0, 0, 0⟩ : EW)
    let m := fun v : Word => pair (some (token v 0)) none
    let none_ := pair none none
    (∀ op ∈ [0x020, 0x028, 0x030, 0x038, 0x040, 0x058, 0x0A0, 0x0A1, 0x0A2, 0x0A3, 0x0A4], ready (fireState op (w 3 0 0) (m 11) id id) (m 11) = true) ∧
    (m 11).poison = none ∧ ((11#64).toNat < 12 ∧ (w 3 0 0).ty.toNat = 3) ∧ ¬ ((12#64).toNat < 8 ∨ (12#64).toNat < 12) ∧
    ready (fireState 0x020 (w 0 4 7) none_ id id) none_ = true ∧ ((w 0 5 0).sa = 5 ∧ ¬ (8 < 8 ∨ (8 < 12 ∧ (w 0 5 0).ty.toNat = 3))) ∧ none_.poison = none ∧
    widthOf 0 = 32 ∧ (w 0 4 7).sb ≠ 0 ∧ (w 0 4 7).sb ≠ 4 ∧ (w 0 4 7).sb ≠ 5 := by decide +kernel

/-- A path of no bits, of one bit and of seven; a malformed time and a good one; the borders of the selectors; a product that saturates. -/
theorem witness_ElementSteering :
    let path := fun n : Nat => { token 7 0 with path := BitVec.ofNat 11 (n * 256 + 1) }
    let m := fun (k : Token) (b : Word) => pair (some k) (some (token b 0))
    (∀ op ∈ [0x0B0, 0x0B2, 0x0B3, 0x0B4, 0x0B5, 0x0B6, 0x0B7], ∀ n ∈ [0, 6, 7], ready (fireState op (binary 2) (m (path n) 8) id id) (m (path n) 8) = true) ∧
    (∀ n ∈ [0, 1], ready (fireState 0x0B1 (binary 2) (pair (some (path n)) none) id id) (pair (some (path n)) none) = true ∧
      ready (fireState 0x0B1 (binary 2) (pair none (some (path n))) id id) (pair none (some (path n))) = true) ∧
    ((m (path 7) 8).tag.path.extractLsb' 8 3 = 7 ∧ (path 1).path.getLsbD 0 = true ∧ (path 0).path.extractLsb' 8 3 = 0) ∧
    (timeOk 0x00400000 = false ∧ timeOk 0xFFC00001 = true ∧ 5 < (6#64).toNat ∧ 7 < (8#64).toNat ∧ (7#64).toNat ≤ 7) ∧
    ((0x7FFFFFFF : Int) * 2 ≠ satInt (0x7FFFFFFF * 2) 32 ∧ (3 : Int) * 2 = satInt (3 * 2) 32) := by decide +kernel

/-- Poison at port a, at port b, and at both; a tag operation that fails. -/
theorem witness_PoisonFirings :
    let bad := { token 5 0 with p := true }
    let m := pair (some (token 7 0)) (some bad)
    let w := { binary 2 with tg := 1 }
    (∀ op ∈ [0x000, 0x048, 0x0B2, 0x018], ready (fireState op (binary 2) m id id) m = true) ∧ m.poison = some 5 ∧ (pair (some bad) (some { bad with value := 6 })).poison = some 5 ∧
    HasRoom (fireState 0 (binary 2) m id id) (binary 2) [(0, { token 5 0 with p := true }), (1, { token 5 0 with p := true })] ∧
    (let n := pair (some (token 7 3)) (some (token 9 3))
     ready (fireState 0x0B2 w n id id) n = true ∧ n.poison = none ∧ (tagOp w.tg 9 n.tag.time n.tag.path = .error 0x21)) := by
  refine ⟨by decide +kernel, by decide, by decide, by unfold HasRoom; decide +kernel, by decide +kernel, by decide, rfl⟩

/-- A start with poison, at depth 3, with counts at and beyond the borders; a run with indices to come, at its last one and at its end; a bound,
a poison bound, and one out of range. -/
theorem witness_Counters :
    let m := fun (k : Token) (n : Nat) => pair (some k) (some (token (BitVec.ofNat 64 n) 0))
    let base := token 0 1
    let free := fun (node : Node) => fireState 0x100 (binary 2) (pair none none) (fun x => { x with matches_ := [], nodes := [(0, node)] }) id
    (∀ k ∈ [token 0 0, token 0 3, { token 0 0 with p := true }], ∀ n ∈ [0, 1024, 1025, 2 ^ 64 - 1], ready (fireState 0x100 (binary 2) (m k n) id id) (m k n) = true) ∧
    (m (token 0 0) 1).poison = none ∧ (m { token 0 0 with p := true } 1).poison = some 0 ∧ depthOf (token 0 3).time = 3 ∧ depthOf (token 0 0).time ≠ 3 ∧
    1024 < (1025#64).toInt ∧ (1024#64).toInt ≤ 1024 ∧ (BitVec.allOnes 64).toInt < 0 ∧
    (let c := pair (some (token 0 0)) none
     ready (fireState 0x101 (binary 2) c (fun x => { x with nodes := [(0, .ctrb 5 none [])] }) id) c = true) ∧
    (∀ node ∈ [Node.ctr ⟨base, 0, 2⟩, .ctr ⟨base, 1, 2⟩, .ctr ⟨base, 2, 2⟩, .ctrb 5 (some ⟨base, 5, 0⟩) [], .ctrb 0 (some ⟨base, 0, 0⟩) [], .ctrb 1025 (some ⟨base, 0, 0⟩) [],
      .ctrb 5 none [token 1 0]], (free node).mayFire 0 0 = true ∧ ((free node).elem 0 0).slotMay 0 = true ∧ Map.find ((free node).elem 0 0).nodes 0 = some node) ∧
    (let b := fun k : Token => fireState 0x101 (binary 2) (pair none none) (fun x => { x with matches_ := [], bufs := [(1, [k])] }) id
     (b (token 5 0)).headOf 0 0 0 1 = some (token 5 0) ∧ ((b (token 5 0)).elem 0 0).op 0 = 0x101 ∧ (token 5 0).ctx = ((b (token 5 0)).elem 0 0).ctx ∧
       (b { token 5 0 with p := true }).headOf 0 0 0 1 = some { token 5 0 with p := true }) := by decide +kernel

/-- A token for an empty stream and for a full one; counts at and beyond the borders, and poison; copies to come, the last one, and one at depth 3. -/
theorem witness_RepeatNodes :
    let node := fun (n : Nat) (full : Bool) (run : Option (Nat × Nat × Nat)) => Node.rpt (List.replicate n (token 1 0)) full run []
    let s := fun (node : Node) (port : Nat) (k : Token) => fireState 0x102 (binary 2) (pair none none) (fun x => { x with matches_ := [], nodes := [(0, node)], bufs := [(port, [k])] }) id
    (∀ x ∈ [(node 31 false none, 0, token 1 0), (node 32 false none, 0, token 1 0), (node 2 true none, 1, token 0 0), (node 2 true none, 1, token 1024 0),
        (node 2 true none, 1, token 1025 0), (node 2 true none, 1, { token 1 0 with p := true })],
      let u := s x.1 x.2.1 x.2.2
      u.headOf 0 0 0 x.2.1 = some x.2.2 ∧ (u.elem 0 0).op 0 = 0x102 ∧ x.2.2.m = false ∧ x.2.2.ctx = (u.elem 0 0).ctx ∧ Map.find (u.elem 0 0).nodes 0 = some x.1) ∧
    1024 < (1025#64).toInt ∧ 0 < (1024#64).toInt ∧ (1024#64).toInt ≤ 1024 ∧ (0#64).toInt = 0 ∧ nth (List.replicate 2 (token 1 0)) 1 = some (token 1 0) ∧
    depthOf (token 1 3).time = 3 ∧
    (let u := s (node 2 true (some (2, 1, 1))) 0 (token 1 0)
     u.mayFire 0 0 = true ∧ (u.elem 0 0).slotMay 0 = true) := by decide +kernel

/-- An emit that has not fired, with a good time and a malformed one; the others with a token, with poison, and with a full event queue. -/
theorem witness_RecordNodes :
    let m := fun k : Token => pair (some k) none
    let e := fun i : Nat => fireState 0x103 { binary 2 with sa := 3, sb := 1 } (pair none none) (fun x => { x with matches_ := [], e := [(0, BitVec.ofNat 64 i)] }) id
    let full := fun c : Core => { c with eq := List.replicate 256 ⟨0, 0, 0, 0⟩, eqHeld := List.replicate 4 ⟨0, 0, 0, 0⟩ }
    (∀ i ∈ [0, 0x00400000], (e i).mayFire 0 0 = true ∧ ((e i).elem 0 0).slotMay 0 = true ∧ Map.find ((e i).elem 0 0).nodes 0 = none) ∧
    timeOk 0x00400000 = false ∧
    (∀ op ∈ [0x104, 0x105, 0x106, 0x107], ∀ k ∈ [token 5 0, { token 5 0 with p := true }], ready (fireState op { binary 2 with sb := 7 } (m k) id id) (m k) = true) ∧
    (m (token 5 0)).poison = none ∧ (m { token 5 0 with p := true }).poison = some 5 ∧ (memState id id).mine.eqRoom = true ∧ (memState id full).mine.eqRoom = false := by
  decide +kernel

/-! ## Hypotheses that are met: ports, the matrix unit, column 7 -/

/-- Accesses that pass, one whose page is absent, one that may not be made, poison, a reference that is none; starts of ldst at the borders. -/
theorem witness_MemoryPortNodes :
    let m := fun (a b : Nat) => pair (some (token (BitVec.ofNat 64 a) 0)) (some (token (BitVec.ofNat 64 b) 0))
    let s := fun (op : Nat) (w : EW) (m : Match) => fireState op w m id id
    (∀ op ∈ [0x111, 0x112, 0x118, 0x11C, 0x120, 0x127, 0x110], ∀ a ∈ [0x1000, 0x6000, 0x4000], let k := m a a
      ready (s op (binary 2) k) k = true ∧ k.poison = none ∧ (s op (binary 2) k).portRoom 0 0 = true) ∧
    (∀ op ∈ [0x113, 0x114, 0x128], let k := m 0x1000 0x1000
      ready (s op (binary 3) k) k = true ∧ ((s op (binary 3) k).elem 0 0).op 0 = op) ∧
    (let u := s 0x111 (binary 2) (m 0x1000 0)
     u.checkSpan 0 0x1000 8 .load 1 anyClass = (u, .ok [accOf 0 0]) ∧ (u.checkSpan 0 0x6000 8 .load 1 anyClass).2 = .bad 0x10 0x6000 false ∧
       (u.checkSpan 0 0x4000 8 .load 1 anyClass).2 = .bad 0x11 0x4000 false ∧ (u.checkSpan 0 0x2004 8 .atomic 8 immOnly).2 = .bad 0x13 0x2004 false) ∧
    (let k := pair (some { token 5 0 with p := true }) (some (token 0x1000 0))
     ready (s 0x112 (binary 2) k) k = true ∧ k.poison.isSome = true ∧ (s 0x112 (binary 2) k).mine.eqRoom = true) ∧
    (let k := m 0x1000 12
     ((s 0x114 (binary 3) k).fx (binary 3) k).vecReg = .bad ∧ ready (s 0x114 (binary 3) k) k = true) ∧
    (depthOf 3 = 3 ∧ depthOf 0 ≠ 3 ∧ 1024 < (1025#64).toInt ∧ (1024#64).toInt ≤ 1024) := by decide +kernel

/-- An access of 8 bytes at page n + 1, of slot 0. -/
def portAcc (n off : Nat) : PortAcc := ⟨0, 0, (accOf n off).va, 8, [accOf n off], 5, 0, 0, token 0 0, 0, 0, none⟩
/-- Row 0's port holds accesses of a slot with an operation. -/
def portState (op : Nat) (l : List PortAcc) (c : Core → Core) : State :=
  fireState op (binary 2) (pair none none) (fun x => { x with matches_ := [] }) fun x => c { x with ports := [(0, ⟨l, none, 0, 0, false⟩)], l1 := [((accOf 0 0).copy, { someL1 with poison := 0 })] }

/-- Two accesses that overlap and two that do not; reads and writes of each kind that succeed; and marked words. -/
theorem witness_MemoryPortAccesses :
    let bad := fun c : Core => { c with l1 := [((accOf 0 0).copy, { someL1 with poison := 1 })] }
    let hurt := { portState 0x112 [portAcc 1 0] id with slices := [(0, ⟨0, 0, [(someKey, { someLine with poison := 1 })], [], []⟩)] }
    (∀ op ∈ [0x110, 0x111, 0x112, 0x113, 0x114, 0x118, 0x11C, 0x120, 0x128], let s := portState op [portAcc 0 0, portAcc 1 0, portAcc 0 4] id
      (s.elem 0 0).op 0 = op ∧ nth ((s.core 0).port 0).accs 0 = some (portAcc 0 0) ∧ nth ((s.core 0).port 0).accs 2 = some (portAcc 0 4) ∧
        firstN ((s.core 0).port 0).accs 0 = []) ∧
    (0x1000 < 0x1004 + 8 ∧ 0x1004 < 0x1000 + 8) ∧
    (∃ v, ((portState 0x111 [portAcc 0 0] id).loadParts 0 [accOf 0 0]).2 = .ok v) ∧
    ((portState 0x112 [portAcc 0 0] id).storeParts 0 [accOf 0 0] 5).2 = .ok 0 ∧
    (let s := portState 0x120 [portAcc 1 0] id
     ((s.atHome 0 (accOf 1 0) (.amo 0 false 8 5 0 0)).map fun r => r.2.reply) = some (.value 0 7)) ∧
    ((portState 0x111 [portAcc 0 0] bad).loadParts 0 [accOf 0 0]).2 = .poison ∧ (hurt.storeParts 0 [{ accOf 1 0 with n := 4 }] 5).2 = .poison ∧
    (portAcc 0 0).tgBad = none ∧ ({ portAcc 0 0 with tgBad := some 0x21 }).tgBad = some 0x21 := by
  refine ⟨by decide +kernel, by decide, ⟨0, by decide +kernel⟩, by decide +kernel, by decide +kernel, by decide +kernel, by decide +kernel, rfl, rfl⟩

/-- A row of A at the tag of a token with time 0. -/
def someRow : ARow := ⟨1, 2, 0, 0, 1, false⟩
/-- A written latch of format 1 that holds two rows. -/
def someLatch : Latch := ⟨true, 1, some (List.replicate 128 5), [someRow, someRow], true⟩

/-- mpre with MX = 1, in and out of a segment, and with MX = 0; mmode on with MX = 1 and 0, and off; latches of the match's row, of another format and
with a mismatch mark; register codes at the borders. -/
theorem witness_MatrixMode :
    let m := pair (some (token 0 0)) none
    let w := fun imm : BitVec 10 => { binary 2 with sb := 7, imm := imm }
    let on := fun x : Elem => { x with mx := true }
    let s := fun (op : Nat) (imm : BitVec 10) (g : Elem → Elem) => fireState op (w imm) m g id
    let seg := fireState 0x141 (w 0xFF) m on fun c => { c with bus := [(0, ⟨0, 0, 1, [], [0]⟩)] }
    ready (s 0x141 0xFF on) m = true ∧ (s 0x141 0xFF on).mine.inSegment 0 = false ∧ ready seg m = true ∧ seg.mine.inSegment 0 = true ∧ seg.slotMatches.length = 1 ∧
    ready (s 0x141 0xFF fun x => { x with moff := true }) m = true ∧ m.poison = none ∧
    (∀ imm ∈ [0#10, 1], ready (s 0x14E imm id) m = true ∧ ready (s 0x14E imm on) m = true) ∧ Map.find ((s 0x14E 1 id).elem 0 0).nodes 0 = none ∧
    (∀ op ∈ [0x14C, 0x14D], ready (s op 0 id) m = true) ∧ (6 < 7 ∧ 8 ≤ 8 ∧ 11 ≤ 11 ∧ 11 < 12) ∧
    (∀ g ∈ [fun x : Elem => { on x with latch0 := someLatch }, fun x => { on x with latch0 := { someLatch with fmt := 2 } }, fun x => { on x with latch0 := { someLatch with vals := none } },
        fun x => { on x with latch1 := someLatch }, fun x => { on x with latch0 := { someLatch with rows := [{ someRow with time := 1 }] }, latch1 := someLatch }],
      ready (s 0x149 0 g) m = true) ∧
    (someLatch.busy = true ∧ someLatch.written = true ∧ someLatch.rows = [someRow, someRow] ∧ someRow.time = m.tag.time ∧ someRow.path = m.tag.path) := by decide +kernel

/-- An mrow node in each stage of its rows, with good words and poison; a segment that may start and the one before it; one that ends; a grant that
is due for matrix mode and for vectors; the last die. -/
theorem witness_MatrixRows :
    let on := fun x : Elem => { x with mx := true, cim := ⟨2, 1, 0, []⟩ }
    let node := fun (word : Option Token) (row : Option ARow) (seg : List ARow) => fireState 0x145 { binary 2 with sb := 7, imm := 0xFF } (pair (some (token 0 0)) none)
      (fun x => { on x with nodes := [(0, .mrow word row seg [])] }) id
    let bad := { token 9 0 with p := true }
    (∀ x ∈ [(none, none, []), (some (token 1 0), none, []), (some (token 1 0), some someRow, []), (some (token 1 0), some someRow, [someRow]), (some bad, none, []),
        (some bad, some someRow, [])], let s := node x.1 x.2.1 x.2.2
      s.mayFire 0 0 = true ∧ (s.elem 0 0).slotMay 0 = true ∧ (s.elem 0 0).mx = true ∧ s.cur.pick = none ∧ (s.elem 0 0).keyed.map Prod.snd = [(0, pair (some (token 0 0)) none)] ∧
        Map.find (s.elem 0 0).nodes 0 = some (.mrow x.1 x.2.1 x.2.2 [])) ∧
    (let s := node none none [someRow]
     (s.elem 0 0).op 0 = 0x145 ∧ ((s.elem 0 0).mrow 0).2.2 ≠ [] ∧ s.mine.elemStopped (s.elem 0 0) = false ∧ Map.find s.mine.bus 0 = none ∧ (s.elem 0 0).cim.st = 2 ∧
       (s.elem 0 0).latch0.busy = false) ∧
    (let s := { node none none [] with cores := [(0, { (node none none []).core 0 with bus := [(0, ⟨0, 0, 1, [someRow], [0]⟩)] })] }
     Map.find (s.core 0).bus 0 = some ⟨0, 0, 1, [someRow], [0]⟩) ∧
    (let s := fun a v => withElem 0 { Elem.reset with asked := a, vasked := v } State.reset
     ((s true false).elem 0 0).asked = true ∧ ((s false true).elem 0 0).asked = false ∧ ((s false true).elem 0 0).vasked = true) ∧ 8 < 9 := by decide +kernel

/-- Sends that are accepted and held back; a broken B; probes that find, that do not and that fail; a history of one record and one that cannot be
read; changes that are entered and refused; a pair still to emit. -/
theorem witness_MessageNodes :
    let m := fun (a b : Nat) => pair (some (token (BitVec.ofNat 64 a) 0)) (some (token (BitVec.ofNat 64 b) 0))
    let s := fun (op : Nat) (m : Match) (c : Core → Core) => { fireState op (binary 2) m id c with reloc := [(1, 0x8001)] }
    let full := fun c : Core => { c with out := [(1, ⟨0, 511, false⟩)] }
    (∀ op ∈ [0x160, 0x161, 0x162, 0x163, 0x164], ready (s op (m 5 1) id) (m 5 1) = true) ∧ (m 5 1).poison = none ∧ (s 0x160 (m 5 1) full).slotMatches.length = 1 ∧
    Accepts (s 0x160 (m 5 1) id) 0 1 ∧ HeldBack (s 0x160 (m 5 1) full) 0 1 ∧ 2 ^ 22 ≤ (4194304#64).toNat ∧
    ((s 0x163 (m 0 0x2004) id).probe 0 0x2000 4 0 .load 1 (hashOf 0 4)).2 = .found ⟨0x2000, 0x2000, 16, 2057⟩ 0x81 ∧
    ((s 0x163 (m 5 0x2004) id).probe 0 0x2000 4 5 .load 1 (hashOf 5 4)).2 = .full ∧ ((s 0x163 (m 5 0x4004) id).probe 0 0x4000 4 0 .load 1 0).2 = .bad 0x11 0x4000 false ∧
    ((s 0x162 (m 0 0x3000) id).history 0 0x2000 0).2 = .ok [] ∧ ((s 0x162 (m 0 0x4000) id).history 0 0x4000 0).2 = .bad 0x11 ∧ ((s 0x162 (m 0 1) id).history 0 1 0).2 = .bad 0x2A ∧
    ((s 0x164 (m 5 1) id).mine.timesRefused 1 0 [] = true ∧ ((s 0x164 (m 5 1) fun c => { c with fnt := [(1, ⟨[0], 1⟩)] }).mine.timesRefused 1 0 [] = false) ∧
      (((s 0x164 (m 5 1) fun c => { c with fnt := [(1, ⟨[0], 1⟩)] }).mine.enterChange 1 0 0 5).isSome = true) ∧ satInt 5 64 ≠ 0 ∧ 7 < (8#64).toNat) ∧
    (let k := pair (some (token 5 0)) (some { token 1 0 with p := true })
     ready (s 0x160 k id) k = true ∧ k.poison.isSome = true ∧ (s 0x160 k id).mine.eqRoom = true) ∧
    (let u := fireState 0x162 (binary 2) (pair none none) (fun x => { x with matches_ := [], nodes := [(0, .pairs [(token 1 0, token 2 0)])] }) id
     u.mayFire 0 0 = true ∧ (u.elem 0 0).slotMay 0 = true ∧ HasRoom u (binary 2) [(0, token 1 0), (1, token 2 0)]) := by
  unfold Accepts HeldBack HasRoom; decide +kernel

/-! ## Hypotheses that are met: the fabric's events, messages, the escapement and the keeper -/

/-- Element 0 has a slot with an operation that takes both ports, and x's other state. -/
def headState (op : Nat) (w : EW) (g : Elem → Elem) (c : Core → Core) : State := fireState op w (pair none none) (fun x => g { x with matches_ := [] }) c
/-- A store full of tokens that pair with nothing. -/
def fullStore : List Waiting := List.replicate 64 ⟨0, 1, token 0 0x300000000⟩

/-- Tokens of another context, of the shadow's, markers, teardown tokens, a token of one port, one with a partner in the store and in the overflow area,
and one that waits, with room and without; markers at MIN; a flip of the last element; an image that fails its checks and one that passes. -/
theorem witness_FabricEvents :
    let s := fun (k : Token) (g : Elem → Elem) (c : Core → Core) => headState 0x000 (binary 2) (fun x => g { x with bufs := [(0, [k])] }) c
    let mine : Waiting := ⟨0, 1, token 9 0⟩
    (∀ k ∈ [token 1 0, { token 1 0 with ctx := 4 }, { token 1 0 with m := true }, { token 1 0 with m := true, l := true }, { token 1 0 with p := true, ctx := 4 }],
      (s k id id).headOf 0 0 0 0 = some k ∧ ((s k id id).elem 0 0).act.map EImage.ctx = some 3) ∧
    takesPort (word 0 (binary 2)) 0 = true ∧ (opOf (word 0 (binary 2))).toNat = 0 ∧ (ewOf (word 0 (binary 2))).sa = 0 ∧ (ewOf (word 0 (binary 2))).sb = 0 ∧
    ((s (token 1 0) (fun x => { x with store := [mine] }) id).elem 0 0).store[0]? = some mine ∧
    ((s (token 1 0) id fun c => { c with overflow := [⟨0, 0, mine⟩] }).core 0).overflow[0]? = some ⟨0, 0, mine⟩ ∧
    (((s (token 1 0) id id).elem 0 0).storeUsed < 64 ∧ 64 ≤ ((s (token 1 0) (fun x => { x with store := fullStore }) id).elem 0 0).storeUsed) ∧
    ((s (token 1 0) (fun x => { x with store := fullStore }) id).core 0).freeSpill = none ∧
    ((s (token 1 0) (fun x => { x with store := fullStore }) fun c => { c with spillBlocks := 1 }).core 0).freeSpill = some 0 ∧
    (let u := s (token 1 0) (fun x => { x with markers := 1, mlast := some (token 0 0) }) id
     (u.elem 0 0).act.map EImage.min = some 0 ∧ (u.elem 0 0).leaving = false ∧ u.mine.elemStopped (u.elem 0 0) = false ∧ (image 3 [(0, word 0 (binary 2))]).edges = [(0, 0x1040)] ∧
       1 ≤ u.mine.free 0x1040) ∧
    (let u := headState 0 (binary 2) (fun x => { x with act := some { image 3 [] with tin := 1 }, tdowns := 1 }) id
     u.mayLeave 0 0 = true ∧ 0 < 1 ∧ (headState 0 (binary 2) (fun x => { x with act := some { image 3 [] with tin := 1 } }) id).mayLeave 0 0 = false) ∧
    (let u := headState 0 (binary 2) (fun x => { x with leaving := true }) fun c => { c with tearing := [3 * 64] }
     (u.elem 0 0).leaving = true ∧ (u.elem 0 0).due = [] ∧ (u.elem 0 0).sh = none ∧ (u.elem 0 0).bufs = [] ∧ (u.core 0).tearing = [3 * 64 + 0]) ∧
    (let u := headState 0 (binary 2) (fun x => { x with act := some { image 3 [] with min := 1 }, ec := 0x30D41 }) id
     u.mine.spmax.toNat < (u.elem 0 0).ec.toNat ∧ (u.elem 0 0).act.map EImage.min = some 1) ∧
    (let h := [0xF0E7010000000180, 2 ^ 48, 0x1000, 1]
     let u := fun tin : Nat => wordState (h ++ [0x0101 * 2 ^ 48 + 1, tin]) id fun c => { c with cfgq := [⟨0x2000, h.map (BitVec.ofNat 64)⟩] }
     let fails := fun tin : Nat => match (u tin).imageBytes 0 0x2000 384 with
       | (v, .ok x) => some ((v.core 0).imageFails x (h.map (BitVec.ofNat 64)))
       | _ => none
     fails 1 = some [] ∧ fails 0 = some [(0, 0, 7)] ∧ ((u 1).core 0).stalled (fun r => r.unit == 6) = false ∧ (Map.get ((u 1).core 0).elems Elem.reset 0).sh = none) := by
  decide +kernel

/-- A message of class cls and opcode opc from VCN 1 to VCN 0, which this core holds. -/
def message (cls : BitVec 4) (opc : BitVec 9) : Msg := ⟨cls, 0, 0, opc, false, false, false, false, 0, 1, 0, 0, 1, 0, 5, 0⟩
/-- The memory state with messages on their way, whose issuer and source chip are given. -/
def netState (l : List Msg) (k : Option Kind) (chip : Option Nat) (f : Scalar → Scalar) (c : Core → Core) : State :=
  { memState f c with reloc := [(0, 0x8000), (1, 0x8001)], net := l.map fun m => ⟨m, true, false, k, chip, []⟩ }

/-- Messages of each kind at a class with room, with a full queue, in HELD, and out of order; a ring that can be read; a MODE 1 class with and
without room at its port; a handler firing at the head of its level. -/
theorem witness_Delivery :
    let s := fun (m : Msg) (x : Inbound) => netState [m] none none id fun c => { c with inb := [(0, x)] }
    let q := fun n : Nat => { Inbound.reset with q := List.replicate n (message 0 0) }
    (∀ m ∈ [message 0 0, message 0 1, message 0 2, message 13 0, { message 0 0 with o := true, seq := 1 }],
      ((s m Inbound.reset).arrivable 0).map NetMsg.msg = some m ∧ (s m Inbound.reset).posOf m.dst.toNat = 0) ∧
    ((message 0 2).bad none = true ∧ (message 0 0).bad none = false ∧ (message 0 1).bad none = false ∧ (message 13 0).bad (some 1) = false) ∧
    ((Inbound.reset).heldMsg = none ∧ (q 15).q.length < 16 ∧ 16 ≤ (q 16).q.length ∧ (q 15).spilled = 0) ∧
    ((s (message 0 0) Inbound.reset).mine.withheld 0 = false ∧ Map.get (s (message 0 0) Inbound.reset).mine.dlv 0 1 ≠ 1) ∧
    (let u := s (message 0 0) { q 16 with cur := some ⟨0x2000, 4, 0, 0⟩ }
     ((u.spillMsg 0 0 (message 0 0)).map Prod.snd) = some true) ∧
    (let u := s (message 0 1) Inbound.reset
     (∃ v, (u.rstStore 0 0x2000 5).2 = .ok v) ∧ (u.rstStore 0 0x4000 5).2 = .bad 0x11 0x4000 false) ∧
    (let r : Ring := ⟨0x2000, 4, 0, 1⟩
     let u := s (message 0 0) { Inbound.reset with st := .spill, cur := some r }
     0 < ringCount ((u.core 0).inbound 0).cur ∧ ringCount ((u.core 0).inbound 0).old = 0 ∧ (∃ v, (u.ringAccess 0 (r.va r.head) none).2 = .ok v) ∧
       (u.ringAccess 0 0x4000 none).2 = .bad 0x11 ∧ (u.core 0).eqRoom = true) ∧
    (let m := { message 0 0 with cont := 7 * 64 }
     let u := withElem 7 { someElem with bufs := [] } (netState [] none none id fun c => { c with inb := [(0, { Inbound.reset with q := [m] })], handlers := [(0, ⟨0, true, 0, true, false⟩)] })
     ((u.core 0).inbound 0).q = [m] ∧ ((u.core 0).handler 0).mode = true ∧ ((u.core 0).handler 0).en = true ∧ (m.cont.extractLsb' 6 6).toNat % 8 = 7 ∧
       ((u.elem 0 7).act.isSome = true) ∧ 0 < (u.core 0).free (1#1 ++ m.cont) ∧ ({ m with cont := 0 }.cont.extractLsb' 6 6).toNat % 8 ≠ 7) ∧
    (let u := netState [] none none (fun x => { x with ready := [(3, [⟨.handler 0 none, 0⟩])] }) fun c => { c with inb := [(0, { Inbound.reset with q := [message 0 0] })] }
     (u.core 0).ctl.head = some (3, ⟨.handler 0 none, 0⟩) ∧ ((u.core 0).inbound 0).q = [message 0 0] ∧ (u.core 0).ctl.run = none ∧ (u.core 0).ctl.stop = none ∧
       (u.core 0).freeze = none ∧ (u.core 0).resumeWait = false) ∧
    (let u := netState [] none none id fun c => { c with hold := [{ message 0 0 with o := true, seq := 1 }, message 0 0, message 0 1] }
     (u.core 0).hold[0]? = some { message 0 0 with o := true, seq := 1 } ∧ (u.core 0).hold[1]? = some (message 0 0) ∧ (u.core 0).hold[2]? = some (message 0 1) ∧
       Map.get (u.core 0).dlv 0 1 ≠ 1 ∧ (∃ v, ((u.delivered 0 (message 0 1) none).rstStore 0 0x2000 5).2 = .ok v)) := by
  refine ⟨by decide +kernel, by decide +kernel, by decide +kernel, by decide +kernel, by decide +kernel, ⟨⟨0, by decide +kernel⟩, by decide +kernel⟩,
    ⟨by decide +kernel, by decide +kernel, ⟨_, rfl⟩, by decide +kernel, by decide +kernel⟩, by decide +kernel, by decide +kernel,
    ⟨by decide +kernel, by decide +kernel, by decide +kernel, by decide +kernel, ⟨0, by decide +kernel⟩⟩⟩

/-- Two deliveries of one source, one O delivery, one from another module; ACKs and a NAK that arrive, with room for the record and without. -/
theorem witness_Acknowledging :
    let s := netState [message 13 2] none none id fun c => { c with toAck := [(1, 0, false, none), (1, 0, false, none), (2, 0, true, none), (3, 0, false, some 4)] }
    let full := fun c : Core => { c with eq := List.replicate 256 ⟨0, 0, 0, 0⟩ }
    (0 < 2 ∧ 2 < 512 ∧ ((s.core 0).toAck.filter fun e => e.1 == 1 && e.2.1 == 0).take 2 = [(1, 0, false, none), (1, 0, false, none)] ∧
      ((s.core 0).toAck.filter fun e => e.1 == 2 && e.2.1 == 0).take 1 = [(2, 0, true, none)] ∧ ((s.core 0).toAck.filter fun e => e.1 == 3 && e.2.1 == 0).take 1 = [(3, 0, false, some 4)] ∧
      relocRmt (s.relocOf 1) = false) ∧
    (s.arrivable 0).map NetMsg.msg = some (message 13 2) ∧
    (((netState [message 13 3] none (some 4) id id).arrivable 0).bind NetMsg.chip = some 4 ∧ ((netState [message 13 3] none (some 4) id id).core 0).naks = [] ∧
      ((netState [message 13 3] none (some 4) id id).core 0).eqRoom = true ∧ ((netState [message 13 3] none (some 4) id full).core 0).eqRoom = false) := by decide +kernel

/-- A counter operation and a part of a spawn or request: CONT and VALUE of a C13 message. -/
def systemMsg (opc : BitVec 9) (cont : BitVec 12) (value : Word) : Msg := { message 13 opc with cont := cont, value := value }

/-- Each C13 message of the escapement at a core that can take it, one behind an earlier enqueue, and a full table; counters at 0, 1 and above and
input counts; a retry at 255 and 256 cycles; a core that asks for work; an entry that has waited AGE cycles; and a firing of each kind at the head. -/
theorem witness_EscapementEvents :
    let s := fun (l : List Msg) (f : Scalar → Scalar) (c : Core → Core) => netState l (some .control) none f c
    let t := { Task.reset with st := .wait, cnt := 1 }
    let a := { Task.reset with st := .idle, actor := true }
    let parts := (List.range 4).map fun i => systemMsg 5 (BitVec.ofNat 12 i) 0
    (∀ m ∈ [systemMsg 4 0 0, systemMsg 6 0 0, systemMsg 7 0 0, systemMsg 7 1 0, systemMsg 7 2 0], ((s [m] id id).arrivable 0).map NetMsg.msg = some m) ∧
    ((s parts id id).arrivable 0).map NetMsg.msg = some (systemMsg 5 0 0) ∧
    (((s parts id id).takeParts 0 4 ⟨systemMsg 5 0 0, true, false, some .control, none, []⟩).2).length = 4 ∧
    (((s parts id id).core 0).takeSpawn [2 ^ 32, 0, 7, 0, 0, 0, 0, 0]).isSome = true ∧
    (((s parts id fun c => { c with tasks := (List.range 256).map fun n => (n, { Task.reset with st := .run }) }).core 0).takeSpawn [0, 0, 0, 0, 0, 0, 0, 0]) = none ∧
    (let u := s [systemMsg 6 0 1] id fun c => { c with retry := [⟨0, some .control, [], false⟩], behind := [(.control, [{ systemMsg 7 0 0 with dst := 1 }])] }
     (u.arrivable 0).map NetMsg.parts = some [] ∧ (u.core 0).retry = [] ++ ⟨0, some .control, [], false⟩ :: [] ∧ (u.core 0).behind = [] ++ (.control, [{ systemMsg 7 0 0 with dst := 1 }]) :: [] ∧
       partsDst [{ systemMsg 7 0 0 with dst := 1 }] = 1 ∧ u.local 1 = true) ∧
    (let u := s [] (fun x => { x with wait := some (.spawnRef 5) }) id
     (u.scal 0 .control).wait = some (.spawnRef 5) ∧ (systemMsg 5 4 0).cont.getLsbD 2 = true ∧ ({ systemMsg 6 0 0 with diff := 0 }).diff = 0) ∧
    (let u := s [] id fun c => { c with tasks := [(0, t), (1, { t with cnt := 2 }), (2, { t with cnt := 0, st := .idle }), (3, { a with inp := [(0, 1)] }), (4, { a with st := .wait, cnt := 1 })] }
     let r := fun e sel : Nat => BitVec.ofNat 64 (sel * 2 ^ 24 + e)
     ((u.core 0).task 0).cnt = 1 ∧ 1 < ((u.core 0).task 1).cnt.toNat ∧ ((u.core 0).task 2).cnt = 0 ∧ ((u.core 0).task 3).input 0 = 1 ∧ ((u.core 0).task 3).input 1 = 0 ∧
       ((u.core 0).task 4).actor = true ∧ ((u.core 0).task 5).st = .free ∧ refEntry (r 3 4) = 3 ∧ refSel (r 3 4) = 4 ∧ (r 3 4).extractLsb' 18 6 = ((u.core 0).task 3).gen) ∧
    (let u := s [] id fun c => { c with retry := [⟨255, some .control, parts, true⟩, ⟨256, some .control, parts, true⟩] }
     (u.core 0).retry[0]? = some ⟨255, some .control, parts, true⟩ ∧ (u.core 0).retry[1]? = some ⟨256, some .control, parts, true⟩ ∧ 255 < 256 ∧ 256 ≤ 256) ∧
    (let u := s [] id fun c => { c with cmask := 1 }
     (u.scal 0 .control).run = none ∧ (u.scal 0 .control).head = none ∧ (u.core 0).cmask ≠ 0 ∧ (u.scal 0 .control).asking = none ∧ (u.scal 0 .control).askAge = 0 ∧
       (u.core 0).freeze = none ∧ (u.core 0).freeEntry = some 0 ∧ (u.core 0).vcn = some 0 ∧ u.local 0 = true) ∧
    (∀ id_ ∈ [FiringId.launch, .task 0, .future ⟨0, 0, 0, 0, 0, 0⟩, .barrier 0 ⟨.control, 0, 0, 0, 0⟩],
      let u := s [] (fun x => { x with ready := [(2, [⟨id_, 0x1000⟩])] }) fun c => { c with tasks := [(0, { t with range := some (1, 0) })] }
      (Map.get (u.scal 0 .control).ready [] 2)[0]? = some ⟨id_, 0x1000⟩ ∧ (u.core 0).age.toNat ≤ 0x1000 ∧ (u.scal 0 .control).head = some (2, ⟨id_, 0x1000⟩) ∧
        (u.scal 0 .control).run = none ∧ (u.scal 0 .control).stop = none ∧ (u.core 0).freeze = none ∧ (u.core 0).resumeWait = false) ∧
    ((Map.get ((s [] (fun x => { x with ready := [(3, [⟨.launch, 0x1000⟩])] }) id).scal 0 .control).ready [] 3)[0]? = some ⟨.launch, 0x1000⟩) := by decide +kernel

/-- Requests of each subop; a range, a piece and none for each of them; an empty and a full arrival set; replies of each subop to a core that waits. -/
theorem witness_KeeperEvents :
    let s := fun (l : List Msg) (f : Scalar → Scalar) (c : Core → Core) => netState l (some .control) none f c
    let req := fun n : Nat => systemMsg 8 (BitVec.ofNat 12 n) 0
    let rep := fun n : Nat => systemMsg 9 (BitVec.ofNat 12 n) 0
    let range := fun l : List Piece => (⟨0, .control, 0, 0, 0, none, 8, l⟩ : RangeTask)
    (∀ n ∈ List.range 7, ((s [req n] id id).arrivable 0).map NetMsg.msg = some (req n) ∧ ((req n).cont.extractLsb' 0 4).toNat = n) ∧
    (∀ n ∈ List.range 5, ((s [rep n] id id).arrivable 0).map NetMsg.msg = some (rep n) ∧ ((rep n).cont.extractLsb' 0 4).toNat = n) ∧
    ((req 3).cont.extractLsb' 4 2 = 0 ∧ ((s [req 3] id id).rangesOf 0).length < 4) ∧ 4 ≤ (({ s [] id id with ranges := List.replicate 4 (range []) }).rangesOf 0).length ∧
    ((s [] id id).cohort 0).arrived = [] ∧ findPiece [] 0 = none ∧ (findPiece [range [⟨0, 3, 9, none⟩]] 0).isSome = true ∧
    (let u := fun l => { s [] id id with ranges := [range l], cohorts := [(0, ⟨[1, 2], [1], 0, 0⟩)] }
     (firstOf ((u [⟨0, 3, 9, none⟩]).workPieces 1 .control) fun x => x.2.holder.isNone).isSome = true ∧
       (firstOf ((u [⟨0, 3, 30, some 2⟩]).workPieces 1 .control) fun x => x.2.holder.isNone) = none ∧
       (largestPiece ((u [⟨0, 3, 30, some 2⟩]).workPieces 1 .control) none).isSome = true ∧ largestPiece ((u []).workPieces 1 .control) none = none ∧
       ((u []).cohort 0).arrived ≠ [] ∧ 2 ∉ ((u []).cohort 0).arrived) ∧
    (let b : BarSlot := ⟨.control, 0, 0, 0, 0⟩
     let u := fun w => s [] (fun x => { x with wait := w }) fun c => { c with bars := [(0, b)] }
     Map.find ((u none).core 0).bars 0 = some b ∧ (((u (some (.rngOpen 4))).core 0).scal .control).wait = some (.rngOpen 4) ∧
       (((u (some (.rngClaim 5))).core 0).scal .control).wait = some (.rngClaim 5)) ∧
    (let u := s [rep 3, systemMsg 9 (3 + 16) 0] (fun x => { x with asking := some 7 }) id
     (u.takeParts 0 2 ⟨rep 3, true, false, some .control, none, []⟩).2 = [rep 3, systemMsg 9 (3 + 16) 0] ∧
       (((u.takeParts 0 2 ⟨rep 3, true, false, some .control, none, []⟩).1.core 0).scal .control).asking = some 7) := by decide +kernel

/-! ## Hypotheses that are met: engines, progress, freezes, launches, the hub, steps -/

/-- A command of an operation with its descriptor words. -/
def command (op : Nat) (d : List Nat) : Cmd := ⟨op, .control, 0x2000, 0, d.map (BitVec.ofNat 64), [], []⟩
/-- A run packet of a stream with n entries. -/
def packet (base n : Nat) (last : Bool) : Pkt := ⟨8, 0, 0, 0, base, false, 2, false, 1, (List.range n).map fun i => (i, [1#64]), 0, false, last, false⟩

/-- A queued command of an engine and of the collective port; a command that is finished with an error, with a record and quietly, with room and
without; a packet for a running receive; a stream whose children have packets, are finished, and have none; a running and a halted scalar core; and
a rewalk that is due. -/
theorem witness_EngineEvents :
    let s := fun c : Core → Core => memState id c
    let run := fun (fin : Bool) (err : Option (Nat × Nat)) (word : Word) => { (command 0 [0, 0, 8]).start with fin := fin, err := err, cmd := { command 0 [0, 0, 8] with word := word } }
    let engine := fun g : Engine => s fun c => { c with engines := [(0, g), (3, ⟨[command 8 [0, 0, 2 ^ 58]], []⟩)] }
    (((engine ⟨[command 0 [0, 0, 8]], []⟩).core 0).engine 0).queue = [command 0 [0, 0, 8]] ∧ (((engine ⟨[], []⟩).core 0).engine 3).queue = [command 8 [0, 0, 2 ^ 58]] ∧
    ((command 8 [0, 0, 2 ^ 58]).receives = true ∧ (command 8 [0, 0, 0]).receives = false) ∧
    (∀ r ∈ [run false none 0, run true (some (0x16, 5)) 0, run true none 0, run true none (2 ^ 21)], (((engine ⟨[], [r]⟩).core 0).engine 0).runs = [r]) ∧
    ((run true none (2 ^ 21)).cmd.word.getLsbD 21 = true ∧ (run true none 0).cmd.word.getLsbD 21 = false) ∧
    ((s id).mine.eqRoom = true ∧ (s fun c => { c with eq := List.replicate 256 ⟨0, 0, 0, 0⟩ }).mine.eqRoom = false) ∧
    (let r := (command 8 [0, 0, 2 ^ 58 + 2]).start
     let u := { s (fun c => { c with engines := [(3, ⟨[], [r]⟩)] }) with pkts := [packet 0 3 true] }
     u.pkts[0]? = some (packet 0 3 true) ∧ (u.core 0).vcn = some 0 ∧ ((u.core 0).engine 3).runs[0]? = some r ∧ r.cmd.receives = true ∧ r.cmd.stream = 0 ∧ r.cmd.dst = 0 ∧
       r.fin = false ∧ r.buf = [] ∧ r.last = none ∧ r.cmd.entries - r.next < 3) ∧
    (let kid := fun (last : Bool) (q : List Pkt) => (⟨none, last, false, 0, false, false, q⟩ : Child)
     let t := fun l => (⟨[], 1000, 0, 2, 1, false, 0, l, 0, false, false, false⟩ : Strm)
     let two := t [(0, kid false [packet 5 1 false]), (1, kid true [])]
     Map.find ({ s id with strms := [(strmKey 1000 0, two)] }).strms (strmKey 1000 0) = some two ∧ two.nextBase = some 5 ∧ (kid true []).finished = true ∧
       (kid false []).finished = false ∧ (t [(0, kid true [])]).nextBase = none ∧ two.root = 1000) ∧
    (let u := ctlState fun x => { x with stop := some .halt }
     ((u.core 0).scal .control).stop ≠ none ∧ ((ctlState id).core 0 |>.scal .control).stop = none ∧ timeOk 0x00400000 = false ∧ sysValue u 0 .control 7 = none ∧
       sysValue u 0 .control 0x010 ≠ none ∧ Config.storeBytes .control ≤ Config.storeBytes .control ∧ 4 < Config.storeBytes .control ∧ 4 % 4 = 0) ∧
    ((s id).mine.rewalk = false ∧ (s fun c => { c with rewalk := true }).mine.rewalk = true) := by decide +kernel

/-- A buffer with an entry and an empty one; a batch of a child that fits the table and one that could overflow it; a batch at a die root; a
frontier on its way. -/
theorem witness_ProgressEvents :
    let ents := fun n : Nat => (List.range n).map fun i => (⟨BitVec.ofNat 64 (i * 2 ^ 32), 1, 0⟩ : PEnt)
    let s := State.reset
    let core := s.modCore 0 fun c => { c with prog := [(7, ⟨ents 1, 0⟩)] }
    let fold := fun n : Nat => { s with pq := [(0 * 8 + 7, [(⟨ents 1, 0⟩ : Batch).packets 7])], ptab := [(1000 * 8 + 7, ⟨ents n, 0⟩)] }
    let crown := { s with pq := [(switchId 8 20 * 8 + 7, [(⟨[⟨0, BitVec.allOnes 64, 0⟩, ⟨0x100000000, 1, 0⟩], 1⟩ : Batch).packets 7])], crown := [(7, [⟨0, 1, 0⟩])], front := [(7, ⟨[0], 1⟩)] }
    (((core.core 0).progress 7).ents ≠ [] ∧ ((core.core 0).progress 6).ents = []) ∧
    ((fold 255).batches (childOf 1000 0) 7 = [(⟨ents 1, 0⟩ : Batch).packets 7] ∧ batchOf 0 ((⟨ents 1, 0⟩ : Batch).packets 7) = ⟨ents 1, 0⟩ ∧ ((fold 255).pending 1000 7).ents.length + 1 ≤ 256 ∧ 256 < ((fold 256).pending 1000 7).ents.length + 1) ∧
    ((s.pending 1000 7).ents = [] ∧ ((fold 1).pending 1000 7).ents ≠ []) ∧
    (crown.batches (switchId 8 20) 7 ≠ [] ∧ (Map.get crown.front ⟨[], 0⟩ 7).times = [0] ∧ tLe 0 0x100000000 = true ∧
      candidate [⟨0x100000000, 1, 0⟩] = [0x100000000] ∧ tLe 0x100000000 0 = false) ∧
    Map.get ({ s with bq := [(0 * 8 + 7, [[0]])] }).bq [] (0 * 8 + 7) = [[0]] := by decide +kernel

/-- The pages of the context area of VCN 0 at address 0: core section, scalar records, fabric section. -/
def contextPages : List TlbEntry := [⟨0, 2, 1, true, true, true⟩, ⟨64, 2, 1, true, true, true⟩, ⟨80, 2, 1, true, true, true⟩]
/-- A freeze at its limit, complete and refused, of each kind; a die whose instant is due; two frozen cores; a closed and an open window; a
checkpoint whose frontier is passed and one that is saved. -/
theorem witness_Freezing :
    let s := fun (h : Hub → Hub) (c : Core → Core) => { memState id (fun x => c { x with tlb := contextPages }) with
      hub := h { Hub.reset with open_ := true } }
    let frozen := fun (b : FreezeBy) (n : Nat) (done : Bool) => s id fun c => { c with freeze := some ⟨b, n, done⟩ }
    let pk : Packet := ⟨[], false⟩
    (∀ b ∈ [FreezeBy.preempt, .checkpoint, .swap 1], let u := frozen b 0x30D40 false
      (u.core 0).freeze = some ⟨b, 0x30D40, false⟩ ∧ u.unstopped 0 = none ∧ 0x30D40 ≤ (u.core 0).spmax.toNat ∧ (u.publishCore 0).isSome = true ∧ (u.core 0).spmax.toNat ≤ 0x30D40) ∧
    ((frozen .preempt 0x30D41 false).core 0).spmax.toNat < 0x30D41 ∧ (s id fun c => { c with ctl := { c.ctl with run := some .launch } }).unstopped 0 ≠ none ∧
    (let u := { frozen .preempt 0 true with hub := { Hub.reset with preempting := some pk } }
     u.hub.preempting = some pk ∧ u.allFrozen .preempt = true ∧ u.hub.reports.length < 64 ∧ (u.saveCores u.occupied).isSome = true) ∧
    (let u := { frozen .checkpoint 0 true with hub := { Hub.reset with check := some ⟨0, 0, true, false⟩ } }
     u.hub.check = some ⟨0, 0, true, false⟩ ∧ u.allFrozen .checkpoint = true) ∧
    64 ≤ (s (fun h => { h with reports := List.replicate 64 ⟨[]⟩ }) id).hub.reports.length ∧
    (let u := s id fun c => { c with tq := 5 }
     8 < 9 ∧ 0 < (u.core (0 * 64)).tq.toNat ∧ (u.core (0 * 64)).tq.toNat ≤ Map.get ({ u with instant := [(0, 5)] }).instant 0 0 ∧ Map.get u.instant 0 0 < (u.core 0).tq.toNat) ∧
    (let two := { s id id with cores := [(0, { Core.reset with vcn := some 0, freeze := some ⟨.swap 1, 0, true⟩, tlb := contextPages }), (1, { Core.reset with freeze := some ⟨.swap 0, 0, true⟩ })] }
     two.frozenFor 0 1 = true ∧ two.frozenFor 1 0 = true ∧ two.onItsWay (some 0) = false ∧ two.onItsWay none = false ∧ (two.saveCore 0 false).isSome = true ∧
       ((two.saveCore 0 false).bind fun u => u.saveCore 1 false).isSome = true ∧ (two.resumeCore 1).isSome = true) ∧
    (State.reset.hub.open_ = false ∧ (s id id).hub.open_ = true ∧ (8#64).getLsbD 3 = true ∧ (s (fun h => { h with ckbusy := true }) id).hub.ckbusy = true ∧ (s id id).hub.ckbusy = false ∧
      (s id id).local 0 = false ∧ ({ s id id with reloc := [(0, 0x8000)] }).local 0 = true) ∧
    (let k : Check := ⟨4, 0, false, false⟩
     let u := { s (fun h => { h with check := some k }) id with front := [(0, ⟨[0x500000000], 1⟩)] }
     u.hub.check = some k ∧ k.frozen = false ∧ u.job ≠ none ∧ u.hub.preempting = none ∧ ((Map.get u.front ⟨[], 0⟩ 0).times.all fun t => decide (k.step.toNat < epochOf t)) = true ∧
       ([0x400000000#64].all fun t => decide (k.step.toNat < epochOf t)) = false) ∧
    (let k : Check := ⟨4, 0, true, true⟩
     let u := { s (fun h => { h with check := some k }) id with leafTlb := [(0, contextPages)], job := (s id id).job.map fun j : Job => { j with extents := [(0, 4096)] } }
     u.hub.check = some k ∧ (u.job.map Job.extents) = some [(0, 4096)] ∧ k.saved = true ∧ (u.writeBlocks 0 [0]).2 = true ∧ (u.writeBlocks 0 [Config.dramBytes]).2 = false ∧
       (u.resumeCores u.occupied).isSome = true) := by decide +kernel

/-- DRAM with some 8-byte words. -/
def dramOf (l : List (Nat × Nat)) : List Host.Cell := l.foldl (fun m x => dramWrite m x.1 8 x.2) []
/-- A job block with one VCN and one empty section, with its tables. -/
def someBlock : List (Nat × Nat) :=
  [(0x1000, 0xD31D * 2 ^ 48 + 2 ^ 40 + 1), (0x1010, 0x2000), (0x1018, 0x3000), (0x1040, 0x4000), (0x1048, 1), (0x2000, 2057), (0x3000, 0x8000), (0x4000, 2 ^ 10)]

/-- A packet of each TYPE for this chip, for another one with and without a route, and with a reserved bit; a block that is good, and one that is
not; a descriptor that spawns; the resident job and another; and W7 written while busy. -/
theorem witness_Launching :
    let pk := fun w0 w1 : Nat => (⟨[BitVec.ofNat 64 w0, BitVec.ofNat 64 w1], false⟩ : Packet)
    let s := fun (k : Packet) => { State.reset with dram := dramOf someBlock, hub := { Hub.reset with open_ := true, packets := [k], routes := [(5, some 2)] } }
    let job := fun (k : Packet) => { memState id id with reloc := [(0, 0x8000)], hub := { Hub.reset with packets := [k] } }
    (∀ n ∈ List.range 7, (pk (n * 2 ^ 56) 0).type = n ∧ (pk (n * 2 ^ 56) 0).dchip = State.reset.hub.chip ∧ (pk (n * 2 ^ 56) 0).plain = true) ∧
    ((pk (5 * 2 ^ 16) 0).dchip = 5 ∧ Map.get (s (pk 0 0)).hub.routes none 5 = some 2 ∧ Map.get (s (pk 0 0)).hub.routes none 6 = none ∧ (pk (2 ^ 11) 0).plain = false) ∧
    ((s (pk 0 0)).hub.packets = [pk 0 0] ∧ (s (pk 0 0)).job = none ∧ (s (pk 0 0)).hub.preempting = none ∧ (s (pk 0 0)).hub.reports.length < 64) ∧
    (match ((s (pk 0 0)).readBlock 0x1000 0 0 true).then (s (pk 0 0)).startJob with | .ok u => decide (u.job ≠ none) | _ => false) = true ∧
    (match ((s (pk 0 0)).readBlock 0x2000 0 0 true) with | .ok _ => false | .bad r _ _ => r == 2) = true ∧
    (match (s (pk 0 0)).readBlock 0x1000 0 0 false with
      | .ok b => decide ((s (pk 0 0)).jobContext b = none ∧ b.vcns = [0])
      | _ => false) = true ∧
    (let u := memState id fun c => { c with tlb := contextPages }
     (u.context 0 0).2 = none ∧ (match u.restoreAll [] 0 with | .ok _ => true | _ => false) = true ∧ (match u.restoreAll [0] 0 with | .bad .. => true | _ => false) = true ∧
      ((u.showStep 0).resumeCore 0).isSome = true) ∧
    (let x : Packet := ⟨[BitVec.ofNat 64 (2 * 2 ^ 56), 0], false⟩
     let r := fun (age : Nat) => (⟨age, 0, [0, 0, 0, 0, 0, 0, 0, 0]⟩ : WorkReq)
     let h := fun (l : List WorkReq) => { job x with hub := { (job x).hub with works := l } }
     (h [r 256]).hub.works[0]? = some (r 256) ∧ ¬ ((r 256).age < 256) ∧ (r 255).age < 256 ∧ (∃ y ∈ (h [r 256, r 256]).hub.works.take 1, y.vcn = (r 256).vcn) ∧
      (((h [r 256]).core ((h [r 256]).posOf 0)).takeSpawn (r 256).words).isSome = true) ∧
    ((job (pk 0 0)).job.map fun j => j.id.toNat) = some (pk 0 0).job ∧ ((job (pk 0 0)).physWords 0x2000 8).isSome = true ∧ (job (pk 0 0)).physWords Config.dramBytes 8 = none ∧
    (spawnOk [2 ^ 32, 0, 7, 0, 0, 0, 0, 0] = true ∧ (job (pk 0 0)).local 0 = true ∧ (((job (pk 0 0)).core 0).takeSpawn [0, 0, 0, 0, 0, 0, 0, 0]).isSome = true) ∧
    (pk (2 ^ 10) 0).scrub = true ∧ ({ Hub.reset with busy := true, open_ := true }).busy = true := by decide +kernel

/-- A report and a ring with room and without; a closed and an open window; each device register's offset; an access that may be made, one that may
not, and one behind DRAM; a message for a VCN held here and for one that is not; good and bad boot inputs. -/
theorem witness_HubEvents :
    let s := fun h : Hub => { memState id id with hub := h, reloc := [(0, 0x8000)] }
    let rep : Hub := { Hub.reset with open_ := true, reports := [⟨[1, 2]⟩] }
    let boot : BootInput := ⟨[1, 2], true, 3, true, true, [(1, 2)], 7, [(5, 2)]⟩
    (rep.reports = [⟨[1, 2]⟩] ∧ (rep.rrtail + 1) % 2 ^ rep.rrsize ≠ rep.rrhead % 2 ^ rep.rrsize ∧ (15 + 1) % 2 ^ rep.rrsize = 0 % 2 ^ rep.rrsize) ∧
    (Hub.reset.open_ = false ∧ rep.open_ = true ∧ State.reset.job = none ∧ (s rep).job ≠ none ∧ (s rep).local 0 = true ∧ (s rep).local 1 = false) ∧
    (0x41 % 8 ≠ 0 ∧ 0x38 = 0x20 + 8 * 3 ∧ 0x1030 = 0x1000 + 8 * 6 ∧ 0x3FF8 = 0x2000 + 8 * 1023 ∧ 0x5FF8 = 0x4000 + 8 * 1023) ∧
    ((8#64).getLsbD 3 = true ∧ (0#64).getLsbD 3 = false ∧ (0x400 : Nat) / 2 ^ 10 % 4 = 1 ∧ (0x800 : Nat) / 2 ^ 10 % 4 = 2 ∧ ({ rep with busy := true }).busy = true ∧ rep.busy = false) ∧
    (0x2000 % 64 + 64 ≤ 64 ∧ 0 < 64 ∧ 0x2000 + 64 ≤ Config.dramBytes ∧ Config.dramBytes < Config.dramBytes - 1 + 2) ∧
    ((s rep).admits 0x1000 0x2000 AK.store.perm = true ∧ (s rep).admits 0x1000 0x203F AK.load.perm = true ∧ ({ s rep with access := [] }).admits 0x3007 0x2000 AK.load.perm = false) ∧
    ((s rep).local (Msg.ofFlits 0 0).dst.toNat = true ∧ State.reset.local (Msg.ofFlits 0 0).dst.toNat = false ∧ (Msg.ofFlits 0 0).opc = 0 ∧
      (boot.sigOk = true ∧ Hub.reset.rollback ≤ boot.version ∧ boot.linksOk = true ∧ boot.memOk = true) ∧ ({ boot with memOk := false }).memOk = false ∧ boot.fuses.length = 1) := by decide +kernel

/-- Each way a scalar core can stand, with the tape empty and with an entry for it; an element with a match to fire and one with none. -/
theorem witness_StepRunsDecoded :
    let s := fun f : Scalar → Scalar => ctlState fun x => f { x with run := some .launch, store := [(0, 0x00000800)] }
    let fire := fireState 0x095 { binary 2 with sb := 7 } (pair (some (token 5 0)) none) id id
    (s id).tape = [] ∧ (s id).cur.p < 576 ∧ (s id).me.wait = none ∧ (s id).me.run ≠ none ∧ (s id).me.stop = none ∧ (s id).me.sp = none ∧
    (s fun x => { x with wait := some .busy }).me.wait = some .busy ∧ ¬ (s id).mine.spmax.toNat < (s id).me.spcount.toNat ∧
    (s fun x => { x with spcount := 0x30D41 }).mine.spmax.toNat < (s fun x => { x with spcount := 0x30D41 }).me.spcount.toNat ∧
    (s fun x => { x with stop := some .halt }).me.stop ≠ none ∧ (s fun x => { x with wait := some (.pubs .phadv) }).me.wait ≠ none ∧
    outside (s id).cur.k (s id).me.pc = false ∧ decodeScalar ((s id).me.storeWord 0) = some (.add 0 0 1) ∧ decodeScalar (State.reset.me.storeWord 0) = none ∧
    outside Kind.control (BitVec.ofNat 64 (Config.storeBytes .control)) = true ∧ 576 ≤ ({ State.reset with cur := ⟨576, .control, 0, 0, none⟩ }).cur.p ∧
    Instr.isEvent (.rewalk 0) = true ∧ (0 < 576 ∧ 63 < 64) ∧ (fire.elem 0 0).firings 0 0 ≠ [] ∧ (fire.elem 0 1).firings 0 1 = [] := by decide +kernel

/-- A well-formed instruction with its word, one of the element map, and an event. -/
theorem witness_RoundTrip :
    ((Instr.drn 30 7 63 31 1).wellFormed = true ∧ encode (.drn 30 7 63 31 1) = some (32, 0xCBC70FFF)) ∧
    ((Instr.eCons ⟨7, 7, 7, 7, 7, 0x1FFF, 0x1FFF, 15, 0x3FF⟩).wellFormed = true ∧ (encode (.eCons ⟨7, 7, 7, 7, 7, 0x1FFF, 0x1FFF, 15, 0x3FF⟩)).isSome = true) ∧
    encode (.add 1 2 3) = encode (.add 1 2 3) ∧ encode (.add 1 2 3) ≠ none ∧ Instr.isEvent (.swapInstant 0) = true := by decide

/-- The state after reset, and one with DRAM written, take a step. -/
theorem witness_MemoryFormKept :
    let s := { State.reset with dram := dramOf someBlock }
    (∃ t, step State.reset = .next t) ∧ Memory.wf State.reset.dram = true ∧ Memory.wf State.reset.hub.hostMem = true ∧ Memory.wf State.reset.hub.nvm = true ∧
    (∃ t, step s = .next t) ∧ s.dram ≠ [] ∧ Memory.wf s.dram = true :=
  ⟨⟨_, rfl⟩, by decide, by decide, by decide, ⟨_, rfl⟩, by decide +kernel, by decide +kernel⟩

/-! ## Operands that no word can hold -/

theorem test_wellFormed_loop : (Instr.loop 1 0).wellFormed = false ∧ (Instr.loop 1 1).wellFormed = true ∧ (Instr.loop 1 0x7FFF).wellFormed = true := by decide
theorem test_wellFormed_evget : (Instr.evget 0).wellFormed = false ∧ (Instr.evget 29).wellFormed = false ∧ (Instr.evget 28).wellFormed = true := by decide
theorem test_wellFormed_drn : (Instr.drn 0 1 2 3 0).wellFormed = false ∧ (Instr.drn 31 1 2 3 0).wellFormed = false ∧ (Instr.drn 30 1 2 3 0).wellFormed = true := by decide
theorem test_wellFormed_rng :
    (Instr.rngC 0).wellFormed = false ∧ (Instr.rngC 31).wellFormed = false ∧ (Instr.rngC 1).wellFormed = true ∧ (Instr.rng 0).wellFormed = false ∧
    (Instr.rng 31).wellFormed = true := by decide
theorem test_wellFormed_classes :
    (Instr.clsm 8).wellFormed = false ∧ (Instr.clsm 14).wellFormed = false ∧ (Instr.clsm 13).wellFormed = true ∧ (Instr.clsu 8).wellFormed = false ∧
    (Instr.clsu 15).wellFormed = false ∧ (Instr.clsu 7).wellFormed = true := by decide
theorem test_wellFormed_tfld : (Instr.tfld 1 2 6).wellFormed = false ∧ (Instr.tfld 1 2 5).wellFormed = true := by decide
theorem test_wellFormed_rounding :
    let w : EW := ⟨0, 0, 0, 0, 0, 0, 0, 0, 0⟩
    ([Instr.eAdd 5 w, .eSub 6 w, .eMul 7 w, .eMad 5 w, .eVadd 6 w, .eVsub 7 w, .eVmul 5 w, .eVfma 6 w, .eVred 7 w, .eCvt 5 w, .eCvts 6 w, .eVcvt 7 w,
      .ePack 5 w].all fun i => !i.wellFormed) = true ∧
    ([Instr.eAdd 4 w, .eSub 0 w, .eMul 1 w, .eMad 2 w, .eVadd 3 w, .eVsub 4 w, .eVmul 4 w, .eVfma 4 w, .eVred 4 w, .eCvt 4 w, .eCvts 4 w, .eVcvt 4 w,
      .ePack 4 w].all fun i => i.wellFormed) = true := by decide

/-! ## Every encoded instruction: a word laid out from the encodings of R15 to R21, R24 and R29 decodes to it, and it encodes to that word -/

/-- Each word of the list decodes to its instruction, and that instruction encodes to the word. -/
def reads (n : Nat) (l : List (Nat × Instr)) : Bool := l.all fun x => decodeTableWord n x.1 == some x.2 && encode x.2 == some (n, x.1) && x.2.wellFormed

theorem test_scalar_words_1 :
    reads 32 [
      (0x0072C800, .add 3 18 25), (0x0072C801, .sub 3 18 25), (0x0072C802, .and 3 18 25), (0x0072C803, .or 3 18 25), (0x0072C804, .xor 3 18 25),
      (0x0072C808, .sll 3 18 25), (0x0072C809, .srl 3 18 25), (0x0072C80A, .sra 3 18 25), (0x0072C810, .mul 3 18 25), (0x0072C811, .mulh 3 18 25),
      (0x0072C812, .mulhn 3 18 25), (0x0072C814, .div 3 18 25), (0x0072C815, .divn 3 18 25), (0x0072C816, .rem 3 18 25), (0x0072C817, .remn 3 18 25),
      (0x0072C818, .min 3 18 25), (0x0072C819, .max 3 18 25), (0x0072C81A, .minn 3 18 25), (0x0072C81B, .maxn 3 18 25), (0x00720020, .clz 3 18),
      (0x00720021, .popc 3 18), (0x00720024, .sext8 3 18), (0x00720025, .sext16 3 18), (0x00720026, .sext32 3 18), (0x00720028, .zext8 3 18),
      (0x00720029, .zext16 3 18), (0x0072002A, .zext32 3 18), (0x0072C830, .slt 3 18 25), (0x0072C831, .sltn 3 18 25), (0x00030038, .jr 3),
      (0x00720039, .jalr 3 18), (0x04728123, .addi 3 18 33059), (0x08728123, .andi 3 18 33059), (0x0C728123, .ori 3 18 33059), (0x10728123, .xori 3 18 33059),
      (0x1472002D, .slli 3 18 45), (0x1872002D, .srli 3 18 45)] = true := by decide +kernel

theorem test_scalar_words_2 :
    reads 32 [
      (0x1C72002D, .srai 3 18 45), (0x20728123, .slti 3 18 33059), (0x24608123, .lui 3 33059), (0x28728123, .beq 3 18 33059), (0x2C728123, .bne 3 18 33059),
      (0x30728123, .blt 3 18 33059), (0x34728123, .bge 3 18 33059), (0x38728123, .bltn 3 18 33059), (0x3C728123, .bgen 3 18 33059), (0x42000123, .j 33554723),
      (0x46000123, .jal 33554723), (0x48034321, .loop 3 17185), (0x48030000, .loopS 3), (0x50728123, .ldI8 3 18 33059), (0x54728123, .ldI16 3 18 33059),
      (0x58728123, .ldI32 3 18 33059), (0x5C728123, .ldI64 3 18 33059), (0x60728123, .ldN8 3 18 33059), (0x64728123, .ldN16 3 18 33059),
      (0x68728123, .ldN32 3 18 33059), (0x70728123, .st8 3 18 33059), (0x74728123, .st16 3 18 33059), (0x78728123, .st32 3 18 33059),
      (0x7C728123, .st64 3 18 33059), (0x80720000, .ldim32 3 18), (0x80720001, .ldim64 3 18), (0x80720002, .stim32 3 18), (0x80720003, .stim64 3 18),
      (0x8072C808, .futget 3 18 25), (0x8072C809, .futset 3 18 25), (0x8003000A, .futclr 3), (0x80039010, .smap 3 18), (0x80030011, .sunmap 3),
      (0x80030012, .sflush 3), (0x80039013, .linv 3 18), (0x80039014, .wbr 3 18), (0x80039015, .dswitch 3 18)] = true := by decide +kernel

theorem test_scalar_words_3 :
    reads 32 [
      (0x80000016, .phadv), (0x8072C818, .rst 3 18 25), (0x8072C819, .rstO 3 18 25), (0x80000020, .fenceE), (0x80000021, .fenceA), (0x80000022, .fenceQ),
      (0x80000023, .fenceS), (0x80000024, .fenceAll), (0x8472C810, .amoAdd 3 18 25 1 0), (0x8472C811, .amoMin 3 18 25 1 0), (0x8472C812, .amoMax 3 18 25 1 0),
      (0x8472C813, .amoAnd 3 18 25 1 0), (0x8472C814, .amoOr 3 18 25 1 0), (0x8472C815, .amoXor 3 18 25 1 0), (0x8472C816, .amoSwap 3 18 25 1 0),
      (0x8472C817, .amoCas 3 18 25 1 0), (0x8472C830, .amoFadd 3 18 25 1), (0x88039000, .cpy 3 18), (0x88039001, .gath 3 18), (0x88039002, .scat 3 18),
      (0x88039003, .mrg 3 18), (0x8803900B, .coll 3 18 1 1), (0x88600010, .evget 3), (0x88039011, .hprobe 3 18), (0x88039012, .hins 3 18),
      (0x90A23000, .tjoin 5 2 6), (0x90A23001, .tmeet 5 2 6), (0x90651002, .tle 3 5 2), (0x90A21803, .tadv 5 2 3), (0x90A20004, .tincE 5 2),
      (0x90A20005, .tinc1 5 2), (0x90A20006, .tinc2 5 2), (0x90A20007, .tinc3 5 2), (0x90A30008, .tmk 5 3), (0x906500A9, .tfld 3 5 5),
      (0x90A0012A, .fget 5 2 1), (0x9065004B, .fwait 3 5 2)] = true := by decide +kernel

theorem test_scalar_words_4 :
    reads 32 [
      (0x9005184C, .stkget 5 3 2), (0x9005184D, .stkdrop 5 3 2), (0x900510CE, .stkdn 5 2 6), (0xC0030000, .cfg 3), (0xC0030001, .teard 3),
      (0xC0A39042, .snd 5 3 18 2), (0xC0A39043, .sndO 5 3 18 2), (0xC00001A4, .clsm 13), (0xC00001A5, .clsu 13), (0xC00390A6, .qspill 3 18 5),
      (0xC0000007, .wfe), (0xC0000008, .halt), (0xC4650425, .inj 3 5 2 18 1), (0xC8650B65, .drn 3 5 45 18 1), (0xCCA30B40, .kset 5 3 45),
      (0xCCA38000, .ksetAll 5 3), (0xD0605540, .sysrd 3 341), (0xD0035541, .syswr 3 341), (0xA0720000, .spawn 3 18), (0xA0030001, .rng 3),
      (0xA0600001, .rngC 3), (0xA0030002, .dcnt 3), (0xA0039003, .dset 3 18), (0xA0030004, .cjoin 3), (0xA0030005, .cleave 3), (0xA0039006, .cbar 3 18),
      (0xA0000007, .yield), (0xA0000008, .fin), (0xA0030009, .prio 3), (0xB0000000, .tret), (0xB072C801, .ctxsv 3 18 25), (0xB0030002, .ctxld 3),
      (0xB0030003, .tmigr 3), (0xB0000004, .brk), (0xB4008123, .spt 33059), (0xB8008123, .trap 33059)] = true := by decide +kernel

theorem test_element_words_1 :
    let w : EW := ⟨3, 6, 1, 0, 5, 0x1002, 3, 2, 4⟩
    reads 64 [
      (0x003C45801000C804, .eAdd 0 w), (0x04BC45801000C804, .eSub 1 w), (0x093C45801000C804, .eMul 2 w), (0x0DBC45801000C804, .eMad 3 w),
      (0x123C45801000C804, .eVadd 4 w), (0x143C45801000C804, .eVsub 0 w), (0x18BC45801000C804, .eVmul 1 w), (0x1D3C45801000C804, .eVfma 2 w),
      (0x21BC45801000C804, .eVred 3 w), (0x263C45801000C804, .eCvt 4 w), (0x283C45801000C804, .eCvts 0 w), (0x2CBC45801000C804, .eVcvt 1 w),
      (0x313C45801000C804, .ePack 2 w), (0x403C45801000C804, .eMin w), (0x40BC45801000C804, .eMax w), (0x413C45801000C804, .eAbs w),
      (0x41BC45801000C804, .eNeg w), (0x423C45801000C804, .eAnd w), (0x42BC45801000C804, .eOr w), (0x433C45801000C804, .eXor w), (0x43BC45801000C804, .eShl w),
      (0x443C45801000C804, .eShr w), (0x44BC45801000C804, .eSar w), (0x483C45801000C804, .eCeq w), (0x48BC45801000C804, .eCne w),
      (0x493C45801000C804, .eClt w), (0x49BC45801000C804, .eCle w), (0x4A3C45801000C804, .eSel w), (0x4ABC45801000C804, .eMov w),
      (0x4B3C45801000C804, .eClz w), (0x4BBC45801000C804, .eExt w), (0x4C3C45801000C804, .eUnpack w), (0x503C45801000C804, .eVmin w),
      (0x50BC45801000C804, .eVmax w), (0x513C45801000C804, .eVbc w), (0x51BC45801000C804, .eVins w), (0x523C45801000C804, .eVext w)] = true := by decide +kernel

theorem test_element_words_2 :
    let w : EW := ⟨3, 6, 1, 0, 5, 0x1002, 3, 2, 4⟩
    reads 64 [
      (0x583C45801000C804, .eSteer w), (0x58BC45801000C804, .eMerge w), (0x593C45801000C804, .eGate w), (0x59BC45801000C804, .eTjn w),
      (0x5A3C45801000C804, .eTle w), (0x5ABC45801000C804, .eTadv w), (0x5B3C45801000C804, .eTgt w), (0x5BBC45801000C804, .eTst w),
      (0x803C45801000C804, .eCtr w), (0x80BC45801000C804, .eCtrb w), (0x813C45801000C804, .eRpt w), (0x81BC45801000C804, .eEmit w),
      (0x823C45801000C804, .eSink w), (0x82BC45801000C804, .eMark w), (0x833C45801000C804, .eTdn w), (0x83BC45801000C804, .eCmpl w),
      (0x883C45801000C804, .eLdst w), (0x88BC45801000C804, .eLdr w), (0x893C45801000C804, .eStr w), (0x89BC45801000C804, .eVld w),
      (0x8A3C45801000C804, .eVst w), (0x8C3C45801000C804, .eUpdAdd w), (0x8CBC45801000C804, .eUpdMin w), (0x8D3C45801000C804, .eUpdMax w),
      (0x8DBC45801000C804, .eUpdOr w), (0x8E3C45801000C804, .eUpdSwap w), (0x903C45801000C804, .eAmoAdd w), (0x90BC45801000C804, .eAmoMin w),
      (0x913C45801000C804, .eAmoMax w), (0x91BC45801000C804, .eAmoAnd w), (0x923C45801000C804, .eAmoOr w), (0x92BC45801000C804, .eAmoXor w),
      (0x933C45801000C804, .eAmoSwap w), (0x93BC45801000C804, .eAmoCas w), (0x943C45801000C804, .eAmoFadd w), (0xA03C45801000C804, .eMpre 0 w),
      (0xA0BC45801000C804, .eMpre 1 w)] = true := by decide +kernel

theorem test_element_words_3 :
    let w : EW := ⟨3, 6, 1, 0, 5, 0x1002, 3, 2, 4⟩
    reads 64 [
      (0xA13C45801000C804, .eMpre 2 w), (0xA1BC45801000C804, .eMpre 3 w), (0xA23C45801000C804, .eMrow 0 w), (0xA2BC45801000C804, .eMrow 1 w),
      (0xA33C45801000C804, .eMrow 2 w), (0xA3BC45801000C804, .eMrow 3 w), (0xA43C45801000C804, .eMdrn 0 w), (0xA4BC45801000C804, .eMdrn 1 w),
      (0xA53C45801000C804, .eMdrn 2 w), (0xA5BC45801000C804, .eMdrn 3 w), (0xA63C45801000C804, .eMsca w), (0xA6BC45801000C804, .eMband w),
      (0xA73C45801000C804, .eMmode w), (0xB03C45801000C804, .eSnd w), (0xB0BC45801000C804, .eSndO w), (0xB13C45801000C804, .eAprobe w),
      (0xB1BC45801000C804, .eHprobe w), (0xB23C45801000C804, .eCons w)] = true := by decide +kernel
/-! ## The words of the spec's own worked encodings (R6, R98 to R130, R166 to R177, R228, R231, R237, R252, R293, R325, and the programs) -/

theorem test_spec_words_1 :
    reads 32 [(0x00C32800, .add 6 3 5), (0x5C640000, .ldI64 3 4 0), (0x04A0FFF7, .addi 5 0 0xFFF7), (0x90E300A9, .tfld 7 3 5), (0x68640008, .ldN32 3 4 8),
      (0x7CC40010, .st64 6 4 16), (0x84A43018, .amoAdd 5 4 6 1 1), (0x80A43019, .rstO 5 4 6), (0x80000016, .phadv), (0x80000021, .fenceA), (0x88042800, .cpy 4 5),
      (0x8804280D, .coll 4 5 2 1), (0x88E00010, .evget 7), (0x00A63811, .mulh 5 6 7), (0x03E70039, .jalr 31 7), (0x2864FFFD, .beq 3 4 0xFFFD), (0x44000064, .jal 100),
      (0x48050006, .loop 5 6), (0x48050000, .loopS 5), (0xD0600400, .sysrd 3 16), (0xD0060201, .syswr 6 8)] = true := by decide +kernel

theorem test_spec_words_2 :
    reads 32 [(0xCC450640, .kset 2 5 25), (0xCCE58000, .ksetAll 7 5), (0xC4A00000, .inj 5 0 0 0 0), (0xC4C00001, .inj 6 0 0 0 1), (0xC90105C8, .drn 8 1 23 4 0),
      (0xC0040000, .cfg 4), (0xC0000001, .teard 0), (0xC0053062, .snd 0 5 6 3), (0xC0453063, .sndO 2 5 6 3), (0xC0000065, .clsu 3), (0xC0042846, .qspill 4 5 2),
      (0xC0000007, .wfe), (0xC0000008, .halt), (0xA0A40000, .spawn 5 4), (0xA0040001, .rng 4), (0xA1000001, .rngC 8), (0xA0050002, .dcnt 5), (0xA0053003, .dset 5 6),
      (0xA0040004, .cjoin 4), (0xA0040005, .cleave 4), (0xA0044806, .cbar 4 9), (0xA0000007, .yield), (0xA0000008, .fin), (0xA0040009, .prio 4)] = true := by decide +kernel

theorem test_spec_words_3 :
    reads 32 [(0x90611000, .tjoin 3 1 2), (0x90611001, .tmeet 3 1 2), (0x91641802, .tle 11 4 3), (0x90A53003, .tadv 5 5 6), (0x90420005, .tinc1 2 2), (0x90250008, .tmk 1 5),
      (0x908001CA, .fget 4 3 2), (0x90A3004B, .fwait 5 3 2), (0x9001304C, .stkget 1 6 2), (0x9001304D, .stkdrop 1 6 2), (0x9001104E, .stkdn 1 2 2)] = true := by decide +kernel

theorem test_spec_words_4 :
    reads 64 [(0x0800C09000000003, .eMul 0 ⟨0, 0, 3, 0, 0, 0x1200, 0, 0, 3⟩), (0x580000C606400000, .eSteer ⟨0, 0, 0, 0, 0, 0x18C0, 0x1900, 0, 0⟩),
      (0x2861C0B205A00003, .eCvts 0 ⟨6, 0, 7, 0, 0, 0x1640, 0x1680, 0, 3⟩), (0x103808AA30000000, .eVadd 0 ⟨3, 4, 0, 1, 0, 0x1546, 0, 0, 0⟩),
      (0x59A000CC2661C000, .eTjn ⟨2, 0, 0, 0, 0, 0x1984, 0x1987, 0, 0⟩), (0xA221C00000000011, .eMrow 0 ⟨2, 0, 7, 0, 0, 0, 0, 0, 0x011⟩),
      (0xA62081D410000006, .eMsca ⟨2, 0, 2, 0, 1, 0x1A82, 0, 0, 6⟩), (0x8820C08034010002, .eLdst ⟨2, 0, 3, 0, 0, 0x1006, 0x1004, 0, 2⟩),
      (0xA1A1C00000000001, .eMpre 3 ⟨2, 0, 7, 0, 0, 0, 0, 0, 1⟩), (0x14400080C8000000, .eVsub 0 ⟨4, 0, 0, 0, 0, 0x1019, 0, 0, 0⟩),
      (0x4AA1808230000000, .eMov ⟨2, 0, 6, 0, 0, 0x1046, 0, 0, 0⟩), (0x5920008000000000, .eGate ⟨2, 0, 0, 0, 0, 0x1000, 0, 0, 0⟩)] = true := by decide +kernel

/-! ## One step of an integer instruction (R163 to R167) -/

/-- g3 after an instruction with g1 and g2 given. -/
def result (i : Instr) (a b : Word) : Option Word :=
  match exec i (ctlState (regs [(1, a), (2, b)])) with
  | .next t => some (t.gr 3)
  | _ => none
/-- -x as a 64-bit value. -/
def neg (n : Nat) : Word := BitVec.ofNat 64 (2 ^ 64 - n)

theorem test_add_wraps : result (.add 3 1 2) (neg 1) 2 = some 1 ∧ result (.sub 3 1 2) 0 1 = some (neg 1) ∧ result (.addi 3 1 0xFFFF) 0 0 = some (neg 1) := by decide +kernel
theorem test_logic :
    result (.and 3 1 2) 0xC 0xA = some 8 ∧ result (.or 3 1 2) 0xC 0xA = some 0xE ∧ result (.xor 3 1 2) 0xC 0xA = some 6 ∧
    result (.andi 3 1 0xFFFF) (neg 1) 0 = some 0xFFFF ∧ result (.ori 3 1 0x8000) 0 0 = some 0x8000 ∧ result (.xori 3 1 0x8001) 1 0 = some 0x8000 := by decide +kernel
theorem test_shifts :
    result (.sll 3 1 2) 3 65 = some 6 ∧ result (.srl 3 1 2) (neg 2) 64 = some (neg 2) ∧ result (.sra 3 1 2) (neg 8) 2 = some (neg 2) ∧
    result (.slli 3 1 63) 3 0 = some (BitVec.ofNat 64 (2 ^ 63)) ∧ result (.srli 3 1 63) (neg 1) 0 = some 1 ∧ result (.srai 3 1 63) (neg 5) 0 = some (neg 1) := by decide +kernel
theorem test_multiply :
    result (.mul 3 1 2) (neg 3) 5 = some (neg 15) ∧ result (.mulh 3 1 2) (neg 1) (neg 1) = some 0 ∧ result (.mulhn 3 1 2) (neg 1) (neg 1) = some (neg 2) := by decide +kernel
theorem test_divide :
    result (.div 3 1 2) (neg 7) 2 = some (neg 3) ∧ result (.rem 3 1 2) (neg 7) 2 = some (neg 1) ∧ result (.divn 3 1 2) (neg 1) 2 = some (BitVec.ofNat 64 (2 ^ 63 - 1)) ∧
    result (.remn 3 1 2) (neg 1) 10 = some 5 := by decide +kernel
theorem test_divide_borders :
    let least := BitVec.ofNat 64 (2 ^ 63)
    result (.div 3 1 2) 7 0 = some (neg 1) ∧ result (.divn 3 1 2) 7 0 = some (neg 1) ∧ result (.rem 3 1 2) 7 0 = some 7 ∧ result (.remn 3 1 2) 7 0 = some 7 ∧
    result (.div 3 1 2) least (neg 1) = some least ∧ result (.rem 3 1 2) least (neg 1) = some 0 := by decide +kernel
theorem test_compare_registers :
    result (.min 3 1 2) (neg 1) 1 = some (neg 1) ∧ result (.max 3 1 2) (neg 1) 1 = some 1 ∧ result (.minn 3 1 2) (neg 1) 1 = some 1 ∧ result (.maxn 3 1 2) (neg 1) 1 = some (neg 1) ∧
    result (.slt 3 1 2) (neg 1) 1 = some 1 ∧ result (.sltn 3 1 2) (neg 1) 1 = some 0 ∧ result (.slti 3 1 0xFFFF) (neg 2) 0 = some 1 := by decide +kernel
theorem test_counts_and_extensions :
    result (.clz 3 1) 0 0 = some 64 ∧ result (.clz 3 1) 1 0 = some 63 ∧ result (.popc 3 1) (neg 1) 0 = some 64 ∧ result (.sext8 3 1) 0x180 0 = some (neg 128) ∧
    result (.sext16 3 1) 0x7FFF 0 = some 0x7FFF ∧ result (.sext32 3 1) 0x80000000 0 = some (neg (2 ^ 31)) ∧ result (.zext8 3 1) (neg 1) 0 = some 0xFF ∧
    result (.zext16 3 1) (neg 1) 0 = some 0xFFFF ∧ result (.zext32 3 1) (neg 1) 0 = some 0xFFFFFFFF ∧ result (.lui 3 0x8000) 0 0 = some (neg (2 ^ 31)) := by decide +kernel
theorem test_g0_discards_a_write :
    (match exec (.add 0 1 2) (ctlState (regs [(1, 5), (2, 6)])) with | .next t => t.gr 0 == 0 && t.me.pc == 4 | _ => false) = true := by decide +kernel
/-- A jump through the register it links into goes to the old value. -/
theorem test_jalr_same_register :
    (match exec (.jalr 1 1) (ctlState fun x => { x with pc := 8, g := [(1, 64)] }) with | .next t => t.me.pc == 64 && t.gr 1 == 12 | _ => false) = true := by decide +kernel
theorem test_branches :
    let at_ := fun i => match exec i (ctlState fun x => { x with pc := 40, g := [(1, neg 1), (2, 1)] }) with | .next t => some t.me.pc | _ => none
    at_ (.blt 1 2 0xFFFE) = some 32 ∧ at_ (.bltn 1 2 0xFFFE) = some 44 ∧ at_ (.bge 1 2 5) = some 44 ∧ at_ (.bgen 1 2 5) = some 60 ∧ at_ (.beq 1 2 5) = some 44 ∧
    at_ (.bne 1 2 5) = some 60 ∧ at_ (.j 0x3FFFFFF) = some 36 := by decide +kernel

/-! ## One step of a control or time instruction (R157, R158, R326, R327, R334, R335) -/

theorem test_trap_and_return :
    (match exec (.trap 7) (ctlState fun x => { x with pc := 12, tvec := 0x100, prio := 2 }) with
      | .next t => t.me.pc == 0x100 && t.me.epc == 16 && t.me.ecause == 8 && t.me.eaddr == 7 && t.me.hnd
      | _ => false) = true ∧
    (match exec .tret (ctlState fun x => { x with pc := 0x100, epc := 12, hnd := true }) with
      | .next t => t.me.pc == 12 && !t.me.hnd
      | _ => false) = true := by decide +kernel
theorem test_loop_entry :
    (match exec (.loop 1 6) (ctlState fun x => { x with pc := 20, g := [(1, 3)] }) with
      | .next t => t.me.pc == 24 && t.me.lps == 24 && t.me.lpe == 44 && t.me.lpc == 3 && t.me.lpa
      | _ => false) = true := by decide +kernel
theorem test_times :
    let s := ctlState fun x => { x with t := [(1, 0x0000000300400001), (2, 0x0000000200801002)], g := [(5, 0x00400000)] }
    let t := fun i (f : State → Word) => match exec i s with | .next u => some (f u) | _ => none
    t (.tjoin 3 1 2) (fun u => u.me.tr 3) = some 0x0000000300801002 ∧ t (.tmeet 3 1 2) (fun u => u.me.tr 3) = some 0x0000000200400001 ∧
    t (.tle 4 1 1) (fun u => u.gr 4) = some 1 ∧ t (.tle 4 1 2) (fun u => u.gr 4) = some 0 ∧ t (.tinc1 3 1) (fun u => u.me.tr 3) = some 0x0000000300800001 ∧
    t (.tinc2 3 1) (fun u => u.me.ecause) = some 0x21 ∧ t (.tmk 3 5) (fun u => u.me.ecause) = some 0x22 ∧ t (.tfld 4 2 1) (fun u => u.gr 4) = some 2 := by decide +kernel

/-! ## One step of a load (R109, R110): byte 8 of the line is 0x81 -/

theorem test_loads :
    let s := memState (fun x => { x with g := [(1, 0x1000)] }) fun c => { c with l1 := [((accOf 0 0).copy, { someL1 with poison := 0 })] }
    let g := fun i => match exec i s with | .next t => if t.me.wait = none then some (t.gr 3) else none | _ => none
    g (.ldI8 3 1 8) = some (neg 0x7F) ∧ g (.ldN8 3 1 8) = some 0x81 ∧ g (.ldI16 3 1 8) = some 0x81 ∧ g (.ldI64 3 1 8) = some 0x81 ∧ g (.ldN32 3 1 0) = some 0 := by decide +kernel

/-! ## One firing (R213, R214, R217, R225 to R228, R235) -/

/-- What a firing of slot 0 of element 0 leaves, from its word's fields. -/
def fired (op : Nat) (w : EW) (m : Match) (g : Elem → Elem) : Option State :=
  match decodeTableWord 64 (word op w).toNat with
  | some i => match exec i (fireState op w m g id) with | .next t => some t | _ => none
  | none => none
/-- The tokens sent to port a of slot 0 of element e. -/
def sent (s : Option State) (e : Nat) : List Token :=
  match s with
  | some t => Map.get (t.elem 0 e).bufs [] 0
  | none => []
/-- The value an operation of two port tokens sends on T0. -/
def value2 (op : Nat) (ty : BitVec 3) (a b : Nat) : List Word :=
  (sent (fired op { binary ty with t0 := 0x1040 } (pair (some (token (BitVec.ofNat 64 a) 0)) (some (token (BitVec.ofNat 64 b) 0))) id) 1).map Token.value
/-- The values a conversion from f32 sends on T0 and T1. -/
def convert (rm : Nat) (ty : BitVec 3) (a : Nat) : List Word × List Word :=
  let r := fired (0x050 + rm) ⟨ty, 0, 7, 0, 0, 0x1040, 0x1080, 0, 3⟩ (pair (some (token (BitVec.ofNat 64 a) 0)) none) id
  ((sent r 1).map Token.value, (sent r 2).map Token.value)

/-- The table of R214: 300, 464, 470, 460, 500. -/
theorem test_convert_e4m3 :
    convert 0 6 0x43960000 = ([0x79], []) ∧ convert 0 6 0x43E80000 = ([0x7E], []) ∧ convert 0 6 0x43EB0000 = ([0x7E], [0x43EB0000]) ∧
    convert 1 6 0x43E60000 = ([0x7E], []) ∧ convert 1 6 0x43FA0000 = ([0x7E], [0x43FA0000]) := by decide +kernel
/-- The table of R214: 5, 0.75, -0.25, 7; the largest f32 to bf16; 2^-25 to f16. -/
theorem test_convert_small :
    convert 0 7 0x40A00000 = ([6], []) ∧ convert 0 7 0x3F400000 = ([2], []) ∧ convert 0 7 0xBE800000 = ([8], []) ∧ convert 0 7 0x40E00000 = ([7], [0x40E00000]) ∧
    convert 0 5 0x7F7FFFFF = ([0x7F7F], [0x7F7FFFFF]) ∧ convert 0 4 0x33000000 = ([0], []) ∧ convert 2 4 0x33000000 = ([1], []) := by decide +kernel
/-- The table of R214: 3.0e9, -2.5 and NaN to i32, and R213: 70,000 to f16. -/
theorem test_convert_integer :
    convert 0 0 0x4F32D05E = ([0x7FFFFFFF], [0x4F32D05E]) ∧ convert 0 0 0xC0200000 = ([neg 2], []) ∧ convert 0 0 0x7FC00000 = ([0], [0x7FC00000]) ∧
    convert 0 4 0x4788B800 = ([0x7BFF], [0x4788B800]) := by decide +kernel
/-- R214: 1 + 2^-12 to f16 in SR mode, with three seeds. -/
theorem test_convert_stochastic :
    let c := fun seed : BitVec 16 => (sent (fired 0x04C ⟨4, 0, 7, 0, 0, 0x1040, 0, 0, 3⟩ (pair (some (token 0x3F800800 0)) none) fun x => { x with lfsr := seed }) 1).map Token.value
    c 0xC000 = [0x3C01] ∧ c 0xBFFF = [0x3C00] ∧ c 0x0001 = [0x3C00] := by decide +kernel
theorem test_element_integers :
    value2 0x000 0 0x7FFFFFFF 1 = [neg (2 ^ 31)] ∧ value2 0x000 1 0xFFFFFFFF 1 = [0] ∧ value2 0x008 2 0 1 = [neg 1] ∧ value2 0x010 0 0x10000 0x10000 = [0] ∧
    value2 0x080 0 0xFFFFFFFF 1 = [neg 1] ∧ value2 0x080 1 0xFFFFFFFF 1 = [1] ∧ value2 0x087 0 1 33 = [2] ∧ value2 0x089 0 0x80000000 31 = [neg 1] ∧
    value2 0x090 1 7 0x100000007 = [1] ∧ value2 0x092 0 0x80000000 0 = [1] ∧ value2 0x097 0 0xF0 0x104 = [neg 1] := by decide +kernel
/-- add.f16 of 65,504 and 65,504 overflows to infinity (R213); 1.0 + 2.0; 0 x infinity; a compare with a NaN; -0 below +0 in min. -/
theorem test_element_floats :
    value2 0x000 4 0x7BFF 0x7BFF = [0x7C00] ∧ value2 0x000 3 0x3F800000 0x40000000 = [0x40400000] ∧ value2 0x010 3 0 0x7F800000 = [0x7FC00000] ∧
    value2 0x091 3 0x7FC00000 0 = [1] ∧ value2 0x092 3 0x7FC00000 0 = [0] ∧ value2 0x080 3 0x80000000 0 = [0x80000000] ∧ value2 0x003 3 0x3F800000 0xBF800000 = [0x80000000] := by
  decide +kernel
/-- The accumulation of R226: pair 1 with e7 = 3.0, and pair 2 with L = 1 and e7 = 4.0. -/
theorem test_accumulation :
    let f := fun (a b e7 : Word) (l : Bool) => fired 0x018 (binary 3) (pair (some { token a 0 with l := l }) (some (token b 0))) fun x => { x with e := [(7, e7)] }
    (sent (f 0x3E800000 0x40800000 0x40400000 false) 1).map Token.value = [0x40800000] ∧ ((f 0x3E800000 0x40800000 0x40400000 false).map fun t => (t.elem 0 0).ereg 7) = some 0x40800000 ∧
    (sent (f 0x40400000 0xBF000000 0x40800000 true) 1).map (fun k => (k.value, k.l)) = [(0x40200000, true)] ∧
    ((f 0x40400000 0xBF000000 0x40800000 true).map fun t => (t.elem 0 0).ereg 7) = some 0 := by decide +kernel
/-- R228: three e4m3 codes packed and the second taken out again as f32 1.0. -/
theorem test_pack :
    (sent (fired 0x060 ⟨6, 0, 0, 0, 0, 0x1040, 0, 0, 3⟩ (pair (some (token 0x7900000000000000 0)) (some (token 0x3F800000 0))) id) 1).map Token.value = [0x3879000000000000] ∧
    (sent (fired 0x098 ⟨3, 0, 0, 0, 0, 0x1040, 0, 0, 6⟩ (pair (some (token 0x3879000000000000 0)) (some (token 15 0))) id) 1).map Token.value = [0x3F800000] := by decide +kernel
/-- The three cases of R237's example of `tjn`. -/
theorem test_join_times :
    let r := fun (a t b : Word) (da db : BitVec 32) =>
      fired 0x0B3 ⟨2, 0, 0, 0, 0, 0x1040, 0x1080, 0, 0⟩ (pair (some { token a t with diff := da }) (some { token b t with diff := db })) id
    let see := fun (o : Option State) (e : Nat) => (sent o e).map fun k => (k.value, k.time, k.diff)
    see (r 42 0x300000000 0x500000000 0xFFFFFFFF 2) 1 = [(42, 0x500000000, 0xFFFFFFFE)] ∧ see (r 42 0x300000000 0x500000000 0xFFFFFFFF 2) 2 = [] ∧
    see (r 42 0x300000000 0x400800001 1 1) 1 = [(42, 0x400800001, 1)] ∧ see (r 7 0x600000000 0x200000000 65536 65536) 1 = [(7, 0x600000000, 0x7FFFFFFF)] ∧
    (see (r 7 0x600000000 0x200000000 65536 65536) 2).map (fun k => (k.1, k.2.2)) = [(0x100000000, 0)] := by decide +kernel
/-- R232 and R233: a steer by a true and a false predicate; a merge at port b of a token whose top bit is 0. -/
theorem test_steer_and_merge :
    let st := fun b : Word => fired 0x0B0 ⟨2, 0, 0, 0, 0, 0x1040, 0x1080, 0, 0⟩ (pair (some (token 9 0)) (some (token b 0))) id
    (sent (st 1) 1).map (fun k => (k.value, k.path)) = [(9, 0x101)] ∧ sent (st 1) 2 = [] ∧ (sent (st 0) 2).map (fun k => (k.value, k.path)) = [(9, 0x100)] ∧ sent (st 0) 1 = [] ∧
    (sent (fired 0x0B1 (binary 2) (pair none (some { token 9 0 with path := 0x100 })) id) 1).map (fun k => (k.value, k.path)) = [(9, 0)] := by decide +kernel
/-- The example of R231: `vadd` of v1 = 1.0 and the vector named by the token. -/
theorem test_vector_add :
    let all := fun n : Nat => broadcast 3 n
    let r := fun b : Word => fired 0x020 ⟨3, 4, 0, 1, 0, 0x1040, 0, 0, 0⟩ (pair none (some (token b 0))) fun x => { x with v := [(1, all 0x3F800000), (2, all 0x3F000000)] }
    (sent (r 2) 1).map Token.value = [1] ∧ ((r 2).map fun t => (t.elem 0 0).vreg 1) = some (all 0x3FC00000) ∧
    ((r 0x12).map fun t => (t.elem 0 0).vreg 1) = some (all 0x3F800000) ∧ (sent (r 0x12) 1).map Token.p = [true] := by decide +kernel
/-- The two reductions of R218. -/
theorem test_reduction :
    let r := fun l : List Nat => (sent (fired 0x040 ⟨3, 0, 7, 0, 0, 0x1040, 0, 0, 0⟩ (pair (some (token 1 0)) none) fun x => { x with v := [(1, ofLanes (l ++ List.replicate (32 - l.length) 0))] }) 1).map Token.value
    r [0x4B800000, 0, 0x3F800000, 0x3F800000] = [0x4B800001] ∧ r [0x4B800000, 0x3F800000, 0x3F800000] = [0x4B800000] := by decide +kernel
/-- The block of R217, and columns 0 and 1 of the example of R252. -/
theorem test_scales :
    let r := fun (p sA sB acc : Nat → Nat) => fired 0x14C ⟨2, 4, 2, 4, 1, 0x1040, 0, 0, 6⟩ (pair none none) fun x => { x with
      v := [(3, ofLanes ((range 0 32).map sB)), (4, ofLanes ((range 0 32).map p))], k := [(1, BitVec.ofNat 64 (sA 0))], acc := [(0, ofLanes ((range 0 32).map acc))] }
    let zero := fun i n : Nat => if i = 0 then n else 0
    ((r (zero · 161) (zero · 0x80) (zero · 0x61) (zero · 0x3F800000)).map fun t => laneOf (Map.get (t.elem 0 0).acc 0 0) 0) = some 0x42A80800 ∧
    ((r (fun i => if i = 0 then 0xFFFFFFF0 else if i = 1 then 0x24 else 0) (zero · 0x60) (zero · 0x4180) fun _ => 0).map fun t =>
      (laneOf (Map.get (t.elem 0 0).acc 0 0) 0, laneOf (Map.get (t.elem 0 0).acc 0 0) 1)) = some (0xC1000000, 0x40948000) := by decide +kernel

/-- The choices of logs 24 and 25: a search from 255 goes around, an identifier in use is passed over, and order 1 of three times exchanges the
first two. -/
theorem test_choices :
    let c := ((State.reset.choose 0 255).modCore 0 fun c => c.setTask 255 { Task.reset with st := .run }).core 0
    let r : RangeTask := ⟨0, .control, 0, 0, 0, none, 1, [⟨7, 0, 1, none⟩]⟩
    c.freeEntry = some 0 ∧ (State.reset.choose 0 7).freshPid = 7 ∧ ({ State.reset.choose 0 7 with ranges := [r] } : State).freshPid = 8 ∧
    arranged 1 3 [10, 20, 30] = [20, 10, 30] ∧ arranged 5 3 [10, 20, 30] = [30, 20, 10] := by decide +kernel

/-! ## More hypotheses that are met -/

/-- The job's state with the lines of core 0's L1 as given. -/
def withL1 (l : List (Nat × Line)) : State := memState id fun c => { c with l1 := l }
/-- What the checks of an access answer does not depend on L1. -/
theorem withL1_checkSpan (l : List (Nat × Line)) : (withL1 l).checkSpan 0 0x1000 8 .store 1 anyClass = (withL1 l, .ok [accOf 0 0]) := by
  have h : ∀ s : State, s.translate 0 0x1000 = (s, .ok ⟨1, 1, 0, true, true, true⟩) → s.win 0 = 1 → domValid (s.accDomain (accOf 0 0)) = true → s.admits 0 0x1000 AK.store.perm = true →
      s.checkSpan 0 0x1000 8 .store 1 anyClass = (s, .ok [accOf 0 0]) := by
    intro s ht hw hd ha
    have hp : pieces (8 / 128 + 2) 0x1000 8 = [(0x1000, 8)] := by decide
    simp [State.checkSpan, hp, State.checkAll, State.check, ht, hw, ha, accOf] at *
    simp [hd, show canonical 4096 = true from rfl, show permitted AK.store ⟨1, 1, 0#6, true, true, true⟩ = true from rfl, show winValid 1#64 = true from rfl,
      show anyClass (winClass 1#64) = true from rfl, show isDram 4096 = true by decide +kernel]
  refine h _ rfl rfl ?_ ?_
  · rw [show (withL1 l).accDomain (accOf 0 0) = (withL1 []).accDomain (accOf 0 0) from rfl]; decide +kernel
  · unfold State.admits
    rw [show (withL1 l).access = (withL1 []).access from rfl]
    decide +kernel
/-- L1 with every place taken by other copies. -/
def fullL1 : List (Nat × Line) := (List.range Config.l1Lines).map fun n => (10 ^ 9 + n, someL1)

/-- A line held, a line that needs a victim, and room in an L1 that is not full. -/
theorem witness_ScalarStores_place :
    HasPlace loadState 0 (accOf 0 0) ∧ HasPlace loadState 0 (accOf 0 0x80) ∧
    (∃ key line, (withL1 fullL1).checkSpan 0 0x1000 8 .store 1 anyClass = (withL1 fullL1, .ok [accOf 0 0]) ∧ ¬ HasPlace (withL1 fullL1) 0 (accOf 0 0) ∧
      ((withL1 fullL1).core 0).l1[((withL1 fullL1).core 0).alloc % ((withL1 fullL1).core 0).l1.length]? = some (key, line)) := by
  refine ⟨fun key _ => Or.inr (by decide +kernel), fun key _ => Or.inr (by decide +kernel), 10 ^ 9, someL1, withL1_checkSpan _, ?_, by decide +kernel⟩
  intro h
  exact absurd (h (accOf 0 0).copy (by decide +kernel)) (by decide +kernel)

/-- A job whose root table at 0x6000 leads through 0x7000 and 0x8000 to 0x9000; page 6 is mapped there, page 7 is not, page 8 is malformed and a
2 MiB leaf stands at 0x8008. -/
def walkState : State :=
  { loadState with
    job := loadState.job.map fun j => { j with root := 0x6000 }
    dram := dramOf [(0x6000, 0x7001), (0x7000, 0x8001), (0x8000, 0x9001), (0x8008, 0x20001F), (0x9030, 0x1101F), (0x9040, 0x11023)] }

/-- A page no TLB holds with its walk's translation and with none; an entry that is absent, malformed, a leaf at two levels and a table; a table
outside DRAM, one in a window that is not valid. -/
theorem witness_AccessChecks_walk :
    let s := walkState
    (∀ e ∈ s.mine.tlb ++ Map.get s.leafTlb [] (0 / 4), e.vpage ≠ 0x6000 / 4096) ∧ (s.job.map Job.root) = some 0x6000 ∧
    (s.walk 0 0x6000 0x6000 [39, 30, 21, 12]).2 = .ok ⟨6, 17, 0, true, true, true⟩ ∧ (s.walk 0 0x7000 0x6000 [39, 30, 21, 12]).2 = .absent false ∧
    (s.tableRead 0 0x9030).2 = .word 0x1101F ∧ (s.tableRead 0 0x9038).2 = .word 0 ∧ (s.tableRead 0 0x9040).2 = .word 0x11023 ∧ (s.tableRead 0 0x8008).2 = .word 0x20001F ∧
    (0x1101F#64).getLsbD 0 = true ∧ (0x1101F#64).getLsbD 1 = true ∧ (0#64).getLsbD 0 = false ∧ (0x11023#64).getLsbD 5 = true ∧ (0x7001#64).getLsbD 1 = false ∧
    (0x20001F#64).toNat / 2 ^ 12 % 2 ^ 36 % 2 ^ (21 - 12) = 0 ∧
    (s.tableRead 0 Config.dramBytes).2 = .bad 0x12 ∧ (({ s with job := none }).tableRead 0 0x6000).2 = .bad 0x10 := by decide +kernel

/-- The node area of the core lies at an address. -/
def areaState (futb : Nat) (f : Core → Core) : State :=
  let s := memState (fun x => { x with g := [(1, 0x2000), (2, 4)] }) f
  { s with
    job := s.job.map fun j : Job => { j with futb := BitVec.ofNat 64 futb }
    reloc := [(0, 0x8000), (7, 0x8001)]
    slices := [(0, ⟨0, 0, [(someKey, { someLine with full := 0, data := 0 }), (lineKey ⟨0x2800, 0x2800, 32, 2057⟩ 0, someLine)], [], []⟩)] }

/-- An empty word with a node area whose node passes its check and lies in another line, and one whose node does not; an empty word with a list;
a linked node of the setter's own core and one of another core of this module. -/
theorem witness_Futures_nodes :
    let s := areaState 0x2800 id
    let bad := areaState 0x4000 id
    let y : Acc := ⟨0x2800, 0x2800, 32, 2057⟩
    let linked := fun n => areaState 0x2800 fun c => { c with futs := [(n, .linked 0x2000 0 4 0 0)] }
    let other := { areaState 0x2800 id with cores := [(0, { Core.reset with vcn := some 0 }), (1, { Core.reset with vcn := some 7, futs := [(0, .linked 0x2000 0 4 0 0)] })] }
    s.futb ≠ 0 ∧ s.me.hnd = false ∧ s.mine.freeNode = some 0 ∧ 0x2800 = s.futb.toNat + s.mine.vcnNum * 2048 + 0 * 32 ∧
    HomeHolds s (accOf 1 0) { someLine with full := 0, data := 0 } ∧ s.checkSpan 0 (s.gr 1).toNat 8 .atomic 8 immOnly = (s, .ok [accOf 1 0]) ∧
    s.check 0 0x2800 32 .store 1 immOnly = (s, .ok y) ∧ y.pa % 128 + 32 ≤ 128 ∧ HomeHolds s y someLine ∧ someLine.poison = 0 ∧
    (homeSlice s y, homeLine s y) ≠ (homeSlice s (accOf 1 0), homeLine s (accOf 1 0)) ∧ s.endWaits 0 .control = false ∧
    bad.check 0 0x4000 32 .store 1 immOnly = (bad, .bad 0x11 false) ∧
    BitVec.ofNat 64 (lineBytes ({ someLine with full := 0 } : L2Line).data 8 8) ≠ 0 ∧
    (Map.get ((linked 0).core ((linked 0).posOf 0)).futs .free 0 = .linked 0x2000 0 4 0 0 ∧ 0 = (linked 0).mine.vcnNum) ∧
    (7 = (0x2800 + 7 * 2048 - other.futb.toNat) / 2048 ∧ Map.get (other.core (other.posOf 7)).futs .free 0 = .linked 0x2000 0 4 0 0 ∧ other.local 7 = true ∧ 7 ≠ other.mine.vcnNum) := by
  refine ⟨by decide +kernel, by decide +kernel, by decide +kernel, by decide +kernel, ⟨by decide +kernel, by decide +kernel, by decide +kernel⟩, by decide +kernel, by decide +kernel,
    by decide +kernel, ⟨by decide +kernel, by decide +kernel, by decide +kernel⟩, by decide +kernel, by decide +kernel, by decide +kernel, by decide +kernel, by decide +kernel, by decide +kernel, by decide +kernel⟩

/-- An enqueue with nothing before it at its interface, one behind a spawn and one behind an enqueue that waits; the producing actor with a
reference that is held here, with one that is not and with no room for its record; a yielding handler. -/
theorem witness_Spawning_interface :
    let m : Msg := ⟨13, 1, 0, 5, false, false, false, false, 0, 0, 0, 0, 1, 0, 5, 0⟩
    let s := fun c : Core → Core => { memState id c with reloc := [(0, 0x8000), (1, 0x8001)] }
    let run := fun (out : Word) (c : Core → Core) => s fun x => { c x with
      tasks := [(5, { Task.reset with st := .run, actor := true, out0 := out })], ctl := { x.ctl with run := some (.task 5) } }
    Clear (s id) 0 .control 1 ∧ ¬ Clear (s fun c => { c with retry := [⟨0, some .control, [m], false⟩] }) 0 .control 1 ∧
    ¬ Clear (s fun c => { c with behind := [(.control, [m])] }) 0 .control 1 ∧ (s id).local 1 = true ∧ (s id).local 2 = false ∧
    ((run (2 ^ 48 + 0x100) id).me.run = some (.task 5) ∧ ((run (2 ^ 48 + 0x100) id).mine.task 5).actor = true ∧ ((run (2 ^ 48 + 0x100) id).endRefs 0 .control).map refVcn = [1]) ∧
    (let u := run (2 ^ 48 + 0x200) fun c => { c with eq := List.replicate 256 ⟨0, 0, 0, 0⟩ }
     ((u.endRefs 0 .control).filter fun r => !u.local (refVcn r)).length = 1 ∧ ¬ u.mine.eq.length + 1 ≤ 256) := by
  unfold Clear; decide +kernel

/-- Room for the poison of a failing firing; the targets of a tag operation that fails; poison at the operands of steer and merge. -/
theorem witness_PoisonFirings_targets :
    let m := pair (some (token 7 3)) (some (token 9 3))
    let w := { binary 3 with tg := 1 }
    let s := fun op => fireState op w m id id
    let bad := { token 5 0 with p := true }
    (∀ op ∈ [0x000, 0x020, 0x04B, 0x098, 0x0B2], ready (s op) m = true ∧ HasRoom (s op) w (poisonOuts (s op) w m 0x21 [0, 1])) ∧
    tgtV (target w 0) = true ∧ tgtV (target w (if (9#64) = 0 then 1 else 0)) = true ∧ (match tagOp w.tg ((s 0x000).fx w m).rawB m.tag.time m.tag.path with | .error c => c == 0x21 | .ok _ => false) = true ∧
    (∀ k ∈ [pair (some bad) (some (token 0 0)), pair (some (token 7 0)) (some bad)], ready (fireState 0x0B0 (binary 2) k id id) k = true ∧ k.poison = some 5) ∧
    (let k := pair (some { bad with path := 0x101 }) none
     ready (fireState 0x0B1 (binary 2) k id id) k = true ∧ k.poison = some 5 ∧ k.tag.path.extractLsb' 8 3 = 1) := by
  unfold HasRoom; decide +kernel

/-- The first in key order of two waiting poison bounds, before and behind the run's next index; a third bound that must wait. -/
theorem witness_Counters_bounds :
    let early := { token 1 0 with p := true }
    let late := { token 2 0x500000000 with p := true }
    FirstBad 0 [late, early] early [late] ∧ FirstBad 0 [early] early [] ∧ fireKey early.time 0 ≤ fireKey (token 0 1).time 0 ∧
    (∀ t ∈ [late], fireKey (token 0 1).time 0 < fireKey t.time 0) ∧ [early].length < 2 ∧ ¬ [late, early].length < 2 := by
  refine ⟨⟨[{ token 2 0x500000000 with p := true }], [], rfl, rfl, by decide +kernel, by decide⟩, ⟨[], [], rfl, rfl, by decide, by decide⟩, by decide +kernel, by decide +kernel, by decide, by decide⟩

/-- A port whose last access was let through by a wake token, and two accesses of the same bytes through two pages. -/
theorem witness_MemoryPortAccesses_wake :
    let p : Port := ⟨[portAcc 0 0], none, 0, 0, true⟩
    let twice := { portAcc 0 0 with va := 0x7000, parts := [{ accOf 0 0 with va := 0x7000 }] }
    (p.woken = true ∧ 0 + 1 = p.accs.length) ∧
    (∃ x ∈ (portAcc 0 0).parts, ∃ y ∈ twice.parts, x.pa < y.pa + y.n ∧ y.pa < x.pa + x.n) ∧ ¬ (0x7000 < 0x1000 + 8 ∧ 0x1000 < 0x7000 + 8) := by decide +kernel

/-- Tag operations that fail and that do not, for a drain, mpre and mmode; a latch whose second row is absent; a mrow that finds its element's MX at 0;
elements with and without an mdrn slot; a segment of each format. -/
theorem witness_MatrixMode_tags :
    let m := pair (some (token 0 3)) none
    let w := { binary 2 with sb := 7, imm := 0xFF, tg := 1 }
    let on := fun x : Elem => { x with mx := true, latch0 := { someLatch with rows := [{ someRow with time := 3 }] } }
    let s := fun op : Nat => fireState op w m on id
    let meets := fun op => ready (s op) m = true ∧ (∃ c, (((s op).fx w m).tagAll [(0, ((s op).fx w m).token 1)]) = .error c) ∧
      HasRoom (s op) w (poisonOuts (s op) w m 0x21 [0, 1])
    (meets 0x141 ∧ meets 0x149 ∧ meets 0x14E) ∧
    (∃ l, (((fireState 0x14E (binary 2) m on id).fx (binary 2) m).tagAll [(0, token 1 3)]) = .ok l) ∧
    (((s 0x149).elem 0 0).latch0.rows = [{ someRow with time := 3 }] ∧ ((s 0x149).elem 0 0).latch0.vals = some (List.replicate 128 5)) ∧
    (let u := fireState 0x145 { binary 2 with sb := 7 } m (fun x => { x with moff := true }) id
     ready u m = true ∧ (u.elem 0 0).mx = false ∧ u.cur.pick = none ∧ ∀ q ∈ (u.elem 0 0).keyed, q.2.2.slot = 0 → 0 ≤ q.2.1) ∧
    ((s 0x149).elem 0 0).op 0 = 0x149 ∧ (∀ i, i < 32 → ¬ (0x148 ≤ ((s 0x141).elem 0 0).op i ∧ ((s 0x141).elem 0 0).op i < 0x14C)) := by
  refine ⟨?_, ?_, ?_, ?_, ?_, ?_⟩
  · refine ⟨⟨?_, ⟨0x21, rfl⟩, ?_⟩, ⟨?_, ⟨0x21, rfl⟩, ?_⟩, ?_, ⟨0x21, rfl⟩, ?_⟩ <;> first | decide +kernel | (unfold HasRoom; decide +kernel)
  · exact ⟨[(0, token 1 3)], rfl⟩
  all_goals decide +kernel

/-- A word node that finds a segment still waiting, and the last of a stream with poison behind a good row. -/
theorem witness_MatrixRows_poison :
    let on := fun x : Elem => { x with mx := true, cim := ⟨2, 1, 0, []⟩ }
    let w := { binary 2 with sb := 7, imm := 0xFF }
    let node := fun (k : Token) (word : Option Token) (row : Option ARow) (seg : List ARow) => fireState 0x145 w (pair (some k) none)
      (fun x => { on x with nodes := [(0, .mrow word row seg [])] }) id
    let bad := { token 9 0 with p := true, l := true }
    (∀ x ∈ [(bad, some (token 1 0), some someRow), (bad, some (token 1 0), none), (token 1 0, some bad, none)], let s := node x.1 x.2.1 x.2.2 []
      s.mayFire 0 0 = true ∧ (s.elem 0 0).slotMay 0 = true ∧ HasRoom s w [(0, bad)] ∧ Map.find (s.elem 0 0).nodes 0 = some (.mrow x.2.1 x.2.2 [] [])) ∧
    (let g : Seg := ⟨0, 0, 1, [someRow, { someRow with l := true }], [0, 1]⟩
     let s := { node (token 1 0) none none [] with cores := [(0, { (node (token 1 0) none none []).core 0 with bus := [(0, g)] })] }
     Map.find (s.core 0).bus 0 = some g ∧ g.rows = someRow :: [{ someRow with l := true }]) := by unfold HasRoom; decide +kernel

/-- A token of the shadow bank's context, poison for a slot that is not active, a memory-port slot with a formed match, a full store with a match of the
port; the port of the oldest held token; a flip with a shadow image, and an image whose shadow bank is taken. -/
theorem witness_FabricEvents_more :
    let s := fun (op : Nat) (k : Token) (g : Elem → Elem) => headState op (binary 2) (fun x => g { x with bufs := [(0, [k])] }) id
    let formed := pair (some (token 5 0)) (some (token 6 0))
    (let u := s 0 { token 1 0 with ctx := 4 } fun x => { x with sh := some (image 4 []) }
     u.headOf 0 0 0 0 = some { token 1 0 with ctx := 4 } ∧ (u.elem 0 0).sh.map EImage.ctx = some 4) ∧
    (let u := headState 0 (binary 2) (fun x => { x with bufs := [(portKey 3 0, [{ token 1 0 with p := true }])] }) id
     u.headOf 0 0 3 0 = some { token 1 0 with p := true } ∧ (image 3 [(0, word 0 (binary 2))]).word 3 = none) ∧
    (let u := s 0x112 (token 1 0) fun x => { x with matches_ := [formed] }
     u.headOf 0 0 0 0 = some (token 1 0) ∧ (u.elem 0 0).matches_ = [formed] ∧ 0x110 ≤ (opOf (word 0x112 (binary 2))).toNat ∧ (opOf (word 0x112 (binary 2))).toNat ≤ 0x128) ∧
    (let u := s 0x104 (token 1 0) fun x => { x with store := fullStore, matches_ := [pair (some (token 5 0)) none] }
     64 ≤ (u.elem 0 0).storeUsed ∧ (pair (some (token 5 0)) none).a.isSome = true) ∧
    (let u := s 0 (token 1 0) fun x => { x with arrived := [(4, token 9 0), (0, token 1 0)] }
     (u.elem 0 0).arrived = [(4, token 9 0)] ++ (0, token 1 0) :: [] ∧ (4, token 9 0) ∉ (u.core 0).heldTokens 0 ∧ (0, token 1 0) ∈ (u.core 0).heldTokens 0) ∧
    (let u := headState 0 (binary 2) (fun x => { x with leaving := true, sh := some (image 4 [(0, word 0 (binary 2))]), bufs := [(0, [{ token 1 0 with ctx := 4 }]), (5, [{ token 2 0 with ctx := 4 }])] }) id
     (u.elem 0 0).leaving = true ∧ (u.elem 0 0).due = [] ∧ ((u.elem 0 0).sh.map EImage.ctx) = some 4) ∧
    (let u := headState 0 (binary 2) (fun x => { x with sh := some (image 4 []) }) id
     (Map.get (u.core 0).elems Elem.reset 0).sh ≠ none) := by decide +kernel

/-- A message for port a of mdrn, a poison message at the head of its level, a message that no class takes, and one held for the ring in HELD. -/
theorem witness_Delivery_more :
    let m := { message 0 0 with cont := 7 * 64 }
    let u := withElem 7 { Elem.reset with act := some (image 3 [(0, word 0x149 { binary 2 with sb := 7 })]) }
      (netState [] none none id fun c => { c with inb := [(0, { Inbound.reset with q := [m] })], handlers := [(0, ⟨0, true, 0, true, false⟩)] })
    let bad := { message 0 0 with p := true }
    let v := netState [] none none (fun x => { x with ready := [(3, [⟨.handler 0 none, 0⟩])] }) fun c => { c with inb := [(0, { Inbound.reset with q := [bad] })] }
    (((u.core 0).inbound 0).q = [m] ∧ (u.elem 0 7).act.isSome = true ∧ 0x148 ≤ (opOf (word 0x149 { binary 2 with sb := 7 })).toNat ∧ (opOf (word 0x149 { binary 2 with sb := 7 })).toNat < 0x14C) ∧
    ((v.core 0).ctl.head = some (3, ⟨.handler 0 none, 0⟩) ∧ ((v.core 0).inbound 0).q = [bad] ∧ bad.p = true) ∧
    ((netState [message 0 0] none none id fun c => { c with inb := [(0, { Inbound.reset with st := .held })] }).core 0).inbound 0 = { Inbound.reset with st := .held } ∧
    (let w := netState [{ message 0 0 with o := true, seq := 1 }] none none id fun c => { c with hold := List.replicate 16 (message 0 0) }
     16 ≤ (w.core 0).hold.length ∧ Map.get (w.core 0).dlv 0 1 ≠ 1) := by decide +kernel

/-- Two messages of one source on different planes and classes: from another module the second waits, from this module it does not. -/
theorem witness_Acknowledging_order :
    let l := [message 0 0, { message 1 0 with plane := 1 }]
    let s := fun chip : Option Nat => netState l none chip id id
    ((s (some 4)).net[1]?).map NetMsg.msg = some { message 1 0 with plane := 1 } ∧ ((s (some 4)).arrivable 1).isNone = true ∧ ((s none).arrivable 1).isSome = true ∧
    (let u := netState [{ message 13 2 with o := true, diff := 1 }] none none id fun c => { c with out := [(1, ⟨0, 1, true⟩)] }
     ((u.arrivable 0).map fun e => e.msg.o) = some true ∧ ((u.core 0).outOf 1).oWait = true ∧ ((u.core 0).outOf 1).una = 1) := by decide +kernel

/-- The last piece of a cohort's range is released while an opening waits at the keeper. -/
theorem witness_KeeperEvents_opens :
    let o : OpenReq := ⟨1, .control, [0, 8, BitVec.ofNat 64 (2 ^ 32), 7, 0, 0, 0, 0]⟩
    let range : RangeTask := ⟨0, .control, 0, 0, 0, none, 8, [⟨0, 3, 3, some 1⟩]⟩
    let u := { netState [systemMsg 8 6 0] (some .control) none id id with ranges := [range], opens := [o] }
    ((u.arrivable 0).map fun e => (e.msg.opc.toNat, (e.msg.cont.extractLsb' 0 4).toNat)) = some (8, 6) ∧ u.opens = [o] ∧ range.done = none ∧
    (({ u with ranges := [], opens := [] }).keeperOpen o.vcn o.kind o.words).isSome = true ∧
    (({ u with ranges := List.replicate 4 range, opens := [] }).keeperOpen o.vcn o.kind o.words) = none := by decide +kernel

/-- An open on its way that finds no table, one that agrees and one that does not; a switch below an open; held accesses of a port whose page is
absent, whose first page is mapped and second is absent, that pass and that fail; a unit of cpy that is read, written and held; the turn of a row
of scat and a row that waits; a retired command with its wait. -/
theorem witness_EngineEvents_more :
    let cmd := command 8 [0, 0, 2, 0, 1]
    let o : StrmOpen := ⟨0, 1, cmd⟩
    let s := { memState id id with strmOpens := [o], reloc := [(0, 0x8000)] }
    let t := s.openTable 0 1 cmd
    let at_ := fun (t : Strm) => { s with strms := [(strmKey (switchAbove 0 1) cmd.stream, t)] }
    (s.strmOpens[0]? = some o ∧ Map.find s.strms (strmKey (switchAbove 0 1) cmd.stream) = none ∧
      Map.find (at_ t).strms (strmKey (switchAbove 0 1) cmd.stream) = some t ∧ Map.find (at_ { t with lanes := t.lanes + 1 }).strms (strmKey (switchAbove 0 1) cmd.stream) ≠ none ∧ t.lanes + 1 ≠ t.lanes) ∧
    (let held := fun (va n fva : Nat) => headState 0x111 (binary 2) (fun x => x) fun c => { c with
       rewalk := true, ports := [(0, ⟨[], some { portAcc 0 0 with va := va, n := n, parts := [] }, 0, fva, false⟩)] }
     ((held 0x6000 8 0x6000).core 0).elemStalled 0 = false ∧ ((held 0x6000 8 0x6000).check 0 0x6000 1 (portKind 0x111) 1 anyClass).2 = .bad 0x10 false ∧
     (((held 0x5FFC 8 0x5000).portCheck 0 0x3FFC 8 0x111).2 = .bad 0x11 0x4000 false) ∧
     (∃ l, ((held 0x1000 8 0x1000).portCheck 0 0x1000 8 0x111).2 = .ok l) ∧ ((held 0x1000 8 0x1000).check 0 0x1000 1 (portKind 0x111) 1 anyClass).2 = .ok { accOf 0 0 with n := 1 } ∧
     (((memState id fun c => { c with tlb := pages.take 3 ++ [⟨5, 5, 1, true, true, true⟩] }).portCheck 0 0x5FFC 8 0x111).2 = .bad 0x10 0x6000 false)) ∧
    (let run := { (command 0 [0x2000, 0x2080, 8]).start with buf := [] }
     let u := { memState id fun c => { c with engines := [(0, ⟨[], [run]⟩)] } with reloc := [(0, 0x8000)] }
     (u.core 0).engine 0 = ⟨[], run :: []⟩ ∧ run.cmd.op = 0 ∧ run.fin = false ∧ run.err = none ∧ run.held = [] ∧ cpyUnit (run.cmd.dn 0) (run.cmd.dn 1) (run.cmd.dn 2) 0 ≠ 0 ∧
       (u.core 0).stalled (fun q => q.unit == 1) = false ∧ (u.engRead 0 0x2000 8).2 = .ok 0 ∧ (u.engRead 0 0x4000 8).2 = .bad 0x11 0x4000 false ∧
       (u.engRead 0 0x6000 8).2 = .bad 0x10 0x6000 false) ∧
    (let run := { (command 2 [0x2000, 0x2100, 0x2200, 2 + 2 ^ 35, 0, 2]).start with buf := [(1, 2 * 7)], known := [(0, 7)] }
     let c := { run with known := [(0, 6)] }
     run.cmd.op = 2 ∧ Map.find run.buf 1 = some 14 ∧ ¬ (∀ j, j < 1 → j ∈ run.done ∨ ∃ z, Map.find run.known j = some z ∧ z ≠ 14 / 2 % 2 ^ 64) ∧
       (∀ j, j < 1 → j ∈ c.done ∨ ∃ z, Map.find c.known j = some z ∧ z ≠ 14 / 2 % 2 ^ 64)) := by
  refine ⟨by decide +kernel, ⟨by decide +kernel, by decide +kernel, by decide +kernel, ⟨[accOf 0 0], by decide +kernel⟩, by decide +kernel, by decide +kernel⟩, by decide +kernel,
    rfl, by decide, ?_, ?_⟩
  · intro h
    rcases h 0 (by decide) with h | ⟨z, hz, hn⟩
    · exact absurd h (by decide)
    · exact hn (by cases hz; rfl)
  · intro j hj
    cases Nat.lt_one_iff.1 hj
    exact Or.inr ⟨6, by decide, by decide⟩

/-- A link with credit and one without; a stopped scope; a batch that another die root's waiting one keeps back; a position with no change on its way. -/
theorem witness_ProgressEvents_credit :
    let s := State.reset
    let none_ := { s with pq := [(0 * 8 + 7, List.replicate (Config.linkCredit + 1) [])] }
    s.credit 0 7 = true ∧ none_.credit 0 7 = false ∧ ¬ (Map.find ({ s with stuck := [(7, 3)] }).stuck 7 = none ∨ Map.find ({ s with stuck := [(7, 3)] }).stuck 7 = some 4) ∧
    s.progressQuiet 0 1 = true ∧ ({ s with pq := [(0 * 8 + 7, [[]])] }).progressQuiet 0 1 = false := by
  refine ⟨by decide +kernel, ?_, by decide +kernel, by decide +kernel, by decide +kernel⟩
  simp [State.credit, State.batches, Map.get]

/-- A peer's access that its master may not make and one outside DRAM; the position of a VCN that waits out its cooldown; and a core without one. -/
theorem witness_HubEvents_more :
    let s := { memState id id with reloc := [(0, 0x8000)] }
    ({ s with access := [] }).admits 0x3000 0x2000 AK.store.perm = false ∧ Config.dramBytes < Config.dramBytes + 8 ∧ 0 < 8 ∧ 0 % 64 + 8 ≤ 64 ∧ 0 < 8 ∧
    (let u := fun n : Nat => memState id fun c => { c with feat := 0xFF, sw := { c.sw with since := some n } }
     (u 4).eligible 0 = false ∧ (u 5).eligible 0 = true ∧ (u 5).eligible 1 = true) := by decide +kernel

/-- The header of the dense segment of stream 0 and the packet of stream 1 in the example of the spec's sparse gradients. -/
theorem test_run_packet_flits :
    let dense : Pkt := ⟨8, 0, 0, 0, 0, true, 0, true, 2, (List.range 256).map fun i => (i, [0, 0]), 0, false, true, false⟩
    let sparse : Pkt := ⟨9, 0, 1, 0, 0, false, 2, false, 1, [(0x03, [0x7FFFFFFF]), (0x29, [7]), (0x3F, [1])], 1, false, true, false⟩
    dense.header = 0x800003FE060000000000000000000000 ∧ dense.values.length = 128 ∧ dense.offsets = [] ∧
    sparse.flits = [0x90000409000000000000000000000000, 0x3F2903, 0x1000000077FFFFFFF, 0x00000001400000000000000000000000] := by decide +kernel

end Sys2Proof.Tests
end

section
/-! # The scalar stores (R109 to R111) -/

namespace Sys2Proof.Proofs

open Sys2Proof Sys2Proof.Machine Sys2Proof.Laws

/-! ## Checked accesses of the scalar cores -/

/-- An access whose checks pass goes on with its parts, in the state that the checks leave. -/
theorem checked_ok {s u : State} {va n align : Nat} {ak : AK} {cls : Nat → Bool} {l : List Acc} (k : State → List Acc → Ans)
    (h : s.checkSpan s.cur.p va n ak align cls = (u, .ok l)) : checked va n ak align cls s k = k u l := by
  unfold checked
  rw [h]

/-- An access whose checks fail traps with their cause and the failing part's address (R73, R79). -/
theorem checked_bad {s u : State} {va n align c a : Nat} {ak : AK} {cls : Nat → Bool} {toHost : Bool} (k : State → List Acc → Ans)
    (h : s.checkSpan s.cur.p va n ak align cls = (u, .bad c a toHost)) :
    checked va n ak align cls s k = .next (u.trap s.cur.p s.cur.k c s.me.pc (BitVec.ofNat 64 a)) := by
  have looked := looked_checkSpan h
  unfold checked
  rw [h, ← looked.cur, ← looked.me]
  rfl

/-! ## Place in L1 (R56, log 81) -/

/-- A core with place for the line makes none. -/
theorem roomL1_of_hasPlace {s : State} {p : Nat} {a : Acc} (h : HasPlace s p a) : s.roomL1 p a = s := by
  unfold State.roomL1
  dsimp only
  split
  · rfl
  · next key hkey => exact if_pos (by rw [Bool.or_eq_true, decide_eq_true_iff]; exact h key hkey)

/-- A full L1 without the line evicts the line that `alloc` names. -/
theorem roomL1_of_full {s : State} {p key : Nat} {a : Acc} {line : Line} (h : ¬ HasPlace s p a)
    (hv : (s.core p).l1[(s.core p).alloc % (s.core p).l1.length]? = some (key, line)) : s.roomL1 p a = s.evictLine p key := by
  obtain ⟨q, hq⟩ := Classical.not_forall.1 h
  obtain ⟨hq, hnone⟩ := Classical.not_imp.1 hq
  unfold State.roomL1
  dsimp only
  rw [hq]
  dsimp only
  rw [if_neg (by rwa [Bool.or_eq_true, decide_eq_true_iff]), nth_eq, hv]

theorem putPhased_of_hasPlace {s : State} {p : Nat} {a : Acc} (x : Nat) (h : HasPlace s p a) :
    s.putPhased p a x = s.modCore p fun c => c.storePhased a x := by
  rw [State.putPhased, roomL1_of_hasPlace h]

theorem putPhased_of_full {s : State} {p key : Nat} {a : Acc} {line : Line} (x : Nat) (h : ¬ HasPlace s p a)
    (hv : (s.core p).l1[(s.core p).alloc % (s.core p).l1.length]? = some (key, line)) :
    s.putPhased p a x = (s.evictLine p key).modCore p fun c => c.storePhased a x := by
  rw [State.putPhased, roomL1_of_full h hv]

/-! ## The parts of a store -/

theorem storeOn_nil (s : State) (p : Nat) (k : Kind) (x : Nat) (word : BitVec 32) : s.storeOn p k [] x word = s := rfl

/-- A part in a phased window is stored in L1 or the stash (R111). -/
theorem storeOn_phased {a : Acc} (h : winClass a.win = 0) (s : State) (p : Nat) (k : Kind) (r : List Acc) (x : Nat) (word : BitVec 32) :
    s.storeOn p k (a :: r) x word = (s.putPhased p a (x % 2 ^ (8 * a.n))).storeOn p k r (x / 2 ^ (8 * a.n)) word := by
  rw [State.storeOn]
  rw [if_pos h]

/-- A part in an immediate or host-shared window leaves as a posted write (R111). -/
theorem storeOn_posted {a : Acc} (h : winClass a.win ≠ 0) (s : State) (p : Nat) (k : Kind) (r : List Acc) (x : Nat) (word : BitVec 32) :
    s.storeOn p k (a :: r) x word =
      ((s.request p k (.write a.n (x % 2 ^ (8 * a.n))) a true word).1).storeOn p k r (x / 2 ^ (8 * a.n)) word := by
  rw [State.storeOn]
  rw [if_neg h]

/-! ## The state after a store into a core that has place -/

/-- A store into a line touches no scalar core. -/
theorem scal_storePhased (c : Core) (a : Acc) (x : Nat) (k : Kind) : (c.storePhased a x).scal k = c.scal k := by
  rw [storePhased_rest]
  cases k <;> rfl

/-- A byte of the low n bytes of a value is that byte of the value. -/
theorem byte_of_low {j n : Nat} (v : Nat) (h : j < n) : BitVec.ofNat 8 (v % 2 ^ (8 * n) / 2 ^ (8 * j)) = BitVec.ofNat 8 (v / 2 ^ (8 * j)) := by
  apply BitVec.eq_of_toNat_eq
  rw [BitVec.toNat_ofNat, BitVec.toNat_ofNat, show 8 * n = 8 * j + (8 + 8 * (n - j - 1)) by omega, Nat.pow_add, Nat.mod_mul_right_div_self,
    Nat.pow_add, Nat.mod_mul_right_mod]

/-- The state in which a phased store of one part completes, where the core has place for its line. -/
def afterStore (s : State) (a : Acc) (x : Nat) : State := (s.modCore s.cur.p fun c => c.storePhased a x).modMe Scalar.advance

section
variable (s : State) (a : Acc) (x : Nat)

theorem core_afterStore : (afterStore s a x).core s.cur.p = ((s.core s.cur.p).storePhased a x).setScal s.cur.k s.me.advance := by
  have hme : (s.modCore s.cur.p fun c => c.storePhased a x).me = s.me := by
    show ((s.modCore s.cur.p _).core s.cur.p).scal s.cur.k = _
    rw [core_modCore_same, scal_storePhased]
    rfl
  have h := core_modMe_same (s.modCore s.cur.p fun c => c.storePhased a x) Scalar.advance
  rw [hme, State.mine, modCore_cur, core_modCore_same] at h
  exact h

theorem onlyCore_afterStore : OnlyCore s (afterStore s a x) s.cur.p := by
  refine ⟨rfl, fun q hq => ?_⟩
  exact (core_modCore_other (s.modCore s.cur.p _) _ hq).trans (core_modCore_other s _ hq)

theorem me_afterStore : (afterStore s a x).me = s.me.advance := by
  show ((afterStore s a x).core s.cur.p).scal s.cur.k = _
  rw [core_afterStore, scal_setScal_same]

theorem scal_afterStore_other {k : Kind} (h : k ≠ s.cur.k) : (afterStore s a x).scal s.cur.p k = s.scal s.cur.p k := by
  rw [State.scal, core_afterStore, scal_setScal_other _ _ h, scal_storePhased]
  rfl

/-- Of the core that stores, L1, the stash and the scalar cores alone may differ. -/
theorem core_afterStore_frame : (afterStore s a x).core s.cur.p =
    { s.core s.cur.p with
      l1 := ((afterStore s a x).core s.cur.p).l1, stash := ((afterStore s a x).core s.cur.p).stash
      ctl := ((afterStore s a x).core s.cur.p).ctl, ldr := ((afterStore s a x).core s.cur.p).ldr, sto := ((afterStore s a x).core s.cur.p).sto } := by
  rw [core_afterStore, storePhased_rest]
  cases s.cur.k <;> rfl

/-- The bytes of the part are those of x, little-endian; every other cached byte of the machine stays. -/
theorem cachedByte_afterStore (h : a.pa % 128 + a.n ≤ 128) (q : Nat) (w : Place) {j : Nat} (hj : j < 128) :
    cachedByte (afterStore s a (x % 2 ^ (8 * a.n))) q w j =
      if q = s.cur.p ∧ w = (s.core s.cur.p).place a ∧ a.pa % 128 ≤ j ∧ j < a.pa % 128 + a.n then
        some (BitVec.ofNat 8 (x / 2 ^ (8 * (j - a.pa % 128))))
      else cachedByte s q w j := by
  unfold cachedByte
  by_cases hq : q = s.cur.p
  · subst hq
    rw [core_afterStore, lineAt_setScal, storePhased_bytes _ _ _ h _ _ hj]
    simp only [true_and]
    exact ite_congr rfl (fun ⟨_, hlo, hhi⟩ => by rw [byte_of_low x (by omega)]) fun _ => rfl
  · rw [(onlyCore_afterStore s a _).2 q hq, if_neg fun e => hq e.1]

end

/-! ## The instructions -/

/-- The four stores and the bytes that each writes. -/
def storeForms (d a : BitVec 5) (imm : BitVec 16) : List (Instr × Nat) :=
  [(.st8 d a imm, 1), (.st16 d a imm, 2), (.st32 d a imm, 4), (.st64 d a imm, 8)]

section
variable {d a : BitVec 5} {imm : BitVec 16} {i : Instr} {n : Nat} (hi : (i, n) ∈ storeForms d a imm)
include hi

theorem exec_storeForms (s : State) : exec i s = store n d a imm i s := by
  simp only [storeForms, List.mem_cons, Prod.mk.injEq, List.not_mem_nil, or_false] at hi
  rcases hi with ⟨rfl, rfl⟩ | ⟨rfl, rfl⟩ | ⟨rfl, rfl⟩ | ⟨rfl, rfl⟩ <;> rfl

theorem storeForms_bytes : 0 < n ∧ n ≤ 8 := by
  simp only [storeForms, List.mem_cons, Prod.mk.injEq, List.not_mem_nil, or_false] at hi
  omega

/-- A store whose checks pass stores its parts and completes. -/
theorem exec_store_ok {s : State} {l : List Acc} (h : s.checkSpan s.cur.p (s.gr a + imm.signExtend 64).toNat n .store 1 anyClass = (s, .ok l)) :
    exec i s = .next ((s.storeOn s.cur.p s.cur.k l (s.gr d).toNat (wordOf i)).modMe Scalar.advance) :=
  (exec_storeForms hi s).trans (checked_ok _ h)

/-- A store whose checks fail traps, with nothing written. -/
theorem exec_store_bad {s u : State} {c va : Nat} {toHost : Bool}
    (h : s.checkSpan s.cur.p (s.gr a + imm.signExtend 64).toNat n .store 1 anyClass = (u, .bad c va toHost)) :
    exec i s = .next (u.trap s.cur.p s.cur.k c s.me.pc (BitVec.ofNat 64 va)) :=
  (exec_storeForms hi s).trans (checked_bad _ h)

/-- The one part of a store has all its bytes, within one line. -/
theorem store_part {s : State} {x : Acc} (h : s.checkSpan s.cur.p (s.gr a + imm.signExtend 64).toNat n .store 1 anyClass = (s, .ok [x])) :
    x.n = n ∧ x.pa % 128 + x.n ≤ 128 := by
  obtain ⟨hpos, h8⟩ := storeForms_bytes hi
  obtain ⟨passed, hline, -⟩ := checkSpan_one hpos (by omega) (BitVec.isLt _) h
  have hn := passed.bytes
  omega

/-- A phased store of one part into a core with place for its line. -/
theorem exec_store_hasPlace {s : State} {x : Acc} (h : s.checkSpan s.cur.p (s.gr a + imm.signExtend 64).toNat n .store 1 anyClass = (s, .ok [x]))
    (hw : winClass x.win = 0) (hp : HasPlace s s.cur.p x) : exec i s = .next (afterStore s x ((s.gr d).toNat % 2 ^ (8 * x.n))) := by
  rw [exec_store_ok hi h, storeOn_phased hw, storeOn_nil, putPhased_of_hasPlace _ hp]
  rfl

end

/-- Settles O18: each store runs `storeOn` over its checked parts, and each part is `putPhased` or a posted request. -/
theorem scalarStores : Obligations.ScalarStores := by
  unfold Obligations.ScalarStores
  intro s d a imm i n hi p k ea v word
  refine ⟨fun x h hw hp => ?placed, fun x y h hx hy => ?twoPhased, fun x key line h hw hp hv => ?evicted, fun x h hw => ?posted,
    fun x y h hx hy => ?twoPosted, fun u c va toHost h => exec_store_bad hi h⟩
  case placed =>
    obtain ⟨hn, hline⟩ := store_part hi h
    refine ⟨_, exec_store_hasPlace hi h hw hp, onlyCore_afterStore .., sameBelow_of_cores rfl, me_afterStore .., fun q w j hj => ?_,
      core_afterStore_frame .., fun k' hk => scal_afterStore_other _ _ _ hk⟩
    rw [cachedByte_afterStore _ _ _ hline _ _ hj, hn]
    rfl
  case twoPhased => rw [exec_store_ok hi h, storeOn_phased hx, storeOn_phased hy, storeOn_nil]
  case evicted => rw [exec_store_ok hi h, storeOn_phased hw, storeOn_nil, putPhased_of_full _ hp hv]
  case posted => rw [exec_store_ok hi h, storeOn_posted hw, storeOn_nil]
  case twoPosted => rw [exec_store_ok hi h, storeOn_posted hx, storeOn_posted hy, storeOn_nil]

end Sys2Proof.Proofs
end

section
/-! # What a step of a scalar core runs (R154, R339) -/

namespace Sys2Proof.Proofs

open Sys2Proof Sys2Proof.Machine Sys2Proof.Laws

/-- With an empty tape a step is one of the scalar core that moved last. -/
theorem step_of_tape_nil {s : State} (h : s.tape = []) : step s = s.scalarStep s.cur.p s.cur.k := by
  unfold step State.advance
  rw [h]

/-- The agent set to the scalar core that moved last is no change. -/
theorem atScalar_cur (s : State) : s.atScalar s.cur.p s.cur.k = s := rfl

/-- A word of the store that decodes is the instruction fetched. -/
theorem fetched_of_decodes {s : State} {i : Instr} (ho : outside s.cur.k s.me.pc = false) (hd : decodeScalar (s.me.storeWord s.me.pc.toNat) = some i) :
    s.fetched = .run s i := by
  unfold State.fetched
  dsimp only
  rw [if_neg (by rw [ho]; decide), hd]
  rfl

/-- A core that waits with a command for its engine's queue fetches again (R133), unless the distance fault comes first. -/
theorem scalarNext_of_engineWait {s : State} {eng : Nat} {c : Cmd} (hw : s.me.wait = some (.engine eng c)) (hl : ¬ s.mine.spmax.toNat < s.me.spcount.toNat) :
    s.scalarNext s.cur.p s.cur.k = s.fetched := by
  unfold State.scalarNext
  dsimp only
  rw [atScalar_cur, hw]
  refine if_neg ?_
  rw [Bool.and_eq_true]
  rintro ⟨-, late⟩
  exact hl (of_decide_eq_true late)

/-- A `cpy` that waits with its command has it enter the queue and completes at the next step, once the queue has a place. -/
theorem step_of_waiting_cpy {s : State} {a b : BitVec 5} {c : Cmd} (ht : s.tape = []) (hp : s.cur.p < 576) (hw : s.me.wait = some (.engine 0 c))
    (hl : ¬ s.mine.spmax.toNat < s.me.spcount.toNat) (ho : outside s.cur.k s.me.pc = false) (hd : decodeScalar (s.me.storeWord s.me.pc.toNat) = some (.cpy a b))
    (hroom : (s.mine.engine 0).queue.length + (s.mine.engine 0).runs.length < 8) :
    step s = .next (((s.modMine fun x => x.setEngine 0 { s.mine.engine 0 with queue := (s.mine.engine 0).queue ++ [c] }).modMe
      fun x => { x with wait := none }).modMe Scalar.advance) := by
  have inside : ¬ Config.cores ≤ s.cur.p := Nat.not_le.2 hp
  have hexec : exec (.cpy a b) s = enqueueCmd 0 c s := by
    show execCpy a b s = _
    unfold execCpy issuePlain
    exact issue_again hw ..
  rw [step_of_tape_nil ht, State.scalarStep, if_neg inside, scalarNext_of_engineWait hw hl, fetched_of_decodes ho hd]
  exact hexec.trans ((enqueue_spec 0 c s).2 hroom)

/-- The command of a `cpy` of no bytes by the control core. -/
def emptyCopy : Cmd := ⟨0, .control, 0, 0, List.replicate 8 0, [], []⟩

/-- The control core of position 0 at a `cpy g0, g0` (R19) that waits with its command, while the copy engine's queue is empty. -/
def waitingCopy : State :=
  State.reset.modMe fun x => { x with run := some .launch, store := [(0, 0x88000000)], wait := some (.engine 0 emptyCopy) }

theorem waitingCopy_me : waitingCopy.me =
    { State.reset.me with run := some .launch, store := [(0, 0x88000000)], wait := some (.engine 0 emptyCopy) } := me_modMe ..

theorem waitingCopy_wait : waitingCopy.me.wait = some (.engine 0 emptyCopy) := by rw [waitingCopy_me]

theorem waitingCopy_notLate : ¬ waitingCopy.mine.spmax.toNat < waitingCopy.me.spcount.toNat := by decide

/-- The waiting `cpy` completes: the core no longer waits after the step. -/
theorem step_waitingCopy : ∃ t, step waitingCopy = .next t ∧ t.me.wait = none := by
  refine ⟨_, step_of_waiting_cpy rfl (by decide) waitingCopy_wait waitingCopy_notLate (by decide) (a := 0) (b := 0) (by decide) (by decide), ?_⟩
  rw [me_modMe, advance_wait, me_modMe]

/-- Refutes O56: a core that waits with a command for its engine's queue (R133) is not idle. When the queue has a place, as in `waitingCopy`, the step
executes the instruction again and completes it, where the statement says that a step of a core that waits for anything but its own progress
changes nothing. -/
theorem not_stepRunsDecoded : ¬ Obligations.StepRunsDecoded := by
  unfold Obligations.StepRunsDecoded
  intro h
  obtain ⟨-, -, -, -, waitsIdle, -⟩ := (h waitingCopy).1 rfl
  obtain ⟨t, hstep, ht⟩ := step_waitingCopy
  have idle : step waitingCopy = .next waitingCopy :=
    waitsIdle (by decide) (by rw [waitingCopy_wait]; nofun) (by rw [waitingCopy_wait]; nofun) waitingCopy_notLate
  have same : t = waitingCopy := by
    rw [hstep] at idle
    exact Host.Outcome.next.inj idle
  rw [same, waitingCopy_wait] at ht
  exact Option.some_ne_none _ ht

end Sys2Proof.Proofs
end
